-- ==== Sys2Proof/Word.lean ====
section
/-! DEFINITION. The widths and index types of the LT416 data book (00_scope.md, "Names and line groups" and
"Conventions"), and the type of a number that lies in a stated range and on a stated step. -/

namespace Sys2Proof

abbrev Byte := BitVec 8
/-- A 16-bit item value of the link (R204). -/
abbrev Word := BitVec 16
/-- A reading of the millisecond time counter (R203). -/
abbrev Time := BitVec 32
/-- A light value, 0 to 4095 LU. -/
abbrev LU := BitVec 12

/-- Light channels L0 to L15. -/
abbrev Chan := Fin 16
/-- Zones Z0 to Z7. -/
abbrev Zone := Fin 8
/-- Bus sections S0 to S3. -/
abbrev Sect := Fin 4
/-- Incomers I0 to I3. -/
abbrev Incomer := Fin 4
/-- Couplers C0 to C2. -/
abbrev Coupler := Fin 3
/-- Link ports P0 to P3. -/
abbrev Port := Fin 4
/-- Member slots 0 to 5 of a zone page (R169). -/
abbrev Slot := Fin 6

/-- A set of sections, bit k for S_k (R206). -/
abbrev SectSet := BitVec 4
/-- A set of ports, bit k for P_k (R206). -/
abbrev PortSet := BitVec 4
/-- A set of incomers, bit k for I_k (R206). -/
abbrev IncomerSet := BitVec 4
/-- A set of breakers, bits 0 to 3 for I0 to I3 and bits 4 to 6 for C0 to C2 (R206); a trip set of TI and TC
targets is carried in the same way. -/
abbrev BreakerSet := BitVec 7

/-- A configuration number between `lo` and `hi`, a whole number of steps of `st` above `lo` (R1, R73, R168, R174). -/
structure Ranged (lo hi st : Nat) where
  val : Nat
  ok : lo ≤ val ∧ val ≤ hi ∧ (val - lo) % st = 0
  deriving DecidableEq, Repr

end Sys2Proof
end

