-- ==== Sys2Proof/Config.lean ====
section
/-! DEFINITION. What is fixed or prepared for the machine: the types of a configuration image (R168, R1, R73), and
the values the data book leaves open, as constants without a body. -/

namespace Sys2Proof

/-- Target state of a channel (R1). -/
inductive ChanTarget where
  | off | observe | armed
  deriving DecidableEq, Repr

/-- Baseline mode of a channel (R1). -/
inductive BaselineMode where
  | learned | fixed
  deriving DecidableEq, Repr

/-- Storm action of a channel (R1). -/
inductive StormAction where
  | report | demote
  deriving DecidableEq, Repr

/-- Location of a zone (R73). -/
inductive Location where
  | sect (s : Sect)
  | coupler (k : Coupler)
  deriving DecidableEq, Repr

/-- Vote item of a zone (R73). -/
inductive Vote where
  | any | two
  deriving DecidableEq, Repr

/-- Confirm item of a zone (R73). -/
inductive Confirm where
  | current | lightOnly
  deriving DecidableEq, Repr

/-- Scope of a zone (R73) and of a record (R102). -/
inductive Scope where
  | sectional | island | board
  deriving DecidableEq, Repr

/-- A channel page (R1, R208 page 1). The gain is held in half units, 3 to 16, as the link carries it. -/
structure ChannelPage where
  target : ChanTarget
  mode : BaselineMode
  fixedBaseline : Ranged 0 4000 1
  gain : Ranged 3 16 1
  floor : Ranged 100 4000 1
  dropRatio : Ranged 50 95 5
  dropCount : Ranged 1 16 1
  stormLimit : Ranged 0 250 1
  stormAction : StormAction
  aRef : LU
  deriving DecidableEq, Repr

/-- A zone page (R73, R169, R208 page 2). The filter time is held in half milliseconds, 0 to 16. -/
structure ZonePage where
  enabled : Bool
  location : Location
  slots : Vector Byte 6
  vote : Vote
  confirm : Confirm
  scope : Scope
  tzf : Ranged 0 16 1
  tcw : Ranged 5 100 1
  deriving DecidableEq, Repr

/-- The board page (R168, R208 page 0). Times are in ms, `tLearn` and `tDrill` in s, levels in percent. -/
structure BoardPage where
  incomer : Vector Bool 4
  coupler : Vector Bool 3
  tMin : Ranged 10 100 1
  tBf : Ranged 40 500 1
  tCoil : Ranged 100 2000 1
  tUp : Ranged 50 1000 1
  slotPeriod : Ranged 5 1000 1
  soiledW : Ranged 20 90 1
  blindB : Ranged 5 60 1
  hystH : Ranged 2 20 1
  ka : Ranged 1 8 1
  kc : Ranged 1 8 1
  tLearn : Ranged 2 120 1
  tHb : Ranged 20 1000 1
  tDrill : Ranged 10 300 1
  deriving DecidableEq, Repr

/-- A configuration image: one board page, sixteen channel pages, eight zone pages (R168). -/
structure Image where
  board : BoardPage
  chans : Vector ChannelPage 16
  zones : Vector ZonePage 8
  deriving DecidableEq, Repr

/-- An image copy of the NV array (R180): an image, a save number and whether its check matches (log 17). -/
structure NvCopy where
  image : Image
  saveNumber : Byte
  valid : Bool
  deriving DecidableEq, Repr

/-- The lockout word of the NV array (R141): a set byte and a check byte. -/
structure LockWord where
  set : Byte
  check : Byte
  deriving DecidableEq, Repr

/-- FREE VALUE (log 12): which of several zones deciding in one event is taken first (R91: "either of two may be
taken first"). A lower rank is taken earlier. -/
opaque Config.zoneRank : Nat → Zone → Nat

/-- FREE VALUE (log 13): how many of the decisions of one event reach the TRM before the evidence of an incomer that the
same event brings (R130: "in either order"). -/
opaque Config.decisionsBeforeEvidence : Nat → Nat

/-- FREE VALUE (log 14): which of two effects of one event is taken first where a rule allows either order (R164 with
R196). -/
opaque Config.firstOfTwo : Nat → Bool

/-- FREE VALUE (log 15): whether a remaining time read in a coarser unit than milliseconds is rounded up (R208
pages 4 and 7 do not say). -/
opaque Config.remainingRoundsUp : Bool

end Sys2Proof
end

