-- ==== Sys2Proof/Syntax.lean ====
section
/-! DEFINITION. The commands of the part: one constructor per row of spec/opcode_table.json, with the operands the
rules give the event (log 20; the table lists no fields). -/

namespace Sys2Proof

/-- A trip line, the target of an entry (R103). -/
inductive Target where
  | ti (k : Incomer)
  | tc (j : Coupler)
  | ut (k : Incomer)
  deriving DecidableEq, Repr

/-- What the read-back at the end of an NV write found (R143, R182): what was written, or something else (log 16). -/
inductive ReadBack (α : Type) where
  | asWritten
  | other (found : α)
  deriving DecidableEq, Repr

/-- Page, index and value of a request frame (R204). -/
structure Fields where
  page : BitVec 4
  index : Byte
  value : Word
  deriving DecidableEq, Repr

/-- An edge of SCK during a frame (R185): a rising edge, with the level of SDI found at it, or a falling edge. -/
inductive Edge where
  | rise (sdi : Bool)
  | fall
  deriving DecidableEq, Repr

/-- What SCK and SDI bring from the fall of select on (R184, R185): the level of SCK found there, and the edges that
follow. -/
structure ClockLine where
  high : Bool
  edges : List Edge
  deriving DecidableEq, Repr

inductive Instr where
  /-- RESET (R183): assertion of RSTN, or power-on. -/
  | reset
  /-- MILLISECOND_TICK (R203). -/
  | millisecondTick
  /-- LIGHT_SAMPLE (R3): a sample of `v` LU arrives at channel `n`. -/
  | lightSample (n : Chan) (v : LU)
  /-- LEARNING_WINDOW_EXPIRY (R13) of channel `n`. -/
  | learningWindowExpiry (n : Chan)
  /-- STORM_WINDOW_EXPIRY (R20) of channel `n`. -/
  | stormWindowExpiry (n : Chan)
  /-- SLOT_TIMER_EXPIRY (R29). -/
  | slotTimerExpiry
  /-- TEST_WINDOW_EXPIRY (R38). -/
  | testWindowExpiry
  /-- CP_LINE_CHANGE (R84, R112): line CP_k becomes active or inactive. -/
  | cpLineChange (k : Incomer) (active : Bool)
  /-- FILTER_EXPIRY (R83, R160): the ENTRY filter of zone `z` expires. -/
  | filterExpiry (z : Zone)
  /-- CONFIRM_WINDOW_EXPIRY (R87, R162) of zone `z`. -/
  | confirmWindowExpiry (z : Zone)
  /-- RESTRIKE_FILTER_EXPIRY (R93) of zone `z`. -/
  | restrikeFilterExpiry (z : Zone)
  /-- CLOSE_NOTICE (R94): the TRM's notice arrives at zone `z`. -/
  | closeNotice (z : Zone)
  /-- MIN_PULSE_EXPIRY (R115) of the entry on `t` of the record with number `seq`. -/
  | minPulseExpiry (seq : Byte) (t : Target)
  /-- BREAKER_FAIL_EXPIRY (R117). -/
  | breakerFailExpiry (seq : Byte) (t : Target)
  /-- COIL_EXPIRY (R121). -/
  | coilExpiry (seq : Byte) (t : Target)
  /-- PULSE_EXPIRY (R120) of the entry on UT_k. -/
  | pulseExpiry (seq : Byte) (k : Incomer)
  /-- LOCKOUT_WORD_WRITE_END (R143). -/
  | lockoutWordWriteEnd (rb : ReadBack LockWord)
  /-- SAVE_WRITE_END (R182). -/
  | saveWriteEnd (rb : ReadBack NvCopy)
  /-- SELECT_TIMEOUT (R186): the select timer of port `p` expires. -/
  | selectTimeout (p : Port)
  /-- FRAME_REJECTED (R187): the rise of select ends a frame of `edges` rising clock edges that brought `bits`, SCK at
  `sckHigh`, that the checks reject. A frame of fewer than forty edges brings the low bits of `bits`. -/
  | frameRejected (p : Port) (edges : Byte) (sckHigh : Bool) (bits : BitVec 40)
  /-- UNKNOWN_FUNCTION (R192): an accepted frame with function code `code`, Eh or Fh. -/
  | unknownFunction (p : Port) (code : BitVec 4) (f : Fields)
  /-- FETCH (R190). -/
  | fetch (p : Port) (f : Fields)
  /-- READ (R205, R154). -/
  | read (p : Port) (f : Fields)
  /-- READ_STAGED (R168, R205). -/
  | readStaged (p : Port) (f : Fields)
  /-- WRITE (R174). -/
  | write (p : Port) (f : Fields)
  /-- REPORT (R194). -/
  | report (p : Port) (f : Fields)
  /-- CLAIM (R171). -/
  | claim (p : Port) (f : Fields)
  /-- YIELD (R172). -/
  | yield (p : Port) (f : Fields)
  /-- COMMIT (R176). -/
  | commit (p : Port) (f : Fields)
  /-- RELEASE (R136, R137). -/
  | release (p : Port) (f : Fields)
  /-- RECORD (R152). -/
  | record (p : Port) (f : Fields)
  /-- SEEN (R148). -/
  | seen (p : Port) (f : Fields)
  /-- CLEAR_ALERTS (R200). -/
  | clearAlerts (p : Port) (f : Fields)
  /-- SET_MASK (R201). -/
  | setMask (p : Port) (f : Fields)
  /-- RELEARN (R15): CONTROL with index 1; the operand is the value. -/
  | relearn (p : Port) (page : BitVec 4) (operand : Word)
  /-- TEST (R30): CONTROL with index 2. -/
  | test (p : Port) (page : BitVec 4) (operand : Word)
  /-- CAPTURE (R31): CONTROL with index 3. -/
  | capture (p : Port) (page : BitVec 4) (operand : Word)
  /-- DRILL_START (R157): CONTROL with index 4. -/
  | drillStart (p : Port) (page : BitVec 4) (operand : Word)
  /-- DRILL_END (R165): CONTROL with index 5. -/
  | drillEnd (p : Port) (page : BitVec 4) (operand : Word)
  /-- SAVE (R182): CONTROL with index 6. -/
  | save (p : Port) (page : BitVec 4) (operand : Word)
  /-- CLEAR_COUNTERS (R202): CONTROL with index 7. -/
  | clearCounters (p : Port) (page : BitVec 4) (operand : Word)
  /-- DEFAULT_STAGED (R175): CONTROL with index 8. -/
  | defaultStaged (p : Port) (page : BitVec 4) (operand : Word)
  /-- DRILL_WINDOW_EXPIRY (R164). -/
  | drillWindowExpiry
  /-- HEARTBEAT_EXPIRY (R195, R196) of port `p`. -/
  | heartbeatExpiry (p : Port)
  /-- SILENT_TIMER_EXPIRY (R195) of port `p`. -/
  | silentTimerExpiry (p : Port)
  /-- TRANSFER (R179). -/
  | transfer
  /-- SELECT_FALL (R184, R185): select of port `p` falls, with this level of SCK, and these clock edges follow. -/
  | selectFall (p : Port) (sck : ClockLine)
  /-- TIMED_OUT_SELECT_RISE (R186) at port `p`. -/
  | timedOutSelectRise (p : Port)
  /-- SELECT_PULSE_IGNORED (R187 line 1) at port `p`. -/
  | selectPulseIgnored (p : Port)
  /-- CONTROL_BAD_SUBFUNCTION (R193): CONTROL whose index names no subfunction. -/
  | controlBadSubfunction (p : Port) (f : Fields)
  deriving DecidableEq, Repr

end Sys2Proof
end

