-- ==== Sys2Proof/WellFormed.lean ====
section
/-! DEFINITION. Which commands name an event that the part can meet at all: the facts about operands that their types
do not already say. -/

namespace Sys2Proof

/-- A target with minimum pulse, breaker-fail and coil timers: a TI or TC line (R108). -/
def Target.isBreaker : Target → Bool
  | .ti _ => true
  | .tc _ => true
  | .ut _ => false

/-- The checks: UNKNOWN_FUNCTION carries a code that names no function (R204); CONTROL_BAD_SUBFUNCTION carries an
index outside 1 to 8 (R204); the three breaker timers belong to TI and TC entries (R108). Every other command is well formed whatever its operands. -/
def Instr.wellFormed : Instr → Bool
  | .unknownFunction _ code _ => decide (14 ≤ code.toNat)
  | .controlBadSubfunction _ f => decide (f.index.toNat = 0 ∨ 8 < f.index.toNat)
  | .minPulseExpiry _ t => t.isBreaker
  | .breakerFailExpiry _ t => t.isBreaker
  | .coilExpiry _ t => t.isBreaker
  | .reset | .millisecondTick | .lightSample _ _ | .learningWindowExpiry _ | .stormWindowExpiry _ | .slotTimerExpiry
  | .testWindowExpiry | .cpLineChange _ _ | .filterExpiry _ | .confirmWindowExpiry _ | .restrikeFilterExpiry _
  | .closeNotice _ | .pulseExpiry _ _ | .lockoutWordWriteEnd _ | .saveWriteEnd _ | .selectTimeout _ | .frameRejected _ _ _ _ | .fetch _ _
  | .read _ _ | .readStaged _ _ | .write _ _ | .report _ _ | .claim _ _ | .yield _ _ | .commit _ _ | .release _ _
  | .record _ _ | .seen _ _ | .clearAlerts _ _ | .setMask _ _ | .relearn _ _ _ | .test _ _ _ | .capture _ _ _
  | .drillStart _ _ _ | .drillEnd _ _ _ | .save _ _ _ | .clearCounters _ _ _ | .defaultStaged _ _ _
  | .drillWindowExpiry | .heartbeatExpiry _ | .silentTimerExpiry _ | .transfer | .selectFall _ _
  | .timedOutSelectRise _ | .selectPulseIgnored _ => true

end Sys2Proof
end

