-- ==== Sys2Proof/Decode.lean ====
section
/-! DEFINITION. The command that a word of the opcode table's bits spells. No row of spec/opcode_table.json gives bits
(98_reader.md: 0 rows with fixed bits, 0 rows with fields), so no word spells a command (log 21). -/

namespace Sys2Proof

/-- The command spelled by an `nbits`-bit word `w` of the table: none, since no row gives bits (log 21). -/
def decodeTableWord (_nbits _w : Nat) : Option Instr := none

end Sys2Proof
end

