-- ==== Sys2Proof/Machine/State.lean ====
section
/-! DEFINITION. The state of the part, grouped by the block that holds it (00_scope.md, "Block overview"), and the
state right after reset. Outputs that the rules compute from other state (trip, close-inhibit, alert, emitter and SDO
lines, the voting count, the island count) are not stored; Machine/Flags.lean and Machine/TopologyOps.lean compute
them. -/

namespace Sys2Proof.Machine

/-- A timer: stopped, or running with its remaining time in its own unit (logs 1, 2). -/
inductive Timer where
  | stopped
  | running (left : Nat)
  deriving DecidableEq, Repr

/-! ### Light Channel Unit (R2) -/

/-- Channel states (R8). -/
inductive ChanState where
  | off | observe | learn | armed | held
  deriving DecidableEq, Repr

/-- The flash in progress (R2, R5, R6); `runStart` is absent while the drop run is 0. -/
structure Flash where
  start : Time
  index : Word
  runStart : Option Word
  deriving DecidableEq, Repr

/-- The last flash counted (R2, R18); the duration is in units of 50 µs. -/
structure LastFlash where
  start : Time
  duration : Word
  deriving DecidableEq, Repr

/-- The live part of a channel record (R2), with the storm window of R20. -/
structure Channel where
  state : ChanState
  baseline : LU
  valid : Bool
  pickupLevel : LU
  dropLevel : LU
  pickup : Bool
  dropRun : Nat
  flash : Option Flash
  lastFlash : Option LastFlash
  mask : Bool
  held : Bool
  demoted : Bool
  window : Timer
  candidate : LU
  restarts : Byte
  stormCount : Byte
  stormWindow : Timer
  quiet : Nat
  disturbance : Bool
  flashEnded : Bool
  hist : Vector Word 6
  deriving DecidableEq, Repr

/-! ### Fibre Supervision Unit (R27, R28) -/

/-- Clarity states (R27). -/
inductive Clarity where
  | untested | unsupervised | clean | soiled | blind | broken
  deriving DecidableEq, Repr

/-- Outcomes of a test or request (R27). -/
inductive TestOutcome where
  | none | overlaid | dark | lowBlind | lowSoiled | good | aborted | skipped
  deriving DecidableEq, Repr

/-- Capture states (R27). -/
inductive CaptureState where
  | none | queued | testing | done | failed
  deriving DecidableEq, Repr

/-- A clarity record (R27). -/
structure ClarityRec where
  clarity : Clarity
  testing : Bool
  lastC : Byte
  lastOutcome : TestOutcome
  darkRun : Byte
  goodRun : Byte
  deferCount : Word
  capture : CaptureState
  captured : Option LU
  deriving DecidableEq, Repr

/-- Kinds of a queued request (R28). -/
inductive ReqKind where
  | test | capture
  deriving DecidableEq, Repr

/-- A queued request (R28). -/
structure Request where
  chan : Chan
  kind : ReqKind
  deriving DecidableEq, Repr

/-- Kinds of a test in flight (R28). -/
inductive TestKind where
  | roundRobin | test | capture
  deriving DecidableEq, Repr

/-- The test in flight (R28, R36); the window timer counts the samples still to come. -/
structure TestRun where
  chan : Chan
  kind : TestKind
  amplitude : LU
  samplesLeft : Nat
  deriving DecidableEq, Repr

structure Fsu where
  clarity : Vector ClarityRec 16
  slotTimer : Timer
  queue : List Request
  test : Option TestRun
  pointer : Chan
  deriving DecidableEq, Repr

/-! ### Topology Unit (R52, R56, R59) -/

/-- Reported positions (R52). -/
inductive Position where
  | none | opened | closed | transit
  deriving DecidableEq, Repr

/-- A report record (R52). -/
structure ReportRec where
  incomer : Position
  left : Position
  right : Position
  deriving DecidableEq, Repr

/-- Resolved states of a coupler (R56). -/
inductive Resolved where
  | absent | transit | unknown | opened | closed | disputed
  deriving DecidableEq, Repr

/-- A coupler record (R56). -/
structure CouplerRec where
  resolved : Resolved
  entryTime : Time
  deriving DecidableEq, Repr

structure Top where
  reports : Vector ReportRec 4
  couplers : Vector CouplerRec 3
  islandName : Vector Sect 4
  deriving DecidableEq, Repr

/-! ### Zone Evaluator (R74, R156) -/

/-- Zone states (R74). -/
inductive ZoneState where
  | disabled | blocked | quiet | lit | waiting | suppressed | tripped
  deriving DecidableEq, Repr

/-- The last status handed for one member (R76). -/
structure MemberStatus where
  pickup : Bool
  votes : Bool
  deriving DecidableEq, Repr

/-- Kinds of a filter (R74). -/
inductive FilterKind where
  | entry | restrike
  deriving DecidableEq, Repr

/-- The filter timer (R74): stopped, or its kind and remaining time in half milliseconds. -/
inductive Filter where
  | stopped
  | running (kind : FilterKind) (left : Nat)
  deriving DecidableEq, Repr

/-- Re-strike phases (R74, R92). -/
inductive Phase where
  | holding | ready | filtering
  deriving DecidableEq, Repr

/-- The live part of a zone record (R74). -/
structure ZoneRec where
  state : ZoneState
  entryTime : Time
  view : Vector MemberStatus 6
  lit : Bool
  degraded : Bool
  trigger : Option Chan
  filter : Filter
  confirm : Timer
  phase : Option Phase
  drill : Bool
  nuisance : Word
  deriving DecidableEq, Repr

/-- Why a drill ended (R156). -/
inductive EndReason where
  | none | ownerEnd | expiry | ownerLost | transfer | decision
  deriving DecidableEq, Repr

/-- The drill register (R156). -/
structure DrillReg where
  active : Bool
  zone : Option Zone
  owner : Option Port
  startTime : Time
  window : Timer
  shown : Byte
  lastZone : Option Zone
  lastOwner : Option Port
  lastReason : EndReason
  lastShown : Byte
  deriving DecidableEq, Repr

/-- The zone records, the drill register, and the close notices on their way to zones (R139, log 26). -/
structure Zev where
  zones : Vector ZoneRec 8
  drill : DrillReg
  notices : List Zone
  deriving DecidableEq, Repr

/-! ### Trip Record Manager (R101 to R105, R142) -/

inductive RecKind where
  | arc | drill | restored
  deriving DecidableEq, Repr

inductive Stage where
  | firing | locked | closed
  deriving DecidableEq, Repr

/-- Why an entry was added (R103). -/
inductive Reason where
  | initial | escalation | restrike
  deriving DecidableEq, Repr

/-- Entry states (R104). -/
inductive EntryState where
  | commanded | failing | confirmed | gaveUp | pulsing | sent | shown
  deriving DecidableEq, Repr

/-- An entry of a record (R103). -/
structure Entry where
  target : Target
  reason : Reason
  state : EntryState
  commandTime : Time
  evidence : Option Time
  late : Bool
  minPulse : Timer
  breakerFail : Timer
  coil : Timer
  pulse : Timer
  deriving DecidableEq, Repr

/-- A trip record (R102). -/
structure TripRec where
  seq : Byte
  kind : RecKind
  stage : Stage
  origin : Option Zone
  trigger : Option Chan
  peak : Option LU
  scope : Option Scope
  region : SectSet
  snapshot : SectSet
  restrikes : Byte
  opened : Time
  closedAt : Option Time
  fallback : Bool
  escalated : Bool
  late : Bool
  degraded : Bool
  entries : List Entry
  lockout : BreakerSet
  released : BreakerSet
  seenBy : PortSet
  deriving DecidableEq, Repr

/-- Word status (R142). -/
inductive WordStatus where
  | idle | waiting | writing
  deriving DecidableEq, Repr

/-- Result of the last lockout word write to end (R142). -/
inductive WordResult where
  | none | ok | failed
  deriving DecidableEq, Repr

/-- The TRM's state for the lockout word (R142). -/
structure LockState where
  status : WordStatus
  writing : Option BreakerSet
  waiting : Option BreakerSet
  lastWritten : BreakerSet
  lastResult : WordResult
  retry : Bool
  deriving DecidableEq, Repr

structure Trm where
  records : List TripRec
  seqCounter : Byte
  lock : LockState
  deriving DecidableEq, Repr

/-! ### Configuration Store (R170, R178, R180 to R182) -/

/-- Why a COMMIT failed its validation (R176). -/
inductive CommitFault where
  | badMember | dupMember | sharedChannel | emptyZone | badLocation | timing | clarity | noIncomer
  deriving DecidableEq, Repr

/-- Last commit result (R170); `zone` is absent where the failure is the board's. -/
inductive CommitResult where
  | none
  | accepted
  | invalid (reason : CommitFault) (zone : Option Zone)
  deriving DecidableEq, Repr

inductive SaveStatus where
  | idle | writing | done | failed
  deriving DecidableEq, Repr

/-- State of the NV write engine (R181). -/
inductive Engine where
  | idle | saving | word
  deriving DecidableEq, Repr

/-- The two image copies of the NV array (R180). -/
inductive CopyId where
  | a | b
  deriving DecidableEq, Repr

/-- A save write in progress (R182): the copy it goes to, what it writes, and whether no transfer has been made since
it began. -/
structure SaveJob where
  copy : CopyId
  number : Byte
  image : Image
  noTransfer : Bool
  deriving DecidableEq, Repr

/-- The last image saved (R180). -/
structure SavedId where
  copy : CopyId
  number : Byte
  deriving DecidableEq, Repr

structure Cfg where
  active : Image
  staged : Image
  claim : Option Port
  pendingCommit : Bool
  lastCommit : CommitResult
  transferCount : Word
  originDefault : Bool
  imageLost : Bool
  lockwordLost : Bool
  saveStatus : SaveStatus
  unsaved : Bool
  /-- The CFG's views of R178: true where that side of the board is quiet. -/
  zonesQuiet : Bool
  recordsQuiet : Bool
  testQuiet : Bool
  /-- A notice has left the three views quiet with a commit pending; the TRANSFER event is on its way (log 5). -/
  transferDue : Bool
  engine : Engine
  saveWaiting : Bool
  job : Option SaveJob
  lastSaved : Option SavedId
  deriving DecidableEq, Repr

/-- The NV array (R141, R180). -/
structure Nv where
  copyA : NvCopy
  copyB : NvCopy
  word : LockWord
  deriving DecidableEq, Repr

/-! ### Link Ports (R184, R189, R190, R195) and Alert Block (R198) -/

inductive PortState where
  | unused | silent | live | stale
  deriving DecidableEq, Repr

inductive FrameState where
  | idle | shifting | timedOut
  deriving DecidableEq, Repr

/-- Reply codes (R204). -/
inductive ReplyCode where
  | accepted | restarted | frameRejected | unknownFunction | notLive | notUsed | badIndex | badValue | absent
  | noClaim | pending | invalid | busy | refusedState | notLearned | notPermitted | notHeld | releasedAll
  | releasedSome | refusedFiring | refusedLit | noRecord | heldBy
  deriving DecidableEq, Repr

/-- A reply code with its value (R190). -/
structure Reply where
  code : ReplyCode
  value : Word
  deriving DecidableEq, Repr

/-- The time item whose low half was read: its page, the index of its low half and, on the record window, the record
it came from (R154). -/
structure TimeKey where
  page : Nat
  index : Nat
  record : Option Byte
  deriving DecidableEq, Repr

/-- The half latch of a port when loaded (R154); `high` is absent where the item's field was absent. -/
structure HalfLatch where
  key : TimeKey
  high : Option Word
  deriving DecidableEq, Repr

/-- One link port. The record window selection (R152) is held as the seq of the selected record; it is taken away when
that record leaves the list, so it never reaches a later record of the same seq. -/
structure PortRec where
  state : PortState
  silentTimer : Timer
  heartbeat : Timer
  frame : FrameState
  request : BitVec 40
  reply : BitVec 40
  edges : Byte
  sckAtFall : Bool
  /-- Level of SCK since the fall of select, as its edges leave it (R185). -/
  sck : Bool
  selectTimer : Timer
  slot : Reply
  frameErr : Bool
  rejects : Byte
  selection : Option Byte
  latch : Option HalfLatch
  deriving DecidableEq, Repr

/-- Alert set, mask and enable of a port (R198). Bit i of the set is alert i of R208; bit i of the mask is alert
i + 1, since RESTARTED (alert 0) has no mask bit. -/
structure AlertRec where
  bits : BitVec 16
  mask : BitVec 15
  enable : Bool
  deriving DecidableEq, Repr

structure Alr where
  time : Time
  ports : Vector AlertRec 4
  deriving DecidableEq, Repr

/-! ### The whole part -/

structure State where
  /-- Alert Block: the time counter and the ports' alerts. -/
  alr : Alr
  /-- Levels of the input lines CP0 to CP3 (R64, log 9). -/
  cp : Vector Bool 4
  /-- Light Channel Unit. -/
  lcu : Vector Channel 16
  /-- Fibre Supervision Unit. -/
  fsu : Fsu
  /-- Topology Unit. -/
  top : Top
  /-- Zone Evaluator. -/
  zev : Zev
  /-- Trip Record Manager; the Output Stage follows from it. -/
  trm : Trm
  /-- Configuration Store. -/
  cfg : Cfg
  /-- The NV array. -/
  nv : Nv
  /-- Link Ports. -/
  lnk : Vector PortRec 4
  /-- The MODEL's own field: how many free values have been drawn (log 12). -/
  freeTick : Nat
  /-- The commands that wait, first in, first out (log 7). -/
  pending : List Instr
  deriving DecidableEq, Repr

/-- No command of the part faults: the data book describes no stop of the machine (INVENTORY.md, Faults). -/
inductive Fault
  deriving DecidableEq, Repr

/-- Why a step has no meaning. -/
inductive Refusal where
  /-- Raised by an arm of `exec` whose command has no meaning yet; safe, since the machine stops there. -/
  | notModelled (mnemonic : String)
  deriving DecidableEq, Repr

/-! ### Right after reset -/

/-- The channel page defaults (R1). -/
def ChannelPage.default : ChannelPage where
  target := .observe
  mode := .learned
  fixedBaseline := ⟨0, by decide⟩
  gain := ⟨6, by decide⟩
  floor := ⟨400, by decide⟩
  dropRatio := ⟨80, by decide⟩
  dropCount := ⟨4, by decide⟩
  stormLimit := ⟨0, by decide⟩
  stormAction := .report
  aRef := 0

/-- The zone page defaults (R73), with every slot empty (R169). -/
def ZonePage.default : ZonePage where
  enabled := false
  location := .sect 0
  slots := Vector.replicate 6 255
  vote := .any
  confirm := .current
  scope := .sectional
  tzf := ⟨2, by decide⟩
  tcw := ⟨20, by decide⟩

/-- The board page defaults (R168). -/
def BoardPage.default : BoardPage where
  incomer := Vector.replicate 4 true
  coupler := Vector.replicate 3 true
  tMin := ⟨30, by decide⟩
  tBf := ⟨150, by decide⟩
  tCoil := ⟨1000, by decide⟩
  tUp := ⟨200, by decide⟩
  slotPeriod := ⟨50, by decide⟩
  soiledW := ⟨60, by decide⟩
  blindB := ⟨30, by decide⟩
  hystH := ⟨10, by decide⟩
  ka := ⟨3, by decide⟩
  kc := ⟨3, by decide⟩
  tLearn := ⟨10, by decide⟩
  tHb := ⟨100, by decide⟩
  tDrill := ⟨60, by decide⟩

/-- The default image (R183). -/
def Image.default : Image where
  board := BoardPage.default
  chans := Vector.replicate 16 ChannelPage.default
  zones := Vector.replicate 8 ZonePage.default

/-- The NV array of a part whose NV has never been written (log 8): no copy has a valid check, and the lockout word
reads as erased bytes, which is not a valid word (R141, R146). -/
def Nv.neverWritten : Nv where
  copyA := ⟨Image.default, 0, false⟩
  copyB := ⟨Image.default, 0, false⟩
  word := ⟨0xFF, 0xFF⟩

/-- A channel after reset under the default image (R26). -/
def Channel.afterReset : Channel where
  state := .learn
  baseline := 0
  valid := false
  pickupLevel := 400
  dropLevel := 320
  pickup := false
  dropRun := 0
  flash := none
  lastFlash := none
  mask := false
  held := false
  demoted := false
  window := .running 10000
  candidate := 0
  restarts := 0
  stormCount := 0
  stormWindow := .running 1000
  quiet := 0
  disturbance := false
  flashEnded := false
  hist := Vector.replicate 6 0

/-- A clarity record after reset under the default image (R50). -/
def ClarityRec.afterReset : ClarityRec where
  clarity := .unsupervised
  testing := false
  lastC := 0
  lastOutcome := .none
  darkRun := 0
  goodRun := 0
  deferCount := 0
  capture := .none
  captured := none

/-- A zone record after reset under the default image (R100). -/
def ZoneRec.afterReset : ZoneRec where
  state := .disabled
  entryTime := 0
  view := Vector.replicate 6 ⟨false, false⟩
  lit := false
  degraded := false
  trigger := none
  filter := .stopped
  confirm := .stopped
  phase := none
  drill := false
  nuisance := 0

/-- The drill register after reset (R156). -/
def DrillReg.afterReset : DrillReg where
  active := false
  zone := none
  owner := none
  startTime := 0
  window := .stopped
  shown := 0
  lastZone := none
  lastOwner := none
  lastReason := .none
  lastShown := 0

/-- A used port after reset (R184, R189, R190, R152, R195); the shift registers, the edge count and the clock
levels hold the values of log 10. -/
def PortRec.afterReset : PortRec where
  state := .silent
  silentTimer := .running 2000
  heartbeat := .stopped
  frame := .idle
  request := 0
  reply := 0
  edges := 0
  sckAtFall := false
  sck := false
  selectTimer := .stopped
  slot := ⟨.restarted, 0⟩
  frameErr := false
  rejects := 0
  selection := none
  latch := none

/-- The part right after reset with an NV array that has never been written (R183, log 8): the default image is in
force, RESTARTED and CONFIG_DEFAULT stand in every alert set, and the write of the empty lockout word that R146 asks
for has begun. Machine/Reset.lean's `powerOn` computes the same state (Tests: `test_reset_state`). -/
def State.reset : State where
  alr := ⟨0, Vector.replicate 4 ⟨0x2001, 0, true⟩⟩
  cp := Vector.replicate 4 false
  lcu := Vector.replicate 16 Channel.afterReset
  fsu :=
    { clarity := Vector.replicate 16 ClarityRec.afterReset
      slotTimer := .running 50
      queue := []
      test := none
      pointer := 0 }
  top :=
    { reports := Vector.replicate 4 ⟨.none, .none, .none⟩
      couplers := Vector.replicate 3 ⟨.unknown, 0⟩
      islandName := Vector.replicate 4 0 }
  zev := ⟨Vector.replicate 8 ZoneRec.afterReset, DrillReg.afterReset, []⟩
  trm :=
    { records := []
      seqCounter := 0
      lock := ⟨.writing, some 0, none, 0, .none, false⟩ }
  cfg :=
    { active := Image.default
      staged := Image.default
      claim := none
      pendingCommit := false
      lastCommit := .none
      transferCount := 0
      originDefault := true
      imageLost := true
      lockwordLost := true
      saveStatus := .idle
      unsaved := true
      zonesQuiet := true
      recordsQuiet := true
      testQuiet := true
      transferDue := false
      engine := .word
      saveWaiting := false
      job := none
      lastSaved := none }
  nv := Nv.neverWritten
  lnk := Vector.replicate 4 PortRec.afterReset
  freeTick := 0
  pending := []

end Sys2Proof.Machine
end

