-- ==== Sys2Proof/Machine/Flags.lean ====
section
/-! DEFINITION. Flags, alert bits and lines: what follows from the state at once. Alert sets (R198, R199), used ports
(R51), trip and close-inhibit lines (R131, R132), emitters (R36), alert lines (R198), SDO (R184, R185), the summary byte
(R191), the votes of channels (R9) and of zones (R77), and the board-quiet views (R178). -/

namespace Sys2Proof.Machine

/-! ### Sets as bits (R206) -/

/-- The set of those `i` for which `f i`, bit i for member i (R206). -/
def setOf {n : Nat} (f : Fin n → Bool) : BitVec n := BitVec.ofFnLE f

/-- Membership in a set carried one bit per member (R206). -/
def mem {n : Nat} (s : BitVec n) (i : Fin n) : Bool := s[i]

/-- The set with the one member `i`. -/
def single {n : Nat} (i : Fin n) : BitVec n := setOf (fun j => decide (j = i))

/-- The breaker set `{I_k}` (R206). -/
def breakerOfIncomer (k : Incomer) : Fin 7 := ⟨k.val, by omega⟩

/-- The breaker number of C_j (R206). -/
def breakerOfCoupler (j : Coupler) : Fin 7 := ⟨j.val + 4, by omega⟩

end Sys2Proof.Machine

namespace Sys2Proof

open Sys2Proof.Machine in
/-- The breaker that an entry on this target stands for; a UT line stands for none (section 5.2). -/
def Target.breaker? : Target → Option (Fin 7)
  | .ti k => some (breakerOfIncomer k)
  | .tc j => some (breakerOfCoupler j)
  | .ut _ => none

end Sys2Proof

namespace Sys2Proof.Machine

/-- The trip line of a breaker (00, "Names and line groups"). -/
def tripLineOf (b : Fin 7) : Target :=
  if h : b.val < 4 then .ti ⟨b.val, h⟩ else .tc ⟨b.val - 4, by omega⟩

/-! ### Used ports and alerts (R51, R168, R198, R199) -/

/-- Port P_k is used while I_k is present in the active image (R51). -/
def State.used (s : State) (p : Port) : Bool := s.cfg.active.board.incomer[p]

/-- The alerts in the order of their bits (R208). -/
inductive Alert where
  | restarted | arcOpened | recordClosed | recordMissed | breakerFail | sensorSoiled | sensorLost | storm
  | nuisance | zoneBlocked | topology | peerStale | configApplied | configDefault | learnFault | drill
  deriving DecidableEq, Repr

/-- The bit of an alert (R208, table after page 9). -/
def Alert.bit : Alert → Fin 16
  | .restarted => 0
  | .arcOpened => 1
  | .recordClosed => 2
  | .recordMissed => 3
  | .breakerFail => 4
  | .sensorSoiled => 5
  | .sensorLost => 6
  | .storm => 7
  | .nuisance => 8
  | .zoneBlocked => 9
  | .topology => 10
  | .peerStale => 11
  | .configApplied => 12
  | .configDefault => 13
  | .learnFault => 14
  | .drill => 15

/-- Raise an alert on the ports that `on` picks: its bit is set in their sets (R199). -/
def State.raiseOn (s : State) (a : Alert) (on : Port → Bool) : State :=
  { s with
    alr.ports := Vector.ofFn fun p =>
      let r := s.alr.ports[p]
      if on p then { r with bits := r.bits ||| single a.bit } else r }

/-- Raise an alert on every used port (R199). -/
def State.raise (s : State) (a : Alert) : State := s.raiseOn a s.used

/-- Raise an alert on every used port other than `p` (R195, R196). -/
def State.raiseOthers (s : State) (a : Alert) (p : Port) : State :=
  s.raiseOn a (fun q => s.used q && decide (q ≠ p))

/-- Some alert of the set is not masked (R198): RESTARTED has no mask bit, the others are bits 1 to 15. -/
def AlertRec.unmasked (r : AlertRec) : Bool := (r.bits &&& ~~~(r.mask ++ 0#1)) != 0

/-- The level of AL_n (R198). -/
def State.alertLine (s : State) (p : Port) : Bool := s.alr.ports[p].enable && s.alr.ports[p].unmasked

/-! ### Output lines (R131, R132, R36) -/

/-- An entry in this state drives its line (R104, R131). -/
def EntryState.drives : EntryState → Bool
  | .commanded | .failing | .pulsing => true
  | .confirmed | .gaveUp | .sent | .shown => false

/-- The trip line of a target is on (R131). -/
def State.tripLine (s : State) (t : Target) : Bool :=
  s.trm.records.any fun r => r.entries.any fun e => decide (e.target = t) && e.state.drives

/-- A record is open in FIRING and LOCKED (R102, chapter 5). -/
def TripRec.isOpen (r : TripRec) : Bool := decide (r.stage ≠ .closed)

/-- The breakers a record holds: those of its lockout set not in its released set (R135). -/
def TripRec.holding (r : TripRec) : BreakerSet := r.lockout &&& ~~~r.released

/-- The close-inhibit lines that are on, as a set of breakers (R132). -/
def State.closeInhibit (s : State) : BreakerSet :=
  s.trm.records.foldr (fun r acc => if r.isOpen then r.holding ||| acc else acc) 0

/-- EM_n is lit while a test of L_n is in flight (R36, R38, R39). -/
def State.emitter (s : State) (n : Chan) : Bool :=
  match s.fsu.test with
  | some t => decide (t.chan = n)
  | none => false

/-- The level SDO_n is driven with, or absent while it is high-impedance (R184, R185): in SHIFTING the bit that stands
at the head of the reply register. -/
def State.sdo (s : State) (p : Port) : Option Bool :=
  match s.lnk[p].frame with
  | .shifting => some (s.lnk[p].reply.getLsbD 39)
  | .idle | .timedOut => none

/-! ### Votes (R9, R77) -/

/-- The voting status of a channel (R9). -/
def channelVotes (c : Channel) (target : ChanTarget) : Bool :=
  match c.state with
  | .off | .observe | .held => false
  | .learn => decide (target = .armed) && !c.demoted
  | .armed => true

/-- Pickup and voting status of a channel, as the LCU hands them to the ZEV (R7). -/
def State.statusOf (s : State) (n : Chan) : MemberStatus :=
  ⟨s.lcu[n].pickup, channelVotes s.lcu[n] s.cfg.active.chans[n].target⟩

/-- The voting count of a member view: members whose voting status is yes (R74). -/
def votingCount (v : Vector MemberStatus 6) : Nat := (v.toList.filter (·.votes)).length

/-- How many voting members are in pickup (R76). -/
def votingLit (v : Vector MemberStatus 6) : Nat := (v.toList.filter (fun m => m.votes && m.pickup)).length

/-- The vote of a zone is satisfied (R77); never in a zone that is not enabled. -/
def voteSatisfied (page : ZonePage) (v : Vector MemberStatus 6) : Bool :=
  page.enabled &&
    match page.vote with
    | .any => decide (1 ≤ votingLit v)
    | .two => if votingCount v = 1 then decide (1 ≤ votingLit v) else decide (2 ≤ votingLit v)

/-- Vote TWO is being taken as ANY (R77); never in a zone that is not enabled. -/
def voteDegraded (page : ZonePage) (v : Vector MemberStatus 6) : Bool :=
  page.enabled && decide (page.vote = .two) && decide (votingCount v = 1)

/-! ### Board quiet (R178) -/

/-- No zone is in LIT or WAITING (R97). -/
def State.noZoneLit (s : State) : Bool :=
  s.zev.zones.toList.all fun z => decide (z.state ≠ .lit) && decide (z.state ≠ .waiting)

/-- No record in the list is FIRING (R128). -/
def State.noRecordFiring (s : State) : Bool := s.trm.records.all fun r => decide (r.stage ≠ .firing)

/-- The three views of the CFG are quiet (R178). -/
def State.boardQuiet (s : State) : Bool := s.cfg.zonesQuiet && s.cfg.recordsQuiet && s.cfg.testQuiet

/-- The test in flight, if any, has taken no sample yet: it was started in this moment (R178, log 5). -/
def State.testFresh (s : State) : Bool :=
  match s.fsu.test with
  | some t => decide (t.samplesLeft = 40)
  | none => true

/-- Bring `transferDue` into line with the views: a notice that leaves them quiet with a commit pending sends the
TRANSFER on its way, and a zone or record that leaves the quiet condition first holds it up. A test started in the same
moment does not (R178, log 5). -/
def State.settleDue (s : State) : State :=
  { s with
    cfg.transferDue := s.cfg.pendingCommit && s.cfg.zonesQuiet && s.cfg.recordsQuiet &&
      (s.cfg.testQuiet || (s.cfg.transferDue && s.testFresh)) }

/-- The ZEV's notice to the CFG (R97, R178). -/
def State.noticeZones (s : State) : State := ({ s with cfg.zonesQuiet := s.noZoneLit } : State).settleDue

/-- The TRM's notice to the CFG (R128, R178). -/
def State.noticeRecords (s : State) : State := ({ s with cfg.recordsQuiet := s.noRecordFiring } : State).settleDue

/-- The FSU's notice to the CFG at the start and the end of a test (R178). -/
def State.noticeTest (s : State) : State := ({ s with cfg.testQuiet := s.fsu.test.isNone } : State).settleDue

/-! ### Summary byte (R191) -/

/-- UNSEEN for a port (R149). -/
def State.unseen (s : State) (p : Port) : Bool := s.trm.records.any fun r => !mem r.seenBy p

/-- PEERS for a port: some other used port is not LIVE (R191). -/
def State.peers (s : State) (p : Port) : Bool :=
  (List.finRange 4).any fun q => decide (q ≠ p) && s.used q && decide (s.lnk[q].state ≠ .live)

/-- The summary byte of a port (R191), bits by R204: ARC, UNSEEN, ALERT, LOCKED, CLAIM, PENDING, PEERS, FRAME_ERR from
bit 7 down. -/
def State.summary (s : State) (p : Port) : Byte :=
  setOf fun i : Fin 8 =>
    match i with
    | 0 => s.lnk[p].frameErr
    | 1 => s.peers p
    | 2 => s.cfg.pendingCommit
    | 3 => decide (s.cfg.claim = some p)
    | 4 => mem s.closeInhibit (breakerOfIncomer p)
    | 5 => s.alr.ports[p].unmasked
    | 6 => s.unseen p
    | 7 => s.trm.records.any TripRec.isOpen

end Sys2Proof.Machine
end

