-- ==== Sys2Proof/Machine/Ops.lean ====
section
/-! DEFINITION. Shared operations on the state: saturating counts, timers, updates of one record of a block, free
values. -/

namespace Sys2Proof.Machine

/-- Raise a counter by one; it stays at the top of its range (00 Conventions, R2, R18, R74). -/
def satInc {n : Nat} (x : BitVec n) : BitVec n := if x = BitVec.allOnes n then x else x + 1

/-! ### Timers -/

def Timer.isRunning : Timer → Bool
  | .stopped => false
  | .running _ => true

/-- Remaining time of a timer, 0 while stopped. -/
def Timer.left : Timer → Nat
  | .stopped => 0
  | .running n => n

/-- One millisecond passes for a timer counted in milliseconds (log 1). -/
def Timer.tick : Timer → Timer
  | .stopped => .stopped
  | .running n => .running (n - 1)

/-- One millisecond, two half milliseconds, passes for a filter (log 1). -/
def Filter.tick : Filter → Filter
  | .stopped => .stopped
  | .running k n => .running k (n - 2)

/-- A filter of this kind is running (R74). -/
def Filter.isRunning (f : Filter) (k : FilterKind) : Bool :=
  match f with
  | .stopped => false
  | .running k' _ => decide (k' = k)

/-! ### Updates of one record of a block -/

/-- A vector with the member at `i` changed by `f`. -/
def modAt {α : Type} {n : Nat} (v : Vector α n) (i : Fin n) (f : α → α) : Vector α n := v.set i (f v[i])

/-- A vector with every member changed by `f`. -/
def modAll {α β : Type} {n : Nat} (v : Vector α n) (f : α → β) : Vector β n := Vector.ofFn fun i => f v[i]

def State.modChan (s : State) (n : Chan) (f : Channel → Channel) : State := { s with lcu := modAt s.lcu n f }

def State.modClarity (s : State) (n : Chan) (f : ClarityRec → ClarityRec) : State :=
  { s with fsu.clarity := modAt s.fsu.clarity n f }

def State.modZone (s : State) (z : Zone) (f : ZoneRec → ZoneRec) : State :=
  { s with zev.zones := modAt s.zev.zones z f }

def State.modPort (s : State) (p : Port) (f : PortRec → PortRec) : State := { s with lnk := modAt s.lnk p f }

/-- Change the records with this seq (at most one: R105). -/
def State.modRecord (s : State) (seq : Byte) (f : TripRec → TripRec) : State :=
  { s with trm.records := s.trm.records.map fun r => if r.seq = seq then f r else r }

/-! ### Free values -/

/-- Draw a free choice of which of two effects comes first (log 14). -/
def State.draw (s : State) : Bool × State := (Config.firstOfTwo s.freeTick, { s with freeTick := s.freeTick + 1 })

/-- Put one zone into a list of zones ordered by the free rank (log 12). -/
def insertZone (rank : Zone → Nat) (z : Zone) : List Zone → List Zone
  | [] => [z]
  | y :: ys => if rank z ≤ rank y then z :: y :: ys else y :: insertZone rank z ys

/-- The zones of a list in a free order (R91: either of two may be taken first; log 12). -/
def orderZones (rank : Zone → Nat) : List Zone → List Zone
  | [] => []
  | z :: zs => insertZone rank z (orderZones rank zs)

/-- Take `f` at each of `zs`, in a free order where there are two or more (log 12). -/
def State.inFreeOrder (s : State) (zs : List Zone) (f : Zone → State → State) : State :=
  (orderZones (Config.zoneRank s.freeTick) zs).foldl (fun t z => f z t) { s with freeTick := s.freeTick + 1 }

/-! ### Membership (R75, R169) -/

/-- The channel named by a slot value (R169): 0 to 15 name channels; 255, and any value of no valid member list, name
none. -/
def slotChan (v : Byte) : Option Chan := if h : v.toNat < 16 then some ⟨v.toNat, h⟩ else none

end Sys2Proof.Machine

namespace Sys2Proof

open Sys2Proof.Machine

/-- The member at a slot of a zone page (R169). -/
def ZonePage.memberAt (page : ZonePage) (i : Slot) : Option Chan := slotChan page.slots[i]

/-- The member list of a zone page, in configured order (R169). -/
def ZonePage.members (page : ZonePage) : List Chan := page.slots.toList.filterMap slotChan

end Sys2Proof

namespace Sys2Proof.Machine

/-- Channel `n` is a member of zone `z` in the active image (R75). -/
def State.isMember (s : State) (z : Zone) (n : Chan) : Bool := decide (n ∈ s.cfg.active.zones[z].members)

/-- The zone a channel is a member of, if any (R75: at most one in the active image). -/
def State.zoneOf (s : State) (n : Chan) : Option Zone := (List.finRange 8).find? fun z => s.isMember z n

end Sys2Proof.Machine
end

