-- ==== Sys2Proof/Machine/Operands.lean ====
section
/-! DEFINITION. The forms a command's operands and a reply's values take: codes (R206, R208), the items of an image and
the checks of a WRITE (R168, R174), frames with their check byte (R187, R188, R204), and the REPORT value (R207). -/

namespace Sys2Proof.Machine

/-! ### CRC-8 (R188) -/

/-- One bit of the CRC-8 of R188. -/
def crcBit (reg : Byte) (bit : Bool) : Byte :=
  let top := reg.getLsbD 7 ^^ bit
  let sh := reg <<< 1
  if top then sh ^^^ 0x07 else sh

/-- The CRC-8 of the low `n` bits of `w`, most significant first, from register `reg` (R188). -/
def crcFrom {m : Nat} (w : BitVec m) : Nat → Byte → Byte
  | 0, reg => reg
  | n + 1, reg => crcFrom w n (crcBit reg (w.getLsbD n))

/-- The CRC-8 of a run of bytes (R188): the register starts at FFh. -/
def crc8 {m : Nat} (w : BitVec m) : Byte := crcFrom w m 0xFF

/-! ### Codes of items (R206, R208 pages 1 and 2) -/

def boolCode (b : Bool) : Nat := if b then 1 else 0

/-- An item that is yes or no: 1 or 0 (R208 page 0). -/
def boolOf : Nat → Option Bool
  | 0 => some false
  | 1 => some true
  | _ => none

def targetCode : ChanTarget → Nat
  | .off => 0
  | .observe => 1
  | .armed => 2

def targetOf : Nat → Option ChanTarget
  | 0 => some .off
  | 1 => some .observe
  | 2 => some .armed
  | _ => none

def modeCode : BaselineMode → Nat
  | .learned => 0
  | .fixed => 1

def modeOf : Nat → Option BaselineMode
  | 0 => some .learned
  | 1 => some .fixed
  | _ => none

def actionCode : StormAction → Nat
  | .report => 0
  | .demote => 1

def actionOf : Nat → Option StormAction
  | 0 => some .report
  | 1 => some .demote
  | _ => none

def locationCode : Location → Nat
  | .sect s => s.val
  | .coupler k => k.val + 4

def locationOf (n : Nat) : Option Location :=
  if h : n < 4 then some (.sect ⟨n, h⟩) else if h : n - 4 < 3 then some (.coupler ⟨n - 4, h⟩) else none

def voteCode : Vote → Nat
  | .any => 0
  | .two => 1

def voteOf : Nat → Option Vote
  | 0 => some .any
  | 1 => some .two
  | _ => none

def confirmCode : Confirm → Nat
  | .current => 0
  | .lightOnly => 1

def confirmOf : Nat → Option Confirm
  | 0 => some .current
  | 1 => some .lightOnly
  | _ => none

def scopeCode : Scope → Nat
  | .sectional => 0
  | .island => 1
  | .board => 2

def scopeOf : Nat → Option Scope
  | 0 => some .sectional
  | 1 => some .island
  | 2 => some .board
  | _ => none

/-- A number of a ranged item, where it lies in the range and on a whole step (R174). -/
def rangedOf {lo hi st : Nat} (n : Nat) : Option (Ranged lo hi st) :=
  if h : lo ≤ n ∧ n ≤ hi ∧ (n - lo) % st = 0 then some ⟨n, h⟩ else none

/-- A light value, 0 to 4095 LU (R1). -/
def luOf (n : Nat) : Option LU := if n < 4096 then some (BitVec.ofNat 12 n) else none

/-- A slot value, 0 to 255 (R169). -/
def slotOf (n : Nat) : Option Byte := if n < 256 then some (BitVec.ofNat 8 n) else none

/-! ### Items of an image (R208 pages 0 to 2) -/

/-- Item `i` of a board page (R208 page 0). -/
def boardItem (b : BoardPage) : Nat → Option Nat
  | 0 => some (boolCode b.incomer[0])
  | 1 => some (boolCode b.incomer[1])
  | 2 => some (boolCode b.incomer[2])
  | 3 => some (boolCode b.incomer[3])
  | 4 => some (boolCode b.coupler[0])
  | 5 => some (boolCode b.coupler[1])
  | 6 => some (boolCode b.coupler[2])
  | 7 => some b.tMin.val
  | 8 => some b.tBf.val
  | 9 => some b.tCoil.val
  | 10 => some b.tUp.val
  | 11 => some b.slotPeriod.val
  | 12 => some b.soiledW.val
  | 13 => some b.blindB.val
  | 14 => some b.hystH.val
  | 15 => some b.ka.val
  | 16 => some b.kc.val
  | 17 => some b.tLearn.val
  | 18 => some b.tHb.val
  | 19 => some b.tDrill.val
  | _ => none

/-- Item `i` of a channel page (R208 page 1). -/
def channelItem (p : ChannelPage) : Nat → Option Nat
  | 0 => some (targetCode p.target)
  | 1 => some (modeCode p.mode)
  | 2 => some p.fixedBaseline.val
  | 3 => some p.gain.val
  | 4 => some p.floor.val
  | 5 => some p.dropRatio.val
  | 6 => some p.dropCount.val
  | 7 => some p.stormLimit.val
  | 8 => some (actionCode p.stormAction)
  | 9 => some p.aRef.toNat
  | _ => none

/-- Item `i` of a zone page (R208 page 2). -/
def zoneItem (z : ZonePage) : Nat → Option Nat
  | 0 => some (boolCode z.enabled)
  | 1 => some (locationCode z.location)
  | 2 => some z.slots[0].toNat
  | 3 => some z.slots[1].toNat
  | 4 => some z.slots[2].toNat
  | 5 => some z.slots[3].toNat
  | 6 => some z.slots[4].toNat
  | 7 => some z.slots[5].toNat
  | 8 => some (voteCode z.vote)
  | 9 => some (confirmCode z.confirm)
  | 10 => some (scopeCode z.scope)
  | 11 => some z.tzf.val
  | 12 => some z.tcw.val
  | _ => none

/-- Set an item of a board page to a value: absent outside the page's indices, and inside absent where the value is
not one of the item (R174). -/
def setBoardItem (b : BoardPage) (v : Nat) : Nat → Option (Option BoardPage)
  | 0 => some ((boolOf v).map fun x => { b with incomer := b.incomer.set 0 x })
  | 1 => some ((boolOf v).map fun x => { b with incomer := b.incomer.set 1 x })
  | 2 => some ((boolOf v).map fun x => { b with incomer := b.incomer.set 2 x })
  | 3 => some ((boolOf v).map fun x => { b with incomer := b.incomer.set 3 x })
  | 4 => some ((boolOf v).map fun x => { b with coupler := b.coupler.set 0 x })
  | 5 => some ((boolOf v).map fun x => { b with coupler := b.coupler.set 1 x })
  | 6 => some ((boolOf v).map fun x => { b with coupler := b.coupler.set 2 x })
  | 7 => some ((rangedOf v).map fun x => { b with tMin := x })
  | 8 => some ((rangedOf v).map fun x => { b with tBf := x })
  | 9 => some ((rangedOf v).map fun x => { b with tCoil := x })
  | 10 => some ((rangedOf v).map fun x => { b with tUp := x })
  | 11 => some ((rangedOf v).map fun x => { b with slotPeriod := x })
  | 12 => some ((rangedOf v).map fun x => { b with soiledW := x })
  | 13 => some ((rangedOf v).map fun x => { b with blindB := x })
  | 14 => some ((rangedOf v).map fun x => { b with hystH := x })
  | 15 => some ((rangedOf v).map fun x => { b with ka := x })
  | 16 => some ((rangedOf v).map fun x => { b with kc := x })
  | 17 => some ((rangedOf v).map fun x => { b with tLearn := x })
  | 18 => some ((rangedOf v).map fun x => { b with tHb := x })
  | 19 => some ((rangedOf v).map fun x => { b with tDrill := x })
  | _ => none

/-- Set an item of a channel page (R174, R208 page 1). -/
def setChannelItem (p : ChannelPage) (v : Nat) : Nat → Option (Option ChannelPage)
  | 0 => some ((targetOf v).map fun x => { p with target := x })
  | 1 => some ((modeOf v).map fun x => { p with mode := x })
  | 2 => some ((rangedOf v).map fun x => { p with fixedBaseline := x })
  | 3 => some ((rangedOf v).map fun x => { p with gain := x })
  | 4 => some ((rangedOf v).map fun x => { p with floor := x })
  | 5 => some ((rangedOf v).map fun x => { p with dropRatio := x })
  | 6 => some ((rangedOf v).map fun x => { p with dropCount := x })
  | 7 => some ((rangedOf v).map fun x => { p with stormLimit := x })
  | 8 => some ((actionOf v).map fun x => { p with stormAction := x })
  | 9 => some ((luOf v).map fun x => { p with aRef := x })
  | _ => none

/-- Set an item of a zone page (R174, R208 page 2). -/
def setZoneItem (z : ZonePage) (v : Nat) : Nat → Option (Option ZonePage)
  | 0 => some ((boolOf v).map fun x => { z with enabled := x })
  | 1 => some ((locationOf v).map fun x => { z with location := x })
  | 2 => some ((slotOf v).map fun x => { z with slots := z.slots.set 0 x })
  | 3 => some ((slotOf v).map fun x => { z with slots := z.slots.set 1 x })
  | 4 => some ((slotOf v).map fun x => { z with slots := z.slots.set 2 x })
  | 5 => some ((slotOf v).map fun x => { z with slots := z.slots.set 3 x })
  | 6 => some ((slotOf v).map fun x => { z with slots := z.slots.set 4 x })
  | 7 => some ((slotOf v).map fun x => { z with slots := z.slots.set 5 x })
  | 8 => some ((voteOf v).map fun x => { z with vote := x })
  | 9 => some ((confirmOf v).map fun x => { z with confirm := x })
  | 10 => some ((scopeOf v).map fun x => { z with scope := x })
  | 11 => some ((rangedOf v).map fun x => { z with tzf := x })
  | 12 => some ((rangedOf v).map fun x => { z with tcw := x })
  | _ => none

/-- The number `n` of an index 16n + i (R208). -/
def indexUnit (index : Byte) : Nat := index.toNat / 16

/-- The item `i` of an index 16n + i (R208). -/
def indexItem (index : Byte) : Nat := index.toNat % 16

/-- The channel of an index 16n + i (R208): every n from 0 to 15 names one. -/
def indexChan (index : Byte) : Chan := ⟨index.toNat / 16, by omega⟩

/-- The zone of an index 16z + i, where z names one (R208). -/
def indexZone (index : Byte) : Option Zone := if h : indexUnit index < 8 then some ⟨indexUnit index, h⟩ else none

/-- The port of an index 16p + i, where p names one (R208). -/
def indexPort (index : Byte) : Option Port := if h : indexUnit index < 4 then some ⟨indexUnit index, h⟩ else none

/-- The item of an image named by page and index, pages 0 to 2 (R205, R208). -/
def imageItem (img : Image) (page : BitVec 4) (index : Byte) : Option Nat :=
  match page.toNat with
  | 0 => boardItem img.board index.toNat
  | 1 => channelItem img.chans[indexChan index] (indexItem index)
  | 2 => (indexZone index).bind fun z => zoneItem img.zones[z] (indexItem index)
  | _ => none

/-- Set the item of an image named by page and index (R174, R205): absent where they name none, and inside absent where
the value is not one of the item. -/
def setImageItem (img : Image) (page : BitVec 4) (index : Byte) (v : Nat) : Option (Option Image) :=
  match page.toNat with
  | 0 => (setBoardItem img.board v index.toNat).map (·.map fun b => { img with board := b })
  | 1 =>
    let n := indexChan index
    (setChannelItem img.chans[n] v (indexItem index)).map
      (·.map fun p => { img with chans := img.chans.set n p })
  | 2 =>
    (indexZone index).bind fun z =>
      (setZoneItem img.zones[z] v (indexItem index)).map (·.map fun p => { img with zones := img.zones.set z p })
  | _ => none

/-! ### Frames (R187, R188, R204) -/

/-- The byte of a reply code (R204). -/
def replyByte : ReplyCode → Byte
  | .accepted => 0x00
  | .restarted => 0x01
  | .frameRejected => 0x02
  | .unknownFunction => 0x03
  | .notLive => 0x04
  | .notUsed => 0x05
  | .badIndex => 0x06
  | .badValue => 0x07
  | .absent => 0x08
  | .noClaim => 0x09
  | .pending => 0x0A
  | .invalid => 0x0B
  | .busy => 0x0C
  | .refusedState => 0x0D
  | .notLearned => 0x0E
  | .notPermitted => 0x0F
  | .notHeld => 0x10
  | .releasedAll => 0x11
  | .releasedSome => 0x12
  | .refusedFiring => 0x13
  | .refusedLit => 0x14
  | .noRecord => 0x15
  | .heldBy => 0x16

/-- The 40 bits of a frame whose first four bytes are `body`, with its check byte (R188, R204). -/
def frameOf (body : BitVec 32) : BitVec 40 := body ++ crc8 body

/-- The first four bytes of a reply (R204). -/
def replyBody (summary : Byte) (r : Reply) : BitVec 32 := (summary ++ replyByte r.code ++ r.value : BitVec 32)

/-- The first four bytes of a request (R204). -/
def requestBody (code : BitVec 4) (f : Fields) : BitVec 32 := (code ++ f.page ++ f.index ++ f.value : BitVec 32)

/-- Function codes (R204). -/
inductive Fn where
  | fetch | read | readStaged | write | report | claim | yield | commit | release | record | seen | clearAlerts
  | setMask | control
  deriving DecidableEq, Repr

def Fn.code : Fn → BitVec 4
  | .fetch => 0x0
  | .read => 0x1
  | .readStaged => 0x2
  | .write => 0x3
  | .report => 0x4
  | .claim => 0x5
  | .yield => 0x6
  | .commit => 0x7
  | .release => 0x8
  | .record => 0x9
  | .seen => 0xA
  | .clearAlerts => 0xB
  | .setMask => 0xC
  | .control => 0xD

/-- A function is permitted in a port state (R192). -/
def Fn.permitted (fn : Fn) (st : PortState) : Bool :=
  match fn with
  | .fetch | .read | .readStaged | .record | .seen | .clearAlerts | .setMask => true
  | .report => decide (st ≠ .unused)
  | .write | .claim | .yield | .commit | .release | .control => decide (st = .live)

/-- Why a frame is rejected (R189). -/
inductive RejectReason where
  | length | polarity | check | timeout
  deriving DecidableEq, Repr

/-- The reply value of a rejected frame (R204). -/
def RejectReason.code : RejectReason → Word
  | .length => 1
  | .polarity => 2
  | .check => 3
  | .timeout => 4

/-- What the checks of R187 make of a frame. -/
inductive Verdict where
  | ignored
  | rejected (why : RejectReason)
  | accepted
  deriving DecidableEq, Repr

/-- A frame is judged by the lines of R187: the clock level at the fall of select, the edge count, the clock level at
the rise, and the bits received. -/
def judgeFrame (sckAtFall : Bool) (edges : Byte) (sckAtRise : Bool) (bits : BitVec 40) : Verdict :=
  if edges = 0 then .ignored
  else if edges ≠ 40 then .rejected .length
  else if sckAtFall || sckAtRise then .rejected .polarity
  else if bits = 0 ∨ bits = BitVec.allOnes 40 then .rejected .check
  else if bits.extractLsb' 0 8 ≠ crc8 (bits.extractLsb' 8 32) then .rejected .check
  else .accepted

/-! ### REPORT (R207) -/

def positionOf (b : BitVec 2) : Position :=
  match b with
  | 0 => .none
  | 1 => .opened
  | 2 => .closed
  | 3 => .transit

def positionCode : Position → Nat
  | .none => 0
  | .opened => 1
  | .closed => 2
  | .transit => 3

def resolvedCode : Resolved → Nat
  | .absent => 0
  | .transit => 1
  | .unknown => 2
  | .opened => 3
  | .closed => 4
  | .disputed => 5

/-- The three positions of a REPORT value (R207). -/
def reportOf (v : Word) : ReportRec :=
  ⟨positionOf (v.extractLsb' 0 2), positionOf (v.extractLsb' 2 2), positionOf (v.extractLsb' 4 2)⟩

/-- The remaining bits of a REPORT value are zero (R194, R207). -/
def reportRestZero (v : Word) : Bool := decide (v.extractLsb' 6 10 = 0)

/-- A report record in the request layout (R207). -/
def reportCode (r : ReportRec) : Nat := positionCode r.incomer + 4 * positionCode r.left + 16 * positionCode r.right

end Sys2Proof.Machine
end

