-- ==== Sys2Proof/Machine/TopologyOps.lean ====
section
/-! DEFINITION. Operations of the Topology Unit (chapter 3): coupler resolution, islands, feed sets, side-sets, trip
sets, and one event at TOP. -/

namespace Sys2Proof.Machine

/-! ### The line-up (R51) -/

/-- I_k is present in the active image (R51). -/
def State.incomerPresent (s : State) (k : Incomer) : Bool := s.cfg.active.board.incomer[k]

/-- The section on the left of C_j, S_j (R51). -/
def leftSect (j : Coupler) : Sect := ⟨j.val, by omega⟩

/-- The section on the right of C_j, S_j+1 (R51). -/
def rightSect (j : Coupler) : Sect := ⟨j.val + 1, by omega⟩

/-- The coupler at the right end of S_k, where one exists (R51). -/
def rightCoupler (k : Sect) : Option Coupler := if h : k.val < 3 then some ⟨k.val, h⟩ else none

/-- The coupler at the left end of S_k, where one exists (R51). -/
def leftCoupler (k : Sect) : Option Coupler := if _h : 0 < k.val then some ⟨k.val - 1, by omega⟩ else none

/-- C_j stands beside S_k (R51). -/
def adjacent (k : Sect) (j : Coupler) : Bool := decide (leftSect j = k) || decide (rightSect j = k)

/-! ### Coupler resolution (R57, R58) -/

/-- The resolved state from the presence of a coupler and its left and right report, by the lines of R57. -/
def resolve (present : Bool) (left right : Position) : Resolved :=
  if !present then .absent
  else if left = .transit ∨ right = .transit then .transit
  else
    match left, right with
    | .none, .none => .unknown
    | .none, .opened => .opened
    | .none, .closed => .closed
    | .opened, .none => .opened
    | .closed, .none => .closed
    | .opened, .opened => .opened
    | .closed, .closed => .closed
    | .opened, .closed => .disputed
    | .closed, .opened => .disputed
    | .transit, _ => .transit
    | _, .transit => .transit

/-- The state R57 gives for C_j now: its left report is the right field of P_j, its right report the left field of
P_j+1. -/
def State.resolvedNow (s : State) (j : Coupler) : Resolved :=
  resolve s.cfg.active.board.coupler[j] s.top.reports[leftSect j].right s.top.reports[rightSect j].left

/-- Which resolved states join the sections beside the coupler (R58). -/
def Resolved.joins : Resolved → Bool
  | .closed | .transit | .disputed | .unknown => true
  | .opened | .absent => false

def State.joined (s : State) (j : Coupler) : Bool := s.top.couplers[j].resolved.joins

/-! ### Islands and feed sets (R59, R63, R64) -/

/-- The island names for a division given by which couplers join: each island is named by its lowest section (R59). -/
def islandNames (joins : Coupler → Bool) : Vector Sect 4 :=
  let n1 : Sect := if joins 0 then 0 else 1
  let n2 : Sect := if joins 1 then n1 else 2
  let n3 : Sect := if joins 2 then n2 else 3
  #v[0, n1, n2, n3]

/-- Two sections are in the same island when their island names are equal (R59). -/
def State.sameIsland (s : State) (a b : Sect) : Bool := decide (s.top.islandName[a] = s.top.islandName[b])

/-- The sections of every island that meets a set of sections. -/
def State.islandsMeeting (s : State) (r : SectSet) : SectSet :=
  setOf fun k => (List.finRange 4).any fun m => mem r m && s.sameIsland k m

/-- The number of islands (R59). -/
def State.islandCount (s : State) : Nat := s.top.islandName.toList.dedup.length

/-- The present incomers of a set of sections, as a breaker set. -/
def State.incomersIn (s : State) (r : SectSet) : BreakerSet :=
  setOf fun b => if h : b.val < 4 then mem r ⟨b.val, h⟩ && s.incomerPresent ⟨b.val, h⟩ else false

/-- The feed set of a set of sections (R63): the present incomers of every island that meets it. -/
def State.feedSet (s : State) (r : SectSet) : IncomerSet :=
  setOf fun k => mem (s.islandsMeeting r) k && s.incomerPresent k

/-- A feed set is live when the CP line of an incomer in it is active (R64). -/
def State.live (s : State) (f : IncomerSet) : Bool := (List.finRange 4).any fun k => mem f k && s.cp[k]

/-! ### Trip sets and faulted regions (R65 to R70) -/

/-- The side-set of a section, excluding a coupler or none (R65). -/
def State.sideSet (s : State) (k : Sect) (excl : Option Coupler) : BreakerSet :=
  setOf fun b =>
    match tripLineOf b with
    | .ti i => decide (i = k) && s.incomerPresent i
    | .tc j => adjacent k j && s.joined j && decide (excl ≠ some j)
    | .ut _ => false

/-- The boundary set of a region (R66). -/
def State.boundarySet (s : State) (r : SectSet) : BreakerSet :=
  setOf fun b =>
    match tripLineOf b with
    | .ti i => mem r i && s.incomerPresent i
    | .tc j => s.joined j && (mem r (leftSect j) != mem r (rightSect j))
    | .ut _ => false

/-- The sections a zone at this location watches. -/
def locationRegion : Location → SectSet
  | .sect k => single k
  | .coupler j => single (leftSect j) ||| single (rightSect j)

/-- The faulted region of R67 for a location and a scope. -/
def State.faultedRegion (s : State) (loc : Location) (sc : Scope) : SectSet :=
  match sc with
  | .sectional => locationRegion loc
  | .island => s.islandsMeeting (locationRegion loc)
  | .board => BitVec.allOnes 4

/-- TOP's answer to a trip set request (R67 to R69). -/
structure TripAnswer where
  region : SectSet
  trips : BreakerSet
  snapshot : SectSet
  fallback : Bool
  deriving DecidableEq, Repr

/-- The trip set of a region under a scope (R67, R69): the boundary set under SECTIONAL, the present incomers of the
region otherwise. -/
def State.regionTrips (s : State) (sc : Scope) (r : SectSet) : BreakerSet :=
  match sc with
  | .sectional => s.boundarySet r
  | .island | .board => s.incomersIn r

/-- The answer for a region under a scope, with the replacement of an empty set by every present incomer (R68). -/
def State.tripAnswer (s : State) (sc : Scope) (r : SectSet) : TripAnswer :=
  let t := s.regionTrips sc r
  if t = 0 then ⟨r, s.incomersIn (BitVec.allOnes 4), s.islandsMeeting r, true⟩ else ⟨r, t, s.islandsMeeting r, false⟩

/-- TOP's answer at an arc decision (R67, R68). -/
def State.initialAnswer (s : State) (loc : Location) (sc : Scope) : TripAnswer :=
  s.tripAnswer sc (s.faultedRegion loc sc)

/-- The faulted region after a re-strike request (R69). -/
def State.restrikeRegion (s : State) (sc : Scope) (r : SectSet) : SectSet :=
  match sc with
  | .sectional => r
  | .island => r ||| s.islandsMeeting r
  | .board => BitVec.allOnes 4

/-- TOP's answer at a re-strike (R69). -/
def State.restrikeAnswer (s : State) (sc : Scope) (r : SectSet) : TripAnswer := s.tripAnswer sc (s.restrikeRegion sc r)

/-- TOP's answer at a breaker-fail on TC_j (R70): the far section and its side-set excluding C_j, where exactly one of
the two sections of C_j is in the region. -/
def State.farSide (s : State) (r : SectSet) (j : Coupler) : Option (Sect × BreakerSet) :=
  match mem r (leftSect j), mem r (rightSect j) with
  | true, false => some (rightSect j, s.sideSet (rightSect j) (some j))
  | false, true => some (leftSect j, s.sideSet (leftSect j) (some j))
  | true, true | false, false => none

/-! ### One event at TOP (R57, R60 to R62) -/

/-- The coupler records after the couplers picked by `which` are resolved again (R57): the entry time moves only where
the state changes. -/
def State.couplersAfter (s : State) (which : Coupler → Bool) : Vector CouplerRec 3 :=
  Vector.ofFn fun j =>
    if which j && decide (s.resolvedNow j ≠ s.top.couplers[j].resolved) then ⟨s.resolvedNow j, s.alr.time⟩
    else s.top.couplers[j]

/-- The couplers whose resolved state an event changed (R62). -/
def changedCouplers (before after : Vector CouplerRec 3) : List Coupler :=
  (List.finRange 3).filter fun j => decide (before[j].resolved ≠ after[j].resolved)

/-- Resolve the couplers picked by `which`, recompute the islands where a resolved state changed, and raise TOPOLOGY
once where a coupler came into DISPUTED or the division changed (R57, R60, R61). -/
def State.topResolve (s : State) (which : Coupler → Bool) : State :=
  let after := s.couplersAfter which
  let changed := changedCouplers s.top.couplers after
  if changed.isEmpty then s
  else
    let names := islandNames fun j => after[j].resolved.joins
    let t : State := { s with top.couplers := after, top.islandName := names }
    if (changed.any fun j => decide (after[j].resolved = .disputed)) || decide (names ≠ s.top.islandName) then
      t.raise .topology
    else t

/-- The couplers that opened in an event, from the records before it (R62, R114). -/
def newlyOpened (before after : Vector CouplerRec 3) : List Coupler :=
  (changedCouplers before after).filter fun j => decide (after[j].resolved = .opened)

/-- Set the report record of a port (R53, R54). -/
def State.setReport (s : State) (p : Port) (r : ReportRec) : State := { s with top.reports := s.top.reports.set p r }

end Sys2Proof.Machine
end

