-- ==== Sys2Proof/Machine/TripOps.lean ====
section
/-! DEFINITION. Operations of the Trip Record Manager and the NV write engine (chapters 5 and 6, R180 to R182):
entries, evidence, stages, opening, escalation, re-strike, release, and the writing of the lockout word and of saves. -/

namespace Sys2Proof.Machine

/-! ### The lockout word (R141) -/

/-- The lockout word that holds a set of breakers (R141). -/
def lockWordOf (b : BreakerSet) : LockWord := ⟨b.setWidth 8, crc8 (b.setWidth 8)⟩

/-- A lockout word is valid when its check matches and its remaining bit is zero (R141). -/
def lockWordValid (w : LockWord) : Bool := decide (w.check = crc8 w.set) && !w.set.getLsbD 7

/-- The breakers of a lockout word. -/
def lockWordSet (w : LockWord) : BreakerSet := w.set.setWidth 7

/-! ### The NV write engine (R143, R180 to R182) -/

/-- The copy and save number of the next save (R180): the copy that does not hold the last image saved, with one more
than its number, or copy A with number 0 where there is none. -/
def nextSave : Option SavedId → SavedId
  | none => ⟨.a, 0⟩
  | some ⟨.a, n⟩ => ⟨.b, n + 1⟩
  | some ⟨.b, n⟩ => ⟨.a, n + 1⟩

/-- Change one image copy of the NV array. -/
def Nv.modCopy (nv : Nv) (c : CopyId) (f : NvCopy → NvCopy) : Nv :=
  match c with
  | .a => { nv with copyA := f nv.copyA }
  | .b => { nv with copyB := f nv.copyB }

/-- The engine begins a lockout word write (R143). -/
def State.beginWord (s : State) : State :=
  { s with
    cfg.engine := .word
    trm.lock := { s.trm.lock with status := .writing, writing := s.trm.lock.waiting, waiting := none } }

/-- The engine begins a save write (R182): the active image is copied as it stands. The copy it goes to has no valid
check until the write ends, since the check is written last (R180, log 17). -/
def State.beginSave (s : State) : State :=
  let next := nextSave s.cfg.lastSaved
  { s with
    cfg.engine := .saving
    cfg.saveWaiting := false
    cfg.job := some ⟨next.copy, next.number, s.cfg.active, true⟩
    nv := s.nv.modCopy next.copy fun c => { c with valid := false } }

/-- A free engine begins what waits: a lockout word before a save (R181). -/
def State.engineNext (s : State) : State :=
  match s.cfg.engine with
  | .idle =>
    if s.trm.lock.waiting.isSome then s.beginWord else if s.cfg.saveWaiting then s.beginSave else s
  | .saving | .word => s

/-- The TRM asks for a write of a set (R142): it replaces any set waiting, and the engine begins it when free. -/
def State.requestWord (s : State) (b : BreakerSet) : State :=
  let status : WordStatus := if s.trm.lock.status = .writing then .writing else .waiting
  ({ s with trm.lock := { s.trm.lock with retry := false, waiting := some b, status := status } } : State).engineNext

/-- One event at the TRM: where it changes the close-inhibit lines that are on, the new set is asked to be written
(R132, R142). -/
def State.trmEvent (s : State) (f : State → State) : State :=
  let t := f s
  if t.closeInhibit = s.closeInhibit then t else t.requestWord t.closeInhibit

/-! ### Entries (R103, R104, R108) -/

/-- The present state of the breaker gives open evidence at a command (R108): CP_k inactive, or C_j resolved OPEN. -/
def State.evidenceAtCommand (s : State) (t : Target) : Bool :=
  match t with
  | .ti k => !s.cp[k]
  | .tc j => decide (s.top.couplers[j].resolved = .opened)
  | .ut _ => false

/-- Command an entry (R108): fresh timers from the active image, a new command time, no evidence but what the breaker's
present state gives, and the late flag clear. -/
def State.command (s : State) (e : Entry) : Entry :=
  let b := s.cfg.active.board
  match e.target with
  | .ut _ =>
    { e with
      state := .pulsing, commandTime := s.alr.time, evidence := none, late := false
      minPulse := .stopped, breakerFail := .stopped, coil := .stopped, pulse := .running b.tUp.val }
  | .ti _ | .tc _ =>
    { e with
      state := .commanded, commandTime := s.alr.time
      evidence := if s.evidenceAtCommand e.target then some s.alr.time else none
      late := false
      minPulse := .running b.tMin.val, breakerFail := .running b.tBf.val, coil := .running b.tCoil.val
      pulse := .stopped }

/-- A new entry on a target, commanded (R108). -/
def State.newEntry (s : State) (t : Target) (why : Reason) : Entry :=
  s.command ⟨t, why, .commanded, s.alr.time, none, false, .stopped, .stopped, .stopped, .stopped⟩

/-- The entries take open evidence of a target in these states while they have none (R112 to R114). -/
def Entry.takesEvidence (e : Entry) (t : Target) : Bool :=
  decide (e.target = t) && decide (e.state = .commanded ∨ e.state = .failing ∨ e.state = .gaveUp) && e.evidence.isNone

/-- An entry takes open evidence at a time (R115, R116, R122). -/
def Entry.evidenceAt (e : Entry) (now : Time) : Entry :=
  match e.state with
  | .commanded =>
    if e.minPulse.isRunning then { e with evidence := some now }
    else { e with evidence := some now, state := .confirmed, breakerFail := .stopped, coil := .stopped }
  | .failing | .gaveUp => { e with evidence := some now, state := .confirmed, late := true, coil := .stopped }
  | .confirmed | .pulsing | .sent | .shown => e

/-- The targets of a trip set in the order entries are added: incomer lines, then coupler lines (R106, R119, R125). -/
def targetsOf (b : BreakerSet) : List Target := ((List.finRange 7).filter fun i => mem b i).map tripLineOf

/-- The breakers of a list of entries' targets (R106, R119, R126). -/
def breakersOf (ts : List Target) : BreakerSet :=
  setOf fun i => ts.any fun t => decide (t.breaker? = some i)

def TripRec.holds (r : TripRec) (t : Target) : Bool := r.entries.any fun e => decide (e.target = t)

/-- Change the entry of a record on a target (at most one: R109). -/
def TripRec.modEntry (r : TripRec) (t : Target) (f : Entry → Entry) : TripRec :=
  { r with entries := r.entries.map fun e => if e.target = t then f e else e }

/-- A FIRING record that holds no driving entry passes to LOCKED (R127). -/
def TripRec.settle (r : TripRec) : TripRec :=
  if r.stage = .firing ∧ (r.entries.any fun e => e.state.drives) = false then { r with stage := .locked } else r

/-- An open record takes open evidence of a target at a time (R112 to R116, R122). -/
def TripRec.evidence (r : TripRec) (t : Target) (now : Time) : TripRec :=
  if r.isOpen then
    let late := r.entries.any fun e => e.takesEvidence t && decide (e.state = .failing ∨ e.state = .gaveUp)
    ({ r with
       entries := r.entries.map fun e => if e.takesEvidence t then e.evidenceAt now else e
       late := r.late || late } : TripRec).settle
  else r

/-- Open evidence of a target reaches every open record (R112, R113, R114). -/
def State.openEvidence (s : State) (t : Target) : State :=
  ({ s with trm.records := s.trm.records.map fun r => r.evidence t s.alr.time } : State).noticeRecords

/-! ### Numbering and room (R105, R107, R150) -/

/-- The next sequence number: one more, and one more again while it is in use (R105). At most eleven values are passed
over in a list of twelve; `fuel` bounds the search. -/
def nextSeq (used : List Byte) : Nat → Byte → Byte
  | 0, c => c + 1
  | fuel + 1, c => if (c + 1) ∈ used then nextSeq used fuel (c + 1) else c + 1

/-- A port loses its record window selection, and its half latch with it (R152, R154). -/
def PortRec.dropSelection (r : PortRec) : PortRec := { r with selection := none, latch := none }

/-- Retire the oldest closed record of a list, if there is one (R107). -/
def oldestClosed (rs : List TripRec) : Option TripRec := rs.find? fun r => decide (r.stage = .closed)

/-- A half latch that was loaded from this record is cleared; a later record of the same seq is not the same record
(R152, R154). -/
def PortRec.dropLatchOf (r : PortRec) (seq : Byte) : PortRec :=
  match r.latch with
  | some l => if l.key.record = some seq then { r with latch := none } else r
  | none => r

/-- The ports that had selected the retired record find it gone (R150, R152). -/
def State.dropSelections (s : State) (seq : Byte) : State :=
  { s with
    lnk := modAll s.lnk fun r => if r.selection = some seq then r.dropSelection else r.dropLatchOf seq }

/-- Make room in a full list (R107, R150): the oldest closed record leaves it, RECORD_MISSED is raised on the used
ports that had not seen it, and the ports that had selected it find it gone. -/
def State.makeRoom (s : State) : State :=
  if s.trm.records.length < 12 then s
  else
    match oldestClosed s.trm.records with
    | none => s
    | some old =>
      let t : State := { s with trm.records := s.trm.records.erase old }
      (t.raiseOn .recordMissed fun p => s.used p && !mem old.seenBy p).dropSelections old.seq

/-- Append a record at the newest end with the next sequence number (R105, R106, R129). -/
def State.appendRecord (s : State) (r : TripRec) : State :=
  let n := nextSeq (s.trm.records.map (·.seq)) 12 s.trm.seqCounter
  { s with trm.records := s.trm.records ++ [{ r with seq := n }], trm.seqCounter := n }

/-! ### Opening (R106, R161) -/

/-- The ARC record of a decision, but for its seq (R106). -/
def State.arcRecord (s : State) (z : Zone) (trigger : Option Chan) (degraded : Bool) : TripRec :=
  let page := s.cfg.active.zones[z]
  let a := s.initialAnswer page.location page.scope
  { seq := 0, kind := .arc, stage := .firing, origin := some z, trigger := trigger, peak := some 0
    scope := some page.scope, region := a.region, snapshot := a.snapshot, restrikes := 0, opened := s.alr.time
    closedAt := none, fallback := a.fallback, escalated := false, late := false, degraded := degraded
    entries := (targetsOf a.trips).map fun t => s.newEntry t .initial
    lockout := a.trips, released := 0, seenBy := 0 }

/-- An arc decision is taken at the TRM (R106). -/
def State.openArc (s : State) (z : Zone) (trigger : Option Chan) (degraded : Bool) : State :=
  s.trmEvent fun s =>
    let t := s.makeRoom
    ((t.appendRecord (t.arcRecord z trigger degraded)).noticeRecords).raise .arcOpened

/-- An entry of a DRILL record (R161). -/
def State.shownEntry (s : State) (t : Target) : Entry :=
  ⟨t, .initial, .shown, s.alr.time, none, false, .stopped, .stopped, .stopped, .stopped⟩

/-- The DRILL record of a drill filter expiry, but for its seq (R161). -/
def State.drillRecord (s : State) (z : Zone) (trigger : Option Chan) (degraded : Bool) : TripRec :=
  let page := s.cfg.active.zones[z]
  let a := s.initialAnswer page.location page.scope
  { seq := 0, kind := .drill, stage := .closed, origin := some z, trigger := trigger, peak := some 0
    scope := some page.scope, region := a.region, snapshot := a.snapshot, restrikes := 0, opened := s.alr.time
    closedAt := some s.alr.time, fallback := a.fallback, escalated := false, late := false, degraded := degraded
    entries := (targetsOf a.trips).map s.shownEntry, lockout := 0, released := 0, seenBy := 0 }

/-- A DRILL record is appended (R129, R161). -/
def State.appendDrill (s : State) (z : Zone) (trigger : Option Chan) (degraded : Bool) : State :=
  s.trmEvent fun s =>
    let t := s.makeRoom
    t.appendRecord (t.drillRecord z trigger degraded)

/-! ### Breaker-fail and escalation (R117 to R119) -/

/-- Add commanded entries on the targets the record does not hold (R109, R118, R119). -/
def State.addEntries (s : State) (r : TripRec) (ts : List Target) (why : Reason) : TripRec :=
  let new := ts.filter fun t => !r.holds t
  { r with
    entries := r.entries ++ new.map fun t => s.newEntry t why
    lockout := r.lockout ||| breakersOf new }

/-- Escalate a failed entry's target (R118, R119). -/
def State.escalate (s : State) (r : TripRec) (t : Target) : TripRec :=
  match t with
  | .ti k => s.addEntries r [.ut k] .escalation
  | .tc j =>
    match s.farSide r.region j with
    | some (far, side) => s.addEntries { r with region := r.region ||| single far } (targetsOf side) .escalation
    | none => r
  | .ut _ => r

/-- The entry can meet its breaker-fail expiry: COMMANDED with the timer running, no held evidence, and the minimum
pulse over, which expires first (R110, R117, log 24). -/
def Entry.canFail (e : Entry) : Bool :=
  decide (e.state = .commanded) && e.breakerFail.isRunning && e.evidence.isNone && !e.minPulse.isRunning

/-- The record in which the entry on `t` reaches breaker-fail (R117). -/
def State.failEntry (s : State) (r : TripRec) (t : Target) : TripRec :=
  s.escalate
    ({ r with escalated := true }.modEntry t fun e =>
      if e.canFail then { e with state := .failing, breakerFail := .stopped } else e) t

/-! ### Re-strike (R124 to R126) -/

/-- The intertrip line that goes with an incomer's trip line (R125). -/
def intertripOf : Target → Option Target
  | .ti k => some (.ut k)
  | .tc _ | .ut _ => none

/-- The record after a re-strike (R125, R126): entries of the trip set re-commanded or added, UT entries of its
incomers re-commanded, the breakers held again, FIRING. -/
def State.restrikeRecord (s : State) (r : TripRec) : TripRec :=
  let sc := r.scope.getD .sectional
  let a := s.restrikeAnswer sc r.region
  let ts := targetsOf a.trips
  let again := ts ++ ts.filterMap intertripOf
  let new := ts.filter fun t => !r.holds t
  { r with
    region := a.region
    fallback := r.fallback || a.fallback
    restrikes := satInc r.restrikes
    entries := (r.entries.map fun e => if again.contains e.target then s.command e else e) ++
      new.map fun t => s.newEntry t .restrike
    lockout := r.lockout ||| a.trips
    released := r.released &&& ~~~a.trips
    stage := .firing }

/-- The open ARC record of an origin zone (R124; at most one: R101). -/
def TripRec.isArcOf (r : TripRec) (z : Zone) : Bool :=
  r.isOpen && decide (r.kind = .arc) && decide (r.origin = some z)

/-- A re-strike request is taken at the TRM (R124): folded into the open ARC record of the zone, or discarded. -/
def State.restrike (s : State) (z : Zone) : State :=
  if s.trm.records.any (·.isArcOf z) then
    s.trmEvent fun s =>
      (({ s with
          trm.records := s.trm.records.map fun r => if r.isArcOf z then s.restrikeRecord r else r } : State).noticeRecords).raise
        .arcOpened
  else s

/-! ### Release (R136 to R139) -/

/-- The owning ports of a breaker (R136). -/
def owns (p : Port) (b : Fin 7) : Bool :=
  match tripLineOf b with
  | .ti k => decide (k = p)
  | .tc j => decide (leftSect j = p) || decide (rightSect j = p)
  | .ut _ => false

/-- A breaker is within the authority of a port: the port owns it, or no used port does (R136). -/
def State.authority (s : State) (p : Port) (b : Fin 7) : Bool :=
  owns p b || (List.finRange 4).all fun q => !(owns q b && s.used q)

/-- Outcome of a RELEASE at one examined record (R137). -/
inductive ReleaseOutcome where
  | taken | firing | lit
  deriving DecidableEq, Repr

/-- The outcome of a RELEASE of `b` at a record, absent where the record is not examined (R137). -/
def State.releaseAt (s : State) (b : Fin 7) (r : TripRec) : Option ReleaseOutcome :=
  if r.isOpen && mem r.holding b then
    if r.stage = .firing then some .firing
    else if r.kind = .arc && (match r.origin with | some z => s.zev.zones[z].lit | none => false) then some .lit
    else some .taken
  else none

/-- A record after it has taken a release: it closes where its whole lockout set is released (R137, R139). -/
def TripRec.take (r : TripRec) (b : Fin 7) (now : Time) : TripRec :=
  let released := r.released ||| single b
  if r.stage = .locked ∧ released = r.lockout then { r with released := released, stage := .closed, closedAt := some now }
  else { r with released := released }

/-- The record closes at this release (R139). -/
def State.closesAt (s : State) (b : Fin 7) (r : TripRec) : Bool :=
  decide (s.releaseAt b r = some .taken) && decide ((r.take b s.alr.time).stage = .closed)

/-- A RELEASE is taken at the TRM (R137): every open record that holds the breaker is examined, oldest first; closing
records raise RECORD_CLOSED, and those of kind ARC send their zone a close notice (R139). -/
def State.releaseBreaker (s : State) (b : Fin 7) : State :=
  s.trmEvent fun s =>
    let closing := s.trm.records.filter (s.closesAt b)
    let t : State :=
      { s with
        trm.records := s.trm.records.map fun r =>
          if s.releaseAt b r = some .taken then r.take b s.alr.time else r
        zev.notices := s.zev.notices ++ (closing.filter fun r => decide (r.kind = .arc)).filterMap (·.origin) }
    if closing.isEmpty then t else t.raise .recordClosed

/-- The reply to a RELEASE from the outcomes at the examined records, oldest first (R138, R204). -/
def releaseReply (outs : List ReleaseOutcome) : Reply :=
  let taken := (outs.filter (· = .taken)).length
  let refused := (outs.filter (· ≠ .taken)).length
  let value : Word := BitVec.ofNat 16 (taken * 256 + refused)
  if outs.isEmpty then ⟨.notHeld, 0⟩
  else if refused = 0 then ⟨.releasedAll, value⟩
  else if 0 < taken then ⟨.releasedSome, value⟩
  else
    match outs.head? with
    | some .firing => ⟨.refusedFiring, value⟩
    | _ => ⟨.refusedLit, value⟩

/-! ### Peak light (R111) -/

/-- A record after an evaluated sample of channel `n` was offered to it (R111): a FIRING record whose origin zone has
the channel as a member takes a larger sample as its peak light. -/
def State.peakRecord (s : State) (n : Chan) (v : LU) (r : TripRec) : TripRec :=
  match r.origin, r.peak with
  | some z, some p =>
    if decide (r.stage = .firing) && s.isMember z n && decide (p < v) then { r with peak := some v } else r
  | _, _ => r

/-- An evaluated sample of channel `n` is offered to every record (R111). -/
def State.offerPeak (s : State) (n : Chan) (v : LU) : State :=
  { s with trm.records := s.trm.records.map (s.peakRecord n v) }

end Sys2Proof.Machine
end

