-- ==== Sys2Proof/Machine/ZoneOps.lean ====
section
/-! DEFINITION. Operations of the Zone Evaluator (chapter 4) and of the drill (chapter 7). -/

namespace Sys2Proof.Machine

/-! ### Reading a zone -/

/-- The zone page in force (R73). -/
def State.zonePage (s : State) (z : Zone) : ZonePage := s.cfg.active.zones[z]

/-- The confirming set of a zone (R82). -/
def State.confirmingSet (s : State) (z : Zone) : IncomerSet :=
  s.feedSet (s.faultedRegion (s.zonePage z).location (s.zonePage z).scope)

/-- A zone is confirmed by current (R82). -/
def State.currentConfirms (s : State) (z : Zone) : Bool := s.live (s.confirmingSet z)

/-- The first member in configured order that is a voting member in pickup (R78). -/
def firstLitMember (page : ZonePage) (v : Vector MemberStatus 6) : Option Chan :=
  (List.finRange 6).findSome? fun i => if v[i].votes && v[i].pickup then page.memberAt i else none

/-- The trigger channel at the start of a filter (R78): the member of the status event where it is now a voting member
in pickup, otherwise the first such member. -/
def triggerOf (page : ZonePage) (v : Vector MemberStatus 6) (ev : Option Chan) : Option Chan :=
  match ev with
  | none => firstLitMember page v
  | some n =>
    if (List.finRange 6).any fun i => decide (page.memberAt i = some n) && v[i].votes && v[i].pickup then some n
    else firstLitMember page v

/-- A zone takes a state, with its entry time, and the CFG is told (R74, R97). -/
def State.enterZone (s : State) (z : Zone) (st : ZoneState) : State :=
  (s.modZone z fun r => { r with state := st, entryTime := s.alr.time }).noticeZones

/-! ### The drill register (R158, R164) -/

/-- A drill ends (R164): window stopped, drill flag cleared, the last-drill fields taken over, DRILL raised. -/
def State.endDrill (s : State) (why : EndReason) : State :=
  let d := s.zev.drill
  if !d.active then s
  else
    let t :=
      match d.zone with
      | some z => s.modZone z fun r => { r with drill := false }
      | none => s
    ({ t with
       zev.drill :=
         { d with
           active := false, zone := none, owner := none, window := .stopped, shown := 0
           lastZone := d.zone, lastOwner := d.owner, lastReason := why, lastShown := d.shown } } : State).raise .drill

/-! ### The arc decision (R83, R90, R160) -/

/-- A zone takes an arc decision (R90); a drill of the zone ends with it (R164). -/
def State.decideArc (s : State) (z : Zone) : State :=
  let r := s.zev.zones[z]
  let t := (s.openArc z r.trigger r.degraded).modZone z fun r =>
    { r with filter := .stopped, confirm := .stopped, phase := some .holding }
  let t := t.enterZone z .tripped
  if r.drill then t.endDrill .decision else t

/-- An unconfirmed zone passes to WAITING (R83). -/
def State.toWaiting (s : State) (z : Zone) : State :=
  (s.modZone z fun r => { r with filter := .stopped, confirm := .running (s.zonePage z).tcw.val }).enterZone z .waiting

/-- The expiry of an ENTRY filter (R83); under drill R160, where a LIGHT_ONLY zone is evaluated as CURRENT and an
unconfirmed expiry appends a DRILL record. -/
def State.entryFilterExpiry (s : State) (z : Zone) : State :=
  let r := s.zev.zones[z]
  if r.drill then
    if s.currentConfirms z then s.decideArc z
    else
      let t := s.appendDrill z r.trigger r.degraded
      ({ t with zev.drill.shown := satInc t.zev.drill.shown } : State).toWaiting z
  else if (s.zonePage z).confirm = .lightOnly ∨ s.currentConfirms z = true then s.decideArc z
  else s.toWaiting z

/-- The passage to LIT (R80); with a filter time of 0 the filter expires in the same event. -/
def State.toLit (s : State) (z : Zone) (ev : Option Chan) : State :=
  let page := s.zonePage z
  let t := (s.modZone z fun r =>
    { r with
      lit := true, degraded := voteDegraded page r.view, trigger := triggerOf page r.view ev
      filter := .running .entry page.tzf.val }).enterZone z .lit
  if page.tzf.val = 0 then t.entryFilterExpiry z else t

/-! ### Leaving the lit states (R81, R85, R88, R89) -/

/-- A zone whose vote is broken returns to QUIET (R81, R85, R88). -/
def State.toQuiet (s : State) (z : Zone) : State :=
  (s.modZone z fun r =>
    { r with
      lit := false, degraded := voteDegraded (s.zonePage z) r.view
      filter := .stopped, confirm := .stopped }).enterZone z .quiet

/-- A zone whose voting count falls to 0 passes to BLOCKED (R89). -/
def State.toBlocked (s : State) (z : Zone) : State :=
  ((s.modZone z fun r =>
    { r with lit := false, degraded := false, filter := .stopped, confirm := .stopped }).enterZone z .blocked).raise
      .zoneBlocked

/-! ### Re-strike evaluation (R92, R93) -/

/-- The faulted region of the open ARC record of a zone (R93); empty where it has none. -/
def State.recordRegion (s : State) (z : Zone) : SectSet :=
  match s.trm.records.find? (·.isArcOf z) with
  | some r => r.region
  | none => 0

/-- The expiry of a RESTRIKE filter (R93). -/
def State.restrikeFilterExpiry (s : State) (z : Zone) : State :=
  let confirmed := decide ((s.zonePage z).confirm = .lightOnly) || s.live (s.feedSet (s.recordRegion z))
  let t := if confirmed then s.restrike z else s
  t.modZone z fun r => { r with filter := .stopped, phase := some .holding }

/-- A re-strike filter is started (R92); with a filter time of 0 it expires in the same event. -/
def State.startRestrike (s : State) (z : Zone) (ev : Option Chan) : State :=
  let page := s.zonePage z
  let t := s.modZone z fun r =>
    { r with
      trigger := triggerOf page r.view ev, filter := .running .restrike page.tzf.val, phase := some .filtering }
  if page.tzf.val = 0 then t.restrikeFilterExpiry z else t

/-- The vote of a TRIPPED zone is taken up and moves the re-strike phase where it changed (R92). -/
def State.trippedVote (s : State) (z : Zone) (ev : Option Chan) : State :=
  let page := s.zonePage z
  let r := s.zev.zones[z]
  let sat := voteSatisfied page r.view
  let t := s.modZone z fun r => { r with lit := sat, degraded := voteDegraded page r.view }
  match r.phase, r.lit, sat with
  | some .holding, true, false => t.modZone z fun r => { r with phase := some .ready }
  | some .ready, false, true => t.startRestrike z ev
  | some .filtering, true, false => t.modZone z fun r => { r with phase := some .ready, filter := .stopped }
  | _, _, _ => t

/-! ### Status events (R76 to R92) -/

/-- A zone re-evaluates its vote after a change of its member view and acts on it in its present state (R76). -/
def State.reevaluate (s : State) (z : Zone) (ev : Option Chan) : State :=
  let page := s.zonePage z
  let r := s.zev.zones[z]
  let sat := voteSatisfied page r.view
  let keep := s.modZone z fun r => { r with degraded := voteDegraded page r.view }
  match r.state with
  | .disabled => s
  | .tripped => s.trippedVote z ev
  | .blocked =>
    if votingCount r.view = 0 then s
    else
      let t := s.toQuiet z
      if sat then t.toLit z ev else t
  | .quiet =>
    if votingCount r.view = 0 then s.toBlocked z else if sat then s.toLit z ev else keep
  | .lit | .waiting | .suppressed =>
    if votingCount r.view = 0 then s.toBlocked z else if sat then keep else s.toQuiet z

/-- A status event of channel `n` is taken at zone `z` (R76). -/
def State.statusEvent (s : State) (z : Zone) (n : Chan) (st : MemberStatus) : State :=
  let page := s.zonePage z
  (s.modZone z fun r =>
    { r with view := Vector.ofFn fun i => if page.memberAt i = some n then st else r.view[i] }).reevaluate z (some n)

/-- One event at the LCU on channel `n`: where it changes the channel's pickup or voting status, both are handed to the
channel's zone together, once (R7). -/
def State.lcuEvent (s : State) (n : Chan) (f : State → State) : State :=
  let t := f s
  if t.statusOf n = s.statusOf n then t
  else
    match t.zoneOf n with
    | none => t
    | some z => t.statusEvent z n (t.statusOf n)

/-! ### Confirming events (R84) -/

/-- The zones in WAITING whose confirming set is live (R84). -/
def State.deciders (s : State) : List Zone :=
  (List.finRange 8).filter fun z => decide (s.zev.zones[z].state = .waiting) && s.currentConfirms z

/-- Every zone in WAITING asks for its confirming set, and those it confirms decide, in a free order (R84, R91). -/
def State.askConfirmation (s : State) : State :=
  let ds := s.deciders
  if ds.isEmpty then s else s.inFreeOrder ds fun z t => t.decideArc z

/-- As `askConfirmation`, with evidence that arrives at the TRM together with the decisions: it is taken before them,
after them or between any two of them, as a free value has it (R130; log 13). -/
def State.askConfirmationWith (s : State) (evidence : State → State) : State :=
  let ds := s.deciders
  if ds.isEmpty then evidence s
  else
    let order := orderZones (Config.zoneRank s.freeTick) ds
    let n := Config.decisionsBeforeEvidence s.freeTick
    let t := (order.take n).foldl (fun t z => t.decideArc z) { s with freeTick := s.freeTick + 1 }
    (order.drop n).foldl (fun t z => t.decideArc z) (evidence t)

/-- The couplers that opened in an event at TOP, given its coupler records before it, are open evidence (R62, R114). -/
def State.couplerEvidence (s : State) (before : Vector CouplerRec 3) : State :=
  (newlyOpened before s.top.couplers).foldl (fun t j => t.openEvidence (.tc j)) s

/-- TOP hands on the changes of an event, given its coupler records before it (R62): open evidence for the couplers
that opened, and one topology event at the ZEV. -/
def State.topHandOff (s : State) (before : Vector CouplerRec 3) : State :=
  let t := s.couplerEvidence before
  if (changedCouplers before s.top.couplers).isEmpty then t else t.askConfirmation

/-! ### The close notice (R94) -/

/-- A zone leaves TRIPPED at the close notice of its record (R94). -/
def State.leaveTripped (s : State) (z : Zone) : State :=
  let page := s.zonePage z
  let t := s.modZone z fun r => { r with filter := .stopped, phase := none }
  let r := t.zev.zones[z]
  if !page.enabled then
    (t.modZone z fun r => { r with lit := false, degraded := false }).enterZone z .disabled
  else if votingCount r.view = 0 then t.toBlocked z
  else
    let t := t.toQuiet z
    if voteSatisfied page r.view then t.toLit z none else t

/-! ### Transfers (R98, R99) -/

/-- The member view of a zone rebuilt from the LCU (R98). -/
def State.viewOf (s : State) (z : Zone) : Vector MemberStatus 6 :=
  Vector.ofFn fun i =>
    match (s.zonePage z).memberAt i with
    | some n => s.statusOf n
    | none => ⟨false, false⟩

/-- The state in which a zone that is not TRIPPED is placed (R98, R100). -/
def placedState (page : ZonePage) (v : Vector MemberStatus 6) : ZoneState :=
  if !page.enabled then .disabled else if votingCount v = 0 then .blocked else .quiet

/-- The phase of a TRIPPED zone after a transfer (R99), but for the start of a filter: a zone that is to start one is
left in READY with its vote satisfied. -/
def phaseAfterTransfer (p : Option Phase) (sat : Bool) : Option Phase :=
  match p, sat with
  | some .holding, true => some .holding
  | some .holding, false => some .ready
  | some .ready, _ => some .ready
  | some .filtering, _ => some .ready
  | none, _ => none

/-- A zone record taken up by a transfer, before any filter starts (R98, R99). -/
def ZoneRec.placed (r : ZoneRec) (page : ZonePage) (v : Vector MemberStatus 6) (now : Time) : ZoneRec :=
  let sat := voteSatisfied page v
  match r.state with
  | .tripped =>
    { r with
      view := v, lit := sat, degraded := voteDegraded page v, phase := phaseAfterTransfer r.phase sat
      filter := .stopped }
  | _ =>
    let st := placedState page v
    { r with
      view := v, lit := sat, degraded := voteDegraded page v, state := st, filter := .stopped, confirm := .stopped
      entryTime := if st = r.state then r.entryTime else now }

/-- A zone enters BLOCKED by its placement (R98). -/
def State.blockedByPlacement (s : State) (z : Zone) : Bool :=
  let r := s.zev.zones[z]
  decide (r.state ≠ .tripped) && decide (r.state ≠ .blocked) && decide (placedState (s.zonePage z) (s.viewOf z) = .blocked)

/-- A placed zone takes the passage to LIT, or starts its re-strike filter afresh, where its vote is satisfied
(R98, R99). -/
def State.startPlaced (s : State) (z : Zone) : State :=
  let r := s.zev.zones[z]
  if !r.lit then s
  else
    match r.state, r.phase with
    | .quiet, _ => s.toLit z none
    | .tripped, some .ready => s.startRestrike z none
    | _, _ => s

/-- Every zone is placed anew (R98, R99), with ZONE_BLOCKED where one entered BLOCKED, and the CFG is told. -/
def State.placeAll (s : State) : State :=
  let t : State :=
    { s with
      zev.zones := Vector.ofFn fun z => s.zev.zones[z].placed (s.zonePage z) (s.viewOf z) s.alr.time }
  (if (List.finRange 8).any s.blockedByPlacement then t.raise .zoneBlocked else t).noticeZones

/-- A filter of this zone that is started would expire at once. -/
def State.instant (s : State) (z : Zone) : Bool := decide ((s.zonePage z).tzf.val = 0)

/-- The filters of the zones start, of those with a filter time first; those with a filter time of 0 expire at once, in
a free order (R98, R99, R91, log 12). -/
def State.startAllPlaced (s : State) : State :=
  let t := ((List.finRange 8).filter fun z => !s.instant z).foldl (fun t z => t.startPlaced z) s
  let fast := (List.finRange 8).filter fun z => s.instant z && s.zev.zones[z].lit
  if fast.isEmpty then t else t.inFreeOrder fast fun z t => t.startPlaced z

/-- The ZEV takes up a new image (R98, R99). -/
def State.placeZones (s : State) : State := s.placeAll.startAllPlaced

end Sys2Proof.Machine
end

