-- ==== Sys2Proof/Machine/LightOps.lean ====
section
/-! DEFINITION. Operations of the Light Channel Unit (chapter 1): levels, states, learning, flashes and storms, and the
abort of a test by a pickup (R39). -/

namespace Sys2Proof.Machine

/-! ### Levels and states (R4, R8) -/

/-- The pickup level P (R4); the gain is held in half units, so the product is halved, rounded down. -/
def pickupLevelOf (page : ChannelPage) (baseline : LU) (valid : Bool) : Nat :=
  if valid then min 4000 (max page.floor.val (baseline.toNat * page.gain.val / 2)) else page.floor.val

/-- The drop level D (R4). -/
def dropLevelOf (page : ChannelPage) (p : Nat) : Nat := p * page.dropRatio.val / 100

/-- Recompute P and D (R4). -/
def Channel.withLevels (c : Channel) (page : ChannelPage) : Channel :=
  let p := pickupLevelOf page c.baseline c.valid
  { c with pickupLevel := BitVec.ofNat 12 p, dropLevel := BitVec.ofNat 12 (dropLevelOf page p) }

/-- The channel state by the precedence table of R8. -/
def stateOf (page : ChannelPage) (c : Channel) : ChanState :=
  if page.target = .off then .off
  else if c.held then .held
  else if page.mode = .learned ∧ c.valid = false then .learn
  else if c.demoted then .observe
  else if page.target = .armed then .armed
  else .observe

/-- Learning starts at an entry into LEARN (R10); `tLearn` is in ms. -/
def Channel.enterLearn (c : Channel) (tLearn : Nat) : Channel :=
  { c with
    restarts := 0, candidate := 0, disturbance := false
    window := if c.pickup then .stopped else .running tLearn }

/-- Learning is abandoned (R14); the candidate is discarded, so it holds no sample (log 11). -/
def Channel.abandonLearn (c : Channel) : Channel := { c with window := .stopped, candidate := 0, disturbance := false }

/-- The state is recomputed (R8), with what its change brings: leaving LEARN abandons learning (R14), entering it starts
learning (R10). -/
def Channel.recompute (c : Channel) (page : ChannelPage) (tLearn : Nat) : Channel :=
  let st := stateOf page c
  if st = c.state then c
  else
    let left := if c.state = .learn then c.abandonLearn else c
    let c' : Channel := { left with state := st }
    if st = .learn then c'.enterLearn tLearn else c'

/-- The channel page in force (R1). -/
def State.chanPage (s : State) (n : Chan) : ChannelPage := s.cfg.active.chans[n]

/-- t_learn in ms (R10). -/
def State.tLearn (s : State) : Nat := s.cfg.active.board.tLearn.val * 1000

/-- Recompute the state of a channel (R8). -/
def State.recomputeChan (s : State) (n : Chan) : State := s.modChan n fun c => c.recompute (s.chanPage n) s.tLearn

/-! ### Learning (R13, R15) -/

/-- The expiry of the learning window (R13): the candidate becomes the baseline, and the state follows without the
learning being abandoned. -/
def Channel.learned (c : Channel) (page : ChannelPage) : Channel :=
  let c' := { c with window := .stopped, baseline := c.candidate, valid := true, restarts := 0 }.withLevels page
  { c' with state := stateOf page c' }

/-- An accepted RELEARN (R15): the baseline is not valid, and the channel learns afresh, in LEARN as at an entry into
it. -/
def Channel.relearn (c : Channel) (page : ChannelPage) (tLearn : Nat) : Channel :=
  let c' := ({ c with valid := false }.withLevels page)
  if c.state = .learn then c'.enterLearn tLearn else c'.recompute page tLearn

/-! ### Hold and invalidation (R17, R44) -/

/-- The FSU sets or clears the held flag, and where `invalidate` marks the baseline not valid, which has no effect in
mode FIXED (R17). -/
def Channel.hold (c : Channel) (page : ChannelPage) (tLearn : Nat) (held invalidate : Bool) : Channel :=
  let c' := if invalidate && decide (page.mode = .learned) then { c with valid := false }.withLevels page else c
  { c' with held := held }.recompute page tLearn

/-! ### Flashes (R5, R6, R18, R21, R12) -/

/-- A sample at or above P starts pickup and a flash (R5); in LEARN it is a disturbance (R12). -/
def Channel.startPickup (c : Channel) (now : Time) : Channel :=
  let c' := { c with pickup := true, dropRun := 0, flash := some ⟨now, 0, none⟩ }
  if c.state = .learn then { c' with window := .stopped, candidate := 0, disturbance := true } else c'

/-- A sample below P outside pickup reaches the candidate while the learning window runs (R11). -/
def Channel.offerCandidate (c : Channel) (v : LU) : Channel :=
  if decide (c.state = .learn) && c.window.isRunning && decide (c.candidate < v) then { c with candidate := v } else c

/-- The histogram bucket of a run start index (R18). -/
def bucketOf (idx : Word) : Fin 6 :=
  let i := idx.toNat
  if i < 20 then 0 else if i < 80 then 1 else if i < 320 then 2 else if i < 1280 then 3 else if i < 5120 then 4 else 5

/-- A flash ends with this start and duration: pickup false, counted, and the flash-ended flag set (R6, R18, R22). -/
def Channel.endFlash (c : Channel) (start : Time) (duration : Word) : Channel :=
  { c with
    pickup := false, dropRun := 0, flash := none, lastFlash := some ⟨start, duration⟩, flashEnded := true
    hist := modAt c.hist (bucketOf duration) satInc }

/-- A flash of channel `n` is set against its storm count unless its zone is TRIPPED or under drill (R21). -/
def State.countsAgainstStorm (s : State) (n : Chan) : Bool :=
  match s.zoneOf n with
  | none => true
  | some z => decide (s.zev.zones[z].state ≠ .tripped) && !s.zev.zones[z].drill

/-- The storm count passes the limit with this flash (R21): it is raised to one more than a limit that is not 0. -/
def stormPasses (page : ChannelPage) (c : Channel) : Bool :=
  decide (page.stormLimit.val ≠ 0) && decide (c.stormCount.toNat + 1 = page.stormLimit.val + 1)

/-- A flash is set against the storm count of channel `n` (R21): STORM, and demotion where the storm action is DEMOTE. -/
def State.stormFlash (s : State) (n : Chan) : State :=
  let page := s.chanPage n
  let passes := stormPasses page s.lcu[n]
  let t := s.modChan n fun c =>
    let c' := { c with stormCount := satInc c.stormCount }
    if passes && decide (page.stormAction = .demote) && decide (page.target = .armed) && !c.demoted then
      { c' with demoted := true, quiet := 0 }.recompute page s.tLearn
    else c'
  if passes then t.raise .storm else t

/-- The dropout of a channel in LEARN (R10, R12): the window is started; after a disturbance it is a restart, and the
third raises LEARN_FAULT. -/
def State.learnDropout (s : State) (n : Chan) : State :=
  let c := s.lcu[n]
  if c.state ≠ .learn then s
  else if c.disturbance then
    let t := s.modChan n fun c =>
      { c with restarts := satInc c.restarts, candidate := 0, window := .running s.tLearn, disturbance := false }
    if c.restarts = 2 then t.raise .learnFault else t
  else s.modChan n fun c => { c with window := .running s.tLearn }

/-- Pickup ends at a sample (R6): the flash is counted, set against the storm count, and taken up by learning. -/
def State.endPickup (s : State) (n : Chan) (start : Time) (duration : Word) : State :=
  let t := s.modChan n fun c => c.endFlash start duration
  let t := if s.countsAgainstStorm n then t.stormFlash n else t
  t.learnDropout n

/-- An evaluated sample during pickup (R6). -/
def State.pickupSample (s : State) (n : Chan) (v : LU) : State :=
  let c := s.lcu[n]
  let f := c.flash.getD ⟨s.alr.time, 0, none⟩
  let idx := satInc f.index
  if c.dropLevel ≤ v then
    s.modChan n fun c => { c with dropRun := 0, flash := some { f with index := idx, runStart := none } }
  else
    let start := if c.dropRun = 0 then idx else f.runStart.getD idx
    if (s.chanPage n).dropCount.val ≤ c.dropRun + 1 then s.endPickup n f.start start
    else
      s.modChan n fun c =>
        { c with dropRun := c.dropRun + 1, flash := some { f with index := idx, runStart := some start } }

/-! ### The abort of a test (R39) -/

/-- The test in flight is aborted (R39): emitter off, mask and testing flag clear, A discarded, outcome ABORTED, a
capture FAILED, and the CFG told that the test has ended (R178). -/
def State.abortTest (s : State) : State :=
  match s.fsu.test with
  | none => s
  | some t =>
    let u : State := { s with fsu.test := none }
    let u := u.modChan t.chan fun c => { c with mask := false }
    let u := u.modClarity t.chan fun r =>
      { r with
        testing := false, lastOutcome := .aborted
        capture := if t.kind = .capture then .failed else r.capture }
    u.noticeTest

/-- Two channels are members of one zone in the active image (R39). -/
def State.fellows (s : State) (m n : Chan) : Bool := (List.finRange 8).any fun z => s.isMember z m && s.isMember z n

/-- A pickup on channel `m` aborts the test of another member of its zone (R39). -/
def State.pickupAborts (s : State) (m : Chan) : State :=
  match s.fsu.test with
  | none => s
  | some t => if decide (t.chan ≠ m) && s.fellows m t.chan then s.abortTest else s

/-! ### Evaluation of a sample (R3) -/

/-- An evaluated sample (R3): offered to the open records, and then to pickup and learning. The offer comes first, so a
record opened by this very sample does not take it (R111, log 25). -/
def State.evaluateSample (s : State) (n : Chan) (v : LU) : State :=
  s.lcuEvent n fun s =>
    let s := s.offerPeak n v
    let c := s.lcu[n]
    if c.pickup then s.pickupSample n v
    else if c.pickupLevel ≤ v then (s.modChan n fun c => c.startPickup s.alr.time).pickupAborts n
    else s.modChan n fun c => c.offerCandidate v

/-! ### Storm windows (R20, R22) -/

/-- The expiry of a storm window (R20, R22): the storm count is cleared, a demoted channel's window is judged, a tenth
quiet window restores the channel, and the flash-ended flag is cleared. -/
def Channel.stormExpiry (c : Channel) (page : ChannelPage) (tLearn : Nat) : Channel :=
  let wasQuiet := !c.flashEnded && c.flash.isNone
  let c' := { c with stormCount := 0, stormWindow := .running 1000, flashEnded := false }
  if c.demoted then
    if !wasQuiet then { c' with quiet := 0 }
    else if 10 ≤ c.quiet + 1 then { c' with demoted := false, quiet := 0 }.recompute page tLearn
    else { c' with quiet := c.quiet + 1 }
  else { c' with quiet := 0 }

/-! ### Transfers (R23 to R25) -/

/-- A channel takes up a changed page (R23, R24, R25). `o` is the page before, `p` the page after. The held flag is
cleared where the FSU sets its clarity to UNTESTED or UNSUPERVISED (R17, R48). That a flash which the passage to OFF ends
uncounted leaves the flash-ended flag as it was is the model's choice: R23 does not name this flag (log 34). -/
def Channel.takeUp (c : Channel) (o p : ChannelPage) (tLearn : Nat) : Channel :=
  let toOff := decide (p.target = .off) && decide (o.target ≠ .off)
  let unsupervised := decide (o.aRef ≠ 0) && decide (p.aRef = 0)
  let clearDemoted :=
    (decide (p.target ≠ o.target) && decide (p.target ≠ .armed)) ||
      (decide (o.stormAction = .demote) && decide (p.stormAction ≠ .demote))
  let c := if toOff then { c with pickup := false, flash := none, dropRun := 0 } else c
  let c := if clearDemoted then { c with demoted := false, quiet := 0 } else c
  let c := if toOff || unsupervised then { c with held := false } else c
  let c :=
    if p.mode = .fixed ∧ (o.mode = .learned ∨ o.fixedBaseline ≠ p.fixedBaseline) then
      { c with baseline := BitVec.ofNat 12 p.fixedBaseline.val, valid := true }
    else if p.mode = .learned ∧ o.mode = .fixed then { c with valid := false }
    else c
  (c.withLevels p).recompute p tLearn

end Sys2Proof.Machine
end

