-- ==== Sys2Proof/Machine/SupervisionOps.lean ====
section
/-! DEFINITION. Operations of the Fibre Supervision Unit (chapter 2): choosing a channel, the test, clarity, capture. -/

namespace Sys2Proof.Machine

/-! ### Eligibility (R34) -/

/-- A zone state is at rest for supervision (R34). -/
def ZoneState.atRest : ZoneState → Bool
  | .quiet | .blocked | .disabled => true
  | .lit | .waiting | .suppressed | .tripped => false

/-- The zone of a channel is at rest; a channel in no zone counts as being in one (R34). -/
def State.zoneAtRest (s : State) (n : Chan) : Bool :=
  match s.zoneOf n with
  | none => true
  | some z => s.zev.zones[z].state.atRest

/-- Light stands in the way of a test: the channel is in pickup, or its zone is not at rest (R34, R35). -/
def State.lightBars (s : State) (n : Chan) : Bool := s.lcu[n].pickup || !s.zoneAtRest n

/-- A channel may be tested at all: its state is not OFF and, unless it is for a capture, its A_ref is not 0 (R34). -/
def State.mayTest (s : State) (n : Chan) (k : TestKind) : Bool :=
  decide (s.lcu[n].state ≠ .off) && (decide (k = .capture) || decide ((s.chanPage n).aRef ≠ 0))

/-- A channel is eligible for a kind of test (R34). -/
def State.eligible (s : State) (n : Chan) (k : TestKind) : Bool := s.mayTest n k && !s.lightBars n

/-! ### The start of a test (R36) -/

/-- A test is started (R36), and the CFG is told (R178). -/
def State.startTest (s : State) (n : Chan) (k : TestKind) : State :=
  let u : State := { s with fsu.test := some ⟨n, k, 0, 40⟩ }
  let u := u.modChan n fun c => { c with mask := true }
  let u := u.modClarity n fun r =>
    { r with testing := true, capture := if k = .capture then .testing else r.capture }
  u.noticeTest

/-! ### The request queue (R33) -/

/-- A request for a channel is dropped at the head (R33): SKIPPED, and a capture FAILED. -/
def State.skipRequest (s : State) (r : Request) : State :=
  s.modClarity r.chan fun c =>
    { c with lastOutcome := .skipped, capture := if r.kind = .capture then .failed else c.capture }

/-- The kind of test a request asks for. -/
def ReqKind.testKind : ReqKind → TestKind
  | .test => .test
  | .capture => .capture

/-- A request is dropped when it reaches the head (R33 steps 1 and 2). -/
def State.dropsRequest (s : State) (r : Request) : Bool :=
  decide ((s.chanPage r.chan).target = .off) ||
    (decide (r.kind = .test) && decide ((s.chanPage r.chan).aRef = 0))

/-- The queue is served (R33): requests at the head that can have no test are dropped, and the head then left is
started where it is eligible; otherwise it stays, and the queue is what is left. -/
def State.serveQueue (s : State) : List Request → State
  | [] => { s with fsu.queue := [] }
  | r :: rest =>
    if s.dropsRequest r then (s.skipRequest r).serveQueue rest
    else if s.eligible r.chan r.kind.testKind then
      ({ s with fsu.queue := rest } : State).startTest r.chan r.kind.testKind
    else { s with fsu.queue := r :: rest }

/-! ### The round-robin scan (R35) -/

/-- The channel after one, wrapping from L15 to L0. -/
def nextChan (n : Chan) : Chan := ⟨(n.val + 1) % 16, by omega⟩

/-- The channel `i` places after one, wrapping. -/
def chanAfter (n : Chan) (i : Fin 16) : Chan := ⟨(n.val + i.val) % 16, by omega⟩

/-- The sixteen channels in scan order from a channel (R35). -/
def scanOrder (n : Chan) : List Chan := (List.finRange 16).map (chanAfter n)

/-- A channel passed over for light has its defer count raised (R35). -/
def State.deferChan (s : State) (n : Chan) : State :=
  if s.mayTest n .roundRobin && s.lightBars n then
    s.modClarity n fun r => { r with deferCount := satInc r.deferCount }
  else s

/-- A round-robin scan over the channels still to be examined (R35). -/
def State.scan (s : State) : List Chan → State
  | [] => s
  | n :: rest =>
    if s.eligible n .roundRobin then ({ s with fsu.pointer := nextChan n } : State).startTest n .roundRobin
    else (s.deferChan n).scan rest

/-! ### Classification (R38, R40 to R43) -/

/-- The clarity C of an amplitude (R38). -/
def clarityOf (a aRef : LU) : Nat := min 255 (a.toNat * 100 / aRef.toNat)

/-- The outcome of a clarity (R38). -/
def outcomeOf (b : BoardPage) (c : Nat) : TestOutcome :=
  if 150 < c then .overlaid
  else if c < 5 then .dark
  else if c < b.blindB.val then .lowBlind
  else if c < b.soiledW.val then .lowSoiled
  else .good

/-- The class of a clarity without hysteresis (R41, UNTESTED and CLEAN). -/
def classOf (b : BoardPage) (c : Nat) : Clarity :=
  if c < b.blindB.val then .blind else if c < b.soiledW.val then .soiled else .clean

/-- The clarity state after a classified outcome (R41, R42). -/
def clarityAfter (b : BoardPage) (old : Clarity) (dark good : Byte) (c : Nat) : Clarity :=
  match old with
  | .broken => if b.kc.val ≤ good.toNat then classOf b c else .broken
  | .untested | .unsupervised | .clean => if b.ka.val ≤ dark.toNat then .broken else classOf b c
  | .soiled =>
    if b.ka.val ≤ dark.toNat then .broken
    else if c < b.blindB.val then .blind
    else if b.soiledW.val + b.hystH.val ≤ c then .clean
    else .soiled
  | .blind =>
    if b.ka.val ≤ dark.toNat then .broken
    else if c < b.blindB.val + b.hystH.val then .blind
    else if c < b.soiledW.val then .soiled
    else .clean

/-- The clarity states that hold the channel (section 2.6). -/
def Clarity.holds : Clarity → Bool
  | .blind | .broken => true
  | .untested | .unsupervised | .clean | .soiled => false

/-- The record after a classified outcome (R38, R40, R41, R42). -/
def ClarityRec.classify (r : ClarityRec) (b : BoardPage) (o : TestOutcome) (c : Nat) : ClarityRec :=
  let dark := if o = .dark then satInc r.darkRun else 0
  let good := if o = .dark then 0 else satInc r.goodRun
  { r with
    lastC := BitVec.ofNat 8 c, lastOutcome := o, darkRun := dark, goodRun := good
    clarity := clarityAfter b r.clarity dark good c }

/-- The alert of an entry into a clarity state (R43). -/
def clarityAlert : Clarity → Option Alert
  | .soiled => some .sensorSoiled
  | .blind | .broken => some .sensorLost
  | .untested | .unsupervised | .clean => none

/-- A classified outcome is taken up (R38 to R44): the record, the alert of a changed state, and the hold, release or
invalidation of the channel that follows. -/
def State.classify (s : State) (n : Chan) (o : TestOutcome) (c : Nat) : State :=
  let old := s.fsu.clarity[n].clarity
  let t := s.modClarity n fun r => r.classify s.cfg.active.board o c
  let new := t.fsu.clarity[n].clarity
  if new = old then t
  else
    let t := match clarityAlert new with | some a => t.raise a | none => t
    let breaks := decide (new = .broken)
    if old.holds = new.holds ∧ breaks = false then t
    else t.modChan n fun ch => ch.hold (t.chanPage n) t.tLearn new.holds breaks

/-! ### Capture (R46, R47) -/

/-- Write the reference amplitude of a channel into the staged image (R46). -/
def State.stageARef (s : State) (n : Chan) (a : LU) : State :=
  { s with cfg.staged.chans := modAt s.cfg.staged.chans n fun p => { p with aRef := a } }

/-- The end of a capture test (R46): its amplitude is staged, unless the outcome is OVERLAID or a commit is pending. -/
def State.endCapture (s : State) (n : Chan) (o : TestOutcome) (a : LU) : State :=
  if o = .overlaid ∨ s.cfg.pendingCommit = true then s.modClarity n fun r => { r with capture := .failed }
  else (s.stageARef n a).modClarity n fun r => { r with capture := .done, captured := some a }

/-! ### Completion (R38) -/

/-- The outcome of a test by its amplitude and the reference in force (R38, R47). -/
def State.testOutcome (s : State) (t : TestRun) : TestOutcome :=
  let aRef := (s.chanPage t.chan).aRef
  if aRef = 0 then (if t.amplitude = 0 then .dark else .good)
  else outcomeOf s.cfg.active.board (clarityOf t.amplitude aRef)

/-- The outcome sets the record: without a reference (R47) or for OVERLAID (R45) only the last outcome, otherwise it is
classified (R38). -/
def State.judge (s : State) (t : TestRun) : State :=
  let aRef := (s.chanPage t.chan).aRef
  let o := s.testOutcome t
  if aRef = 0 ∨ o = .overlaid then s.modClarity t.chan fun r => { r with lastOutcome := o }
  else s.classify t.chan o (clarityOf t.amplitude aRef)

/-- The test is complete (R38): emitter off, mask and testing flag clear, the outcome taken up, and the CFG told
(R178). The channel's zone sees at most one change of its status. -/
def State.completeTest (s : State) : State :=
  match s.fsu.test with
  | none => s
  | some t =>
    s.lcuEvent t.chan fun s =>
      let u : State := { s with fsu.test := none }
      let u := u.modChan t.chan fun c => { c with mask := false }
      let u := u.modClarity t.chan fun r => { r with testing := false }
      let o := u.testOutcome t
      let u := u.judge t
      let u := if t.kind = .capture then u.endCapture t.chan o t.amplitude else u
      u.noticeTest

/-- A sample of the tested channel (R3, R36, R37): taken into A; with the fortieth the window ends and the test is
complete. -/
def State.testSample (s : State) (n : Chan) (v : LU) : State :=
  match s.fsu.test with
  | none => s
  | some t =>
    if t.chan ≠ n then s
    else
      let t' : TestRun :=
        { t with amplitude := if t.amplitude < v then v else t.amplitude, samplesLeft := t.samplesLeft - 1 }
      let u := ({ s with fsu.test := some t' } : State).settleDue
      if t'.samplesLeft = 0 then u.completeTest else u

/-! ### Loss of the claim (R32) -/

/-- A capture request becomes a test request in its place (R32). -/
def Request.loseClaim (r : Request) : Request := { r with kind := .test }

/-- A capture of channel `n` is queued or in flight. -/
def State.capturing (s : State) (n : Chan) : Bool :=
  s.fsu.queue.contains ⟨n, .capture⟩ ||
    match s.fsu.test with
    | some t => decide (t.chan = n) && decide (t.kind = .capture)
    | none => false

/-- Every capture under way loses its claim (R32). -/
def State.capturesLoseClaim (s : State) : State :=
  { s with
    fsu.clarity := Vector.ofFn fun n =>
      if s.capturing n then { s.fsu.clarity[n] with capture := .failed } else s.fsu.clarity[n]
    fsu.queue := s.fsu.queue.map Request.loseClaim
    fsu.test := s.fsu.test.map fun t => { t with kind := if t.kind = .capture then .test else t.kind } }

/-! ### Transfers (R48) -/

/-- A clarity record takes up a changed channel page (R48). -/
def ClarityRec.takeUp (r : ClarityRec) (o p : ChannelPage) : ClarityRec :=
  let toOff := decide (p.target = .off) && decide (o.target ≠ .off)
  let crossed := decide (o.aRef = 0) != decide (p.aRef = 0)
  if toOff || crossed then
    { r with clarity := if p.aRef = 0 then .unsupervised else .untested, darkRun := 0, goodRun := 0 }
  else r

end Sys2Proof.Machine
end

