-- ==== Sys2Proof/Machine/ConfigOps.lean ====
section
/-! DEFINITION. Operations of the Configuration Store (chapter 8) and what a port's leaving LIVE brings (R54, R173,
R196): the edit claim, validation, the transfer. -/

namespace Sys2Proof.Machine

/-! ### The edit claim (R172, R173) -/

/-- The claim is released, by a YIELD or a lapse (R172, R173): unfrozen edits are discarded, and captures lose their
claim (R32). -/
def State.releaseClaim (s : State) : State :=
  let t : State := { s with cfg.claim := none }
  let t : State := if t.cfg.pendingCommit then t else { t with cfg.staged := t.cfg.active }
  t.capturesLoseClaim

/-- The claim lapses where this port holds it (R173). -/
def State.lapseClaim (s : State) (p : Port) : State := if s.cfg.claim = some p then s.releaseClaim else s

/-! ### Validation (R176) -/

/-- A slot is occupied (R169). -/
def occupied (v : Byte) : Bool := decide (v ≠ 255)

/-- An empty slot stands before an occupied one (R176 check 1). -/
def gapBefore : List Byte → Bool
  | [] => false
  | v :: rest => (!occupied v && rest.any occupied) || gapBefore rest

/-- The occupied slots of a zone page (R169). -/
def occupiedSlots (z : ZonePage) : List Byte := z.slots.toList.filter occupied

/-- Check 1 of R176 fails at a zone. -/
def badMember (z : ZonePage) : Bool :=
  (z.slots.toList.any fun v => decide (16 ≤ v.toNat) && occupied v) || gapBefore z.slots.toList

/-- Check 2 of R176 fails at a zone. -/
def dupMember (z : ZonePage) : Bool := !decide (occupiedSlots z).Nodup

/-- Check 3 of R176 fails at zone `z`: a channel of it stands in the list of another zone too (log 18). -/
def sharedChannel (img : Image) (z : Zone) : Bool :=
  (List.finRange 8).any fun y => decide (y ≠ z) && (occupiedSlots img.zones[z]).any fun v => decide (v ∈ occupiedSlots img.zones[y])

/-- Check 4 of R176 fails at a zone. -/
def emptyZone (z : ZonePage) : Bool := z.enabled && (occupiedSlots z).isEmpty

/-- Check 5 of R176 fails at a zone. -/
def badLocation (b : BoardPage) (z : ZonePage) : Bool :=
  z.enabled &&
    match z.location with
    | .sect _ => false
    | .coupler k => !b.coupler[k]

/-- The first zone at which a check fails (R176). -/
def firstZone (f : Zone → Bool) : Option Zone := (List.finRange 8).find? f

/-- The first failure of the validation of an image, with its zone, absent where it is the board's (R176). -/
def validate (img : Image) : Option (CommitFault × Option Zone) :=
  match firstZone fun z => badMember img.zones[z] with
  | some z => some (.badMember, some z)
  | none =>
  match firstZone fun z => dupMember img.zones[z] with
  | some z => some (.dupMember, some z)
  | none =>
  match firstZone fun z => sharedChannel img z with
  | some z => some (.sharedChannel, some z)
  | none =>
  match firstZone fun z => emptyZone img.zones[z] with
  | some z => some (.emptyZone, some z)
  | none =>
  match firstZone fun z => badLocation img.board img.zones[z] with
  | some z => some (.badLocation, some z)
  | none =>
  if ¬ (img.board.tMin.val < img.board.tBf.val ∧ img.board.tBf.val < img.board.tCoil.val) then some (.timing, none)
  else if ¬ img.board.blindB.val < img.board.soiledW.val then some (.clarity, none)
  else if (img.zones.toList.any (·.enabled)) && !(img.board.incomer.toList.any id) then some (.noIncomer, none)
  else none

/-- The reason number of an INVALID reply (R204: 1 to 8 in the order of R176). -/
def faultCode : CommitFault → Nat
  | .badMember => 1
  | .dupMember => 2
  | .sharedChannel => 3
  | .emptyZone => 4
  | .badLocation => 5
  | .timing => 6
  | .clarity => 7
  | .noIncomer => 8

/-- The value of an INVALID reply (R204): the reason in the high byte, the zone or FFh in the low byte. -/
def invalidValue (f : CommitFault) (z : Option Zone) : Word :=
  BitVec.ofNat 16 (faultCode f * 256 + match z with | some z => z.val | none => 255)

/-! ### Leaving LIVE (R54, R196) -/

/-- A report record of NONE (R54). -/
def ReportRec.empty : ReportRec := ⟨.none, .none, .none⟩

/-- TOP's part of a port leaving LIVE (R54): its record is NONE, the couplers of its section are resolved again, and the
changes are handed on. -/
def State.dropReport (s : State) (p : Port) : State :=
  let t := (s.setReport p ReportRec.empty).topResolve (adjacent p)
  t.topHandOff s.top.couplers

/-- A port changes state, with its record window selection and half latch gone (R195, R152, R154). -/
def PortRec.enter (r : PortRec) (st : PortState) (silent heartbeat : Timer) : PortRec :=
  { r with state := st, silentTimer := silent, heartbeat := heartbeat, selection := none, latch := none }

/-- The drill ends where this port owns it (R164, R196). -/
def State.endOwnedDrill (s : State) (p : Port) : State :=
  if s.zev.drill.active && decide (s.zev.drill.owner = some p) then s.endDrill .ownerLost else s

/-- The drilled zone would decide in the topology event of the port's leaving, so that OWNER_LOST and DECISION both
stand for the end of the drill (R164, log 14). -/
def State.drillRace (s : State) (p : Port) : Bool :=
  decide (s.zev.drill.owner = some p) &&
    ((s.setReport p ReportRec.empty).topResolve (adjacent p)).deciders.any fun z => s.zev.zones[z].drill

/-- A LIVE port becomes STALE (R195, R196): its report is dropped, its claim lapses, its drill ends, PEER_STALE is raised
on the other used ports, and its selection is none. Where the drilled zone decides in the same event, either end of the
drill may be taken first (log 14). -/
def State.leaveLive (s : State) (p : Port) : State :=
  let s := s.modPort p fun r => r.enter .stale .stopped .stopped
  let t :=
    if s.drillRace p then
      let (first, s) := s.draw
      if first then (s.endOwnedDrill p).dropReport p else (s.dropReport p).endOwnedDrill p
    else (s.dropReport p).endOwnedDrill p
  (t.lapseClaim p).raiseOthers .peerStale p

/-! ### The transfer (R179) -/

/-- The channel page of `n` differs between two images (R23, R48). -/
def pageChanged (o p : Image) (n : Chan) : Bool := decide (o.chans[n] ≠ p.chans[n])

/-- The FSU and the LCU take up a new image that is already active; `o` is the image before (R23 to R25, R39, R48). -/
def State.takeUpChannels (s : State) (o : Image) : State :=
  let p := s.cfg.active
  let s :=
    match s.fsu.test with
    | some t => if pageChanged o p t.chan then s.abortTest else s
    | none => s
  { s with
    lcu := Vector.ofFn fun n =>
      if pageChanged o p n then s.lcu[n].takeUp o.chans[n] p.chans[n] s.tLearn else s.lcu[n]
    fsu.clarity := Vector.ofFn fun n =>
      if pageChanged o p n then s.fsu.clarity[n].takeUp o.chans[n] p.chans[n] else s.fsu.clarity[n] }

/-- I_k becomes absent with this change of image (R71, R197). -/
def becomesAbsent (o p : Image) (k : Incomer) : Bool := o.board.incomer[k] && !p.board.incomer[k]

/-- I_k becomes present with this change of image (R71, R197). -/
def becomesPresent (o p : Image) (k : Incomer) : Bool := !o.board.incomer[k] && p.board.incomer[k]

/-- A port takes up the presence of its incomer (R197). -/
def PortRec.takeUp (r : PortRec) (absent present : Bool) : PortRec :=
  if absent then r.enter .unused .stopped .stopped
  else if present then r.enter .silent (.running 2000) .stopped
  else r

/-- A coupler is present in an image; where it does not exist it is not (R51). -/
def couplerPresent (img : Image) (j : Option Coupler) : Bool :=
  match j with
  | some j => img.board.coupler[j]
  | none => false

/-- A report record takes up a new image (R71 steps 1 and 2): NONE where its port changed use, and NONE for an absent
coupler. -/
def ReportRec.takeUp (r : ReportRec) (img : Image) (k : Port) (changed : Bool) : ReportRec :=
  if changed then ReportRec.empty
  else
    { r with
      left := if couplerPresent img (leftCoupler k) then r.left else .none
      right := if couplerPresent img (rightCoupler k) then r.right else .none }

/-- The ports and the report records as a new image that is already active sets them; `o` is the image before (R71
steps 1 and 2, R197). -/
def State.boardSet (s : State) (o : Image) : State :=
  { s with
    lnk := Vector.ofFn fun k =>
      s.lnk[k].takeUp (becomesAbsent o s.cfg.active k) (becomesPresent o s.cfg.active k)
    top.reports := Vector.ofFn fun k =>
      s.top.reports[k].takeUp s.cfg.active k (becomesAbsent o s.cfg.active k || becomesPresent o s.cfg.active k) }

/-- TOP and the ports take up a new image that is already active: ports and reports, then the couplers, the islands and
the hand-off (R71, R197). -/
def State.takeUpBoard (s : State) (o : Image) : State :=
  ((s.boardSet o).topResolve fun _ => true).topHandOff s.top.couplers

/-- The ports that a change of image takes out of LIVE (R196, R197). -/
def State.leavers (s : State) (o p : Image) : List Port :=
  (List.finRange 4).filter fun k => becomesAbsent o p k && decide (s.lnk[k].state = .live)

/-- A save write in progress notes that a transfer has been made since it began (R182). -/
def SaveJob.noteTransfer (j : SaveJob) : SaveJob := { j with noTransfer := false }

/-- The LCU, the FSU, TOP and the ports take up the staged image as the active one (R179 steps 1 and 2). -/
def State.takeUpStaged (s : State) : State :=
  (State.takeUpChannels { s with cfg.active := s.cfg.staged } s.cfg.active).takeUpBoard s.cfg.active

/-- PEER_STALE for the ports that the change of image took out of LIVE (R196, R197). -/
def State.noteLeavers (s : State) (ps : List Port) : State := ps.foldl (fun t p => t.raiseOthers .peerStale p) s

/-- The transfer up to the placing of the zones (R179 steps 1 to 3): the ZEV takes up the image after the others, and
any drill ends. -/
def State.transferred (s : State) : State :=
  ((s.takeUpStaged.noteLeavers (s.leavers s.cfg.active s.cfg.staged)).endDrill .transfer).placeZones

/-- A claim whose holder has become UNUSED lapses (R173, R179 step 4). -/
def State.lapseUnused (s : State) : State :=
  match s.cfg.claim with
  | some p => if s.used p then s else s.releaseClaim
  | none => s

/-- The transfer (R179): the staged image becomes the active image and every block takes it up; a claim of a port now
unused lapses; the flags are set; CONFIG_APPLIED is raised on the ports used in the new image. -/
def State.makeTransfer (s : State) : State :=
  let t := s.transferred.lapseUnused
  ({ t with
     cfg.pendingCommit := false
     cfg.transferDue := false
     cfg.transferCount := t.cfg.transferCount + 1
     cfg.unsaved := true
     cfg.job := t.cfg.job.map SaveJob.noteTransfer } : State).raise .configApplied

end Sys2Proof.Machine
end

