-- ==== Sys2Proof/Machine/LinkOps.lean ====
section
/-! DEFINITION. Operations of the Link Ports (chapter 9): frames, the reply slot, permissions; and what READ returns
(R151, R153, R154, R205, R208). -/

namespace Sys2Proof.Machine

/-! ### Frames (R184, R187, R189, R190) -/

/-- A reply takes the place of the slot's contents (R190). -/
def State.setSlot (s : State) (p : Port) (r : Reply) : State := s.modPort p fun q => { q with slot := r }

/-- The frame a port would send now: summary byte, reply slot and check byte (R184, R191, R204). -/
def State.replyFrame (s : State) (p : Port) : BitVec 40 := frameOf (replyBody (s.summary p) s.lnk[p].slot)

/-- A fall of select begins a frame (R184). -/
def State.beginFrame (s : State) (p : Port) (sckHigh : Bool) : State :=
  s.modPort p fun q =>
    { q with
      frame := .shifting, sckAtFall := sckHigh, sck := sckHigh, edges := 0, selectTimer := .running 5
      reply := s.replyFrame p }

/-- A fall of select begins a frame in IDLE, and in no other frame state (R184). -/
def State.openFrame (s : State) (p : Port) (sckHigh : Bool) : State :=
  if s.lnk[p].frame = .idle then s.beginFrame p sckHigh else s

/-! ### Clock edges (R185) -/

/-- A rising edge of SCK in SHIFTING (R185): it is counted, and the first forty shift SDI into the request register. -/
def PortRec.clockRise (q : PortRec) (sdi : Bool) : PortRec :=
  let n := satInc q.edges
  { q with sck := true, edges := n, request := if n.toNat ≤ 40 then q.request.shiftConcat sdi else q.request }

/-- A falling edge of SCK in SHIFTING (R185): with 1 to 39 edges counted the reply register shifts, which drives SDO with
the next bit. -/
def PortRec.clockFall (q : PortRec) : PortRec :=
  { q with sck := false, reply := if 1 ≤ q.edges.toNat ∧ q.edges.toNat ≤ 39 then q.reply <<< 1 else q.reply }

/-- An edge of SCK (R185): in IDLE and TIMED_OUT it has no effect, and SCK can rise only when low and fall only when
high. -/
def PortRec.clock (q : PortRec) : Edge → PortRec
  | .rise sdi => if q.frame = .shifting ∧ q.sck = false then q.clockRise sdi else q
  | .fall => if q.frame = .shifting ∧ q.sck = true then q.clockFall else q

/-- Edges of SCK, one after another. -/
def PortRec.clockAll (q : PortRec) (edges : List Edge) : PortRec := edges.foldl PortRec.clock q

/-- Edges of SCK arrive at a port. -/
def State.clock (s : State) (p : Port) (edges : List Edge) : State := s.modPort p fun q => q.clockAll edges

/-- The edges that bring the last `n` bits of `w`, most significant bit first, the clock low before and after. -/
def edgesFrom (w : BitVec 40) : Nat → List Edge
  | 0 => []
  | n + 1 => .rise (w.getLsbD n) :: .fall :: edgesFrom w n

/-- The edges of a frame of `n` rising edges that bring the last `n` bits of `w`, the first forty edges all of it, from
the level of SCK at the fall of select to its level at the rise. -/
def frameRun (sckAtFall : Bool) (n : Nat) (sckAtRise : Bool) (w : BitVec 40) : List Edge :=
  let cycles := edgesFrom w (min n 40) ++ (List.replicate (n - 40) [Edge.rise false, .fall]).flatten
  (if sckAtFall then [.fall] else []) ++ if sckAtRise then cycles.dropLast else cycles

/-- How many edges of a frame have come. -/
def PortRec.edgesCome (q : PortRec) : Nat :=
  (if q.sckAtFall then 1 else 0) + 2 * q.edges.toNat - if q.sck then 1 else 0

/-- Of the edges of a frame, those that have not come yet arrive. -/
def PortRec.clockRest (q : PortRec) (n : Nat) (sckAtRise : Bool) (w : BitVec 40) : PortRec :=
  q.clockAll ((frameRun q.sckAtFall n sckAtRise w).drop q.edgesCome)

/-! ### The end of a frame (R186, R187, R189, R190) -/

/-- A port goes back to IDLE with the select timer stopped (R186, R187). -/
def PortRec.closeFrame (q : PortRec) : PortRec := { q with frame := .idle, selectTimer := .stopped }

/-- A rejected frame (R189). -/
def PortRec.reject (q : PortRec) (why : RejectReason) : PortRec :=
  { q with slot := ⟨.frameRejected, why.code⟩, frameErr := true, rejects := satInc q.rejects }

/-- How the rise of select judges what the port has received (R187). -/
def PortRec.verdict (q : PortRec) : Verdict := judgeFrame q.sckAtFall q.edges q.sck q.request

/-- The rise of select in SHIFTING (R187); `accept` is what an accepted frame does, after FRAME_ERR is cleared (R189,
R190). -/
def State.riseSelect (s : State) (p : Port) (accept : State → State) : State :=
  let t := s.modPort p PortRec.closeFrame
  match s.lnk[p].verdict with
  | .ignored => t
  | .rejected why => t.modPort p fun q => q.reject why
  | .accepted => accept (t.modPort p fun q => { q with frameErr := false })

/-- The port receives a frame of `n` rising edges with these bits, and select is about to rise (log 4): in SHIFTING the
edges that have not come yet arrive, in IDLE the whole transfer, its fall of select with the clock low included. -/
def State.receive (s : State) (p : Port) (n : Nat) (sckAtRise : Bool) (w : BitVec 40) : State :=
  (s.openFrame p false).modPort p fun q => q.clockRest n sckAtRise w

/-- A good frame with this request ends (R187, R188, R204). Where the port is in TIMED_OUT, or what it has received is not
this frame, the event is not this one and nothing changes (R186, log 3). -/
def State.goodFrame (s : State) (p : Port) (code : BitVec 4) (f : Fields) (accept : State → State) : State :=
  let w := frameOf (requestBody code f)
  let t := s.receive p 40 false w
  if t.lnk[p].frame = .shifting ∧ t.lnk[p].verdict = .accepted ∧ t.lnk[p].request = w then t.riseSelect p accept else s

/-- The function of an accepted frame, by the lines of R192: refused with NOT_USED or NOT_LIVE where the port's state does
not permit it. -/
def State.function (s : State) (p : Port) (fn : Fn) (f : Fields) (body : State → State) : State :=
  s.goodFrame p fn.code f fun s =>
    if fn.permitted s.lnk[p].state then body s
    else if fn = .report then s.setSlot p ⟨.notUsed, 0⟩
    else s.setSlot p ⟨.notLive, 0⟩

/-- A CONTROL subfunction of this number (R193). -/
def State.control (s : State) (p : Port) (sub : Byte) (page : BitVec 4) (operand : Word)
    (body : State → State) : State :=
  s.function p .control ⟨page, sub, operand⟩ body

/-! ### Records in the window (R151, R153, R154) -/

def recKindCode : RecKind → Nat
  | .arc => 0
  | .drill => 1
  | .restored => 2

def stageCode : Stage → Nat
  | .firing => 0
  | .locked => 1
  | .closed => 2

def reasonCode : Reason → Nat
  | .initial => 0
  | .escalation => 1
  | .restrike => 2

def entryStateCode : EntryState → Nat
  | .commanded => 0
  | .failing => 1
  | .confirmed => 2
  | .gaveUp => 3
  | .pulsing => 4
  | .sent => 5
  | .shown => 6

/-- Code of a target (R208 page 10). -/
def targetNumber : Target → Nat
  | .ti k => k.val
  | .tc j => j.val + 4
  | .ut k => k.val + 7

/-- Item 0 of a record (R208 page 10). -/
def recordHead (r : TripRec) : Nat := r.seq.toNat + 256 * recKindCode r.kind + 1024 * stageCode r.stage

/-- The flags of a record (R208 page 10 item 8). -/
def recordFlags (r : TripRec) : Nat :=
  boolCode r.fallback + 2 * boolCode r.escalated + 4 * boolCode r.late + 8 * boolCode r.degraded

/-- Item 16 + m of an entry (R208 page 10). -/
def entryItem (e : Entry) : Nat :=
  targetNumber e.target + 16 * reasonCode e.reason + 64 * entryStateCode e.state + 512 * boolCode e.late

/-- What an item reads as: a value, ABSENT, or no item of that index. -/
inductive Item where
  | value (n : Nat)
  | absent
  | noItem
  deriving DecidableEq, Repr

/-- An item that may be absent. -/
def Item.ofOption : Option Nat → Item
  | some n => .value n
  | none => .absent

/-- An item of a page whose table may not define it. -/
def Item.ofDefined : Option Nat → Item
  | some n => .value n
  | none => .noItem

def Item.reply : Item → Reply
  | .value n => ⟨.accepted, BitVec.ofNat 16 n⟩
  | .absent => ⟨.absent, 0⟩
  | .noItem => ⟨.badIndex, 0⟩

/-- The items of a record that are not halves of a time (R153, R154). -/
def recordItem (r : TripRec) (i : Nat) : Item :=
  match i with
  | 0 => .value (recordHead r)
  | 1 => .ofOption (r.origin.map (·.val))
  | 2 => .ofOption (r.trigger.map (·.val))
  | 3 => .ofOption (r.peak.map (·.toNat))
  | 4 => .ofOption (r.scope.map scopeCode)
  | 5 => .value r.region.toNat
  | 6 => .value r.snapshot.toNat
  | 7 => .value r.restrikes.toNat
  | 8 => .value (recordFlags r)
  | 9 => .value r.entries.length
  | 10 => .value (r.lockout.toNat + 256 * r.released.toNat)
  | 11 => .value r.seenBy.toNat
  | _ => if 16 ≤ i ∧ i < 32 then .ofDefined ((r.entries[i - 16]?).map entryItem) else .noItem

/-- The record selected by a port, as it stands (R152, R153). -/
def State.selected (s : State) (p : Port) : Option TripRec :=
  match s.lnk[p].selection with
  | some seq => s.trm.records.find? fun r => decide (r.seq = seq)
  | none => none

/-! ### Times read as two halves (R154, R203) -/

/-- A half of a time item: the item it belongs to, whether it is the high half, and the time, absent where its field is
absent. -/
structure HalfItem where
  key : TimeKey
  high : Bool
  time : Option Time

/-- The halves at indices `base` and `base + 1` of a page. -/
def halfAt (page base i : Nat) (record : Option Byte) (t : Option Time) : Option HalfItem :=
  if i = base then some ⟨⟨page, base, record⟩, false, t⟩
  else if i = base + 1 then some ⟨⟨page, base, record⟩, true, t⟩
  else none

/-- The time halves of a record (R153, R154). -/
def recordHalf (r : TripRec) (i : Nat) : Option HalfItem :=
  let rec? := some r.seq
  if i = 12 ∨ i = 13 then halfAt 10 12 i rec? (some r.opened)
  else if i = 14 ∨ i = 15 then halfAt 10 14 i rec? r.closedAt
  else if 32 ≤ i ∧ i < 64 then
    match r.entries[(i - 32) / 2]? with
    | some e => halfAt 10 (i - i % 2) i rec? (some e.commandTime)
    | none => none
  else if 64 ≤ i then
    match r.entries[(i - 64) / 2]? with
    | some e => halfAt 10 (i - i % 2) i rec? e.evidence
    | none => none
  else none

/-- The time half that a READ of a page and index names, if it names one (R154: flash starts, last flash starts, zone and
coupler entry times, drill start time, time counter, record times). -/
def State.halfItem (s : State) (p : Port) (page : BitVec 4) (index : Byte) : Option HalfItem :=
  let i := index.toNat
  match page.toNat with
  | 4 =>
    let c := s.lcu[indexChan index]
    let base := i - i % 16
    if indexItem index < 2 then halfAt 4 base i none (c.flash.map (·.start))
    else if indexItem index = 4 ∨ indexItem index = 5 then halfAt 4 (base + 4) i none (c.lastFlash.map (·.start))
    else none
  | 6 =>
    match indexZone index with
    | some z => halfAt 6 (i - i % 16 + 1) i none (some s.zev.zones[z].entryTime)
    | none => none
  | 7 =>
    if i = 7 ∨ i = 8 then halfAt 7 7 i none (some s.top.couplers[0].entryTime)
    else if i = 9 ∨ i = 10 then halfAt 7 9 i none (some s.top.couplers[1].entryTime)
    else if i = 11 ∨ i = 12 then halfAt 7 11 i none (some s.top.couplers[2].entryTime)
    else if i = 33 ∨ i = 34 then halfAt 7 33 i none (some s.zev.drill.startTime)
    else if i = 48 ∨ i = 49 then halfAt 7 48 i none (some s.alr.time)
    else none
  | 10 => (s.selected p).bind fun r => recordHalf r i
  | _ => none

def lowHalf (t : Time) : Word := t.extractLsb' 0 16

def highHalf (t : Time) : Word := t.extractLsb' 16 16

/-- A half, absent where its field is absent, as a reply (R205). -/
def halfReply : Option Word → Reply
  | some w => ⟨.accepted, w⟩
  | none => ⟨.absent, 0⟩

/-- The reply to a READ of a time half, by the port's half latch (R154). -/
def halfRead (latch : Option HalfLatch) (h : HalfItem) : Reply :=
  if !h.high then halfReply (h.time.map lowHalf)
  else
    match latch with
    | some l => if l.key = h.key then halfReply l.high else halfReply (h.time.map highHalf)
    | none => halfReply (h.time.map highHalf)

/-- The half latch after a READ: loaded by a low half of a time item, cleared by any other READ (R154). -/
def latchAfter (h : Option HalfItem) : Option HalfLatch :=
  match h with
  | some h => if h.high then none else some ⟨h.key, h.time.map highHalf⟩
  | none => none

/-! ### Status items (R208 pages 3 to 9 and 11) -/

def chanStateCode : ChanState → Nat
  | .off => 0
  | .observe => 1
  | .learn => 2
  | .armed => 3
  | .held => 4

/-- The flags of page 3 item 4 (R208). -/
def channelFlags (c : Channel) : Nat :=
  boolCode c.pickup + 2 * boolCode c.mask + 4 * boolCode c.held + 8 * boolCode c.demoted +
    16 * boolCode c.window.isRunning + 32 * boolCode c.disturbance + 64 * boolCode c.flashEnded

/-- Page 3 (R208). -/
def channelLive1 (c : Channel) : Nat → Item
  | 0 => .value (chanStateCode c.state)
  | 1 => .value (c.baseline.toNat + 32768 * boolCode c.valid)
  | 2 => .value c.pickupLevel.toNat
  | 3 => .value c.dropLevel.toNat
  | 4 => .value (channelFlags c)
  | 5 => .value c.dropRun
  | 6 => .value c.candidate.toNat
  | 7 => .value c.restarts.toNat
  | 8 => .value c.stormCount.toNat
  | 9 => .value c.quiet
  | 10 => .value c.hist[0].toNat
  | 11 => .value c.hist[1].toNat
  | 12 => .value c.hist[2].toNat
  | 13 => .value c.hist[3].toNat
  | 14 => .value c.hist[4].toNat
  | 15 => .value c.hist[5].toNat
  | _ => .noItem

/-- A remaining time in ms read in a coarser unit: exact where it divides, otherwise rounded as the part rounds
(log 15). -/
def inUnits (left unit : Nat) : Nat :=
  if left % unit = 0 then left / unit else left / unit + boolCode Config.remainingRoundsUp

/-- Page 4, but for its time halves (R208). -/
def channelLive2 (c : Channel) : Nat → Item
  | 2 => .ofOption (c.flash.map (·.index.toNat))
  | 3 => .ofOption (c.flash.bind fun f => f.runStart.map (·.toNat))
  | 6 => .ofOption (c.lastFlash.map (·.duration.toNat))
  | 7 => .value (inUnits c.window.left 100)
  | _ => .noItem

def clarityCode : Clarity → Nat
  | .untested => 0
  | .unsupervised => 1
  | .clean => 2
  | .soiled => 3
  | .blind => 4
  | .broken => 5

def outcomeCode : TestOutcome → Nat
  | .none => 0
  | .overlaid => 1
  | .dark => 2
  | .lowBlind => 3
  | .lowSoiled => 4
  | .good => 5
  | .aborted => 6
  | .skipped => 7

def captureCode : CaptureState → Nat
  | .none => 0
  | .queued => 1
  | .testing => 2
  | .done => 3
  | .failed => 4

/-- Page 5 (R208). -/
def clarityItem (r : ClarityRec) : Nat → Item
  | 0 => .value (clarityCode r.clarity)
  | 1 => .value r.lastC.toNat
  | 2 => .value (outcomeCode r.lastOutcome)
  | 3 => .value r.darkRun.toNat
  | 4 => .value r.goodRun.toNat
  | 5 => .value r.deferCount.toNat
  | 6 => .value (captureCode r.capture)
  | 7 => .ofOption (r.captured.map (·.toNat))
  | 8 => .value (boolCode r.testing)
  | _ => .noItem

def zoneStateCode : ZoneState → Nat
  | .disabled => 0
  | .blocked => 1
  | .quiet => 2
  | .lit => 3
  | .waiting => 4
  | .suppressed => 5
  | .tripped => 6

def phaseCode : Phase → Nat
  | .holding => 1
  | .ready => 2
  | .filtering => 3

def filterKindCode : FilterKind → Nat
  | .entry => 0
  | .restrike => 1

/-- The member view by slot: bits 5:0 pickup, bits 13:8 votes (R208 page 6 item 3). -/
def viewCode (v : Vector MemberStatus 6) : Nat :=
  (setOf fun i : Fin 6 => v[i].pickup).toNat + 256 * (setOf fun i : Fin 6 => v[i].votes).toNat

def Filter.left : Filter → Nat
  | .stopped => 0
  | .running _ n => n

def Filter.kind? : Filter → Option FilterKind
  | .stopped => none
  | .running k _ => some k

/-- Page 6, but for its time halves (R208). -/
def zoneLive (r : ZoneRec) : Nat → Item
  | 0 => .value (zoneStateCode r.state)
  | 3 => .value (viewCode r.view)
  | 4 => .value (votingCount r.view)
  | 5 => .value (boolCode r.lit + 2 * boolCode r.degraded + 4 * boolCode r.drill)
  | 6 => .ofOption (r.trigger.map (·.val))
  | 7 => .ofOption (r.phase.map phaseCode)
  | 8 => .value r.nuisance.toNat
  | 9 => .value r.filter.left
  | 10 => .value r.confirm.left
  | 11 => .ofOption (r.filter.kind?.map filterKindCode)
  | _ => .noItem

/-- A queued request (R208 page 7). -/
def requestCode (r : Request) : Nat := r.chan.val + 256 * (match r.kind with | .test => 0 | .capture => 1)

def testKindCode : TestKind → Nat
  | .roundRobin => 0
  | .test => 1
  | .capture => 2

def endReasonCode : EndReason → Nat
  | .none => 0
  | .ownerEnd => 1
  | .expiry => 2
  | .ownerLost => 3
  | .transfer => 4
  | .decision => 5

/-- The drill in progress (R208 page 7 item 32): the zone and owner fields read 0 while no drill is active (log 19). -/
def drillCode (d : DrillReg) : Nat :=
  32768 * boolCode d.active + 16 * ((d.zone.map (·.val)).getD 0) + ((d.owner.map (·.val)).getD 0)

/-- The last drill (R208 page 7 item 37). -/
def lastDrillCode (d : DrillReg) : Nat :=
  256 * endReasonCode d.lastReason + 16 * ((d.lastZone.map (·.val)).getD 0) + ((d.lastOwner.map (·.val)).getD 0)

/-- The island names, two bits per section (R208 page 7 item 13). -/
def islandCode (v : Vector Sect 4) : Nat := v[0].val + 4 * v[1].val + 16 * v[2].val + 64 * v[3].val

/-- Page 7, but for its time halves (R208). Item 35, the drill window remaining, reads 0 while the window is stopped:
the model's choice, since R208 says nothing of it there (log 32). -/
def State.boardStatus (s : State) (i : Nat) : Item :=
  match i with
  | 0 => .value (reportCode s.top.reports[0])
  | 1 => .value (reportCode s.top.reports[1])
  | 2 => .value (reportCode s.top.reports[2])
  | 3 => .value (reportCode s.top.reports[3])
  | 4 => .value (resolvedCode s.top.couplers[0].resolved)
  | 5 => .value (resolvedCode s.top.couplers[1].resolved)
  | 6 => .value (resolvedCode s.top.couplers[2].resolved)
  | 13 => .value (islandCode s.top.islandName)
  | 14 => .value s.islandCount
  | 16 => .value s.fsu.queue.length
  | 17 => .ofOption (s.fsu.queue[0]?.map requestCode)
  | 18 => .ofOption (s.fsu.queue[1]?.map requestCode)
  | 19 => .ofOption (s.fsu.queue[2]?.map requestCode)
  | 20 => .ofOption (s.fsu.queue[3]?.map requestCode)
  | 21 => .ofOption (s.fsu.test.map fun t => t.chan.val + 256 * testKindCode t.kind)
  | 22 => .value s.fsu.pointer.val
  | 23 => .value s.fsu.slotTimer.left
  | 24 => .ofOption (s.fsu.test.map (·.amplitude.toNat))
  | 25 => .ofOption (s.fsu.test.map (·.samplesLeft))
  | 32 => .value (drillCode s.zev.drill)
  | 35 => .value (inUnits s.zev.drill.window.left 1000)
  | 36 => .value s.zev.drill.shown.toNat
  | 37 => .ofOption (if s.zev.drill.lastReason = .none then none else some (lastDrillCode s.zev.drill))
  | 38 => .value s.zev.drill.lastShown.toNat
  | _ => .noItem

def saveStatusCode : SaveStatus → Nat
  | .idle => 0
  | .writing => 1
  | .done => 2
  | .failed => 3

def wordStatusCode : WordStatus → Nat
  | .idle => 0
  | .waiting => 1
  | .writing => 2

def wordResultCode : WordResult → Nat
  | .none => 0
  | .ok => 1
  | .failed => 2

/-- The last commit result (R208 page 8 item 2). -/
def commitCode : CommitResult → Nat
  | .none => 0
  | .accepted => 1
  | .invalid f z => (invalidValue f z).toNat + 32768

/-- Page 8 (R208). -/
def State.configStatus (s : State) (i : Nat) : Item :=
  match i with
  | 0 => .ofOption (s.cfg.claim.map (·.val))
  | 1 => .value (boolCode s.cfg.pendingCommit)
  | 2 => .value (commitCode s.cfg.lastCommit)
  | 3 => .value s.cfg.transferCount.toNat
  | 4 =>
    .value (boolCode s.cfg.originDefault + 2 * boolCode s.cfg.imageLost + 4 * boolCode s.cfg.lockwordLost +
      8 * boolCode s.cfg.unsaved)
  | 5 => .value (saveStatusCode s.cfg.saveStatus)
  | 16 => .value (wordStatusCode s.trm.lock.status)
  | 17 => .ofOption (s.trm.lock.writing.map (·.toNat))
  | 18 => .ofOption (s.trm.lock.waiting.map (·.toNat))
  | 19 => .value s.trm.lock.lastWritten.toNat
  | 20 => .value (wordResultCode s.trm.lock.lastResult + 16 * boolCode s.trm.lock.retry)
  | 21 => .value s.closeInhibit.toNat
  | _ => .noItem

def portStateCode : PortState → Nat
  | .unused => 0
  | .silent => 1
  | .live => 2
  | .stale => 3

/-- The running timer of a port state (R208 page 9 item 4). -/
def PortRec.timerLeft (r : PortRec) : Nat :=
  match r.state with
  | .unused | .stale => 0
  | .silent => r.silentTimer.left
  | .live => r.heartbeat.left

/-- Mask and enable as SET MASK writes them (R201, R208 page 9 item 3): bit 0 is the enable. -/
def AlertRec.maskWord (r : AlertRec) : Word := (r.mask ++ BitVec.ofBool r.enable : BitVec 16)

/-- Page 9 (R208). -/
def portStatus (r : PortRec) (a : AlertRec) : Nat → Item
  | 0 => .value (portStateCode r.state)
  | 1 => .value r.rejects.toNat
  | 2 => .value a.bits.toNat
  | 3 => .value a.maskWord.toNat
  | 4 => .value r.timerLeft
  | _ => .noItem

/-- Page 11, the list directory (R151, R208): the number of records, then the record at each position. -/
def State.directory (s : State) (i : Nat) : Item :=
  if i = 0 then .value s.trm.records.length
  else if i ≤ 12 then .ofOption (s.trm.records[i - 1]?.map recordHead)
  else .noItem

/-- What a READ of a page and index that name no time half returns (R205, R208). -/
def State.readItem (s : State) (p : Port) (page : BitVec 4) (index : Byte) : Reply :=
  match page.toNat with
  | 0 | 1 | 2 => (Item.ofDefined (imageItem s.cfg.active page index)).reply
  | 3 => (channelLive1 s.lcu[indexChan index] (indexItem index)).reply
  | 4 => (channelLive2 s.lcu[indexChan index] (indexItem index)).reply
  | 5 => (clarityItem s.fsu.clarity[indexChan index] (indexItem index)).reply
  | 6 =>
    match indexZone index with
    | some z => (zoneLive s.zev.zones[z] (indexItem index)).reply
    | none => ⟨.badIndex, 0⟩
  | 7 => (s.boardStatus index.toNat).reply
  | 8 => (s.configStatus index.toNat).reply
  | 9 =>
    match indexPort index with
    | some q => (portStatus s.lnk[q] s.alr.ports[q] (indexItem index)).reply
    | none => ⟨.badIndex, 0⟩
  | 10 =>
    match s.selected p with
    | some r => (recordItem r index.toNat).reply
    | none => ⟨.noRecord, 0⟩
  | 11 => (s.directory index.toNat).reply
  | _ => ⟨.badIndex, 0⟩

/-- The reply to a READ (R205, R154). -/
def State.readReply (s : State) (p : Port) (page : BitVec 4) (index : Byte) : Reply :=
  match s.halfItem p page index with
  | some h => halfRead s.lnk[p].latch h
  | none => s.readItem p page index

/-! ### REPORT (R53, R55, R194, R195) -/

/-- A port that takes a REPORT is LIVE with its heartbeat started (R194, R195). -/
def PortRec.report (r : PortRec) (tHb : Nat) : PortRec :=
  if r.state = .live then { r with heartbeat := .running tHb } else r.enter .live .stopped (.running tHb)

/-- The report record of a taken REPORT (R53 steps 1 and 2). -/
def takenReport (img : Image) (p : Port) (v : ReportRec) : ReportRec := v.takeUp img p false

/-- The reply value of a taken REPORT: the resolved states of the port's two couplers (R55, R207). -/
def State.reportValue (s : State) (p : Port) : Word :=
  let st (j : Option Coupler) : Nat :=
    match j with
    | some j => resolvedCode s.top.couplers[j].resolved
    | none => resolvedCode .absent
  BitVec.ofNat 16 (16 * st (rightCoupler p) + st (leftCoupler p))

/-- The incomer position handed to the TRM (R53, R113): OPEN is open evidence for TI_k. -/
def State.incomerPosition (s : State) (p : Port) (v : Position) : State :=
  if v = .opened then s.openEvidence (.ti p) else s

/-- A report is taken at TOP (R53): the record is set, the couplers of the section are resolved, the changes and the
incomer position are handed on. Where the position is OPEN and zones decide in the same event, its evidence may reach the
TRM before, between or after their decisions (R130, log 13). -/
def State.takeReport (s : State) (p : Port) (v : ReportRec) : State :=
  let before := s.top.couplers
  let t := (s.setReport p (takenReport s.cfg.active p v)).topResolve (adjacent p)
  if v.incomer = .opened ∧ (changedCouplers before t.top.couplers).isEmpty = false then
    (t.couplerEvidence before).askConfirmationWith fun t => t.incomerPosition p v.incomer
  else (t.topHandOff before).incomerPosition p v.incomer

end Sys2Proof.Machine
end

