-- ==== Sys2Proof/Machine/Clock.lean ====
section
/-! DEFINITION. The millisecond (R203) and the current-pickup lines (R84, R112). -/

namespace Sys2Proof.Machine

/-! ### MILLISECOND_TICK (R203, log 1) -/

def Channel.tick (c : Channel) : Channel := { c with window := c.window.tick, stormWindow := c.stormWindow.tick }

def ZoneRec.tick (r : ZoneRec) : ZoneRec := { r with filter := r.filter.tick, confirm := r.confirm.tick }

def Entry.tick (e : Entry) : Entry :=
  { e with
    minPulse := e.minPulse.tick, breakerFail := e.breakerFail.tick, coil := e.coil.tick, pulse := e.pulse.tick }

def TripRec.tick (r : TripRec) : TripRec := { r with entries := r.entries.map Entry.tick }

def PortRec.tick (r : PortRec) : PortRec :=
  { r with silentTimer := r.silentTimer.tick, heartbeat := r.heartbeat.tick, selectTimer := r.selectTimer.tick }

/-- A millisecond passes: the time counter is raised by one, wrapping (R203), and every running timer counted in
milliseconds has one millisecond less to run (log 1). The window of a test is counted in samples (R36). -/
def State.tick (s : State) : State :=
  { s with
    alr.time := s.alr.time + 1
    lcu := modAll s.lcu Channel.tick
    fsu.slotTimer := s.fsu.slotTimer.tick
    zev.zones := modAll s.zev.zones ZoneRec.tick
    zev.drill.window := s.zev.drill.window.tick
    trm.records := s.trm.records.map TripRec.tick
    lnk := modAll s.lnk PortRec.tick }

/-- MILLISECOND_TICK (R203). -/
def execMillisecondTick (s : State) : Host.Outcome State Fault Refusal := .next s.tick

/-! ### CP_LINE_CHANGE (R84, R112) -/

/-- The level of a CP line. -/
def State.setCp (s : State) (k : Incomer) (active : Bool) : State := { s with cp := s.cp.set k active }

/-- A change of CP_k: a line that goes inactive is open evidence for TI_k (R112), and every zone in WAITING asks for
its confirming set (R84). A level that the line already has is no change. -/
def State.cpChange (s : State) (k : Incomer) (active : Bool) : State :=
  if s.cp[k] = active then s
  else
    let t := s.setCp k active
    (if active then t else t.openEvidence (.ti k)).askConfirmation

/-- CP_LINE_CHANGE (R84, R112). -/
def execCpLineChange (k : Incomer) (active : Bool) (s : State) : Host.Outcome State Fault Refusal :=
  .next (s.cpChange k active)

end Sys2Proof.Machine
end

