-- ==== Sys2Proof/Machine/Control.lean ====
section
/-! DEFINITION. The CONTROL subfunctions (R193): what each does once the port's conditions are met, and its meaning. -/

namespace Sys2Proof.Machine

/-- A channel operand (R15, R30, R31): 0 to 15. -/
def chanOperand (v : Word) : Option Chan := if h : v.toNat < 16 then some ⟨v.toNat, h⟩ else none

/-- A zone operand (R157): 0 to 7. -/
def zoneOperand (v : Word) : Option Zone := if h : v.toNat < 8 then some ⟨v.toNat, h⟩ else none

/-! ### RELEARN (R15) -/

def State.relearnBody (s : State) (p : Port) (operand : Word) : State :=
  match chanOperand operand with
  | none => s.setSlot p ⟨.badValue, 0⟩
  | some n =>
    if (s.chanPage n).target = .off then s.setSlot p ⟨.refusedState, 0⟩
    else if (s.chanPage n).mode = .fixed then s.setSlot p ⟨.notLearned, 0⟩
    else
      (s.lcuEvent n fun s => s.modChan n fun c => c.relearn (s.chanPage n) s.tLearn).setSlot p ⟨.accepted, 0⟩

/-- RELEARN (R15). -/
def execRelearn (p : Port) (page : BitVec 4) (operand : Word) (s : State) : Host.Outcome State Fault Refusal :=
  .next (s.control p 1 page operand fun s => s.relearnBody p operand)

/-! ### TEST and CAPTURE (R30, R31) -/

/-- The place of the request for a channel in the queue (R30); at most one names it (R28). -/
def placeOf (q : List Request) (n : Chan) : Option Nat := q.findIdx? fun r => decide (r.chan = n)

/-- The reply that gives a queue place (R30, R31). -/
def placeReply (i : Nat) : Reply := ⟨.accepted, BitVec.ofNat 16 i⟩

def State.testBody (s : State) (p : Port) (operand : Word) : State :=
  match chanOperand operand with
  | none => s.setSlot p ⟨.badValue, 0⟩
  | some n =>
    if (s.chanPage n).target = .off ∨ (s.chanPage n).aRef = 0 then s.setSlot p ⟨.refusedState, 0⟩
    else
      match placeOf s.fsu.queue n with
      | some i => s.setSlot p (placeReply i)
      | none =>
        if 4 ≤ s.fsu.queue.length then s.setSlot p ⟨.busy, 0⟩
        else
          ({ s with fsu.queue := s.fsu.queue ++ [⟨n, .test⟩] } : State).setSlot p (placeReply s.fsu.queue.length)

/-- TEST (R30). -/
def execTest (p : Port) (page : BitVec 4) (operand : Word) (s : State) : Host.Outcome State Fault Refusal :=
  .next (s.control p 2 page operand fun s => s.testBody p operand)

/-- A capture is queued for a channel: its capture state is QUEUED and its captured amplitude absent (R31). -/
def State.noteCapture (s : State) (n : Chan) : State :=
  s.modClarity n fun r => { r with capture := .queued, captured := none }

/-- A CAPTURE that reaches the queue (R31): a CAPTURE request for the channel is kept, a TEST request becomes one, and
otherwise one is appended where there is room. -/
def State.queueCapture (s : State) (p : Port) (n : Chan) : State :=
  match placeOf s.fsu.queue n with
  | some i =>
    if s.fsu.queue.contains ⟨n, .capture⟩ then s.setSlot p (placeReply i)
    else
      (({ s with
          fsu.queue := s.fsu.queue.map fun r => if r.chan = n then ⟨n, .capture⟩ else r } : State).noteCapture n).setSlot p
        (placeReply i)
  | none =>
    if 4 ≤ s.fsu.queue.length then s.setSlot p ⟨.busy, 0⟩
    else
      (({ s with fsu.queue := s.fsu.queue ++ [⟨n, .capture⟩] } : State).noteCapture n).setSlot p
        (placeReply s.fsu.queue.length)

def State.captureBody (s : State) (p : Port) (operand : Word) : State :=
  match chanOperand operand with
  | none => s.setSlot p ⟨.badValue, 0⟩
  | some n =>
    if s.cfg.claim ≠ some p then s.setSlot p ⟨.noClaim, 0⟩
    else if s.cfg.pendingCommit then s.setSlot p ⟨.pending, 0⟩
    else if (s.chanPage n).target = .off then s.setSlot p ⟨.refusedState, 0⟩
    else if s.fsu.clarity[n].capture = .testing then s.setSlot p ⟨.busy, 0⟩
    else s.queueCapture p n

/-- CAPTURE (R31). -/
def execCapture (p : Port) (page : BitVec 4) (operand : Word) (s : State) : Host.Outcome State Fault Refusal :=
  .next (s.control p 3 page operand fun s => s.captureBody p operand)

/-! ### DRILL START and DRILL END (R157, R158, R165) -/

/-- A drill starts (R158). -/
def State.startDrill (s : State) (p : Port) (z : Zone) : State :=
  ({ (s.modZone z fun r => { r with drill := true }) with
     zev.drill :=
       { s.zev.drill with
         active := true, zone := some z, owner := some p, startTime := s.alr.time, shown := 0
         window := .running (s.cfg.active.board.tDrill.val * 1000) } } : State).raise .drill

def State.drillStartBody (s : State) (p : Port) (operand : Word) : State :=
  match zoneOperand operand with
  | none => s.setSlot p ⟨.badValue, 0⟩
  | some z =>
    if s.zev.drill.active then s.setSlot p ⟨.busy, 0⟩
    else if (s.zonePage z).enabled = false ∨ s.zev.zones[z].state ≠ .quiet then s.setSlot p ⟨.refusedState, 0⟩
    else (s.startDrill p z).setSlot p ⟨.accepted, BitVec.ofNat 16 s.cfg.active.board.tDrill.val⟩

/-- DRILL_START (R157). -/
def execDrillStart (p : Port) (page : BitVec 4) (operand : Word) (s : State) : Host.Outcome State Fault Refusal :=
  .next (s.control p 4 page operand fun s => s.drillStartBody p operand)

def State.drillEndBody (s : State) (p : Port) : State :=
  if s.zev.drill.active = false then s.setSlot p ⟨.refusedState, 0⟩
  else if s.zev.drill.owner ≠ some p then s.setSlot p ⟨.notPermitted, 0⟩
  else (s.endDrill .ownerEnd).setSlot p ⟨.accepted, s.zev.drill.shown.setWidth 16⟩

/-- DRILL_END (R165). -/
def execDrillEnd (p : Port) (page : BitVec 4) (operand : Word) (s : State) : Host.Outcome State Fault Refusal :=
  .next (s.control p 5 page operand fun s => s.drillEndBody p)

/-! ### SAVE, CLEAR COUNTERS, DEFAULT STAGED (R182, R202, R175) -/

def State.saveBody (s : State) (p : Port) : State :=
  if s.cfg.saveStatus = .writing then s.setSlot p ⟨.busy, 0⟩
  else
    ({ s with cfg.saveStatus := .writing, cfg.saveWaiting := true } : State).engineNext.setSlot p ⟨.accepted, 0⟩

/-- SAVE (R182). -/
def execSave (p : Port) (page : BitVec 4) (operand : Word) (s : State) : Host.Outcome State Fault Refusal :=
  .next (s.control p 6 page operand fun s => s.saveBody p)

/-- The counters of R202 are set to 0. -/
def State.zeroCounters (s : State) : State :=
  { s with
    lcu := modAll s.lcu fun c => { c with hist := Vector.replicate 6 0 }
    fsu.clarity := modAll s.fsu.clarity fun r => { r with deferCount := 0 }
    zev.zones := modAll s.zev.zones fun r => { r with nuisance := 0 }
    lnk := modAll s.lnk fun r => { r with rejects := 0 } }

/-- CLEAR_COUNTERS (R202). -/
def execClearCounters (p : Port) (page : BitVec 4) (operand : Word) (s : State) : Host.Outcome State Fault Refusal :=
  .next (s.control p 7 page operand fun s => s.zeroCounters.setSlot p ⟨.accepted, 0⟩)

/-- A DEFAULT STAGED (R175). That a port without the claim is told NO_CLAIM while a commit is pending is the model's
choice: R175 gives its two refusals no order (log 33). -/
def State.defaultStagedBody (s : State) (p : Port) : State :=
  if s.cfg.claim ≠ some p then s.setSlot p ⟨.noClaim, 0⟩
  else if s.cfg.pendingCommit then s.setSlot p ⟨.pending, 0⟩
  else ({ s with cfg.staged := Image.default } : State).setSlot p ⟨.accepted, 0⟩

/-- DEFAULT_STAGED (R175). -/
def execDefaultStaged (p : Port) (page : BitVec 4) (operand : Word) (s : State) : Host.Outcome State Fault Refusal :=
  .next (s.control p 8 page operand fun s => s.defaultStagedBody p)

/-- CONTROL_BAD_SUBFUNCTION (R193): CONTROL with an index that names no subfunction. -/
def State.noSubfunction (s : State) (p : Port) (f : Fields) : State :=
  if f.index.toNat = 0 ∨ 8 < f.index.toNat then s.function p .control f fun s => s.setSlot p ⟨.badIndex, 0⟩ else s

def execControlBadSubfunction (p : Port) (f : Fields) (s : State) : Host.Outcome State Fault Refusal :=
  .next (s.noSubfunction p f)

end Sys2Proof.Machine
end

