-- ==== Sys2Proof/Machine/Frames.lean ====
section
/-! DEFINITION. Frames that carry no request, and the timers of a port (R184 to R187, R189, R192, R195, R196). -/

namespace Sys2Proof.Machine

/-- Select of a port falls, and clock edges follow (R184, R185): a frame begins in IDLE, and in no other frame state. -/
def State.fallSelect (s : State) (p : Port) (sck : ClockLine) : State :=
  if s.lnk[p].frame = .idle then (s.beginFrame p sck.high).clock p sck.edges else s

/-- SELECT_FALL (R184, R185). -/
def execSelectFall (p : Port) (sck : ClockLine) (s : State) : Host.Outcome State Fault Refusal :=
  .next (s.fallSelect p sck)

/-- The select timer of a port expires in SHIFTING (R186). -/
def PortRec.timeOut (q : PortRec) : PortRec :=
  { q.reject .timeout with frame := .timedOut, selectTimer := .stopped }

def State.selectExpiry (s : State) (p : Port) : State :=
  if s.lnk[p].frame = .shifting then s.modPort p PortRec.timeOut else s

/-- SELECT_TIMEOUT (R186). -/
def execSelectTimeout (p : Port) (s : State) : Host.Outcome State Fault Refusal := .next (s.selectExpiry p)

/-- Select of a port rises in TIMED_OUT (R186). -/
def State.riseTimedOut (s : State) (p : Port) : State :=
  if s.lnk[p].frame = .timedOut then s.modPort p PortRec.closeFrame else s

/-- TIMED_OUT_SELECT_RISE (R186). -/
def execTimedOutSelectRise (p : Port) (s : State) : Host.Outcome State Fault Refusal := .next (s.riseTimedOut p)

/-- Select of a port rises after no rising clock edge (R187 line 1): in SHIFTING the rise, in IDLE the whole pulse
(log 4). -/
def State.emptyPulse (s : State) (p : Port) : State :=
  let t := s.openFrame p false
  if t.lnk[p].frame = .shifting ∧ t.lnk[p].edges = 0 then t.riseSelect p id else s

/-- SELECT_PULSE_IGNORED (R187 line 1). -/
def execSelectPulseIgnored (p : Port) (s : State) : Host.Outcome State Fault Refusal := .next (s.emptyPulse p)

/-- A frame of these edges that the checks of R187 reject; one that they do not reject, or that the edges that have come
are no part of, is not this event (log 3). -/
def State.rejectFrame (s : State) (p : Port) (edges : Byte) (sckHigh : Bool) (bits : BitVec 40) : State :=
  let t := s.receive p edges.toNat sckHigh bits
  if t.lnk[p].frame = .shifting ∧ t.lnk[p].edges = edges ∧ t.lnk[p].sck = sckHigh then
    match t.lnk[p].verdict with
    | .rejected _ => t.riseSelect p id
    | .ignored | .accepted => s
  else s

/-- FRAME_REJECTED (R187, R189). -/
def execFrameRejected (p : Port) (edges : Byte) (sckHigh : Bool) (bits : BitVec 40) (s : State) :
    Host.Outcome State Fault Refusal :=
  .next (s.rejectFrame p edges sckHigh bits)

/-- An accepted frame whose code names no function (R192 line 1, R204). -/
def State.noFunction (s : State) (p : Port) (code : BitVec 4) (f : Fields) : State :=
  if 14 ≤ code.toNat then s.goodFrame p code f fun s => s.setSlot p ⟨.unknownFunction, 0⟩ else s

/-- UNKNOWN_FUNCTION (R192). -/
def execUnknownFunction (p : Port) (code : BitVec 4) (f : Fields) (s : State) : Host.Outcome State Fault Refusal :=
  .next (s.noFunction p code f)

/-- The heartbeat of a LIVE port expires (R195, R196). -/
def State.heartbeatExpiry (s : State) (p : Port) : State :=
  if decide (s.lnk[p].state = .live) && s.lnk[p].heartbeat.isRunning then s.leaveLive p else s

/-- HEARTBEAT_EXPIRY (R195, R196). -/
def execHeartbeatExpiry (p : Port) (s : State) : Host.Outcome State Fault Refusal := .next (s.heartbeatExpiry p)

/-- The silent timer of a SILENT port expires (R195). -/
def State.silentExpiry (s : State) (p : Port) : State :=
  if decide (s.lnk[p].state = .silent) && s.lnk[p].silentTimer.isRunning then
    (s.modPort p fun r => r.enter .stale .stopped .stopped).raiseOthers .peerStale p
  else s

/-- SILENT_TIMER_EXPIRY (R195). -/
def execSilentTimerExpiry (p : Port) (s : State) : Host.Outcome State Fault Refusal := .next (s.silentExpiry p)

end Sys2Proof.Machine
end

