-- ==== Sys2Proof/Machine/Light.lean ====
section
/-! DEFINITION. Light samples and the windows of a channel (R3, R13, R20). -/

namespace Sys2Proof.Machine

/-- A sample arrives at a channel (R3): discarded in OFF, passed to the test in flight while masked, otherwise
evaluated. -/
def State.takeSample (s : State) (n : Chan) (v : LU) : State :=
  if s.lcu[n].state = .off then s
  else if s.lcu[n].mask then s.testSample n v
  else s.evaluateSample n v

/-- LIGHT_SAMPLE (R3). -/
def execLightSample (n : Chan) (v : LU) (s : State) : Host.Outcome State Fault Refusal := .next (s.takeSample n v)

/-- The learning window of a channel expires while it runs (R13). -/
def State.learningExpiry (s : State) (n : Chan) : State :=
  if s.lcu[n].window.isRunning then s.lcuEvent n fun s => s.modChan n fun c => c.learned (s.chanPage n) else s

/-- LEARNING_WINDOW_EXPIRY (R13). -/
def execLearningWindowExpiry (n : Chan) (s : State) : Host.Outcome State Fault Refusal := .next (s.learningExpiry n)

/-- The storm window of a channel expires (R20, R22). -/
def State.stormWindowExpiry (s : State) (n : Chan) : State :=
  if s.lcu[n].stormWindow.isRunning then
    s.lcuEvent n fun s => s.modChan n fun c => c.stormExpiry (s.chanPage n) s.tLearn
  else s

/-- STORM_WINDOW_EXPIRY (R20). -/
def execStormWindowExpiry (n : Chan) (s : State) : Host.Outcome State Fault Refusal := .next (s.stormWindowExpiry n)

end Sys2Proof.Machine
end

