-- ==== Sys2Proof/Machine/Storage.lean ====
section
/-! DEFINITION. The ends of the writes of the NV write engine (R143, R182) and the transfer (R178, R179). -/

namespace Sys2Proof.Machine

/-- What the read-back finds (log 16). -/
def readBackFound {α : Type} (rb : ReadBack α) (written : α) : α :=
  match rb with
  | .asWritten => written
  | .other w => w

/-- The lockout word state at the end of a write (R143). -/
def LockState.writeEnd (l : LockState) (ok : Bool) : LockState :=
  let again := !ok && l.waiting.isNone && !l.retry
  let waiting := if again then l.writing else l.waiting
  { status := if waiting.isSome then .waiting else .idle
    writing := none
    waiting := waiting
    lastWritten := if ok then l.writing.getD l.lastWritten else l.lastWritten
    lastResult := if ok then .ok else .failed
    retry := if ok then false else (again || l.retry) }

/-- A lockout word write ends and is read back (R143); the engine goes on with what waits (R181). -/
def State.wordWriteEnd (s : State) (rb : ReadBack LockWord) : State :=
  if s.cfg.engine = .word then
    let written := lockWordOf (s.trm.lock.writing.getD 0)
    let found := readBackFound rb written
    ({ s with
       nv.word := found
       cfg.engine := .idle
       trm.lock := s.trm.lock.writeEnd (decide (found = written)) } : State).engineNext
  else s

/-- LOCKOUT_WORD_WRITE_END (R143). -/
def execLockoutWordWriteEnd (rb : ReadBack LockWord) (s : State) : Host.Outcome State Fault Refusal :=
  .next (s.wordWriteEnd rb)

/-- The save status and what follows from a save that ends (R180, R182). -/
def Cfg.saveEnd (c : Cfg) (j : SaveJob) (ok : Bool) : Cfg :=
  { c with
    engine := .idle
    job := none
    saveStatus := if ok then .done else .failed
    lastSaved := if ok then some ⟨j.copy, j.number⟩ else c.lastSaved
    unsaved := if ok && j.noTransfer then false else c.unsaved }

/-- A save write ends and its copy is read back (R182); the engine goes on with what waits (R181). -/
def State.saveWriteEnd (s : State) (rb : ReadBack NvCopy) : State :=
  match s.cfg.engine, s.cfg.job with
  | .saving, some j =>
    let written : NvCopy := ⟨j.image, j.number, true⟩
    let found := readBackFound rb written
    ({ s with
       nv := s.nv.modCopy j.copy fun _ => found
       cfg := s.cfg.saveEnd j (decide (found = written)) } : State).engineNext
  | _, _ => s

/-- SAVE_WRITE_END (R182). -/
def execSaveWriteEnd (rb : ReadBack NvCopy) (s : State) : Host.Outcome State Fault Refusal := .next (s.saveWriteEnd rb)

/-- The transfer is made where a commit is pending and a notice has left the board quiet (R178, R179, log 5). -/
def State.transferIfDue (s : State) : State :=
  if s.cfg.pendingCommit && s.cfg.transferDue then s.makeTransfer else s

/-- TRANSFER (R179). -/
def execTransfer (s : State) : Host.Outcome State Fault Refusal := .next s.transferIfDue

end Sys2Proof.Machine
end

