-- ==== Sys2Proof/Machine/Requests.lean ====
section
/-! DEFINITION. The functions of an accepted frame other than CONTROL (R192): what each does once the port's conditions
are met, and its meaning. -/

namespace Sys2Proof.Machine

/-- FETCH (R190): the slot is kept. -/
def execFetch (p : Port) (f : Fields) (s : State) : Host.Outcome State Fault Refusal :=
  .next (s.function p .fetch f fun s => s)

/-! ### Reading (R153, R154, R168, R205) -/

/-- A READ: the reply, and the half latch after it (R154). -/
def State.readBody (s : State) (p : Port) (f : Fields) : State :=
  (s.modPort p fun r => { r with latch := latchAfter (s.halfItem p f.page f.index) }).setSlot p
    (s.readReply p f.page f.index)

/-- READ (R205, R154). -/
def execRead (p : Port) (f : Fields) (s : State) : Host.Outcome State Fault Refusal :=
  .next (s.function p .read f fun s => s.readBody p f)

/-- A READ STAGED (R168, R205). -/
def State.readStagedBody (s : State) (p : Port) (f : Fields) : State :=
  s.setSlot p (Item.ofDefined (imageItem s.cfg.staged f.page f.index)).reply

/-- READ_STAGED (R168, R205). -/
def execReadStaged (p : Port) (f : Fields) (s : State) : Host.Outcome State Fault Refusal :=
  .next (s.function p .readStaged f fun s => s.readStagedBody p f)

/-! ### Editing (R171, R172, R174, R176) -/

/-- A WRITE (R174). -/
def State.writeBody (s : State) (p : Port) (f : Fields) : State :=
  if s.cfg.claim ≠ some p then s.setSlot p ⟨.noClaim, 0⟩
  else if s.cfg.pendingCommit then s.setSlot p ⟨.pending, 0⟩
  else
    match setImageItem s.cfg.staged f.page f.index f.value.toNat with
    | none => s.setSlot p ⟨.badIndex, 0⟩
    | some none => s.setSlot p ⟨.badValue, 0⟩
    | some (some img) => ({ s with cfg.staged := img } : State).setSlot p ⟨.accepted, 0⟩

/-- WRITE (R174). -/
def execWrite (p : Port) (f : Fields) (s : State) : Host.Outcome State Fault Refusal :=
  .next (s.function p .write f fun s => s.writeBody p f)

/-- A CLAIM (R171). -/
def State.claimBody (s : State) (p : Port) : State :=
  match s.cfg.claim with
  | none => ({ s with cfg.claim := some p } : State).setSlot p ⟨.accepted, 0⟩
  | some q => if q = p then s.setSlot p ⟨.accepted, 0⟩ else s.setSlot p ⟨.heldBy, BitVec.ofNat 16 q.val⟩

/-- CLAIM (R171). -/
def execClaim (p : Port) (f : Fields) (s : State) : Host.Outcome State Fault Refusal :=
  .next (s.function p .claim f fun s => s.claimBody p)

/-- A YIELD (R172). -/
def State.yieldBody (s : State) (p : Port) : State :=
  if s.cfg.claim = some p then s.releaseClaim.setSlot p ⟨.accepted, 0⟩ else s.setSlot p ⟨.noClaim, 0⟩

/-- YIELD (R172). -/
def execYield (p : Port) (f : Fields) (s : State) : Host.Outcome State Fault Refusal :=
  .next (s.function p .yield f fun s => s.yieldBody p)

/-- A COMMIT whose checks all pass (R176): the transfer is due at once, and made, where the board is quiet, and pending
otherwise (R178). -/
def State.acceptCommit (s : State) (p : Port) : State :=
  let t : State := { s with cfg.lastCommit := .accepted, cfg.pendingCommit := true }
  if t.boardQuiet then ({ t with cfg.transferDue := true } : State).transferIfDue.setSlot p ⟨.accepted, 1⟩ else t.setSlot p ⟨.accepted, 2⟩

/-- A COMMIT (R176, R177). That a port without the claim is told NO_CLAIM while a commit is pending is the model's
choice: R176 gives its two refusals no order (log 33). -/
def State.commitBody (s : State) (p : Port) : State :=
  if s.cfg.claim ≠ some p then s.setSlot p ⟨.noClaim, 0⟩
  else if s.cfg.pendingCommit then s.setSlot p ⟨.pending, 0⟩
  else
    match validate s.cfg.staged with
    | some (why, z) =>
      ({ s with cfg.lastCommit := .invalid why z } : State).setSlot p ⟨.invalid, invalidValue why z⟩
    | none => s.acceptCommit p

/-- COMMIT (R176). -/
def execCommit (p : Port) (f : Fields) (s : State) : Host.Outcome State Fault Refusal :=
  .next (s.function p .commit f fun s => s.commitBody p)

/-! ### Positions (R194) -/

/-- A REPORT from a used port (R194). -/
def State.reportBody (s : State) (p : Port) (f : Fields) : State :=
  if !reportRestZero f.value then s.setSlot p ⟨.badValue, 0⟩
  else
    let t := (s.modPort p fun r => r.report s.cfg.active.board.tHb.val).takeReport p (reportOf f.value)
    t.setSlot p ⟨.accepted, t.reportValue p⟩

/-- REPORT (R194). -/
def execReport (p : Port) (f : Fields) (s : State) : Host.Outcome State Fault Refusal :=
  .next (s.function p .report f fun s => s.reportBody p f)

/-! ### Records (R136 to R138, R148, R152) -/

/-- The outcomes of a RELEASE at the records it examines, oldest first (R137). -/
def State.releaseOutcomes (s : State) (b : Fin 7) : List ReleaseOutcome := s.trm.records.filterMap (s.releaseAt b)

/-- A RELEASE (R136, R137, R138). -/
def State.releaseBody (s : State) (p : Port) (f : Fields) : State :=
  if h : f.value.toNat < 7 then
    let b : Fin 7 := ⟨f.value.toNat, h⟩
    if s.authority p b then (s.releaseBreaker b).setSlot p (releaseReply (s.releaseOutcomes b))
    else s.setSlot p ⟨.notPermitted, 0⟩
  else s.setSlot p ⟨.badValue, 0⟩

/-- RELEASE (R136, R137). -/
def execRelease (p : Port) (f : Fields) (s : State) : Host.Outcome State Fault Refusal :=
  .next (s.function p .release f fun s => s.releaseBody p f)

/-- The record in the list with the seq that a value names (R148, R152). -/
def State.recordNamed (s : State) (v : Word) : Option TripRec :=
  s.trm.records.find? fun r => decide (r.seq = v.setWidth 8)

/-- A RECORD (R152). -/
def State.recordBody (s : State) (p : Port) (f : Fields) : State :=
  if 255 < f.value.toNat then s.setSlot p ⟨.badValue, 0⟩
  else
    match s.recordNamed f.value with
    | none => (s.modPort p PortRec.dropSelection).setSlot p ⟨.noRecord, 0⟩
    | some r =>
      (s.modPort p fun q => { q with selection := some r.seq }).setSlot p
        ⟨.accepted, BitVec.ofNat 16 r.entries.length⟩

/-- RECORD (R152). -/
def execRecord (p : Port) (f : Fields) (s : State) : Host.Outcome State Fault Refusal :=
  .next (s.function p .record f fun s => s.recordBody p f)

/-- A SEEN (R148). -/
def State.seenBody (s : State) (p : Port) (f : Fields) : State :=
  if 255 < f.value.toNat then s.setSlot p ⟨.badValue, 0⟩
  else
    match s.recordNamed f.value with
    | none => s.setSlot p ⟨.noRecord, 0⟩
    | some r =>
      (s.modRecord r.seq fun q => { q with seenBy := q.seenBy ||| single p }).setSlot p
        ⟨.accepted, BitVec.ofNat 16 (stageCode r.stage)⟩

/-- SEEN (R148). -/
def execSeen (p : Port) (f : Fields) (s : State) : Host.Outcome State Fault Refusal :=
  .next (s.function p .seen f fun s => s.seenBody p f)

/-! ### Alerts (R200, R201) -/

/-- Change the alert record of a port. -/
def State.modAlerts (s : State) (p : Port) (g : AlertRec → AlertRec) : State :=
  { s with alr.ports := modAt s.alr.ports p g }

/-- A CLEAR ALERTS (R200). -/
def State.clearAlertsBody (s : State) (p : Port) (f : Fields) : State :=
  (s.modAlerts p fun r => { r with bits := r.bits &&& ~~~f.value }).setSlot p
    ⟨.accepted, s.alr.ports[p].bits &&& f.value⟩

/-- CLEAR_ALERTS (R200). -/
def execClearAlerts (p : Port) (f : Fields) (s : State) : Host.Outcome State Fault Refusal :=
  .next (s.function p .clearAlerts f fun s => s.clearAlertsBody p f)

/-- A SET MASK (R201). -/
def State.setMaskBody (s : State) (p : Port) (f : Fields) : State :=
  (s.modAlerts p fun r => { r with mask := f.value.extractLsb' 1 15, enable := f.value.getLsbD 0 }).setSlot p
    ⟨.accepted, f.value⟩

/-- SET_MASK (R201). -/
def execSetMask (p : Port) (f : Fields) (s : State) : Host.Outcome State Fault Refusal :=
  .next (s.function p .setMask f fun s => s.setMaskBody p f)

end Sys2Proof.Machine
end

