-- ==== Sys2Proof/Machine/Reset.lean ====
section
/-! DEFINITION. RESET: assertion of RSTN or power-on (R183, with R26, R50, R72, R100, R134, R144 to R146, R184, R190,
R195, R198, R203). -/

namespace Sys2Proof.Machine

/-! ### The load from NV (R180, R183) -/

/-- The newer valid copy of the NV array (R180). -/
def Nv.newest (nv : Nv) : Option CopyId :=
  match nv.copyA.valid, nv.copyB.valid with
  | false, false => none
  | true, false => some .a
  | false, true => some .b
  | true, true => if nv.copyB.saveNumber = nv.copyA.saveNumber + 1 then some .b else some .a

/-- An image copy of the NV array. -/
def Nv.copy (nv : Nv) : CopyId → NvCopy
  | .a => nv.copyA
  | .b => nv.copyB

/-- The image that is loaded: the newer valid copy, or the default image (R183). -/
def Nv.loadedImage (nv : Nv) : Image :=
  match nv.newest with
  | some c => (nv.copy c).image
  | none => Image.default

/-- The last image saved, after the load (R183). -/
def Nv.loadedId (nv : Nv) : Option SavedId := nv.newest.map fun c => ⟨c, (nv.copy c).saveNumber⟩

/-- The set that the lockout word restores: its breakers where it is valid, otherwise none (R145, R146). -/
def Nv.restoredSet (nv : Nv) : BreakerSet := if lockWordValid nv.word then lockWordSet nv.word else 0

/-! ### Values after reset -/

/-- A channel after reset: first OFF, then placed by the loaded page (R26). -/
def Channel.atReset (page : ChannelPage) (tLearn : Nat) : Channel :=
  let fixed := decide (page.mode = .fixed)
  let c : Channel :=
    { Channel.afterReset with
      state := .off, window := .stopped
      baseline := if fixed then BitVec.ofNat 12 page.fixedBaseline.val else 0
      valid := fixed }
  (c.withLevels page).recompute page tLearn

/-- A clarity record after reset (R50). -/
def ClarityRec.atReset (page : ChannelPage) : ClarityRec :=
  { ClarityRec.afterReset with clarity := if page.aRef = 0 then .unsupervised else .untested }

/-- A coupler record after reset, with no report (R72). -/
def CouplerRec.atReset (present : Bool) : CouplerRec := ⟨resolve present .none .none, 0⟩

/-- The Topology Unit after reset (R72). -/
def Top.atReset (b : BoardPage) : Top where
  reports := Vector.replicate 4 ⟨.none, .none, .none⟩
  couplers := Vector.ofFn fun j => CouplerRec.atReset b.coupler[j]
  islandName := islandNames fun j => (CouplerRec.atReset b.coupler[j]).resolved.joins

/-- The member view of a zone after reset, from the channels after reset (R100). -/
def viewAtReset (img : Image) (page : ZonePage) : Vector MemberStatus 6 :=
  Vector.ofFn fun i =>
    match page.memberAt i with
    | some n =>
      ⟨false, channelVotes (Channel.atReset img.chans[n] (img.board.tLearn.val * 1000)) img.chans[n].target⟩
    | none => ⟨false, false⟩

/-- A zone record after reset (R100). -/
def ZoneRec.atReset (img : Image) (page : ZonePage) : ZoneRec :=
  let v := viewAtReset img page
  { ZoneRec.afterReset with state := placedState page v, view := v, degraded := voteDegraded page v }

/-- The RESTORED record of a lockout set (R145). -/
def TripRec.restored (b : BreakerSet) : TripRec where
  seq := 0
  kind := .restored
  stage := .locked
  origin := none
  trigger := none
  peak := none
  scope := none
  region := 0
  snapshot := 0
  restrikes := 0
  opened := 0
  closedAt := none
  fallback := false
  escalated := false
  late := false
  degraded := false
  entries := []
  lockout := b
  released := 0
  seenBy := 0

/-- The Trip Record Manager after reset (R134, R144, R145), before any write that R146 requests. -/
def Trm.atReset (nv : Nv) : Trm where
  records := if nv.restoredSet = 0 then [] else [TripRec.restored nv.restoredSet]
  seqCounter := 0
  lock := ⟨.idle, none, none, nv.restoredSet, .none, false⟩

/-- The Configuration Store after the load (R183, R146). -/
def Cfg.atReset (nv : Nv) : Cfg where
  active := nv.loadedImage
  staged := nv.loadedImage
  claim := none
  pendingCommit := false
  lastCommit := .none
  transferCount := 0
  originDefault := nv.newest.isNone
  imageLost := nv.newest.isNone
  lockwordLost := !lockWordValid nv.word
  saveStatus := .idle
  unsaved := nv.newest.isNone
  zonesQuiet := true
  recordsQuiet := true
  testQuiet := true
  transferDue := false
  engine := .idle
  saveWaiting := false
  job := none
  lastSaved := nv.loadedId

/-- A port after reset (R184, R189, R190, R195). -/
def PortRec.atReset (used : Bool) : PortRec :=
  if used then PortRec.afterReset else { PortRec.afterReset with state := .unused, silentTimer := .stopped }

/-- Everything that reset places, before the alert of R183 and R146 and the write of R146. The NV array, the input
levels, the queue and the free counter are outside what reset clears (log 23). -/
def State.placedAtReset (s : State) : State :=
  let img := s.nv.loadedImage
  { alr := ⟨0, Vector.replicate 4 ⟨1, 0, true⟩⟩
    cp := s.cp
    lcu := Vector.ofFn fun n => Channel.atReset img.chans[n] (img.board.tLearn.val * 1000)
    fsu :=
      { clarity := Vector.ofFn fun n => ClarityRec.atReset img.chans[n]
        slotTimer := .running img.board.slotPeriod.val
        queue := []
        test := none
        pointer := 0 }
    top := Top.atReset img.board
    zev := ⟨Vector.ofFn fun z => ZoneRec.atReset img img.zones[z], DrillReg.afterReset, []⟩
    trm := Trm.atReset s.nv
    cfg := Cfg.atReset s.nv
    nv := s.nv
    lnk := Vector.ofFn fun p => PortRec.atReset img.board.incomer[p]
    freeTick := s.freeTick
    pending := s.pending }

/-- Reset: CONFIG_DEFAULT joins RESTARTED where the image or the lockout word was lost (R183, R146, R198), and a write
of the empty set is requested where the word was not valid (R146). -/
def State.powerOn (s : State) : State :=
  let t := s.placedAtReset
  let t := if s.nv.newest.isNone || !lockWordValid s.nv.word then t.raise .configDefault else t
  if lockWordValid s.nv.word then t else t.requestWord 0

/-- RESET (R183). -/
def execReset (s : State) : Host.Outcome State Fault Refusal := .next s.powerOn

end Sys2Proof.Machine
end

