-- ==== Sys2Proof/Machine/Supervision.lean ====
section
/-! DEFINITION. The supervision slot and the end of a test window (R29, R38). -/

namespace Sys2Proof.Machine

/-- What a slot does with no test in flight (R29): the queue first, and a round-robin scan where it starts no test. -/
def State.serveSlot (s : State) : State :=
  let t := s.serveQueue s.fsu.queue
  if t.fsu.test.isSome then t else t.scan (scanOrder t.fsu.pointer)

/-- The slot timer expires (R29): it is started again with the period in the active image, and the slot is served
unless a test is in flight. -/
def State.slotExpiry (s : State) : State :=
  if s.fsu.slotTimer.isRunning then
    let t : State := { s with fsu.slotTimer := .running s.cfg.active.board.slotPeriod.val }
    if t.fsu.test.isSome then t else t.serveSlot
  else s

/-- SLOT_TIMER_EXPIRY (R29). -/
def execSlotTimerExpiry (s : State) : Host.Outcome State Fault Refusal := .next s.slotExpiry

/-- TEST_WINDOW_EXPIRY (R38): the test in flight is complete; with none in flight nothing happens. The fortieth sample
of a test completes it inside LIGHT_SAMPLE (R36, log 6). -/
def execTestWindowExpiry (s : State) : Host.Outcome State Fault Refusal := .next s.completeTest

end Sys2Proof.Machine
end

