-- ==== Sys2Proof/Machine/Trip.lean ====
section
/-! DEFINITION. The timers of a record's entries (R115, R117, R120, R121). An entry is named by the seq of its record
and by its target (log 20). -/

namespace Sys2Proof.Machine

/-- An open record of this seq has an entry on this target of which `p` holds. -/
def TripRec.entryHas (r : TripRec) (seq : Byte) (t : Target) (p : Entry → Bool) : Bool :=
  decide (r.seq = seq) && r.isOpen && r.entries.any fun e => decide (e.target = t) && p e

/-- Some record has such an entry (at most one: R105, R109). -/
def State.entryHas (s : State) (seq : Byte) (t : Target) (p : Entry → Bool) : Bool :=
  s.trm.records.any fun r => r.entryHas seq t p

/-- The record whose entry a timer command names changes. -/
def State.atEntry (s : State) (seq : Byte) (t : Target) (p : Entry → Bool) (f : TripRec → TripRec) : State :=
  { s with trm.records := s.trm.records.map fun r => if r.entryHas seq t p then f r else r }

/-- An entry of a record changes, and the record passes to LOCKED where it then drives nothing (R127). -/
def TripRec.advance (r : TripRec) (t : Target) (p : Entry → Bool) (f : Entry → Entry) : TripRec :=
  (r.modEntry t fun e => if p e then f e else e).settle

/-- The named entry changes, its record with it, and the CFG is told (R128). -/
def State.advanceEntry (s : State) (seq : Byte) (t : Target) (p : Entry → Bool) (f : Entry → Entry) : State :=
  (s.atEntry seq t p fun r => r.advance t p f).noticeRecords

/-- The minimum pulse timer of an entry can expire: it runs in COMMANDED (R104). -/
def Entry.inMinPulse (e : Entry) : Bool := decide (e.state = .commanded) && e.minPulse.isRunning

/-- The minimum pulse is complete (R115): held evidence confirms the entry. -/
def Entry.minPulseOver (e : Entry) : Entry :=
  if e.evidence.isSome then
    { e with minPulse := .stopped, state := .confirmed, breakerFail := .stopped, coil := .stopped }
  else { e with minPulse := .stopped }

/-- The minimum pulse timer of an entry expires (R115). -/
def State.minPulseExpiry (s : State) (seq : Byte) (t : Target) : State :=
  if s.entryHas seq t Entry.inMinPulse then s.advanceEntry seq t Entry.inMinPulse Entry.minPulseOver else s

/-- MIN_PULSE_EXPIRY (R115). -/
def execMinPulseExpiry (seq : Byte) (t : Target) (s : State) : Host.Outcome State Fault Refusal :=
  .next (s.minPulseExpiry seq t)

/-- An entry reaches breaker-fail (R117): FAILING, escalation, and BREAKER_FAIL on every used port. -/
def State.failBreaker (s : State) (seq : Byte) (t : Target) : State :=
  (s.trmEvent fun s => s.atEntry seq t Entry.canFail fun r => s.failEntry r t).raise .breakerFail

/-- The breaker-fail timer of an entry expires (R117, log 24). -/
def State.breakerFailExpiry (s : State) (seq : Byte) (t : Target) : State :=
  if s.entryHas seq t Entry.canFail then s.failBreaker seq t else s

/-- BREAKER_FAIL_EXPIRY (R117). -/
def execBreakerFailExpiry (seq : Byte) (t : Target) (s : State) : Host.Outcome State Fault Refusal :=
  .next (s.breakerFailExpiry seq t)

/-- The coil timer of an entry can expire: it runs in FAILING (R104, R110, R121). -/
def Entry.inCoil (e : Entry) : Bool := decide (e.state = .failing) && e.coil.isRunning

/-- The coil limit is reached (R121). -/
def Entry.giveUp (e : Entry) : Entry := { e with state := .gaveUp, coil := .stopped }

/-- The coil timer of an entry expires (R121). -/
def State.coilExpiry (s : State) (seq : Byte) (t : Target) : State :=
  if s.entryHas seq t Entry.inCoil then s.advanceEntry seq t Entry.inCoil Entry.giveUp else s

/-- COIL_EXPIRY (R121). -/
def execCoilExpiry (seq : Byte) (t : Target) (s : State) : Host.Outcome State Fault Refusal :=
  .next (s.coilExpiry seq t)

/-- The pulse timer of an entry runs in PULSING (R104, R120). -/
def Entry.inPulse (e : Entry) : Bool := decide (e.state = .pulsing) && e.pulse.isRunning

/-- The pulse is complete (R120). -/
def Entry.pulseOver (e : Entry) : Entry := { e with state := .sent, pulse := .stopped }

/-- The pulse timer of an entry on UT_k expires (R120). -/
def State.pulseExpiry (s : State) (seq : Byte) (k : Incomer) : State :=
  if s.entryHas seq (.ut k) Entry.inPulse then s.advanceEntry seq (.ut k) Entry.inPulse Entry.pulseOver else s

/-- PULSE_EXPIRY (R120). -/
def execPulseExpiry (seq : Byte) (k : Incomer) (s : State) : Host.Outcome State Fault Refusal :=
  .next (s.pulseExpiry seq k)

end Sys2Proof.Machine
end

