-- ==== Sys2Proof/Machine/Zones.lean ====
section
/-! DEFINITION. The timers of a zone, the close notice and the drill window (R83, R87, R93, R94, R164). -/

namespace Sys2Proof.Machine

/-- The ENTRY filter of a zone expires while it runs in LIT (R83, R160). -/
def State.filterExpiry (s : State) (z : Zone) : State :=
  if decide (s.zev.zones[z].state = .lit) && s.zev.zones[z].filter.isRunning .entry then s.entryFilterExpiry z else s

/-- FILTER_EXPIRY (R83, R160). -/
def execFilterExpiry (z : Zone) (s : State) : Host.Outcome State Fault Refusal := .next (s.filterExpiry z)

/-- A confirm window runs out (R87); under drill nothing is counted and nothing raised (R162). -/
def State.toSuppressed (s : State) (z : Zone) : State :=
  let drill := s.zev.zones[z].drill
  let t := (s.modZone z fun r =>
    { r with confirm := .stopped, nuisance := if drill then r.nuisance else satInc r.nuisance }).enterZone z .suppressed
  if drill then t else t.raise .nuisance

/-- The confirm timer of a zone expires while it runs in WAITING (R87, R162). -/
def State.confirmExpiry (s : State) (z : Zone) : State :=
  if decide (s.zev.zones[z].state = .waiting) && s.zev.zones[z].confirm.isRunning then s.toSuppressed z else s

/-- CONFIRM_WINDOW_EXPIRY (R87, R162). -/
def execConfirmWindowExpiry (z : Zone) (s : State) : Host.Outcome State Fault Refusal := .next (s.confirmExpiry z)

/-- The RESTRIKE filter of a zone expires while it runs in TRIPPED (R93). -/
def State.restrikeExpiry (s : State) (z : Zone) : State :=
  if decide (s.zev.zones[z].state = .tripped) && s.zev.zones[z].filter.isRunning .restrike then
    s.restrikeFilterExpiry z
  else s

/-- RESTRIKE_FILTER_EXPIRY (R93). -/
def execRestrikeFilterExpiry (z : Zone) (s : State) : Host.Outcome State Fault Refusal := .next (s.restrikeExpiry z)

/-- A close notice that is on its way arrives at its zone (R94, R139, log 26). -/
def State.closeNotice (s : State) (z : Zone) : State :=
  if z ∈ s.zev.notices then
    let t : State := { s with zev.notices := s.zev.notices.erase z }
    if t.zev.zones[z].state = .tripped then t.leaveTripped z else t
  else s

/-- CLOSE_NOTICE (R94). -/
def execCloseNotice (z : Zone) (s : State) : Host.Outcome State Fault Refusal := .next (s.closeNotice z)

/-- The drill window expires while a drill is in progress (R164). -/
def State.drillExpiry (s : State) : State :=
  if s.zev.drill.active && s.zev.drill.window.isRunning then s.endDrill .expiry else s

/-- DRILL_WINDOW_EXPIRY (R164). -/
def execDrillWindowExpiry (s : State) : Host.Outcome State Fault Refusal := .next s.drillExpiry

end Sys2Proof.Machine
end

