-- ==== Sys2Proof/Machine/Dispatch.lean ====
section
/-! DEFINITION. The meaning of a command: one arm per row of spec/opcode_table.json. -/

namespace Sys2Proof.Machine

def exec (i : Instr) (s : State) : Host.Outcome State Fault Refusal :=
  match i with
  | .reset => Sys2Proof.Machine.execReset s
  | .millisecondTick => Sys2Proof.Machine.execMillisecondTick s
  | .lightSample n v => Sys2Proof.Machine.execLightSample n v s
  | .learningWindowExpiry n => Sys2Proof.Machine.execLearningWindowExpiry n s
  | .stormWindowExpiry n => Sys2Proof.Machine.execStormWindowExpiry n s
  | .slotTimerExpiry => Sys2Proof.Machine.execSlotTimerExpiry s
  | .testWindowExpiry => Sys2Proof.Machine.execTestWindowExpiry s
  | .cpLineChange k active => Sys2Proof.Machine.execCpLineChange k active s
  | .filterExpiry z => Sys2Proof.Machine.execFilterExpiry z s
  | .confirmWindowExpiry z => Sys2Proof.Machine.execConfirmWindowExpiry z s
  | .restrikeFilterExpiry z => Sys2Proof.Machine.execRestrikeFilterExpiry z s
  | .closeNotice z => Sys2Proof.Machine.execCloseNotice z s
  | .minPulseExpiry seq t => Sys2Proof.Machine.execMinPulseExpiry seq t s
  | .breakerFailExpiry seq t => Sys2Proof.Machine.execBreakerFailExpiry seq t s
  | .coilExpiry seq t => Sys2Proof.Machine.execCoilExpiry seq t s
  | .pulseExpiry seq k => Sys2Proof.Machine.execPulseExpiry seq k s
  | .lockoutWordWriteEnd rb => Sys2Proof.Machine.execLockoutWordWriteEnd rb s
  | .saveWriteEnd rb => Sys2Proof.Machine.execSaveWriteEnd rb s
  | .selectTimeout p => Sys2Proof.Machine.execSelectTimeout p s
  | .frameRejected p edges sckHigh bits => Sys2Proof.Machine.execFrameRejected p edges sckHigh bits s
  | .unknownFunction p code f => Sys2Proof.Machine.execUnknownFunction p code f s
  | .fetch p f => Sys2Proof.Machine.execFetch p f s
  | .read p f => Sys2Proof.Machine.execRead p f s
  | .readStaged p f => Sys2Proof.Machine.execReadStaged p f s
  | .write p f => Sys2Proof.Machine.execWrite p f s
  | .report p f => Sys2Proof.Machine.execReport p f s
  | .claim p f => Sys2Proof.Machine.execClaim p f s
  | .yield p f => Sys2Proof.Machine.execYield p f s
  | .commit p f => Sys2Proof.Machine.execCommit p f s
  | .release p f => Sys2Proof.Machine.execRelease p f s
  | .record p f => Sys2Proof.Machine.execRecord p f s
  | .seen p f => Sys2Proof.Machine.execSeen p f s
  | .clearAlerts p f => Sys2Proof.Machine.execClearAlerts p f s
  | .setMask p f => Sys2Proof.Machine.execSetMask p f s
  | .relearn p page operand => Sys2Proof.Machine.execRelearn p page operand s
  | .test p page operand => Sys2Proof.Machine.execTest p page operand s
  | .capture p page operand => Sys2Proof.Machine.execCapture p page operand s
  | .drillStart p page operand => Sys2Proof.Machine.execDrillStart p page operand s
  | .drillEnd p page operand => Sys2Proof.Machine.execDrillEnd p page operand s
  | .save p page operand => Sys2Proof.Machine.execSave p page operand s
  | .clearCounters p page operand => Sys2Proof.Machine.execClearCounters p page operand s
  | .defaultStaged p page operand => Sys2Proof.Machine.execDefaultStaged p page operand s
  | .drillWindowExpiry => Sys2Proof.Machine.execDrillWindowExpiry s
  | .heartbeatExpiry p => Sys2Proof.Machine.execHeartbeatExpiry p s
  | .silentTimerExpiry p => Sys2Proof.Machine.execSilentTimerExpiry p s
  | .transfer => Sys2Proof.Machine.execTransfer s
  | .selectFall p sck => Sys2Proof.Machine.execSelectFall p sck s
  | .timedOutSelectRise p => Sys2Proof.Machine.execTimedOutSelectRise p s
  | .selectPulseIgnored p => Sys2Proof.Machine.execSelectPulseIgnored p s
  | .controlBadSubfunction p f => Sys2Proof.Machine.execControlBadSubfunction p f s

end Sys2Proof.Machine
end

