-- ==== Sys2Proof/Safety.lean ====
section
/-! DEFINITION. The vocabulary of the statements: what a good frame leaves at a port, and what holds in every state
that the part can reach. -/

namespace Sys2Proof.Machine

/-! ### Frames -/

/-- A good frame can be the next thing at the port (log 4): in IDLE the whole frame, in SHIFTING its end where no clock
edge has come yet and the clock was low at the fall of select; in TIMED_OUT none (R186). What edges that came with the
fall of select change is said by `Obligations.ClockEdgesShiftTheRegisters`: nothing. -/
def State.frameReady (s : State) (p : Port) : Bool :=
  match s.lnk[p].frame with
  | .idle => true
  | .shifting => !s.lnk[p].sckAtFall && !s.lnk[p].sck && decide (s.lnk[p].edges = 0)
  | .timedOut => false

/-- The port can take a request of a LIVE port now. -/
def State.liveReady (s : State) (p : Port) : Bool := s.frameReady p && decide (s.lnk[p].state = .live)

/-- The frame that a command ends, from SCK at this level at the fall of select (R185, R187, R204): its port and its
clock edges. -/
def frameEdges (sckAtFall : Bool) : Instr → Option (Port × List Edge)
  | .frameRejected p n sckHigh w => some (p, frameRun sckAtFall n.toNat sckHigh w)
  | .unknownFunction p code f => request p code f
  | .fetch p f => request p 0x0 f
  | .read p f => request p 0x1 f
  | .readStaged p f => request p 0x2 f
  | .write p f => request p 0x3 f
  | .report p f => request p 0x4 f
  | .claim p f => request p 0x5 f
  | .yield p f => request p 0x6 f
  | .commit p f => request p 0x7 f
  | .release p f => request p 0x8 f
  | .record p f => request p 0x9 f
  | .seen p f => request p 0xA f
  | .clearAlerts p f => request p 0xB f
  | .setMask p f => request p 0xC f
  | .controlBadSubfunction p f => request p 0xD f
  | .relearn p page v => request p 0xD ⟨page, 1, v⟩
  | .test p page v => request p 0xD ⟨page, 2, v⟩
  | .capture p page v => request p 0xD ⟨page, 3, v⟩
  | .drillStart p page v => request p 0xD ⟨page, 4, v⟩
  | .drillEnd p page v => request p 0xD ⟨page, 5, v⟩
  | .save p page v => request p 0xD ⟨page, 6, v⟩
  | .clearCounters p page v => request p 0xD ⟨page, 7, v⟩
  | .defaultStaged p page v => request p 0xD ⟨page, 8, v⟩
  | _ => none
where
  request (p : Port) (code : BitVec 4) (f : Fields) : Option (Port × List Edge) :=
    some (p, frameRun sckAtFall 40 false (frameOf (requestBody code f)))

/-- The fields of a port that its frames do not touch by themselves. -/
def SamePort (q r : PortRec) : Prop :=
  r.state = q.state ∧ r.silentTimer = q.silentTimer ∧ r.heartbeat = q.heartbeat ∧ r.rejects = q.rejects ∧
    r.selection = q.selection ∧ r.latch = q.latch

/-- What an accepted frame with reply `rep` leaves at the ports: the port back in IDLE with its select timer stopped,
FRAME_ERR clear, the reply in its slot and its other fields as in `q`; the other ports as they were (R187, R189, R190).
-/
def TookFrame (before after : Vector PortRec 4) (p : Port) (q : PortRec) (rep : Reply) : Prop :=
  (∀ o, o ≠ p → after[o] = before[o]) ∧ after[p].frame = .idle ∧ after[p].selectTimer = .stopped ∧
    after[p].frameErr = false ∧ after[p].slot = rep ∧ SamePort q after[p]

/-- A port but for its record window: without selection and half latch, which a record that leaves the list takes with it
(R150, R152, R154). -/
def PortRec.noWindow (r : PortRec) : PortRec := { r with selection := none, latch := none }

/-! ### Alerts and answers -/

/-- The alert sets after an alert was raised on the ports that `on` picks and on no other (R199). -/
def AlertsRaised (before after : Vector AlertRec 4) (a : Alert) (on : Port → Bool) : Prop :=
  ∀ p : Port, after[p] = if on p then { before[p] with bits := before[p].bits ||| single a.bit } else before[p]

/-- The alert stands in the set of a port (R198, R208). -/
def State.alerted (s : State) (p : Port) (a : Alert) : Bool := mem s.alr.ports[p].bits a.bit

/-- The command leads to a state that differs from `s` at the ports only, and there as an accepted frame of port `p` with
this reply leaves them (R187, R189, R190). -/
def AnswersOnly (c : Instr) (s : State) (p : Port) (rep : Reply) : Prop :=
  ∃ l, exec c s = .next { s with lnk := l } ∧ TookFrame s.lnk l p s.lnk[p] rep

/-- An entry just commanded on a TI or TC line (R108): the timers of the image, and open evidence where the breaker's
present state gives it: CP_k inactive for TI_k, a resolved state of OPEN for TC_j. -/
def State.freshEntry (s : State) (t : Target) (why : Reason) : Entry where
  target := t
  reason := why
  state := .commanded
  commandTime := s.alr.time
  evidence := match t with
    | .ti k => if s.cp[k] = false then some s.alr.time else none
    | .tc j => if s.top.couplers[j].resolved = .opened then some s.alr.time else none
    | .ut _ => none
  late := false
  minPulse := .running s.cfg.active.board.tMin.val
  breakerFail := .running s.cfg.active.board.tBf.val
  coil := .running s.cfg.active.board.tCoil.val
  pulse := .stopped

/-- An entry just commanded on a UT line (R108). -/
def State.freshPulse (s : State) (k : Incomer) (why : Reason) : Entry where
  target := .ut k
  reason := why
  state := .pulsing
  commandTime := s.alr.time
  evidence := none
  late := false
  minPulse := .stopped
  breakerFail := .stopped
  coil := .stopped
  pulse := .running s.cfg.active.board.tUp.val

/-- A record with these entries, LOCKED where it was FIRING and drives no line any more (R127). -/
def TripRec.withEntries (r : TripRec) (es : List Entry) : TripRec :=
  { r with
    entries := es
    stage := if r.stage = .firing ∧ (∀ e ∈ es, e.state.drives = false) then .locked else r.stage }

/-- A record after open evidence of a breaker's opening has reached it (R112 to R116, R122, R127): while it is open, an
entry on the target in COMMANDED, FAILING or GAVE_UP that has no evidence takes it. -/
def TripRec.tookEvidence (r : TripRec) (tg : Target) (now : Time) : TripRec :=
  let takes (e : Entry) : Prop :=
    e.target = tg ∧ (e.state = .commanded ∨ e.state = .failing ∨ e.state = .gaveUp) ∧ e.evidence = none
  if r.stage = .closed then r else
    ({ r with late := r.late || r.entries.any fun e => decide (takes e ∧ e.state ≠ .commanded) } : TripRec).withEntries
      (r.entries.map fun e =>
        if takes e then
          (if e.state = .commanded then
            (if e.minPulse.isRunning = true then { e with evidence := some now }
             else { e with evidence := some now, state := .confirmed, breakerFail := .stopped, coil := .stopped })
           else { e with evidence := some now, state := .confirmed, late := true, coil := .stopped })
        else e)

/-- A record after an evaluated sample of channel `n` was offered to it (R111). -/
def State.peaked (s : State) (n : Chan) (v : LU) (r : TripRec) : TripRec :=
  if r.stage = .firing ∧ (r.origin.any fun z => decide (n ∈ s.cfg.active.zones[z].members)) = true ∧
    (r.peak.any fun p => decide (p < v)) = true then { r with peak := some v } else r

/-- The trip set, the snapshot and the FALLBACK flag that go with the region of an answer of TOP (R67 to R69). -/
def State.AnswersFor (s : State) (sc : Scope) (a : TripAnswer) : Prop :=
  let incomer (b : Fin 7) (on : Incomer → Prop) : Prop :=
    ∃ i : Incomer, b = breakerOfIncomer i ∧ s.cfg.active.board.incomer[i] = true ∧ on i
  let own (b : Fin 7) : Prop :=
    if sc = .sectional then mem (s.boundarySet a.region) b = true else incomer b fun i => mem a.region i = true
  (a.fallback = true ↔ ∀ b, ¬ own b) ∧
    (∀ b, mem a.trips b = true ↔ if a.fallback = true then incomer b fun _ => True else own b) ∧
    ∀ m : Sect, mem a.snapshot m = true ↔ ∃ k : Sect, mem a.region k = true ∧ s.sameIsland m k = true

/-- A request that is removed when it comes to the head of the queue (R33 steps 1 and 2). -/
def State.removes (s : State) (r : Request) : Bool :=
  decide (s.cfg.active.chans[r.chan].target = .off ∨ (r.kind = .test ∧ s.cfg.active.chans[r.chan].aRef = 0))

/-- The requests that a slot removes one after another (R33), and those that are left. -/
def State.removed (s : State) : List Request := s.fsu.queue.takeWhile s.removes
def State.queueLeft (s : State) : List Request := s.fsu.queue.dropWhile s.removes

/-- The clarity record of a channel after the removals of a slot (R33): SKIPPED, and a capture FAILED. -/
def State.skipped (s : State) (n : Chan) : ClarityRec :=
  { s.fsu.clarity[n] with
    lastOutcome := if n ∈ s.removed.map (·.chan) then .skipped else s.fsu.clarity[n].lastOutcome
    capture := if ⟨n, .capture⟩ ∈ s.removed then .failed else s.fsu.clarity[n].capture }

/-- Supervision after a release or lapse of the edit claim (R32): the captures under way have lost their claim. -/
def Fsu.claimLost (f : Fsu) : Fsu :=
  { f with
    clarity := Vector.ofFn fun n : Chan => { f.clarity[n] with
      capture := if ⟨n, .capture⟩ ∈ f.queue ∨ (f.test.any fun run => decide (run.chan = n ∧ run.kind = .capture)) = true
        then .failed else f.clarity[n].capture }
    queue := f.queue.map fun r => ⟨r.chan, .test⟩
    test := f.test.map fun run => { run with kind := if run.kind = .capture then .test else run.kind } }

/-- A save write has begun (R180, R182): the active image goes, under the next save number, to the copy that does not
hold the last image saved; that copy has no valid check until the write ends (log 17). -/
def State.saveBegun (s : State) : State :=
  let next : SavedId := match s.cfg.lastSaved with
    | none => ⟨.a, 0⟩
    | some x => ⟨if x.copy = .a then .b else .a, x.number + 1⟩
  { s with
    cfg.saveWaiting := false, cfg.engine := .saving
    cfg.job := some ⟨next.copy, next.number, s.cfg.active, true⟩
    nv := match next.copy with
      | .a => { s.nv with copyA := { s.nv.copyA with valid := false } }
      | .b => { s.nv with copyB := { s.nv.copyB with valid := false } } }

/-- The transfer of a pending commit is due in `t` as the notices of an event from `s` leave it (R97, R128, R178): a
commit is pending and the three views are quiet. That it is then due, and made by a TRANSFER of its own, is the model's
reading (log 5), and so is that a test started since and with no sample taken yet does not take back a transfer that was
due. -/
def State.DueAfter (s t : State) : Prop :=
  t.cfg.transferDue = true ↔
    t.cfg.pendingCommit = true ∧ t.cfg.zonesQuiet = true ∧ t.cfg.recordsQuiet = true ∧
      (t.cfg.testQuiet = true ∨ s.cfg.transferDue = true ∧ ∀ run ∈ t.fsu.test, run.samplesLeft = 40)

/-! ### Numbers, decisions and the end of a drill -/

/-- The number that a new record takes where records of the list hold `used` and the counter holds `c` (R105): one more,
and one more again while it is in use. -/
def NextNumber (used : List Byte) (c n : Byte) : Prop :=
  ∃ k : Nat, 1 ≤ k ∧ n = c + BitVec.ofNat 8 k ∧ n ∉ used ∧ ∀ i, 1 ≤ i → i < k → c + BitVec.ofNat 8 i ∈ used

/-- The ARC record that a decision of zone `z` opens under the number `n` (R106, R108). -/
def State.arcOf (s : State) (z : Zone) (n : Byte) : TripRec :=
  let page := s.cfg.active.zones[z]
  let a := s.initialAnswer page.location page.scope
  { seq := n, kind := .arc, stage := .firing, origin := some z, trigger := s.zev.zones[z].trigger, peak := some 0
    scope := some page.scope, region := a.region, snapshot := a.snapshot, restrikes := 0, opened := s.alr.time
    closedAt := none, fallback := a.fallback, escalated := false, late := false, degraded := s.zev.zones[z].degraded
    entries := (targetsOf a.trips).map fun tg => s.freshEntry tg .initial
    lockout := a.trips, released := 0, seenBy := 0 }

/-- The record is the open ARC record of the zone (R101, R124). -/
abbrev TripRec.ArcOf (r : TripRec) (z : Zone) : Prop := r.kind = .arc ∧ r.stage ≠ .closed ∧ r.origin = some z

/-- A re-strike of the zone is confirmed (R93). -/
def State.RestrikeConfirmed (s : State) (z : Zone) : Prop :=
  s.cfg.active.zones[z].confirm = .lightOnly ∨ s.live (s.feedSet (s.recordRegion z)) = true

/-- A record after a re-strike (R125, R126): the entries on the targets of the trip set of TOP, and on the intertrip
lines of its incomers, are commanded anew, those it does not hold are added, its breakers are held again, and it is
FIRING. -/
def State.restruck (s : State) (r : TripRec) : TripRec :=
  let a := s.restrikeAnswer (r.scope.getD .sectional) r.region
  let ts := targetsOf a.trips
  let again (tg : Target) : Bool :=
    ts.any fun x => decide (x = tg) || (match x with | .ti k => decide (tg = .ut k) | _ => false)
  { r with
    region := a.region, fallback := r.fallback || a.fallback, restrikes := satInc r.restrikes
    entries := (r.entries.map fun e => if again e.target then
        (match e.target with
          | .ut k => s.freshPulse k e.reason
          | tg => s.freshEntry tg e.reason)
        else e) ++
      (ts.filter fun tg => !r.entries.any fun e => decide (e.target = tg)).map fun tg => s.freshEntry tg .restrike
    lockout := r.lockout ||| a.trips, released := r.released &&& ~~~a.trips, stage := .firing }

/-- The zones of `zs` decide one after another (R91, R106, R130): from the counter `c` and the list `rs`, a full list
gives up its oldest closed record (R107) and each decision appends its record under the next number, to `c'` and `rs'`.
-/
def State.ArcsOpened (s : State) : List Zone → Byte → List TripRec → Byte → List TripRec → Prop
  | [], c, rs, c', rs' => c' = c ∧ rs' = rs
  | z :: zs, c, rs, c', rs' =>
    let kept := if rs.length < 12 then rs else rs.eraseP fun r => decide (r.stage = .closed)
    ∃ n, NextNumber (kept.map (·.seq)) c n ∧ State.ArcsOpened s zs n (kept ++ [s.arcOf z n]) c' rs'

/-- The list is one of R101 and has room for a record of each zone of `zs` once closed records give way. By `ListInv`
and `RecordsInv` this is so in every reachable state for zones that are not TRIPPED: at most eight ARC records and one
RESTORED record are open. -/
def State.RoomFor (s : State) (zs : List Zone) : Prop :=
  s.trm.records.length ≤ 12 ∧ (s.trm.records.filter fun r => decide (r.stage ≠ .closed)).length + zs.length ≤ 12

/-- What an event asks of the write engine by its change of the close-inhibit lines (R132, R142): nothing where they are
as they were; otherwise the retry flag is cleared and a write of the new set is asked for, which waits behind a write in
progress, in place of a set that waited, and is begun at once by an idle engine. Where the event asks `once`, the set
whose write is begun is the new one; an event of several requests may begin the set of an earlier one, and the last
waits. -/
def State.AsksForWord (s t : State) (once : Prop) : Prop :=
  let l := s.trm.lock
  let new := t.closeInhibit
  (new = s.closeInhibit → t.trm.lock = l ∧ t.cfg.engine = s.cfg.engine) ∧
  (new ≠ s.closeInhibit → s.cfg.engine ≠ .idle → t.cfg.engine = s.cfg.engine ∧ t.trm.lock = { l with
    status := if l.status = .writing then .writing else .waiting, waiting := some new, retry := false }) ∧
  (new ≠ s.closeInhibit → s.cfg.engine = .idle → t.cfg.engine = .word ∧ ∃ begun, (once → begun = new) ∧
    t.trm.lock = { l with
      status := .writing, writing := some begun, waiting := if begun = new then none else some new, retry := false })

/-- What the arc decisions of the zones of `zs` make of zones, lines, alerts, the lockout word and the view of the
records, but for the records and the drill (R90, R106, R128, R131, R132, R142); a pending commit then waits (R178, log
5). -/
def State.Decided (s t : State) (zs : List Zone) : Prop :=
  (∀ z : Zone, t.zev.zones[z] = if z ∈ zs then { s.zev.zones[z] with
      filter := .stopped, confirm := .stopped, phase := some .holding, state := .tripped, entryTime := s.alr.time
      drill := t.zev.zones[z].drill }
    else { s.zev.zones[z] with drill := t.zev.zones[z].drill }) ∧
  (∀ z ∈ zs, ∀ b : Fin 7,
    mem (s.initialAnswer s.cfg.active.zones[z].location s.cfg.active.zones[z].scope).trips b = true →
      t.tripLine (tripLineOf b) = true ∧ mem t.closeInhibit b = true) ∧
  s.AsksForWord t (zs.length ≤ 1) ∧
  (zs ≠ [] → t.cfg.recordsQuiet = false ∧ t.cfg.transferDue = false ∧
    ∀ p, s.used p = true → t.alerted p .arcOpened = true)

/-- The drill register after a drill in progress has ended (R164); that the start time is kept is the model's choice
(log 29). -/
def DrillReg.ended (d : DrillReg) (why : EndReason) : DrillReg :=
  { d with
    active := false, zone := none, owner := none, window := .stopped, shown := 0, lastZone := d.zone
    lastOwner := d.owner, lastReason := why, lastShown := d.shown }

/-- A drill ends with DECISION where its zone is among the zones of `zs` that decide, and goes on otherwise (R160, R162,
R164). -/
def State.DrillDecided (s t : State) (zs : List Zone) : Prop :=
  let ends := s.zev.drill.active = true ∧ ∃ z ∈ zs, s.zev.zones[z].drill = true
  (ends → t.zev.drill = s.zev.drill.ended .decision ∧ (∀ p, s.used p = true → t.alerted p .drill = true) ∧
    ∀ z : Zone, t.zev.zones[z].drill = (s.zev.zones[z].drill && decide (s.zev.drill.zone ≠ some z))) ∧
  (¬ ends → t.zev.drill = s.zev.drill ∧ ∀ z : Zone, t.zev.zones[z].drill = s.zev.zones[z].drill)

/-- The couplers that come into OPEN between two states, as targets of open evidence (R62, R114). -/
def openedTargets (s t : State) : List Target :=
  ((List.finRange 3).filter fun j : Coupler =>
    decide (t.top.couplers[j].resolved = .opened ∧ s.top.couplers[j].resolved ≠ .opened)).map Target.tc

/-- Records after open evidence of these targets has reached them (R112 to R114). -/
def withEvidence (rs : List TripRec) (tgs : List Target) (now : Time) : List TripRec :=
  rs.map fun r => tgs.foldl (fun r tg => r.tookEvidence tg now) r

/-! ### Items -/

/-- The number that an item of pages 0 to 2 of an image carries, by the lists of R208, absent where the page and index
name none. -/
def itemAt (img : Image) (page : BitVec 4) (index : Byte) : Option Nat :=
  let code (b : Bool) : Nat := if b then 1 else 0
  match page.toNat with
  | 0 =>
    let b := img.board
    [code b.incomer[0], code b.incomer[1], code b.incomer[2], code b.incomer[3], code b.coupler[0], code b.coupler[1],
      code b.coupler[2], b.tMin.val, b.tBf.val, b.tCoil.val, b.tUp.val, b.slotPeriod.val, b.soiledW.val, b.blindB.val,
      b.hystH.val, b.ka.val, b.kc.val, b.tLearn.val, b.tHb.val, b.tDrill.val][index.toNat]?
  | 1 =>
    let p := img.chans[(⟨index.toNat / 16, by omega⟩ : Chan)]
    [match p.target with | .off => 0 | .observe => 1 | .armed => 2,
      match p.mode with | .learned => 0 | .fixed => 1,
      p.fixedBaseline.val, p.gain.val, p.floor.val, p.dropRatio.val, p.dropCount.val, p.stormLimit.val,
      match p.stormAction with | .report => 0 | .demote => 1,
      p.aRef.toNat][index.toNat % 16]?
  | 2 =>
    if h : index.toNat / 16 < 8 then
      let p := img.zones[(⟨index.toNat / 16, h⟩ : Zone)]
      [code p.enabled,
        match p.location with | .sect a => a.val | .coupler k => 4 + k.val,
        p.slots[0].toNat, p.slots[1].toNat, p.slots[2].toNat, p.slots[3].toNat, p.slots[4].toNat, p.slots[5].toNat,
        match p.vote with | .any => 0 | .two => 1,
        match p.confirm with | .current => 0 | .lightOnly => 1,
        match p.scope with | .sectional => 0 | .island => 1 | .board => 2,
        p.tzf.val, p.tcw.val][index.toNat % 16]?
    else none
  | _ => none

/-- The lowest and the highest number of an item of pages 0 to 2 and its step, by the tables of R1, R73 and R168 in the
coding of R208, and R169 for the slots; absent where the page and index name none. -/
def itemRange (page : BitVec 4) (index : Byte) : Option (Nat × Nat × Nat) :=
  match page.toNat with
  | 0 => [(0, 1, 1), (0, 1, 1), (0, 1, 1), (0, 1, 1), (0, 1, 1), (0, 1, 1), (0, 1, 1), (10, 100, 1), (40, 500, 1),
      (100, 2000, 1), (50, 1000, 1), (5, 1000, 1), (20, 90, 1), (5, 60, 1), (2, 20, 1), (1, 8, 1), (1, 8, 1),
      (2, 120, 1), (20, 1000, 1), (10, 300, 1)][index.toNat]?
  | 1 => [(0, 2, 1), (0, 1, 1), (0, 4000, 1), (3, 16, 1), (100, 4000, 1), (50, 95, 5), (1, 16, 1), (0, 250, 1),
      (0, 1, 1), (0, 4095, 1)][index.toNat % 16]?
  | 2 =>
    if index.toNat / 16 < 8 then
      [(0, 1, 1), (0, 6, 1), (0, 255, 1), (0, 255, 1), (0, 255, 1), (0, 255, 1), (0, 255, 1), (0, 255, 1), (0, 1, 1),
        (0, 1, 1), (0, 2, 1), (0, 16, 1), (5, 100, 1)][index.toNat % 16]?
    else none
  | _ => none

/-- A READ of this page and index completes and is answered with this item: its value, ABSENT, or BAD_INDEX (R205). -/
def State.Shows (s : State) (p : Port) (page : BitVec 4) (index : Nat) (x : Item) : Prop :=
  ∀ v : Word, ∃ l, exec (.read p ⟨page, BitVec.ofNat 8 index, v⟩) s = .next { s with lnk := l } ∧
    l[p].slot = match x with
      | .value n => ⟨.accepted, BitVec.ofNat 16 n⟩
      | .absent => ⟨.absent, 0⟩
      | .noItem => ⟨.badIndex, 0⟩

/-- The low and the high half of a time, ABSENT where the time is absent (R154). -/
def lowItem (t : Option Time) : Item := .ofOption (t.map fun x => x.toNat % 65536)
def highItem (t : Option Time) : Item := .ofOption (t.map fun x => x.toNat / 65536)

/-- A time item of the status pages, by its page and the index of its low half (R154, R208). -/
def State.HasTime (s : State) (page : BitVec 4) (low : Nat) (t : Option Time) : Prop :=
  (page = 4 ∧ ∃ n : Chan,
    (low = 16 * n.val ∧ t = s.lcu[n].flash.map (·.start)) ∨
    (low = 16 * n.val + 4 ∧ t = s.lcu[n].lastFlash.map (·.start))) ∨
  (page = 6 ∧ ∃ z : Zone, low = 16 * z.val + 1 ∧ t = some s.zev.zones[z].entryTime) ∨
  (page = 7 ∧ ((∃ j : Coupler, low = 7 + 2 * j.val ∧ t = some s.top.couplers[j].entryTime) ∨
    (low = 33 ∧ t = some s.zev.drill.startTime) ∨ (low = 48 ∧ t = some s.alr.time)))

/-- Masks and enables as they were, and no alert that stood taken away (R199, R201). -/
def AlertFrame (s t : State) : Prop :=
  ∀ p : Port, t.alr.ports[p].mask = s.alr.ports[p].mask ∧ t.alr.ports[p].enable = s.alr.ports[p].enable ∧
    ∀ i, mem s.alr.ports[p].bits i = true → mem t.alr.ports[p].bits i = true

/-- What an event at the zones and the records leaves as it was: the time, the alerts but for new ones, the CP lines,
channels, supervision and topology, the NV array, the queue, every port but for its record window, and the Configuration
Store but for its write engine's queue, its views and the due transfer, which `DueInv` ties to the views. -/
def TripFrame (s t : State) : Prop :=
  t.alr.time = s.alr.time ∧ AlertFrame s t ∧ t.cp = s.cp ∧ t.lcu = s.lcu ∧ t.fsu = s.fsu ∧ t.top = s.top ∧ t.nv = s.nv ∧ t.pending = s.pending ∧
    (∀ p : Port, t.lnk[p] = { s.lnk[p] with selection := t.lnk[p].selection, latch := t.lnk[p].latch }) ∧
    t.cfg = { s.cfg with
      engine := t.cfg.engine, saveWaiting := t.cfg.saveWaiting, job := t.cfg.job, zonesQuiet := t.cfg.zonesQuiet
      recordsQuiet := t.cfg.recordsQuiet, transferDue := t.cfg.transferDue }

/-- What an event at a channel or at supervision leaves as it was: as `TripFrame`, but for the channels, supervision, the
staged image and the view of the test. -/
def LightFrame (s t : State) : Prop :=
  TripFrame { s with lcu := t.lcu, fsu := t.fsu, cfg.staged := t.cfg.staged, cfg.testQuiet := t.cfg.testQuiet } t

/-- No zone waits for current. -/
def State.noneWaiting (s : State) : Prop := ∀ z : Zone, s.zev.zones[z].state ≠ .waiting

/-! ### What holds in every reachable state -/

/-- The division into islands is the one the resolved states give (R59, R60). -/
def IslandsInv (s : State) : Prop := s.top.islandName = islandNames s.joined

/-- A record as chapters 5 to 7 leave it: what it has released it has locked out (R135); it has a closed time exactly
when it is CLOSED (R102); out of FIRING it drives no line (R127); a DRILL record is CLOSED, holds no lockout and has
SHOWN entries only (R161). -/
def RecordOk (r : TripRec) : Prop :=
  r.released &&& ~~~r.lockout = 0 ∧ (r.closedAt.isSome ↔ r.stage = .closed) ∧
    (r.stage ≠ .firing → ∀ e ∈ r.entries, e.state.drives = false) ∧
    (r.kind = .drill → r.stage = .closed ∧ r.lockout = 0 ∧ ∀ e ∈ r.entries, e.state = .shown)

def RecordsInv (s : State) : Prop := ∀ r ∈ s.trm.records, RecordOk r

/-- The list as R90, R101, R105 and R109 leave it: at most twelve records, of distinct seqs and each with entries on
distinct targets; every ARC record has an origin zone; at most one open ARC record for each zone and at most one open
RESTORED record. A zone is TRIPPED exactly while it is the origin of an open ARC record or a close notice is on its way
to it (R94), and never both; no zone has two notices on their way. -/
def ListInv (s : State) : Prop :=
  let rs := s.trm.records
  rs.length ≤ 12 ∧ (rs.map (·.seq)).Nodup ∧ (∀ r ∈ rs, (r.entries.map (·.target)).Nodup) ∧
    (∀ r ∈ rs, r.kind = .arc → r.origin ≠ none) ∧
    (rs.filter fun r => decide (r.kind = .restored ∧ r.stage ≠ .closed)).length ≤ 1 ∧ s.zev.notices.Nodup ∧
    ∀ z : Zone, (rs.filter fun r => decide (r.ArcOf z)).length ≤ 1 ∧
      (s.zev.zones[z].state = .tripped ↔ (∃ r ∈ rs, r.ArcOf z) ∨ z ∈ s.zev.notices) ∧
      ¬ ((∃ r ∈ rs, r.ArcOf z) ∧ z ∈ s.zev.notices)

/-- A port is UNUSED exactly while its incomer is absent (R51, R195); a port that is not LIVE has a report record of NONE
(R52), does not hold the edit claim (R171) and owns no drill in progress (R165). -/
def LinksInv (s : State) : Prop :=
  ∀ p : Port,
    (s.lnk[p].state = .unused ↔ s.used p = false) ∧
      (s.lnk[p].state ≠ .live →
        s.top.reports[p] = ReportRec.empty ∧ s.cfg.claim ≠ some p ∧
          (s.zev.drill.active = true → s.zev.drill.owner ≠ some p))

/-- A zone is under drill exactly while it is the zone of the drill in progress (R158, R164). -/
def DrillInv (s : State) : Prop :=
  ∀ z : Zone, s.zev.zones[z].drill = true ↔ s.zev.drill.active = true ∧ s.zev.drill.zone = some z

/-- The mask flag and the testing flag of a channel are set exactly while its test is in flight (R16, R27, R29); the
request queue holds at most four requests, no two for one channel (R28). -/
def TestInv (s : State) : Prop :=
  (∀ n : Chan, s.lcu[n].mask = s.emitter n ∧ s.fsu.clarity[n].testing = s.emitter n) ∧
    s.fsu.queue.length ≤ 4 ∧ (s.fsu.queue.map (·.chan)).Nodup

/-- The lockout word state and the write engine agree: WRITING exactly while the engine writes a word, WAITING only
behind a save write, and an idle engine with nothing waiting (R142, R143, R181, R182). -/
def EngineOk (l : LockState) (c : Cfg) : Prop :=
  (l.status = .writing ↔ c.engine = .word) ∧ (l.writing.isSome ↔ l.status = .writing) ∧
    (l.status = .waiting → l.waiting.isSome) ∧ (l.status = .idle → l.waiting = none) ∧
    (c.engine = .idle → l.waiting = none ∧ c.saveWaiting = false) ∧ (c.job.isSome ↔ c.engine = .saving) ∧
    (c.saveStatus = .writing ↔ c.saveWaiting = true ∨ c.engine = .saving) ∧
    ¬(c.saveWaiting = true ∧ c.engine = .saving)

/-- The set that the last lockout word write asked for will write: the waiting set, or the set being written (R142). -/
def LockState.latest (l : LockState) : Option BreakerSet := if l.waiting.isSome then l.waiting else l.writing

/-- The write engine is in order, and a set that waits or is being written last is the set of close-inhibit lines that
are on (R132, R142). -/
def WriteInv (s : State) : Prop :=
  EngineOk s.trm.lock s.cfg ∧ ∀ b, s.trm.lock.latest = some b → b = s.closeInhibit

/-- The CFG's three views say what the zones, the records and the test in flight are (R178). -/
def ViewsInv (s : State) : Prop :=
  s.cfg.zonesQuiet = s.noZoneLit ∧ s.cfg.recordsQuiet = s.noRecordFiring ∧ s.cfg.testQuiet = s.fsu.test.isNone

/-- A pending commit whose three views are quiet has its transfer due, and a transfer is due only for a pending commit
whose views are quiet, but for a test in flight that has taken no sample yet (R178, log 5). -/
def DueInv (s : State) : Prop := s.DueAfter s

end Sys2Proof.Machine
end

