-- ==== Sys2Proof/Certificates/Slice0/Obligations.lean ====
section
/-! DEFINITION. The statements about the model, from the spec's numbered rules. A statement about a command gives the
whole next state by naming the parts that differ from the state before, or names every field that it speaks of. -/

open Sys2Proof Sys2Proof.Machine

/-! ### The queue -/

/-- A step runs the command at the front of the queue on the state with the queue's rest (logs 7, 27). -/
def Obligations.StepTakesFrontCommand : Prop :=
  ∀ (c : Instr) (rest : List Instr) (s : State),
    step { s with pending := c :: rest } = exec c { s with pending := rest }

/-- No command stops the part: every step answers a next state, with the front of the queue taken and nothing else of
the queue changed; on an empty queue the part idles (log 7). -/
def Obligations.EveryStepCompletes : Prop :=
  ∀ s : State, ∃ t, step s = .next t ∧ t.pending = s.pending.tail ∧ (s.pending = [] → t = s)

/-! ### Reset -/

/-- Reset of a part whose NV array has never been written gives `State.reset`, but for what reset does not reach: the
input levels, the queue and the counter of free values (logs 8, 9, 10, 23). -/
def Obligations.ResetOfANeverWrittenPart : Prop :=
  ∀ s : State, s.nv = Nv.neverWritten →
    exec .reset s = .next { State.reset with cp := s.cp, freeTick := s.freeTick, pending := s.pending }

/-- R183: the image that reset loads, and the Configuration Store after it. The engine is IDLE but for the write of the
empty set that an invalid lockout word asks for (R142, R146). The model's own terms are `transferDue`, with no transfer
due after reset (log 5), a copy's `valid` in place of its check (log 17), and that the NV array is kept (log 23). -/
def Obligations.ResetLoadsTheImage : Prop :=
  ∀ s : State, ∃ t, exec .reset s = .next t ∧
    let a := s.nv.copyA
    let b := s.nv.copyB
    let lost := a.valid = false ∧ b.valid = false
    let useB := b.valid = true ∧ (a.valid = true → b.saveNumber = a.saveNumber + 1)
    (t.cfg.active = if lost then Image.default else if useB then b.image else a.image) ∧
    t.cfg.staged = t.cfg.active ∧
    (t.cfg.lastSaved =
      if lost then none else if useB then some ⟨.b, b.saveNumber⟩ else some ⟨.a, a.saveNumber⟩) ∧
    (t.cfg.originDefault = true ↔ lost) ∧ (t.cfg.imageLost = true ↔ lost) ∧ (t.cfg.unsaved = true ↔ lost) ∧
    (lost → ∀ p, t.used p = true → t.alerted p .configDefault = true) ∧
    t.cfg.claim = none ∧ t.cfg.pendingCommit = false ∧ t.cfg.transferDue = false ∧ t.cfg.lastCommit = .none ∧
    t.cfg.transferCount = 0 ∧
    (t.cfg.lockwordLost = true ↔ lockWordValid s.nv.word = false) ∧ t.boardQuiet = true ∧
    t.cfg.saveStatus = .idle ∧ t.cfg.saveWaiting = false ∧ t.cfg.job = none ∧
    (t.cfg.engine = if lockWordValid s.nv.word then .idle else .word) ∧ t.nv = s.nv

/-- R145: a valid lockout word is restored as one RESTORED record, or as none where it is empty, and nothing is asked to
be written. R146: one that is not valid is taken as empty, CONFIG_DEFAULT is raised, and the write of the empty set is
begun by the idle engine. R141: a word is valid when its check byte is the CRC-8 of its set byte and the remaining bit is
zero, and bits 6 to 0 of the set byte hold its set. -/
def Obligations.ResetReadsTheLockoutWord : Prop :=
  (∀ w : LockWord, (lockWordValid w = true ↔ w.check = crc8 w.set ∧ w.set.getLsbD 7 = false) ∧
    ∀ b : Fin 7, mem (lockWordSet w) b = w.set.getLsbD b.val) ∧
  (∀ s : State, lockWordValid s.nv.word = true →
    ∃ t, exec .reset s = .next t ∧
      let b := lockWordSet s.nv.word
      (t.trm.records = if b = 0 then [] else
        [{ seq := 0, kind := .restored, stage := .locked, origin := none, trigger := none, peak := none, scope := none
           region := 0, snapshot := 0, restrikes := 0, opened := 0, closedAt := none, fallback := false
           escalated := false, late := false, degraded := false, entries := [], lockout := b, released := 0
           seenBy := 0 }]) ∧
      t.closeInhibit = b ∧ t.trm.seqCounter = 0 ∧
      t.trm.lock = ⟨.idle, none, none, b, .none, false⟩ ∧ t.cfg.engine = .idle ∧ t.cfg.lockwordLost = false ∧
      (∀ p, t.unseen p = decide (b ≠ 0)) ∧
      ∀ p : Port, t.alr.ports[p] =
        ⟨if (s.nv.copyA.valid = false ∧ s.nv.copyB.valid = false) ∧ t.used p = true then 0x2001 else 0x0001, 0, true⟩) ∧
  ∀ s : State, lockWordValid s.nv.word = false →
    ∃ t, exec .reset s = .next t ∧ t.trm.records = [] ∧ t.closeInhibit = 0 ∧ t.cfg.lockwordLost = true ∧
      (∀ p : Port, t.alr.ports[p] = ⟨if t.used p then 0x2001 else 0x0001, 0, true⟩) ∧
      t.trm.lock = ⟨.writing, some 0, none, 0, .none, false⟩ ∧ t.cfg.engine = .word

/-- R26, R50, R72 and R100: every channel, the Fibre Supervision Unit, the Topology Unit and every zone after reset; no
alert but RESTARTED and CONFIG_DEFAULT stands. R184, R189, R190, R195 (with R152, R154): every link port, SILENT or
UNUSED by the loaded image. R156: the drill register. R203: the time counter. No close notice is on its way (log 26).
The Trip Record Manager, the Configuration Store and the alert sets after reset are the two statements before this one.
-/
def Obligations.ResetPlacesEveryBlock : Prop :=
  ∀ s : State, ∃ t, exec .reset s = .next t ∧ t.alr.time = 0 ∧ t.zev.notices = [] ∧
    t.zev.drill = { active := false, zone := none, owner := none, startTime := 0, window := .stopped, shown := 0
                    lastZone := none, lastOwner := none, lastReason := .none, lastShown := 0 } ∧
    (∀ p : Port,
      let q := t.lnk[p]
      q.state = (if t.cfg.active.board.incomer[p] then .silent else .unused) ∧
      q.silentTimer = (if t.cfg.active.board.incomer[p] then .running 2000 else .stopped) ∧ q.heartbeat = .stopped ∧
      q.frame = .idle ∧ q.selectTimer = .stopped ∧ q.slot = ⟨.restarted, 0⟩ ∧ q.frameErr = false ∧ q.rejects = 0 ∧
      q.selection = none ∧ q.latch = none) ∧
    (∀ n : Chan,
    let page := t.cfg.active.chans[n]
    let c := t.lcu[n]
    let fixed := page.mode = .fixed
    (c.state = if page.target = .off then .off else if page.mode = .learned then .learn
      else if page.target = .armed then .armed else .observe) ∧
    (c.valid = true ↔ fixed) ∧ (fixed → c.baseline.toNat = page.fixedBaseline.val) ∧
    (c.pickupLevel.toNat =
      if fixed then min 4000 (max page.floor.val (page.fixedBaseline.val * page.gain.val / 2)) else page.floor.val) ∧
    c.dropLevel.toNat = c.pickupLevel.toNat * page.dropRatio.val / 100 ∧
    c.pickup = false ∧ c.dropRun = 0 ∧ c.flash = none ∧ c.lastFlash = none ∧
    (c.mask = false ∧ c.held = false ∧ c.demoted = false ∧ c.disturbance = false ∧ c.flashEnded = false) ∧
    (c.window = if c.state = .learn then .running (t.cfg.active.board.tLearn.val * 1000) else .stopped) ∧
    c.candidate = 0 ∧ c.restarts = 0 ∧ c.stormCount = 0 ∧ c.stormWindow = .running 1000 ∧ c.quiet = 0 ∧
    ∀ i : Fin 6, c.hist[i] = 0) ∧
    (∀ p : Port, t.alr.ports[p].bits &&& ~~~0x2001 = 0) ∧
    (∀ n : Chan, t.emitter n = false ∧ t.lcu[n].mask = false ∧ t.lcu[n].held = false ∧
      t.fsu.clarity[n] =
        ⟨if t.cfg.active.chans[n].aRef = 0 then .unsupervised else .untested, false, 0, .none, 0, 0, 0, .none, none⟩) ∧
    t.fsu.queue = [] ∧ t.fsu.test = none ∧ t.fsu.pointer = 0 ∧
    t.fsu.slotTimer = .running t.cfg.active.board.slotPeriod.val ∧
    (∀ p : Port, t.top.reports[p] = ⟨.none, .none, .none⟩) ∧
    (∀ j : Coupler, t.top.couplers[j] = ⟨if t.cfg.active.board.coupler[j] then .unknown else .absent, 0⟩) ∧
    (∀ a b : Sect, t.sameIsland a b = true ↔
      ∀ j : Coupler, min a.val b.val ≤ j.val → j.val < max a.val b.val → t.cfg.active.board.coupler[j] = true) ∧
    ∀ z : Zone,
    let page := t.cfg.active.zones[z]
    let r := t.zev.zones[z]
    (r.state = if page.enabled = false then .disabled else if votingCount r.view = 0 then .blocked else .quiet) ∧
    r.entryTime = 0 ∧
    (∀ i : Slot, r.view[i] =
      match page.memberAt i with
      | some n => ⟨false, channelVotes t.lcu[n] t.cfg.active.chans[n].target⟩
      | none => ⟨false, false⟩) ∧
    r.lit = false ∧ r.degraded = voteDegraded page r.view ∧ r.trigger = none ∧ r.filter = .stopped ∧
    r.confirm = .stopped ∧ r.phase = none ∧ r.drill = false ∧ r.nuisance = 0

/-! ### Time -/

/-- R203 for the counter: it is raised by one, wrapping. Every running timer counted in milliseconds has one
millisecond, and every running filter two half milliseconds, less to run, down to 0 (log 1); a stopped one stays stopped,
and nothing else changes. -/
def Obligations.MillisecondPasses : Prop :=
  ∀ s : State, ∃ (l : Vector Channel 16) (zs : Vector ZoneRec 8) (ps : Vector PortRec 4),
    let less (t : Timer) : Timer := match t with
      | .stopped => .stopped
      | .running n => .running (n - 1)
    let lessHalves (f : Filter) : Filter := match f with
      | .stopped => .stopped
      | .running kind n => .running kind (n - 2)
    exec .millisecondTick s = .next { s with
      alr.time := s.alr.time + 1
      lcu := l
      fsu.slotTimer := less s.fsu.slotTimer
      zev.zones := zs
      zev.drill.window := less s.zev.drill.window
      trm.records := s.trm.records.map fun r => { r with
        entries := r.entries.map fun e => { e with
          minPulse := less e.minPulse, breakerFail := less e.breakerFail, coil := less e.coil, pulse := less e.pulse } }
      lnk := ps } ∧
    (∀ n : Chan, l[n] =
      { s.lcu[n] with window := less s.lcu[n].window, stormWindow := less s.lcu[n].stormWindow }) ∧
    (∀ z : Zone, zs[z] =
      { s.zev.zones[z] with filter := lessHalves s.zev.zones[z].filter, confirm := less s.zev.zones[z].confirm }) ∧
    ∀ p : Port, ps[p] =
      { s.lnk[p] with
        silentTimer := less s.lnk[p].silentTimer, heartbeat := less s.lnk[p].heartbeat
        selectTimer := less s.lnk[p].selectTimer }

/-! ### Light -/

/-- R3, R36, R37: a sample at a channel in OFF is discarded; a sample at a masked channel goes to its test, and the
fortieth ends the window (log 6). A transfer that was due is no longer due once a test has taken a sample, which is the
model's reading of R178 (log 5). -/
def Obligations.SampleIsDiscardedOrTested : Prop :=
  ∀ (s : State) (n : Chan) (v : LU),
    (s.lcu[n].state = .off → exec (.lightSample n v) s = .next s) ∧
    ∀ run : TestRun, s.lcu[n].state ≠ .off → s.lcu[n].mask = true → s.fsu.test = some run → run.chan = n →
      ∃ due,
        let run' := { run with
          amplitude := if run.amplitude < v then v else run.amplitude, samplesLeft := run.samplesLeft - 1 }
        let u : State := { s with fsu.test := some run', cfg.transferDue := due }
        s.DueAfter u ∧
          exec (.lightSample n v) s = if run'.samplesLeft = 0 then exec .testWindowExpiry u else .next u

/-- R5, R11, R12: an evaluated sample at or above P out of pickup starts pickup and a flash, and in LEARN is a
disturbance; one below P has no effect on pickup, and reaches the candidate while the learning window runs. R39: the
pickup aborts a test of another channel of its zone, and no other, and its notice can make the transfer of a pending
commit due (R178, log 5). R111: the sample is offered to the peak light of the records first (log 25); which records
there are after it is said where no zone of the channel decides at once. -/
def Obligations.SampleStartsPickup : Prop :=
  ∀ (s : State) (n : Chan) (v : LU), s.lcu[n].state ≠ .off → s.lcu[n].mask = false → s.lcu[n].pickup = false →
    let c := s.lcu[n]
    let inZone (z : Zone) (m : Chan) : Prop := m ∈ s.cfg.active.zones[z].members
    let aborts (run : TestRun) : Prop :=
      s.fsu.test = some run ∧ run.chan ≠ n ∧ ∃ z : Zone, inZone z n ∧ inZone z run.chan
    (c.pickupLevel ≤ v → ∃ t, exec (.lightSample n v) s = .next t ∧
      t.lcu[n] = { c with
        pickup := true, dropRun := 0, flash := some ⟨s.alr.time, 0, none⟩
        window := if c.state = .learn then .stopped else c.window
        candidate := if c.state = .learn then 0 else c.candidate
        disturbance := decide (c.state = .learn) || c.disturbance } ∧
      (∀ run, aborts run →
        t.lcu[run.chan] = { s.lcu[run.chan] with mask := false } ∧
        (∀ m : Chan, m ≠ n → m ≠ run.chan → t.lcu[m] = s.lcu[m]) ∧
        t.fsu = { s.fsu with
          test := none
          clarity := modAt s.fsu.clarity run.chan fun k => { k with
            testing := false, lastOutcome := .aborted
            capture := if run.kind = .capture then .failed else k.capture } } ∧
        t.cfg.testQuiet = true ∧ s.DueAfter t) ∧
      ((∀ run, ¬ aborts run) → t.fsu = s.fsu ∧ ∀ m : Chan, m ≠ n → t.lcu[m] = s.lcu[m]) ∧
      ((∀ z, s.zoneOf n = some z → 0 < s.cfg.active.zones[z].tzf.val) →
        t.trm.records = s.trm.records.map (s.peaked n v))) ∧
    (v < c.pickupLevel → exec (.lightSample n v) s = .next { s with
      trm.records := s.trm.records.map (s.peaked n v)
      lcu := modAt s.lcu n fun c => { c with
        candidate := if c.state = .learn ∧ c.window.isRunning = true ∧ c.candidate < v then v else c.candidate } })

/-- R6, R18, R21, R22, R12, R10: an evaluated sample during pickup advances the flash; at or above D it ends the drop
run, below D it lengthens it, and at the drop count it ends the flash, which is counted. STORM and demotion follow at
one more than the limit, with the state by R8. The dropout of a channel in LEARN starts its learning window; after a
disturbance that is a restart, and the third such restart raises LEARN_FAULT. R111: the sample is offered to the peak
light first; which records there are after a dropout is said where no zone of the channel decides at once. The other
channels and supervision stay as they were. -/
def Obligations.SampleDuringPickup : Prop :=
  ∀ (s : State) (n : Chan) (v : LU) (f : Flash), s.lcu[n].state ≠ .off → s.lcu[n].mask = false →
    s.lcu[n].pickup = true → s.lcu[n].flash = some f →
    let c := s.lcu[n]
    let page := s.cfg.active.chans[n]
    let counts := ∀ z, s.zoneOf n = some z → s.zev.zones[z].state ≠ .tripped ∧ s.zev.zones[z].drill = false
    let passes := counts ∧ page.stormLimit.val ≠ 0 ∧ c.stormCount.toNat = page.stormLimit.val
    let demotes := passes ∧ page.stormAction = .demote ∧ page.target = .armed ∧ c.demoted = false
    (c.dropLevel ≤ v → exec (.lightSample n v) s = .next { s with
      trm.records := s.trm.records.map (s.peaked n v)
      lcu := modAt s.lcu n fun c => { c with dropRun := 0, flash := some ⟨f.start, satInc f.index, none⟩ } }) ∧
    ∀ d : Word, (c.dropRun = 0 → d = satInc f.index) → (c.dropRun ≠ 0 → f.runStart = some d) → v < c.dropLevel →
      (c.dropRun + 1 < page.dropCount.val → exec (.lightSample n v) s = .next { s with
        trm.records := s.trm.records.map (s.peaked n v)
        lcu := modAt s.lcu n fun c => { c with
          dropRun := c.dropRun + 1, flash := some ⟨f.start, satInc f.index, some d⟩ } }) ∧
      (page.dropCount.val ≤ c.dropRun + 1 → ∃ t, exec (.lightSample n v) s = .next t ∧
        let c' := t.lcu[n]
        (∀ m : Chan, m ≠ n → t.lcu[m] = s.lcu[m]) ∧ t.fsu = s.fsu ∧
        ((∀ z, s.zoneOf n = some z → 0 < s.cfg.active.zones[z].tzf.val) →
          t.trm.records = s.trm.records.map (s.peaked n v)) ∧
        (c'.baseline = c.baseline ∧ c'.valid = c.valid ∧ c'.pickupLevel = c.pickupLevel ∧ c'.dropLevel = c.dropLevel ∧
          c'.mask = c.mask ∧ c'.held = c.held ∧ c'.stormWindow = c.stormWindow) ∧
        c'.pickup = false ∧ c'.dropRun = 0 ∧ c'.flash = none ∧
        c'.lastFlash = some ⟨f.start, d⟩ ∧ c'.flashEnded = true ∧
        (∀ i : Fin 6, c'.hist[i] =
          if i.val = (if d.toNat < 20 then 0 else if d.toNat < 80 then 1 else if d.toNat < 320 then 2
            else if d.toNat < 1280 then 3 else if d.toNat < 5120 then 4 else 5) then satInc c.hist[i]
          else c.hist[i]) ∧
        (counts → c'.stormCount = satInc c.stormCount) ∧ (¬ counts → c'.stormCount = c.stormCount) ∧
        (passes → ∀ p, s.used p = true → t.alerted p .storm = true) ∧
        (¬ passes → ∀ p, t.alerted p .storm = s.alerted p .storm) ∧
        (demotes → c'.demoted = true ∧ c'.quiet = 0 ∧ c'.state =
          if c.held = true then .held else if page.mode = .learned ∧ c.valid = false then .learn else .observe) ∧
        (¬ demotes → c'.demoted = c.demoted ∧ c'.quiet = c.quiet ∧ c'.state = c.state) ∧
        (c.state = .learn → c'.state = .learn →
          c'.window = .running (s.cfg.active.board.tLearn.val * 1000) ∧ c'.disturbance = false ∧
          (c.disturbance = true → c'.restarts = satInc c.restarts ∧ c'.candidate = 0) ∧
          (c.disturbance = false → c'.restarts = c.restarts ∧ c'.candidate = c.candidate)) ∧
        (c.state ≠ .learn → c'.state ≠ .learn → c'.window = c.window ∧ c'.disturbance = c.disturbance ∧
          c'.restarts = c.restarts ∧ c'.candidate = c.candidate) ∧
        (c.state = .learn → c.disturbance = true → c.restarts = 2 → c'.state = .learn →
          ∀ p, s.used p = true → t.alerted p .learnFault = true) ∧
        (c.disturbance = false ∨ c.restarts ≠ 2 ∨ c'.state ≠ .learn →
          ∀ p, t.alerted p .learnFault = s.alerted p .learnFault))

/-- R13 (with R4 and R8), R20, R22: the learning window expires while it runs (log 2), and a stopped one does not
(log 3). That the candidate stays as it is after the expiry is the model's choice (log 11). A storm window expires: the
storm count is cleared, the window starts again, and a demoted channel's window is judged, the tenth quiet one restoring
the channel. -/
def Obligations.ChannelWindowsExpire : Prop :=
  ∀ (s : State) (n : Chan),
    let c := s.lcu[n]
    let page := s.cfg.active.chans[n]
    let quiet := c.flashEnded = false ∧ c.flash = none
    (c.window.isRunning = true → ∃ t, exec (.learningWindowExpiry n) s = .next t ∧
      t.lcu[n] = { c with
        window := .stopped, baseline := c.candidate, valid := true, restarts := 0
        pickupLevel := t.lcu[n].pickupLevel, dropLevel := t.lcu[n].dropLevel, state := t.lcu[n].state } ∧
      t.lcu[n].pickupLevel.toNat = min 4000 (max page.floor.val (c.candidate.toNat * page.gain.val / 2)) ∧
      t.lcu[n].dropLevel.toNat = t.lcu[n].pickupLevel.toNat * page.dropRatio.val / 100 ∧
      (t.lcu[n].state = if page.target = .off then .off else if c.held = true then .held
        else if c.demoted = true then .observe else if page.target = .armed then .armed else .observe) ∧
      ∀ m : Chan, m ≠ n → t.lcu[m] = s.lcu[m]) ∧
    (c.window = .stopped → exec (.learningWindowExpiry n) s = .next s) ∧
    (c.stormWindow.isRunning = true → ∃ t, exec (.stormWindowExpiry n) s = .next t ∧
      let restored := c.demoted = true ∧ quiet ∧ 9 ≤ c.quiet
      let c' := t.lcu[n]
      c' = { c with
        stormCount := 0, stormWindow := .running 1000, flashEnded := false
        demoted := c.demoted && !decide restored
        quiet := if c.demoted = true ∧ quiet ∧ c.quiet < 9 then c.quiet + 1 else 0
        state := c'.state, window := c'.window, candidate := c'.candidate, restarts := c'.restarts
        disturbance := c'.disturbance } ∧
      (restored → c'.state = if page.target = .off then .off else if c.held = true then .held
        else if page.mode = .learned ∧ c.valid = false then .learn else if page.target = .armed then .armed
        else .observe) ∧
      (¬ restored → c'.state = c.state) ∧
      ((c'.state = .learn ↔ c.state = .learn) → c'.window = c.window ∧ c'.candidate = c.candidate ∧
        c'.restarts = c.restarts ∧ c'.disturbance = c.disturbance) ∧
      ∀ m : Chan, m ≠ n → t.lcu[m] = s.lcu[m])

/-- What follows from the state at once. R9: the voting status of a channel. R75: the zone of a channel. R34: when a
channel may be tested, when light bars it, and when it is eligible. R131, R132, R36: a trip line is on exactly while an
entry drives it, a close-inhibit line exactly while an open record holds its breaker unreleased, an emitter exactly
while its test is in flight. R198: an alert line is on exactly by the enable and an unmasked bit of the set. -/
def Obligations.VotesAndLinesFollowTheState : Prop :=
  (∀ (c : Channel) (target : ChanTarget),
    channelVotes c target = true ↔
      c.state = .armed ∨ (c.state = .learn ∧ target = .armed ∧ c.demoted = false)) ∧
  ∀ s : State,
    let listed (z : Zone) (n : Chan) : Prop := ∃ i : Slot, s.cfg.active.zones[z].slots[i].toNat = n.val
    (∀ (n : Chan) (z : Zone), s.zoneOf n = some z ↔ listed z n ∧ ∀ y, y < z → ¬ listed y n) ∧
    (∀ (n : Chan) (k : TestKind),
      let may := s.lcu[n].state ≠ .off ∧ (k = .capture ∨ s.cfg.active.chans[n].aRef ≠ 0)
      let light := s.lcu[n].pickup = true ∨ ∃ z, s.zoneOf n = some z ∧
        (s.zev.zones[z].state = .lit ∨ s.zev.zones[z].state = .waiting ∨ s.zev.zones[z].state = .suppressed ∨
          s.zev.zones[z].state = .tripped)
      (s.mayTest n k = true ↔ may) ∧ (s.lightBars n = true ↔ light) ∧ (s.eligible n k = true ↔ may ∧ ¬ light)) ∧
    (∀ tg : Target, s.tripLine tg = true ↔ ∃ r ∈ s.trm.records, ∃ e ∈ r.entries, e.target = tg ∧
      (e.state = .commanded ∨ e.state = .failing ∨ e.state = .pulsing)) ∧
    (∀ b : Fin 7, mem s.closeInhibit b = true ↔ ∃ r ∈ s.trm.records,
      r.stage ≠ .closed ∧ mem r.lockout b = true ∧ mem r.released b = false) ∧
    (∀ n : Chan, s.emitter n = true ↔ ∃ run, s.fsu.test = some run ∧ run.chan = n) ∧
    ∀ p : Port, s.alertLine p = true ↔ s.alr.ports[p].enable = true ∧
      ∃ i : Fin 16, mem s.alr.ports[p].bits i = true ∧
        (i = 0 ∨ s.alr.ports[p].mask.getLsbD (i.val - 1) = false)

/-- R80: a pickup that satisfies the vote of a QUIET zone with a filter time lights the zone, with the channel as its
trigger; the notice of it holds a pending commit up (R97, R178, log 5). -/
def Obligations.PickupLightsItsZone : Prop :=
  ∀ (s : State) (n : Chan) (v : LU) (z : Zone), s.lcu[n].state ≠ .off → s.lcu[n].mask = false →
    s.lcu[n].pickup = false → s.lcu[n].pickupLevel ≤ v → s.zoneOf n = some z → s.zev.zones[z].state = .quiet →
    channelVotes s.lcu[n] s.cfg.active.chans[n].target = true →
    let page := s.cfg.active.zones[z]
    let view : Vector MemberStatus 6 := Vector.ofFn fun i : Slot =>
      if page.memberAt i = some n then ⟨true, true⟩ else s.zev.zones[z].view[i]
    voteSatisfied page view = true → 0 < page.tzf.val →
    ∃ t, exec (.lightSample n v) s = .next t ∧
      t.zev.zones[z] = { s.zev.zones[z] with
        view := view, lit := true, degraded := voteDegraded page view, trigger := some n
        filter := .running .entry page.tzf.val, state := .lit, entryTime := s.alr.time } ∧
      (∀ y : Zone, y ≠ z → t.zev.zones[y] = s.zev.zones[y]) ∧ t.cfg.zonesQuiet = false ∧ t.cfg.transferDue = false

/-- R7, R76: a sample, the end of a learning or storm window and the end of a test hand the zone of their channel one
status event where pickup or voting status changed. R77: when a vote is satisfied and when it is degraded. R78 to R81,
R85, R88, R89, R92: what a status event makes of its zone, in every state. R97, R178: where the zone moves, the CFG is
told, and a pending commit has its transfer due or waits (log 5). -/
def Obligations.VoteMovesTheZone : Prop :=
  (∀ (s : State) (n : Chan) (v : LU), ∀ c ∈
    [Instr.lightSample n v, .learningWindowExpiry n, .stormWindowExpiry n, .testWindowExpiry],
    (c = .lightSample n v → s.lcu[n].mask = false) →
    (c = .testWindowExpiry → ∃ run, s.fsu.test = some run ∧ run.chan = n) →
    ∃ u t : State, u.zev = s.zev ∧ u.cfg.active = s.cfg.active ∧ u.lcu = t.lcu ∧
      (u.cfg.transferDue ≠ s.cfg.transferDue → s.DueAfter u) ∧ exec c s = .next t ∧
      t = if u.statusOf n = s.statusOf n then u else
        match s.zoneOf n with
        | none => u
        | some z => u.statusEvent z n (u.statusOf n)) ∧
  (∀ (page : ZonePage) (view : Vector MemberStatus 6),
    let voting := (List.finRange 6).countP fun i => view[i].votes
    let lit := (List.finRange 6).countP fun i => view[i].votes && view[i].pickup
    votingCount view = voting ∧
    (voteSatisfied page view = true ↔ page.enabled = true ∧
      (if page.vote = .two ∧ voting ≠ 1 then 2 ≤ lit else 1 ≤ lit)) ∧
    (voteDegraded page view = true ↔ page.enabled = true ∧ page.vote = .two ∧ voting = 1)) ∧
  ∀ (s : State) (z : Zone) (n : Chan) (st : MemberStatus),
    let page := s.cfg.active.zones[z]
    let r := s.zev.zones[z]
    let view : Vector MemberStatus 6 := Vector.ofFn fun i : Slot =>
      if page.slots[i].toNat = n.val then st else r.view[i]
    let sat := voteSatisfied page view
    let deg := voteDegraded page view
    let trigger : Option Chan :=
      if ∃ i : Slot, page.slots[i].toNat = n.val ∧ st.votes = true ∧ st.pickup = true then some n
      else (List.finRange 6).findSome? fun i => if view[i].votes && view[i].pickup then page.memberAt i else none
    let stays (r' : ZoneRec) : Prop :=
      s.statusEvent z n st = { s with zev.zones := modAt s.zev.zones z fun _ => r' }
    let moves (r' : ZoneRec) (blocks : Bool) : Prop :=
      ∃ (al : Vector AlertRec 4) (quiet due : Bool),
        let t : State := { s with
          alr.ports := al
          zev.zones := modAt s.zev.zones z fun _ => { r' with entryTime := s.alr.time }
          cfg.zonesQuiet := quiet
          cfg.transferDue := due }
        s.statusEvent z n st = t ∧ s.DueAfter t ∧
        AlertsRaised s.alr.ports al .zoneBlocked (fun p => blocks && s.used p) ∧
        (quiet = true ↔ ∀ y : Zone, y ≠ z → s.zev.zones[y].state ≠ .lit ∧ s.zev.zones[y].state ≠ .waiting)
    let judging := r.state = .lit ∨ r.state = .waiting ∨ r.state = .suppressed
    (r.state = .disabled → stays { r with view := view }) ∧
    (r.state = .blocked → votingCount view = 0 → stays { r with view := view }) ∧
    (r.state = .quiet ∨ judging → votingCount view = 0 → moves { r with
      view := view, lit := false, degraded := false, filter := .stopped, confirm := .stopped, state := .blocked } true) ∧
    (r.state = .quiet → votingCount view ≠ 0 → sat = false → stays { r with view := view, degraded := deg }) ∧
    (judging → votingCount view ≠ 0 → sat = true → stays { r with view := view, degraded := deg }) ∧
    (judging ∨ r.state = .blocked → votingCount view ≠ 0 → sat = false → moves { r with
      view := view, lit := false, degraded := deg, filter := .stopped, confirm := .stopped, state := .quiet } false) ∧
    (r.state = .quiet ∨ r.state = .blocked → votingCount view ≠ 0 → sat = true →
      let lighted : State := { s with
        zev.zones := modAt s.zev.zones z fun _ => { r with
          view := view, lit := true, degraded := deg, trigger := trigger, filter := .running .entry page.tzf.val
          confirm := if r.state = .blocked then .stopped else r.confirm, state := .lit, entryTime := s.alr.time }
        cfg.zonesQuiet := false
        cfg.transferDue := false }
      if page.tzf.val = 0 then exec (.filterExpiry z) lighted = .next (s.statusEvent z n st)
      else s.statusEvent z n st = lighted) ∧
    (r.state = .tripped →
      let voted : ZoneRec := { r with view := view, lit := sat, degraded := deg }
      (r.phase = some .holding → r.lit = true → sat = false → stays { voted with phase := some .ready }) ∧
      (r.phase = some .filtering → r.lit = true → sat = false →
        stays { voted with phase := some .ready, filter := .stopped }) ∧
      (r.phase = some .ready → r.lit = false → sat = true →
        let started : State := { s with
          zev.zones := modAt s.zev.zones z fun _ => { voted with
            trigger := trigger, filter := .running .restrike page.tzf.val, phase := some .filtering } }
        if page.tzf.val = 0 then exec (.restrikeFilterExpiry z) started = .next (s.statusEvent z n st)
        else s.statusEvent z n st = started) ∧
      (r.lit = sat ∨ (r.phase = some .holding ∧ sat = true) ∨ (r.phase = some .ready ∧ sat = false) ∨
        (r.phase = some .filtering ∧ sat = true) ∨ r.phase = none → stays voted))

/-! ### Supervision -/

/-- R29, R33 (with R34, R36): the slot timer starts again at its expiry; with a test in flight the slot is idle;
otherwise requests at the head of the queue that can have no test are removed one after another as SKIPPED, a capture of
them FAILED, and the new head is started where it is eligible. A head that waits, or an empty queue, gives the slot to
the round-robin scan, which is the next statement's. The start of a test holds a pending commit up, but for a transfer
that is due already (R178, log 5). That an expiry acts at any remaining time of its running timer is the model's choice
(log 2). -/
def Obligations.SlotServesTheQueue : Prop :=
  ∀ s : State, s.fsu.slotTimer.isRunning = true →
    let slot : Timer := .running s.cfg.active.board.slotPeriod.val
    (∀ run, s.fsu.test = some run → exec .slotTimerExpiry s = .next { s with fsu.slotTimer := slot }) ∧
    (s.fsu.test = none → ∃ t, exec .slotTimerExpiry s = .next t ∧ t.fsu.slotTimer = slot ∧
      t.fsu.queue <:+ s.queueLeft ∧ (∀ n : Chan, n ∈ s.removed.map (·.chan) → t.fsu.clarity[n].lastOutcome = .skipped) ∧
      ∀ (r : Request) (rest : List Request), s.queueLeft = r :: rest →
        let kind := r.kind.testKind
        (s.eligible r.chan kind = false → t.fsu.queue = s.queueLeft) ∧
        (s.eligible r.chan kind = true →
          t.fsu.test = some ⟨r.chan, kind, 0, 40⟩ ∧ t.fsu.queue = rest ∧ t.fsu.pointer = s.fsu.pointer ∧
          t.lcu = modAt s.lcu r.chan (fun c => { c with mask := true }) ∧
          (∀ n : Chan, t.fsu.clarity[n] = if n = r.chan then { s.skipped n with
            testing := true, capture := if r.kind = .capture then .testing else (s.skipped n).capture }
            else s.skipped n) ∧
          t.cfg.testQuiet = false ∧ s.DueAfter t))

/-- R35 (with R29, R33 step 4 and R36): where the requests at the head that can have no test are removed and the new
head waits, or none is left, the slot timer starts again, the queue is what is left, and a round-robin scan tests the
first eligible channel from the pointer and defers those passed over for light alone; where none is eligible it defers
and moves nothing. The start of a test holds a pending commit up, but for a transfer that is due already (R178, log 5).
That an expiry acts at any remaining time of its running timer is the model's choice (log 2). -/
def Obligations.RoundRobinScan : Prop :=
  ∀ s : State, s.fsu.slotTimer.isRunning = true → s.fsu.test = none →
    (∀ r rest, s.queueLeft = r :: rest → s.eligible r.chan r.kind.testKind = false) →
    let slot : Timer := .running s.cfg.active.board.slotPeriod.val
    let order (i : Fin 16) : Chan := chanAfter s.fsu.pointer i
    let passed (n : Chan) : Prop := s.mayTest n .roundRobin = true ∧ s.lightBars n = true
    (∀ k : Fin 16, (∀ i, i < k → s.eligible (order i) .roundRobin = false) →
      s.eligible (order k) .roundRobin = true →
      ∃ t, exec .slotTimerExpiry s = .next t ∧ t.fsu.slotTimer = slot ∧ t.fsu.queue = s.queueLeft ∧
        t.fsu.test = some ⟨order k, .roundRobin, 0, 40⟩ ∧ t.fsu.pointer = nextChan (order k) ∧
        t.lcu = modAt s.lcu (order k) (fun c => { c with mask := true }) ∧
        (∀ i : Fin 16, t.fsu.clarity[order i] = { s.skipped (order i) with
          testing := if i = k then true else s.fsu.clarity[order i].testing
          deferCount := if i < k ∧ passed (order i) then satInc s.fsu.clarity[order i].deferCount
            else s.fsu.clarity[order i].deferCount }) ∧
        t.cfg.testQuiet = false ∧ s.DueAfter t) ∧
    ((∀ i, s.eligible (order i) .roundRobin = false) →
      ∃ t, exec .slotTimerExpiry s = .next t ∧ t.fsu.slotTimer = slot ∧ t.fsu.queue = s.queueLeft ∧
        t.fsu.test = none ∧ t.fsu.pointer = s.fsu.pointer ∧ t.lcu = s.lcu ∧ t.cfg = s.cfg ∧
        ∀ n : Chan, t.fsu.clarity[n] = { s.skipped n with
          deferCount := if passed n then satInc s.fsu.clarity[n].deferCount else s.fsu.clarity[n].deferCount })

/-- R38, R40, R45 to R47: a test completes: the emitter goes dark and the mask is cleared, the outcome is taken into the
clarity record, and a capture is staged or fails; the records of the other channels, and the defer count and, but for a
capture that is staged, the captured amplitude of this one, stay as they were. That the command completes a test at any
count of samples (log 6), and that nothing happens with no test in flight (log 3), is the model's choice. Its notice
makes the transfer of a pending commit due where the other views are quiet (R178, log 5). R41, R42: the clarity state
after a classified outcome. -/
def Obligations.TestCompletes : Prop :=
  (∀ s : State, (s.fsu.test = none → exec .testWindowExpiry s = .next s) ∧
    ∀ run : TestRun, s.fsu.test = some run →
      let n := run.chan
      let ref := s.cfg.active.chans[n].aRef
      let b := s.cfg.active.board
      let ratio := min 255 (run.amplitude.toNat * 100 / ref.toNat)
      let o : TestOutcome :=
        if ref = 0 then (if run.amplitude = 0 then .dark else .good)
        else if 150 < ratio then .overlaid else if ratio < 5 then .dark
        else if ratio < b.blindB.val then .lowBlind else if ratio < b.soiledW.val then .lowSoiled else .good
      let classified := ref ≠ 0 ∧ o ≠ .overlaid
      let k := s.fsu.clarity[n]
      let fails := o = .overlaid ∨ s.cfg.pendingCommit = true
      ∃ t, exec .testWindowExpiry s = .next t ∧ t.fsu.test = none ∧ (∀ m, t.emitter m = false) ∧
        t.lcu[n].mask = false ∧ t.cfg.testQuiet = true ∧ s.DueAfter t ∧ t.fsu.queue = s.fsu.queue ∧
        t.fsu.pointer = s.fsu.pointer ∧ t.fsu.slotTimer = s.fsu.slotTimer ∧ (∀ m : Chan, m ≠ n → t.fsu.clarity[m] = s.fsu.clarity[m]) ∧
        t.fsu.clarity[n].deferCount = k.deferCount ∧
        (run.kind ≠ .capture ∨ fails → t.fsu.clarity[n].captured = k.captured) ∧
        t.fsu.clarity[n].testing = false ∧ t.fsu.clarity[n].lastOutcome = o ∧
        (¬ classified → t.fsu.clarity[n].clarity = k.clarity ∧ t.fsu.clarity[n].lastC = k.lastC ∧
          t.fsu.clarity[n].darkRun = k.darkRun ∧ t.fsu.clarity[n].goodRun = k.goodRun) ∧
        (classified → t.fsu.clarity[n].lastC.toNat = ratio ∧
          (t.fsu.clarity[n].darkRun = if o = .dark then satInc k.darkRun else 0) ∧
          (t.fsu.clarity[n].goodRun = if o = .dark then 0 else satInc k.goodRun) ∧
          t.fsu.clarity[n].clarity =
            clarityAfter b k.clarity t.fsu.clarity[n].darkRun t.fsu.clarity[n].goodRun ratio) ∧
        (run.kind ≠ .capture → t.fsu.clarity[n].capture = k.capture ∧ t.cfg.staged = s.cfg.staged) ∧
        (run.kind = .capture → fails → t.fsu.clarity[n].capture = .failed ∧ t.cfg.staged = s.cfg.staged) ∧
        (run.kind = .capture → ¬ fails → t.fsu.clarity[n].capture = .done ∧
          t.fsu.clarity[n].captured = some run.amplitude ∧
          t.cfg.staged = { s.cfg.staged with
            chans := modAt s.cfg.staged.chans n fun p => { p with aRef := run.amplitude } })) ∧
  ∀ (b : BoardPage) (old : Clarity) (dark good : Byte) (c : Nat),
    let w := b.soiledW.val
    let low := b.blindB.val
    let h := b.hystH.val
    let level : Clarity := if c < low then .blind else if c < w then .soiled else .clean
    (old = .broken → clarityAfter b old dark good c = if b.kc.val ≤ good.toNat then level else .broken) ∧
    (old ≠ .broken → b.ka.val ≤ dark.toNat → clarityAfter b old dark good c = .broken) ∧
    (dark.toNat < b.ka.val →
      (old = .untested ∨ old = .clean → clarityAfter b old dark good c = level) ∧
      (old = .soiled → clarityAfter b old dark good c =
        if c < low then .blind else if c < w then .soiled else if w + h ≤ c then .clean else .soiled) ∧
      (old = .blind → low < w → clarityAfter b old dark good c =
        if c < low + h then .blind else if c < w then .soiled else .clean))

/-- R43, R44 (with R8 and R17): a change of clarity state by a classified outcome raises its alert, and holds, releases
or invalidates the channel. At a release the state follows by R8, and an entry into LEARN begins its learning (R10). An
outcome that leaves the state as it was, and an entry into CLEAN, raises neither alert of the sensors. -/
def Obligations.ClarityHoldsTheChannel : Prop :=
  ∀ (s : State) (run : TestRun), s.fsu.test = some run →
    let n := run.chan
    let page := s.cfg.active.chans[n]
    let old := s.fsu.clarity[n].clarity
    let holds (x : Clarity) : Prop := x = .blind ∨ x = .broken
    ∃ t, exec .testWindowExpiry s = .next t ∧
      let new := t.fsu.clarity[n].clarity
      (new = old → t.lcu[n].held = s.lcu[n].held ∧ t.lcu[n].valid = s.lcu[n].valid ∧ t.lcu[n].state = s.lcu[n].state) ∧
      (∀ p, (t.alerted p .sensorSoiled = true ↔
          s.alerted p .sensorSoiled = true ∨ (new ≠ old ∧ new = .soiled ∧ s.used p = true)) ∧
        (t.alerted p .sensorLost = true ↔
          s.alerted p .sensorLost = true ∨ (new ≠ old ∧ holds new ∧ s.used p = true))) ∧
      (¬ holds old → holds new → t.lcu[n].held = true ∧ (page.target ≠ .off → t.lcu[n].state = .held)) ∧
      (holds old → ¬ holds new →
        let c := s.lcu[n]
        t.lcu[n].held = false ∧
        (t.lcu[n].state = if page.target = .off then .off
          else if page.mode = .learned ∧ c.valid = false then .learn else if c.demoted = true then .observe
          else if page.target = .armed then .armed else .observe) ∧
        (c.state ≠ .learn → t.lcu[n].state = .learn → t.lcu[n] = { c with
          mask := false, held := false, state := .learn, restarts := 0, candidate := 0, disturbance := false
          window := if c.pickup then .stopped else .running (s.cfg.active.board.tLearn.val * 1000) }) ∧
        (c.state ≠ .learn → t.lcu[n].state ≠ .learn →
          t.lcu[n] = { c with mask := false, held := false, state := t.lcu[n].state })) ∧
      (old = .broken → new = .blind → t.lcu[n].held = s.lcu[n].held ∧ t.lcu[n].state = s.lcu[n].state) ∧
      (old ≠ .broken → new = .broken → t.lcu[n].held = true ∧
        (page.mode = .learned → t.lcu[n].valid = false ∧ t.lcu[n].pickupLevel.toNat = page.floor.val) ∧
        (page.mode = .fixed → t.lcu[n].valid = s.lcu[n].valid)) ∧
      (new ≠ .broken → t.lcu[n].valid = s.lcu[n].valid) ∧
      ∀ m : Chan, m ≠ n → t.lcu[m] = s.lcu[m]

/-! ### Current -/

/-- R112 (with R115, R116, R122, R127): a CP line that goes inactive, with no zone waiting, gives open evidence to the
entries on its trip line in every open record, and changes nothing else; where no record is FIRING then, the notice makes
the transfer of a pending commit due (R128, R178, log 5). -/
def Obligations.CpFallGivesEvidence : Prop :=
  ∀ (s : State) (k : Incomer), s.cp[k] = true → s.noneWaiting →
    ∃ (rs : List TripRec) (quiet due : Bool),
      let t : State := { s with
        cp := s.cp.set k false, trm.records := rs, cfg.recordsQuiet := quiet, cfg.transferDue := due }
      exec (.cpLineChange k false) s = .next t ∧ s.DueAfter t ∧
      rs = s.trm.records.map (fun r => r.tookEvidence (.ti k) s.alr.time) ∧
      (quiet = true ↔ ∀ r ∈ rs, r.stage ≠ .firing)

/-- R84, R90, R91, R106, R162: at a change of a CP line every zone in WAITING whose confirming set is then live takes an
arc decision, in some order (log 12): it is TRIPPED, its ARC record is opened, its lines are on, ARC_OPENED is raised,
and a drill of it ends with DECISION; the other zones stay as they are. A line that goes inactive has first given its
open evidence (R112), with its notice to the CFG (R128, R178, log 5). A level the line already has is no change (log 3).
-/
def Obligations.CpChangeConfirmsWaitingZones : Prop :=
  ∀ (s : State) (k : Incomer) (active : Bool),
    (s.cp[k] = active → exec (.cpLineChange k active) s = .next s) ∧
    (s.cp[k] ≠ active →
      let u : State := { s with cp := s.cp.set k active }
      let evidence := if active then [] else [Target.ti k]
      ∃ (t : State) (zs : List Zone), exec (.cpLineChange k active) s = .next t ∧ t.cp = u.cp ∧ zs.Nodup ∧
        (∀ z, z ∈ zs ↔ s.zev.zones[z].state = .waiting ∧ u.currentConfirms z = true) ∧
        (active = false → s.DueAfter t) ∧ u.Decided t zs ∧ u.DrillDecided t zs ∧
        (zs = [] ∨ s.RoomFor zs → u.ArcsOpened zs s.trm.seqCounter
          (withEvidence s.trm.records evidence s.alr.time) t.trm.seqCounter t.trm.records))

/-! ### Zones -/

/-- R83: an ENTRY filter of a CURRENT zone in service expires with no current: the zone waits. R90, R106, R108, R160: a
confirmed ENTRY filter expiry opens an ARC record on the trip set of TOP, with its entries commanded, under the number
of R105, and the zone is TRIPPED; a drill of the zone ends with it. The breaker of each entry is examined at its
command, CP_k inactive or C_j resolved OPEN being open evidence (`freshEntry`). R132, R142: a change of the
close-inhibit lines clears the retry flag and asks for a write of the new set. A pending commit waits (R178, log 5).
Here the list has room; a full list is `RoomIsMade`. That an expiry acts at any remaining time of its running timer is
the model's choice (log 2). -/
def Obligations.FilterExpiryDecides : Prop :=
  ∀ (s : State) (z : Zone), s.zev.zones[z].state = .lit → s.zev.zones[z].filter.isRunning .entry = true →
    (s.zev.zones[z].drill = false → s.cfg.active.zones[z].confirm = .current → s.currentConfirms z = false →
      exec (.filterExpiry z) s = .next { s with
        zev.zones := modAt s.zev.zones z fun r => { r with
          filter := .stopped, confirm := .running s.cfg.active.zones[z].tcw.val, state := .waiting
          entryTime := s.alr.time }
        cfg.zonesQuiet := false
        cfg.transferDue := false }) ∧
    (s.currentConfirms z = true ∨
      (s.zev.zones[z].drill = false ∧ s.cfg.active.zones[z].confirm = .lightOnly) →
    s.trm.records.length < 12 →
    ∃ (t : State) (seq : Byte), exec (.filterExpiry z) s = .next t ∧
      let page := s.cfg.active.zones[z]
      let a := s.initialAnswer page.location page.scope
      t.trm.records = s.trm.records ++ [s.arcOf z seq] ∧
      NextNumber (s.trm.records.map (·.seq)) s.trm.seqCounter seq ∧ t.trm.seqCounter = seq ∧
      (∀ b : Fin 7, mem a.trips b = true → t.tripLine (tripLineOf b) = true) ∧
      t.closeInhibit = a.trips ||| s.closeInhibit ∧
      (∀ p, s.used p = true → t.alerted p .arcOpened = true) ∧
      t.zev.zones[z].state = .tripped ∧ t.zev.zones[z].phase = some .holding ∧
      t.zev.zones[z].filter = .stopped ∧ t.zev.zones[z].confirm = .stopped ∧
      t.zev.zones[z].entryTime = s.alr.time ∧ t.zev.zones[z].lit = s.zev.zones[z].lit ∧ s.AsksForWord t True ∧
      (s.zev.zones[z].drill = true → s.zev.drill.active = true →
        t.zev.drill.active = false ∧ t.zev.drill.lastReason = .decision) ∧
      t.cfg.recordsQuiet = false ∧ t.cfg.transferDue = false)

/-- R160, R161: an unconfirmed filter expiry of a zone under drill appends a CLOSED DRILL record with SHOWN entries and
no lockout, under the number of R105, raises nothing, and the zone waits. A pending commit waits, in the model's own
field (R178, log 5). That an expiry acts at any remaining time of its running timer is the model's choice (log 2). -/
def Obligations.DrillFilterExpiryShowsARecord : Prop :=
  ∀ (s : State) (z : Zone), s.zev.zones[z].state = .lit → s.zev.zones[z].filter.isRunning .entry = true →
    s.zev.zones[z].drill = true → s.currentConfirms z = false → s.trm.records.length < 12 →
    ∃ seq : Byte,
      let page := s.cfg.active.zones[z]
      let a := s.initialAnswer page.location page.scope
      NextNumber (s.trm.records.map (·.seq)) s.trm.seqCounter seq ∧
      exec (.filterExpiry z) s = .next { s with
        trm.records := s.trm.records ++
          [{ seq := seq, kind := .drill, stage := .closed, origin := some z, trigger := s.zev.zones[z].trigger
             peak := some 0, scope := some page.scope, region := a.region, snapshot := a.snapshot, restrikes := 0
             opened := s.alr.time, closedAt := some s.alr.time, fallback := a.fallback, escalated := false
             late := false, degraded := s.zev.zones[z].degraded
             entries := (targetsOf a.trips).map fun tg =>
               ⟨tg, .initial, .shown, s.alr.time, none, false, .stopped, .stopped, .stopped, .stopped⟩
             lockout := 0, released := 0, seenBy := 0 }]
        trm.seqCounter := seq
        zev.drill.shown := satInc s.zev.drill.shown
        zev.zones := modAt s.zev.zones z fun r => { r with
          filter := .stopped, confirm := .running page.tcw.val, state := .waiting, entryTime := s.alr.time }
        cfg.zonesQuiet := false
        cfg.transferDue := false }

/-- R107, R150: an opening in a full list of twelve records (R101) first takes out its oldest closed record, whose seq
is free for the new one (R105); RECORD_MISSED is raised on the used ports that had not seen it, and on no other; the
ports that had selected it have no selection, and no half latch (R152, R154). The model's choice, and no rule's, is that
a half latch loaded from that record goes also at a port that has selected another record since (log 22), and that the
selection is held as the seq of its record (log 29). R132, R142: the lockout word is asked for as in a list with room. A
pending commit waits (R178, log 5). By `StepKeepsRecords` a reachable list has no more than twelve records. That an
expiry acts at any remaining time of its running timer is the model's choice (log 2). -/
def Obligations.RoomIsMade : Prop :=
  ∀ (s : State) (z : Zone) (newer older : List TripRec) (old : TripRec),
    s.zev.zones[z].state = .lit → s.zev.zones[z].filter.isRunning .entry = true →
    let arc := s.currentConfirms z = true ∨
      (s.zev.zones[z].drill = false ∧ s.cfg.active.zones[z].confirm = .lightOnly)
    arc ∨ s.zev.zones[z].drill = true →
    s.trm.records = older ++ old :: newer → s.trm.records.length = 12 → (∀ r ∈ older, r.stage ≠ .closed) →
    old.stage = .closed →
    ∃ (t : State) (new : TripRec), exec (.filterExpiry z) s = .next t ∧
      t.trm.records = older ++ newer ++ [new] ∧
      (arc → new.kind = .arc ∧ new.stage = .firing) ∧ (¬ arc → new.kind = .drill ∧ new.stage = .closed) ∧
      new.origin = some z ∧ new.opened = s.alr.time ∧
      NextNumber ((older ++ newer).map (·.seq)) s.trm.seqCounter new.seq ∧ t.trm.seqCounter = new.seq ∧
      (∀ p, s.used p = true → mem old.seenBy p = false → t.alerted p .recordMissed = true) ∧
      (∀ p, s.used p = false ∨ mem old.seenBy p = true →
        t.alerted p .recordMissed = s.alerted p .recordMissed) ∧ s.AsksForWord t True ∧ t.cfg.transferDue = false ∧
      ∀ p : Port,
        let gone := s.lnk[p].selection = some old.seq
        t.lnk[p] = { s.lnk[p] with
          selection := if gone then none else s.lnk[p].selection
          latch := s.lnk[p].latch.filter fun l => !decide (gone ∨ l.key.record = some old.seq) }

/-- R87, R162: a confirm window runs out: the zone is SUPPRESSED; in service its nuisance is counted and NUISANCE
raised, under drill neither. R97, R178: where no zone is LIT or WAITING then, the notice makes the transfer of a pending
commit due (log 5). That an expiry acts at any remaining time of its running timer is the model's choice (log 2). -/
def Obligations.ConfirmWindowExpires : Prop :=
  ∀ (s : State) (z : Zone), s.zev.zones[z].state = .waiting → s.zev.zones[z].confirm.isRunning = true →
    ∃ (al : Vector AlertRec 4) (quiet due : Bool),
      let t : State := { s with
        alr.ports := al
        zev.zones := modAt s.zev.zones z fun r => { r with
          confirm := .stopped, nuisance := if r.drill then r.nuisance else satInc r.nuisance, state := .suppressed
          entryTime := s.alr.time }
        cfg.zonesQuiet := quiet
        cfg.transferDue := due }
      exec (.confirmWindowExpiry z) s = .next t ∧ s.DueAfter t ∧
      AlertsRaised s.alr.ports al .nuisance (fun p => s.used p && !s.zev.zones[z].drill) ∧
      (quiet = true ↔ ∀ y : Zone, y ≠ z → s.zev.zones[y].state ≠ .lit ∧ s.zev.zones[y].state ≠ .waiting)

/-- R93, R124 to R126: a RESTRIKE filter expires: the phase is HOLDING; where it is confirmed and the zone has an open
ARC record, the record is re-struck, and a pending commit waits (R128, R178, log 5). R132, R142: a change of the
close-inhibit lines clears the retry flag and asks for a write of the new set. That an expiry acts at any remaining time
of its running timer is the model's choice (log 2). -/
def Obligations.RestrikeFilterExpires : Prop :=
  ∀ (s : State) (z : Zone), s.zev.zones[z].state = .tripped → s.zev.zones[z].filter.isRunning .restrike = true →
    let zones := modAt s.zev.zones z fun r => { r with filter := .stopped, phase := some .holding }
    (¬ s.RestrikeConfirmed z ∨ (∀ r ∈ s.trm.records, ¬ r.ArcOf z) →
      exec (.restrikeFilterExpiry z) s = .next { s with zev.zones := zones }) ∧
    (s.RestrikeConfirmed z → (∃ r ∈ s.trm.records, r.ArcOf z) →
      ∃ t, exec (.restrikeFilterExpiry z) s = .next t ∧ t.zev.zones = zones ∧
        t.trm.records.length = s.trm.records.length ∧
        (∀ (i : Nat) (r : TripRec), s.trm.records[i]? = some r →
          (r.ArcOf z → t.trm.records[i]? = some (s.restruck r)) ∧ (¬ r.ArcOf z → t.trm.records[i]? = some r)) ∧
        (∀ p, s.used p = true → t.alerted p .arcOpened = true) ∧ s.AsksForWord t True ∧ t.cfg.recordsQuiet = false ∧
        t.cfg.transferDue = false)

/-- R94: a close notice that is on its way takes its zone out of TRIPPED, by the image and the member view; a zone that
is placed in QUIET with its vote satisfied is LIT, and its filter expires at once where t_zf is 0 (R80). The CFG is told
(R97, R178, log 5). With no notice on its way nothing happens (log 3). That the notice is on its way, in the list
`notices`, until it is taken is the model's own (log 26). -/
def Obligations.CloseNoticeFreesItsZone : Prop :=
  ∀ (s : State) (z : Zone),
    let r := s.zev.zones[z]
    let page := s.cfg.active.zones[z]
    (z ∉ s.zev.notices → exec (.closeNotice z) s = .next s) ∧
    (z ∈ s.zev.notices → r.state = .tripped →
      ∃ t, exec (.closeNotice z) s = .next t ∧ t.zev.notices = s.zev.notices.erase z ∧ s.DueAfter t ∧
        (page.enabled = false → t.zev.zones[z] = { r with
          filter := .stopped, phase := none, lit := false, degraded := false, state := .disabled
          entryTime := s.alr.time }) ∧
        (page.enabled = true → votingCount r.view = 0 → t.zev.zones[z] = { r with
            filter := .stopped, confirm := .stopped, phase := none, lit := false, degraded := false, state := .blocked
            entryTime := s.alr.time } ∧
          ∀ p, s.used p = true → t.alerted p .zoneBlocked = true) ∧
        (page.enabled = true → votingCount r.view ≠ 0 → voteSatisfied page r.view = false →
          t.zev.zones[z] = { r with
            filter := .stopped, confirm := .stopped, phase := none, lit := false
            degraded := voteDegraded page r.view, state := .quiet, entryTime := s.alr.time }) ∧
        (page.enabled = true → votingCount r.view ≠ 0 → voteSatisfied page r.view = true →
          let lighted : State := { s with
            zev.notices := s.zev.notices.erase z
            zev.zones := modAt s.zev.zones z fun r => { r with
              filter := .running .entry page.tzf.val, confirm := .stopped, phase := none, lit := true
              degraded := voteDegraded page r.view, trigger := firstLitMember page r.view, state := .lit
              entryTime := s.alr.time }
            cfg.zonesQuiet := false
            cfg.transferDue := false }
          if page.tzf.val = 0 then exec (.filterExpiry z) lighted = .next t else t = lighted))

/-! ### The trip sequence -/

/-- R115, R120, R121, R127: the minimum pulse, the pulse and the coil timers of an entry. A command that names an entry
whose timer runs moves that entry of that record, and the record to LOCKED where it then drives nothing; where no record
is FIRING then, the notice makes the transfer of a pending commit due (R128, R178, log 5). An entry is named by seq and
target (log 20), a coil expiry acts only on an entry in FAILING (log 24). That an expiry acts at any remaining time of
its running timer is the model's choice (log 2). -/
def Obligations.EntryTimersExpire : Prop :=
  ∀ (s : State) (seq : Byte) (tg : Target),
    let moved (i : Instr) (tg : Target) (p : Entry → Bool) (f : Entry → Entry) : Prop :=
      let names (r : TripRec) : Prop :=
        r.seq = seq ∧ r.stage ≠ .closed ∧ ∃ e ∈ r.entries, e.target = tg ∧ p e = true
      (∃ r ∈ s.trm.records, names r) →
        ∃ (rs : List TripRec) (quiet due : Bool),
          let t : State := { s with trm.records := rs, cfg.recordsQuiet := quiet, cfg.transferDue := due }
          exec i s = .next t ∧ s.DueAfter t ∧
          rs.length = s.trm.records.length ∧
          (∀ (j : Nat) (r : TripRec), s.trm.records[j]? = some r →
            (names r → rs[j]? = some (r.withEntries
              (r.entries.map fun e => if e.target = tg ∧ p e = true then f e else e))) ∧
            (¬ names r → rs[j]? = some r)) ∧
          (quiet = true ↔ ∀ r ∈ rs, r.stage ≠ .firing)
    moved (.minPulseExpiry seq tg) tg (fun e => decide (e.state = .commanded) && e.minPulse.isRunning) (fun e =>
      if e.evidence = none then { e with minPulse := .stopped }
      else { e with minPulse := .stopped, state := .confirmed, breakerFail := .stopped, coil := .stopped }) ∧
    moved (.coilExpiry seq tg) tg (fun e => decide (e.state = .failing) && e.coil.isRunning)
      (fun e => { e with state := .gaveUp, coil := .stopped }) ∧
    ∀ k : Incomer, moved (.pulseExpiry seq k) (.ut k) (fun e => decide (e.state = .pulsing) && e.pulse.isRunning)
      (fun e => { e with state := .sent, pulse := .stopped })

/-- R117 to R119: a breaker-fail expiry makes the entry FAILING, sets ESCALATED, raises BREAKER_FAIL and escalates: a
failed TI_k adds UT_k where the record does not hold it, a failed TC_j adds its far section's side-set and grows the
region. R132, R142: a change of the close-inhibit lines clears the retry flag and asks for a write of the new set. No
record enters or leaves FIRING, so the CFG is not told, and the model's own `transferDue` is as it was (log 5). The
model's choice is also that the entry is named by seq and target (log 20), and that the expiry acts only where the
minimum pulse is over (log 24) and at any remaining time of its running timer (log 2). -/
def Obligations.BreakerFailEscalates : Prop :=
  ∀ (s : State) (seq : Byte) (tg : Target),
    let fails (e : Entry) : Prop := e.target = tg ∧ e.state = .commanded ∧ e.breakerFail.isRunning = true ∧
      e.evidence = none ∧ e.minPulse.isRunning = false
    let names (r : TripRec) : Prop := r.seq = seq ∧ r.stage ≠ .closed ∧ ∃ e ∈ r.entries, fails e
    (∃ r ∈ s.trm.records, names r) →
      ∃ (t : State), exec (.breakerFailExpiry seq tg) s = .next t ∧
        t.trm.records.length = s.trm.records.length ∧
        (∀ p, s.used p = true → t.alerted p .breakerFail = true) ∧ s.AsksForWord t True ∧
        t.cfg.recordsQuiet = s.cfg.recordsQuiet ∧ t.cfg.transferDue = s.cfg.transferDue ∧
        ∀ (i : Nat) (r : TripRec), s.trm.records[i]? = some r →
          (¬ names r → t.trm.records[i]? = some r) ∧
          (names r →
            let r' : TripRec := { r with
              escalated := true
              entries := r.entries.map fun e => if fails e then { e with state := .failing, breakerFail := .stopped } else e }
            (∀ k, tg = .ti k → t.trm.records[i]? = some
              (if ∃ e ∈ r.entries, e.target = .ut k then r'
               else { r' with entries := r'.entries ++ [s.freshPulse k .escalation] })) ∧
            (∀ j, tg = .tc j → s.farSide r.region j = none → t.trm.records[i]? = some r') ∧
            ∀ j far side, tg = .tc j → s.farSide r.region j = some (far, side) →
              let new := (targetsOf side).filter fun x => !r.entries.any fun e => decide (e.target = x)
              t.trm.records[i]? = some { r' with
                region := r.region ||| single far
                entries := r'.entries ++ new.map (fun x => s.freshEntry x .escalation)
                lockout := r.lockout ||| breakersOf new })

/-! ### The NV write engine -/

/-- The ends of the two writes, and what the engine begins next (R181). R143: a lockout word write ends and is read
back: OK or FAILED, and one more write of the same set after a first failure with nothing waiting; a waiting word is
begun first, and a waiting save only where no word waits. R182, R180: a save write ends and is read back: DONE with the
copy as the last image saved and the unsaved flag cleared where no transfer was made, or FAILED; a waiting word is
begun. That the array holds after a mismatch what the command brings (log 16), and that a copy loses its check when its
write begins (log 17), is the model's choice. -/
def Obligations.NvWritesEnd : Prop :=
  (∀ (s : State) (rb : ReadBack LockWord) (w : BreakerSet),
    s.cfg.engine = .word → s.trm.lock.writing = some w →
    let written : LockWord := ⟨w.setWidth 8, crc8 (w.setWidth 8 : Byte)⟩
    let found := match rb with | .asWritten => written | .other x => x
    let l := s.trm.lock
    let ends (next : Option BreakerSet) (last : BreakerSet) (result : WordResult) (retry : Bool) : Prop :=
      exec (.lockoutWordWriteEnd rb) s = .next (match next with
        | some x => { s with nv.word := found, trm.lock := ⟨.writing, some x, none, last, result, retry⟩ }
        | none =>
          let u : State := { s with
            nv.word := found, cfg.engine := .idle, trm.lock := ⟨.idle, none, none, last, result, retry⟩ }
          if s.cfg.saveWaiting then u.saveBegun else u)
    (found = written → ends l.waiting w .ok false) ∧
    (found ≠ written → ∀ x, l.waiting = some x → ends (some x) l.lastWritten .failed l.retry) ∧
    (found ≠ written → l.waiting = none → l.retry = false → ends (some w) l.lastWritten .failed true) ∧
    (found ≠ written → l.waiting = none → l.retry = true → ends none l.lastWritten .failed true)) ∧
  ∀ (s : State) (rb : ReadBack NvCopy) (j : SaveJob), s.cfg.engine = .saving → s.cfg.job = some j →
    s.cfg.saveWaiting = false →
    let written : NvCopy := ⟨j.image, j.number, true⟩
    let found := match rb with | .asWritten => written | .other x => x
    let nv' : Nv := match j.copy with
      | .a => { s.nv with copyA := found }
      | .b => { s.nv with copyB := found }
    let ends (u : State) : Prop :=
      exec (.saveWriteEnd rb) s = .next (match s.trm.lock.waiting with
        | none => u
        | some x => { u with
          cfg.engine := .word, trm.lock := { s.trm.lock with status := .writing, writing := some x, waiting := none } })
    (found = written → ends { s with
      nv := nv', cfg.engine := .idle, cfg.job := none, cfg.saveStatus := .done
      cfg.lastSaved := some ⟨j.copy, j.number⟩, cfg.unsaved := s.cfg.unsaved && !j.noTransfer }) ∧
    (found ≠ written → ends { s with
      nv := nv', cfg.engine := .idle, cfg.job := none, cfg.saveStatus := .failed })

/-! ### Frames -/

/-- R184, R191, R204: a fall of select in IDLE begins a frame with the summary byte, the reply slot and a check byte in
the reply register; in the other frame states it does nothing (log 3). The clock edges that follow are the next
statement's. R188: the check byte, bit by bit from the most significant: the register starts at FFh, is shifted left by
one at each bit, and takes 07h where its top bit and the bit differ. -/
def Obligations.SelectFallFormsTheReply : Prop :=
  (∀ (n : Nat) (w : BitVec n), crc8 w =
    ((List.range n).map fun i => w.getMsbD i).foldl
      (fun (reg : Byte) bit => reg <<< 1 ^^^ (if reg.getLsbD 7 ≠ bit then 0x07 else 0)) 0xFF) ∧
  ∀ (s : State) (p : Port) (sck : ClockLine),
    (s.lnk[p].frame ≠ .idle → exec (.selectFall p sck) s = .next s) ∧
    (s.lnk[p].frame = .idle →
      ∃ sum : Byte,
        let body : BitVec 32 := sum ++ replyByte s.lnk[p].slot.code ++ s.lnk[p].slot.value
        exec (.selectFall p ⟨sck.high, []⟩) s = .next { s with
          lnk := modAt s.lnk p fun q => { q with
            frame := .shifting, sckAtFall := sck.high, sck := sck.high, edges := 0, selectTimer := .running 5
            reply := body ++ crc8 body } } ∧
        (sum.getLsbD 7 = true ↔ ∃ r ∈ s.trm.records, r.stage = .firing ∨ r.stage = .locked) ∧
        (sum.getLsbD 6 = true ↔ ∃ r ∈ s.trm.records, mem r.seenBy p = false) ∧
        (sum.getLsbD 5 = true ↔ ∃ i : Fin 16, mem s.alr.ports[p].bits i = true ∧
          (i = 0 ∨ s.alr.ports[p].mask.getLsbD (i.val - 1) = false)) ∧
        (sum.getLsbD 4 = true ↔ mem s.closeInhibit (breakerOfIncomer p) = true) ∧
        (sum.getLsbD 3 = true ↔ s.cfg.claim = some p) ∧
        (sum.getLsbD 2 = true ↔ s.cfg.pendingCommit = true) ∧
        (sum.getLsbD 1 = true ↔ ∃ q : Port, q ≠ p ∧ s.used q = true ∧ s.lnk[q].state ≠ .live) ∧
        (sum.getLsbD 0 = true ↔ s.lnk[p].frameErr = true))

/-- R185: what each clock edge of a frame does, one edge after another: a rising edge is counted, up to 255, and shifts
SDI into the request register while the count is at or below 40; a falling edge with the count between 1 and 39 shifts
the reply register. SDO is the head of the reply register in SHIFTING, so that after k clock periods it stands at bit
k + 1 of the reply, and from the fortieth on at the last; out of SHIFTING it is high-impedance. A frame whose edges came
in part with the fall of select ends as one whose edges all come with its end (log 4). -/
def Obligations.ClockEdgesShiftTheRegisters : Prop :=
  ∀ (s : State) (p : Port),
    (s.sdo p = if s.lnk[p].frame = .shifting then some (s.lnk[p].reply.getLsbD 39) else none) ∧
    (s.lnk[p].frame = .idle → ∀ (high : Bool) (es : List Edge),
      ∃ u t : State, exec (.selectFall p ⟨high, []⟩) s = .next u ∧ exec (.selectFall p ⟨high, es⟩) s = .next t ∧
        (∀ sdi : Bool, exec (.selectFall p ⟨high, es ++ [.rise sdi]⟩) s = .next { t with
          lnk := modAt t.lnk p fun q =>
            if q.sck then q else
              { q with
                sck := true, edges := if q.edges = 255 then 255 else q.edges + 1
                request := if q.edges.toNat + 1 ≤ 40 then q.request <<< 1 ||| (if sdi then 1 else 0) else q.request } }) ∧
        exec (.selectFall p ⟨high, es ++ [.fall]⟩) s = .next { t with
          lnk := modAt t.lnk p fun q =>
            if q.sck then
              { q with
                sck := false
                reply := if 1 ≤ q.edges.toNat ∧ q.edges.toNat ≤ 39 then q.reply <<< 1 else q.reply }
            else q } ∧
        (∀ bits : List Bool, high = false → es = (bits.map fun b => [Edge.rise b, .fall]).flatten →
          t.sdo p = some (u.lnk[p].reply.getLsbD (39 - bits.length)) ∧
          t.lnk[p].edges.toNat = min bits.length 255 ∧ t.lnk[p].sck = false ∧
          ∀ i : Fin 40, t.lnk[p].request.getLsbD (39 - i.val) =
            if i.val + min bits.length 40 < 40 then s.lnk[p].request.getLsbD (39 - i.val - min bits.length 40)
            else bits.getD (i.val + min bits.length 40 - 40) false) ∧
        ∀ (c : Instr) (run : List Edge) (v : State), frameEdges high c = some (p, run) → es <+: run →
          exec c u = .next v → v.lnk[p].frame = .idle → exec c t = .next v)

/-- R186, R187 lines 1 to 5, R189: the select timer rejects a frame with TIMEOUT, and the next rise returns the port to
IDLE; a pulse with no clock edge leaves slot, count and FRAME_ERR as they were; a frame of a wrong length, of a wrong
clock polarity, of all zeros or ones, or with a wrong check byte is rejected with its reason, and nothing else of the
part changes. At a port in IDLE a command that ends a frame stands for the whole frame, from SCK low at the fall of
select (log 4): it leads where the fall of select and then the command lead. That SHIFTING stands for a running select
timer is the model's choice (log 2). -/
def Obligations.FailedFramesAreAnswered : Prop :=
  ∀ (s : State) (p : Port),
    (s.lnk[p].frame = .shifting →
      exec (.selectTimeout p) s = .next { s with
        lnk := modAt s.lnk p fun q => { q with
          frame := .timedOut, selectTimer := .stopped, slot := ⟨.frameRejected, 4⟩, frameErr := true
          rejects := satInc q.rejects } }) ∧
    (s.lnk[p].frame = .timedOut →
      exec (.timedOutSelectRise p) s = .next { s with
        lnk := modAt s.lnk p fun q => { q with frame := .idle, selectTimer := .stopped } }) ∧
    (s.lnk[p].frame = .shifting → s.lnk[p].edges = 0 →
      exec (.selectPulseIgnored p) s = .next { s with
        lnk := modAt s.lnk p fun q => { q with frame := .idle, selectTimer := .stopped } }) ∧
    (s.lnk[p].frame = .idle → ∃ q : PortRec,
      exec (.selectPulseIgnored p) s = .next { s with lnk := modAt s.lnk p fun _ => q } ∧ q.frame = .idle ∧
        q.selectTimer = .stopped ∧ q.slot = s.lnk[p].slot ∧ q.frameErr = s.lnk[p].frameErr ∧ SamePort s.lnk[p] q) ∧
    (s.lnk[p].frame = .idle → ∃ u, exec (.selectFall p ⟨false, []⟩) s = .next u ∧ u.lnk[p].frame = .shifting ∧
      u.lnk[p].edges = 0 ∧ u.lnk[p].sckAtFall = false ∧ u.lnk[p].sck = false ∧
      ∀ (c : Instr) (run : List Edge) (v : State), frameEdges false c = some (p, run) →
        exec c u = .next v → v.lnk[p].frame = .idle → exec c s = .next v) ∧
    ∀ (edges : Byte) (high : Bool) (bits : BitVec 40), s.lnk[p].frame = .shifting → s.lnk[p].edges = 0 →
      s.lnk[p].sck = s.lnk[p].sckAtFall →
      let n := min edges.toNat 40
      let rejectedWith (why : Word) : Prop :=
        exec (.frameRejected p edges high bits) s = .next { s with
          lnk := modAt s.lnk p fun q => { q with
            frame := .idle, selectTimer := .stopped, edges := edges, sck := high
            request := q.request <<< n ||| (bits &&& BitVec.ofNat 40 (2 ^ n - 1))
            reply := q.reply <<< min (if high then edges.toNat - 1 else edges.toNat) 39
            slot := ⟨.frameRejected, why⟩, frameErr := true, rejects := satInc q.rejects } }
      (edges ≠ 0 → edges ≠ 40 → rejectedWith 1) ∧
      (edges = 40 → s.lnk[p].sckAtFall = true ∨ high = true → rejectedWith 2) ∧
      (edges = 40 → s.lnk[p].sckAtFall = false → high = false →
        bits = 0 ∨ bits = BitVec.allOnes 40 ∨ bits.extractLsb' 0 8 ≠ crc8 (bits.extractLsb' 8 32) → rejectedWith 3)

/-- R190: FETCH keeps the reply slot, in every port state; the frame leaves its forty bits and edges behind. R192 lines
1 to 3, R193: an accepted frame whose code names no function, a function that the port state does not permit, and a
CONTROL of a LIVE port whose index names no subfunction, are answered and do nothing else. That one command stands for
the rest of its frame is the model's choice (log 4). -/
def Obligations.FetchAndRefusalsAreAnswered : Prop :=
  ∀ (s : State) (p : Port) (f : Fields) (page : BitVec 4) (v : Word), s.frameReady p = true →
    (∃ l, exec (.fetch p f) s = .next { s with lnk := l } ∧ TookFrame s.lnk l p s.lnk[p] s.lnk[p].slot ∧
      l[p].edges = 40 ∧
      let body : BitVec 32 := 0#4 ++ f.page ++ f.index ++ f.value
      l[p].request = body ++ crc8 body) ∧
    (∀ code : BitVec 4, code = 14 ∨ code = 15 →
      AnswersOnly (.unknownFunction p code f) s p ⟨.unknownFunction, 0⟩) ∧
    (f.index = 0 ∨ 8 < f.index.toNat → AnswersOnly (.controlBadSubfunction p f) s p
      ⟨if s.lnk[p].state = .live then .badIndex else .notLive, 0⟩) ∧
    (s.lnk[p].state = .unused → AnswersOnly (.report p f) s p ⟨.notUsed, 0⟩) ∧
    (s.lnk[p].state ≠ .live → ∀ c ∈
      [Instr.write p f, .claim p f, .yield p f, .commit p f, .release p f, .relearn p page v, .test p page v,
       .capture p page v, .drillStart p page v, .drillEnd p page v, .save p page v, .clearCounters p page v,
       .defaultStaged p page v],
      AnswersOnly c s p ⟨.notLive, 0⟩)

/-- R154, R168, R205: READ answers with an item of the active image, a status item or a record field, and moves the half
latch; READ STAGED answers with an item of the staged image, or BAD_INDEX where the page defines none. The time counter
read low and then high, with no READ between, gives one reading (R203). -/
def Obligations.ReadsAnswerWithTheItem : Prop :=
  ∀ (s : State) (p : Port) (f : Fields), s.frameReady p = true →
    (∃ l, exec (.read p f) s = .next { s with lnk := l } ∧
      TookFrame s.lnk l p { s.lnk[p] with latch := latchAfter (s.halfItem p f.page f.index) }
        (s.readReply p f.page f.index)) ∧
    (∀ n, itemAt s.cfg.staged f.page f.index = some n →
      AnswersOnly (.readStaged p f) s p ⟨.accepted, BitVec.ofNat 16 n⟩) ∧
    (itemAt s.cfg.staged f.page f.index = none → AnswersOnly (.readStaged p f) s p ⟨.badIndex, 0⟩) ∧
    ∀ v : Word, ∃ t, exec (.read p ⟨7, 48, v⟩) s = .next t ∧ t.frameReady p = true ∧
      t.lnk[p].slot = ⟨.accepted, s.alr.time.extractLsb' 0 16⟩ ∧
      ∀ now : Time, ∃ u, exec (.read p ⟨7, 49, v⟩) { t with alr.time := now } = .next u ∧
        u.lnk[p].slot = ⟨.accepted, s.alr.time.extractLsb' 16 16⟩ ∧ u.lnk[p].latch = none

/-- R168, R203 to R208: what READ shows on pages 0 to 9, in every port state: the items of the active image by the lists
of `itemAt`, the live items of channels, clarity records and zones, the topology, supervision, drill and time items,
the configuration and lockout word status, and the ports; BAD_INDEX where a page defines no item and on the pages above
11. A time item reads in two halves (R154): the low half, and the high half as it stood at a READ of the low half where
that was the port's previous READ, otherwise as it stands. `roundsUp` is the free value of log 15. The model's choice is
that a low half that reads ABSENT latches an absent high half (log 22), that the zone and owner fields of page 7 item 32
read 0 with no drill active (log 19), and that page 7 item 35 reads 0 while the window is stopped (log 32). -/
def Obligations.StatusItemsAreRead : Prop :=
  ∃ roundsUp : Bool, ∀ (s : State) (p : Port), s.frameReady p = true →
    let code (b : Bool) : Nat := if b then 1 else 0
    let units (left unit : Nat) : Nat := left / unit + if roundsUp = true ∧ left % unit ≠ 0 then 1 else 0
    let shows (page : BitVec 4) (index : Nat) (x : Item) : Prop := s.Shows p page index x
    let none' : Item := .noItem
    let may (x : Option Nat) : Item := match x with | some n => .value n | none => .absent
    (∀ (page : BitVec 4) (index : Byte), page.toNat ≤ 2 →
      shows page index.toNat (match itemAt s.cfg.active page index with | some n => .value n | none => none')) ∧
    (∀ (n : Chan) (i : Fin 16),
      let c := s.lcu[n]
      let k := s.fsu.clarity[n]
      shows 3 (16 * n.val + i.val) ([Item.value (chanStateCode c.state),
        .value (c.baseline.toNat + 32768 * code c.valid), .value c.pickupLevel.toNat, .value c.dropLevel.toNat,
        .value (code c.pickup + 2 * code c.mask + 4 * code c.held + 8 * code c.demoted + 16 * code c.window.isRunning +
          32 * code c.disturbance + 64 * code c.flashEnded),
        .value c.dropRun, .value c.candidate.toNat, .value c.restarts.toNat, .value c.stormCount.toNat,
        .value c.quiet, .value c.hist[0].toNat, .value c.hist[1].toNat, .value c.hist[2].toNat,
        .value c.hist[3].toNat, .value c.hist[4].toNat, .value c.hist[5].toNat].getD i.val none') ∧
      (i ∉ [0, 1, 4, 5] → shows 4 (16 * n.val + i.val) ([none', none', may (c.flash.map (·.index.toNat)),
        may (c.flash.bind fun f => f.runStart.map (·.toNat)), none', none', may (c.lastFlash.map (·.duration.toNat)),
        .value (units c.window.left 100)].getD i.val none')) ∧
      shows 5 (16 * n.val + i.val) ([Item.value (clarityCode k.clarity), .value k.lastC.toNat,
        .value (outcomeCode k.lastOutcome), .value k.darkRun.toNat, .value k.goodRun.toNat, .value k.deferCount.toNat,
        .value (captureCode k.capture), may (k.captured.map (·.toNat)), .value (code k.testing)].getD i.val none')) ∧
    (∀ (z : Zone) (i : Fin 16), i ∉ [1, 2] →
      let r := s.zev.zones[z]
      let set (f : MemberStatus → Bool) : Nat := ((List.finRange 6).map fun i => 2 ^ i.val * code (f r.view[i])).sum
      shows 6 (16 * z.val + i.val) ([Item.value (zoneStateCode r.state), none', none',
        .value (set (·.pickup) + 256 * set (·.votes)), .value (votingCount r.view),
        .value (code r.lit + 2 * code r.degraded + 4 * code r.drill), may (r.trigger.map (·.val)),
        may (r.phase.map phaseCode), .value r.nuisance.toNat,
        .value (match r.filter with | .running _ left => left | .stopped => 0), .value r.confirm.left,
        may (match r.filter with | .running .entry _ => some 0 | .running .restrike _ => some 1 | .stopped => none)].getD
          i.val none')) ∧
    (∀ z i : Fin 16, 8 ≤ z.val → shows 6 (16 * z.val + i.val) none') ∧
    (∀ i : Fin 256, i ∉ [7, 8, 9, 10, 11, 12, 33, 34, 48, 49] →
      let reports := (List.finRange 4).map fun q : Port =>
        let r := s.top.reports[q]
        Item.value (positionCode r.incomer + 4 * positionCode r.left + 16 * positionCode r.right)
      let couplers := (List.finRange 3).map fun j : Coupler => Item.value (resolvedCode s.top.couplers[j].resolved)
      let place (m : Nat) : Item := may (s.fsu.queue[m]?.map fun r => r.chan.val + if r.kind = .capture then 256 else 0)
      let name (a : Sect) : Nat := s.top.islandName[a].val
      let d := s.zev.drill
      let who (z : Option Zone) (q : Option Port) : Nat := 16 * (z.elim 0 (·.val)) + q.elim 0 (·.val)
      shows 7 i.val ((reports ++ couplers ++ List.replicate 6 none' ++
        [.value (name 0 + 4 * name 1 + 16 * name 2 + 64 * name 3), .value s.top.islandName.toList.dedup.length, none',
        .value s.fsu.queue.length, place 0, place 1, place 2, place 3,
        may (s.fsu.test.map fun run => run.chan.val + 256 * testKindCode run.kind), .value s.fsu.pointer.val,
        .value s.fsu.slotTimer.left, may (s.fsu.test.map (·.amplitude.toNat)), may (s.fsu.test.map (·.samplesLeft)),
        none', none', none', none', none', none', .value (32768 * code d.active + who d.zone d.owner), none', none',
        .value (units d.window.left 1000), .value d.shown.toNat,
        may (if d.lastReason = .none then none else
          some (256 * endReasonCode d.lastReason + who d.lastZone d.lastOwner)),
        .value d.lastShown.toNat]).getD i.val none')) ∧
    (∀ i : Fin 256,
      let l := s.trm.lock
      shows 8 i.val (([may (s.cfg.claim.map (·.val)), .value (code s.cfg.pendingCommit),
        .value (match s.cfg.lastCommit with
          | .none => 0
          | .accepted => 1
          | .invalid why z => 32768 + 256 * faultCode why + z.elim 255 (·.val)),
        .value s.cfg.transferCount.toNat,
        .value (code s.cfg.originDefault + 2 * code s.cfg.imageLost + 4 * code s.cfg.lockwordLost +
          8 * code s.cfg.unsaved),
        .value (saveStatusCode s.cfg.saveStatus)] ++ List.replicate 10 none' ++
        [.value (wordStatusCode l.status), may (l.writing.map (·.toNat)), may (l.waiting.map (·.toNat)),
        .value l.lastWritten.toNat, .value (wordResultCode l.lastResult + 16 * code l.retry),
        .value s.closeInhibit.toNat]).getD i.val none')) ∧
    (∀ (q : Port) (i : Fin 16),
      let r := s.lnk[q]
      let a := s.alr.ports[q]
      shows 9 (16 * q.val + i.val) ([Item.value (portStateCode r.state), .value r.rejects.toNat, .value a.bits.toNat,
        .value (2 * a.mask.toNat + code a.enable),
        .value (match r.state with | .silent => r.silentTimer.left | .live => r.heartbeat.left | _ => 0)].getD
          i.val none')) ∧
    (∀ q i : Fin 16, 4 ≤ q.val → shows 9 (16 * q.val + i.val) none') ∧
    (∀ (page : BitVec 4) (i : Fin 256), 12 ≤ page.toNat → shows page i.val none') ∧
    (∀ (page : BitVec 4) (low : Nat) (time : Option Time), s.HasTime page low time →
      shows page low (lowItem time) ∧
      ((∀ l, s.lnk[p].latch = some l → l.key ≠ ⟨page.toNat, low, none⟩) → shows page (low + 1) (highItem time)) ∧
      ∀ (v : Word) (t u : State), exec (.read p ⟨page, BitVec.ofNat 8 low, v⟩) s = .next t →
        u.frameReady p = true → u.lnk[p].latch = t.lnk[p].latch → u.Shows p page (low + 1) (highItem time)) ∧
    ([.off, .observe, .learn, .armed, .held].map chanStateCode = [0, 1, 2, 3, 4] ∧
      [.untested, .unsupervised, .clean, .soiled, .blind, .broken].map clarityCode = [0, 1, 2, 3, 4, 5] ∧
      [.none, .overlaid, .dark, .lowBlind, .lowSoiled, .good, .aborted, .skipped].map outcomeCode =
        [0, 1, 2, 3, 4, 5, 6, 7] ∧
      [.none, .queued, .testing, .done, .failed].map captureCode = [0, 1, 2, 3, 4] ∧
      [.disabled, .blocked, .quiet, .lit, .waiting, .suppressed, .tripped].map zoneStateCode = [0, 1, 2, 3, 4, 5, 6] ∧
      [.holding, .ready, .filtering].map phaseCode = [1, 2, 3] ∧
      [.none, .opened, .closed, .transit].map positionCode = [0, 1, 2, 3] ∧
      [.absent, .transit, .unknown, .opened, .closed, .disputed].map resolvedCode = [0, 1, 2, 3, 4, 5] ∧
      [.roundRobin, .test, .capture].map testKindCode = [0, 1, 2] ∧
      [.none, .ownerEnd, .expiry, .ownerLost, .transfer, .decision].map endReasonCode = [0, 1, 2, 3, 4, 5] ∧
      [.badMember, .dupMember, .sharedChannel, .emptyZone, .badLocation, .timing, .clarity, .noIncomer].map faultCode =
        [1, 2, 3, 4, 5, 6, 7, 8] ∧
      [.idle, .writing, .done, .failed].map saveStatusCode = [0, 1, 2, 3] ∧
      [.idle, .waiting, .writing].map wordStatusCode = [0, 1, 2] ∧ [.none, .ok, .failed].map wordResultCode = [0, 1, 2] ∧
      [.unused, .silent, .live, .stale].map portStateCode = [0, 1, 2, 3])

/-- R153, R154: what READ shows through the record window, in every port state: NO_RECORD with no record selected, and
otherwise the header items, the entry items and the times in two halves of the record that is selected, as it stands;
ABSENT for an absent field and BAD_INDEX for an index that names none. R151: the list directory on page 11. The model's
choice is that a low half that reads ABSENT latches an absent high half (log 22), and that the selection is held as the
seq of its record (log 29). That seqs are distinct (R105) is kept by every step (`StepKeepsRecords`). -/
def Obligations.RecordItemsAreRead : Prop :=
  ∀ (s : State) (p : Port), s.frameReady p = true →
    let code (b : Bool) : Nat := if b then 1 else 0
    let may (x : Option Nat) : Item := match x with | some n => .value n | none => .absent
    let head (r : TripRec) : Nat := r.seq.toNat + 256 * recKindCode r.kind + 1024 * stageCode r.stage
    (s.lnk[p].selection = none → ∀ (index : Byte) (v : Word), ∃ l, exec (.read p ⟨10, index, v⟩) s = .next { s with lnk := l } ∧
      l[p].slot = ⟨.noRecord, 0⟩) ∧
    (∀ r ∈ s.trm.records, s.lnk[p].selection = some r.seq → (s.trm.records.map (·.seq)).Nodup →
      let shows (index : Nat) (x : Item) : Prop := s.Shows p 10 index x
      let halves (low : Nat) (time : TripRec → Option (Option Time)) : Prop :=
        ∀ x, time r = some x →
          shows low (lowItem x) ∧
          ((∀ l, s.lnk[p].latch = some l → l.key ≠ ⟨10, low, some r.seq⟩) → shows (low + 1) (highItem x)) ∧
          ∀ (v : Word) (t u : State), exec (.read p ⟨10, BitVec.ofNat 8 low, v⟩) s = .next t →
            u.frameReady p = true → u.lnk[p].latch = t.lnk[p].latch → u.lnk[p].selection = some r.seq →
            (u.trm.records.map (·.seq)).Nodup → (∃ r' ∈ u.trm.records, r'.seq = r.seq ∧ (time r').isSome = true) →
            u.Shows p 10 (low + 1) (highItem x)
      (∀ i : Fin 12, shows i.val ([Item.value (head r), may (r.origin.map (·.val)), may (r.trigger.map (·.val)),
        may (r.peak.map (·.toNat)), may (r.scope.map scopeCode), .value r.region.toNat, .value r.snapshot.toNat,
        .value r.restrikes.toNat,
        .value (code r.fallback + 2 * code r.escalated + 4 * code r.late + 8 * code r.degraded),
        .value r.entries.length, .value (r.lockout.toNat + 256 * r.released.toNat),
        .value r.seenBy.toNat].getD i.val .noItem)) ∧
      halves 12 (fun r => some (some r.opened)) ∧ halves 14 (fun r => some r.closedAt) ∧
      (∀ m : Nat, m < 16 →
        shows (16 + m) (match r.entries[m]? with
          | some e => .value (targetNumber e.target + 16 * reasonCode e.reason + 64 * entryStateCode e.state +
              512 * code e.late)
          | none => .noItem) ∧
        halves (32 + 2 * m) (fun r => r.entries[m]?.map fun e => some e.commandTime) ∧
        (r.entries.length ≤ m → shows (32 + 2 * m) .noItem ∧ shows (33 + 2 * m) .noItem)) ∧
      ∀ m : Nat, m < 96 → halves (64 + 2 * m) (fun r => r.entries[m]?.map (·.evidence)) ∧
        (r.entries.length ≤ m → shows (64 + 2 * m) .noItem ∧ shows (65 + 2 * m) .noItem)) ∧
    (∀ i : Fin 256, s.Shows p 11 i.val (if i.val = 0 then .value s.trm.records.length
      else if i.val ≤ 12 then may (s.trm.records[i.val - 1]?.map head) else .noItem)) ∧
    ([.arc, .drill, .restored].map recKindCode = [0, 1, 2] ∧ [.firing, .locked, .closed].map stageCode = [0, 1, 2] ∧
      [.sectional, .island, .board].map scopeCode = [0, 1, 2] ∧
      [.initial, .escalation, .restrike].map reasonCode = [0, 1, 2] ∧
      [.commanded, .failing, .confirmed, .gaveUp, .pulsing, .sent, .shown].map entryStateCode = [0, 1, 2, 3, 4, 5, 6] ∧
      (∀ k : Incomer, targetNumber (.ti k) = k.val ∧ targetNumber (.ut k) = 7 + k.val) ∧
      ∀ j : Coupler, targetNumber (.tc j) = 4 + j.val)

/-! ### Editing -/

/-- R174, with the ranges and steps of R1, R73, R168 and R169: a WRITE, by the lines of its table. An accepted one gives
the item its value and leaves every other item of the staged image. -/
def Obligations.WriteDecides : Prop :=
  ∀ (s : State) (p : Port) (f : Fields), s.liveReady p = true →
    (s.cfg.claim ≠ some p → AnswersOnly (.write p f) s p ⟨.noClaim, 0⟩) ∧
    (s.cfg.claim = some p → s.cfg.pendingCommit = true → AnswersOnly (.write p f) s p ⟨.pending, 0⟩) ∧
    (s.cfg.claim = some p → s.cfg.pendingCommit = false →
      (itemRange f.page f.index = none → AnswersOnly (.write p f) s p ⟨.badIndex, 0⟩) ∧
      ∀ lo hi step, itemRange f.page f.index = some (lo, hi, step) →
        let fits := lo ≤ f.value.toNat ∧ f.value.toNat ≤ hi ∧ step ∣ f.value.toNat - lo
        (¬ fits → AnswersOnly (.write p f) s p ⟨.badValue, 0⟩) ∧
        (fits → ∃ img l, exec (.write p f) s = .next { s with cfg.staged := img, lnk := l } ∧
          TookFrame s.lnk l p s.lnk[p] ⟨.accepted, 0⟩ ∧ itemAt img f.page f.index = some f.value.toNat ∧
          ∀ (page : BitVec 4) (index : Byte), (page, index) ≠ (f.page, f.index) →
            itemAt img page index = itemAt s.cfg.staged page index))

/-- R171: a CLAIM, by the lines of its table. R172, R32: a YIELD of the holder releases the claim, discards unfrozen
edits, and makes every capture under way a test whose capture has failed; from another port it is refused. -/
def Obligations.ClaimAndYieldDecide : Prop :=
  ∀ (s : State) (p : Port) (f : Fields), s.liveReady p = true →
    (s.cfg.claim = none → ∃ l, exec (.claim p f) s = .next { s with cfg.claim := some p, lnk := l } ∧
      TookFrame s.lnk l p s.lnk[p] ⟨.accepted, 0⟩) ∧
    (s.cfg.claim = some p → AnswersOnly (.claim p f) s p ⟨.accepted, 0⟩) ∧
    (∀ q : Port, q ≠ p → s.cfg.claim = some q →
      AnswersOnly (.claim p f) s p ⟨.heldBy, BitVec.ofNat 16 q.val⟩) ∧
    (s.cfg.claim ≠ some p → AnswersOnly (.yield p f) s p ⟨.noClaim, 0⟩) ∧
    (s.cfg.claim = some p →
      ∃ l : Vector PortRec 4, exec (.yield p f) s = .next { s with
          lnk := l
          cfg.claim := none
          cfg.staged := if s.cfg.pendingCommit then s.cfg.staged else s.cfg.active
          fsu := s.fsu.claimLost } ∧
        TookFrame s.lnk l p s.lnk[p] ⟨.accepted, 0⟩)

/-- R176, R178, R204: a COMMIT, by its refusals, its validation and the quiet of the board. On a quiet board it has the
whole effect of the transfer of `TransferTakesTheStagedImage` and `TransferTakesUpTheChannels`, in its own event. From a
port without the claim while a commit is pending it answers NO_CLAIM first, which is the model's choice (log 33). That a
board which is not quiet leaves no transfer due, and a quiet one has it due and made in the event, is in the model's own
terms (log 5). -/
def Obligations.CommitDecides : Prop :=
  ∀ (s : State) (p : Port) (f : Fields), s.liveReady p = true →
    (s.cfg.claim ≠ some p → AnswersOnly (.commit p f) s p ⟨.noClaim, 0⟩) ∧
    (s.cfg.claim = some p → s.cfg.pendingCommit = true → AnswersOnly (.commit p f) s p ⟨.pending, 0⟩) ∧
    (s.cfg.claim = some p → s.cfg.pendingCommit = false →
      (∀ why z, validate s.cfg.staged = some (why, z) →
        ∃ l, exec (.commit p f) s = .next { s with cfg.lastCommit := .invalid why z, lnk := l } ∧
          TookFrame s.lnk l p s.lnk[p] ⟨.invalid, BitVec.ofNat 16 (256 * faultCode why + z.elim 255 (·.val))⟩) ∧
      (validate s.cfg.staged = none → s.boardQuiet = false →
        ∃ l, exec (.commit p f) s = .next { s with
            cfg.lastCommit := .accepted, cfg.pendingCommit := true, lnk := l } ∧
          TookFrame s.lnk l p s.lnk[p] ⟨.accepted, 2⟩) ∧
      (validate s.cfg.staged = none → s.boardQuiet = true →
        ∃ l u t, TookFrame s.lnk l p s.lnk[p] s.lnk[p].slot ∧
          exec .transfer { s with
            lnk := l, cfg.lastCommit := .accepted, cfg.pendingCommit := true, cfg.transferDue := true } = .next u ∧
          exec (.commit p f) s = .next t ∧
          t = { u with lnk := modAt u.lnk p fun q => { q with slot := ⟨.accepted, 1⟩ } } ∧
          t.lnk[p].slot = ⟨.accepted, 1⟩ ∧ t.lnk[p].frameErr = false ∧
          t.cfg.lastCommit = .accepted ∧ t.cfg.pendingCommit = false ∧ t.cfg.active = s.cfg.staged ∧
          t.cfg.staged = s.cfg.staged ∧ t.cfg.transferCount = s.cfg.transferCount + 1 ∧ t.cfg.unsaved = true ∧
          ∀ q, t.used q = true → t.alerted q .configApplied = true))

/-- R176: an image passes its validation exactly when none of the eight checks fails; one that does not is INVALID with
the first check that fails, in the order of the table (their numbers: R204), and the first zone at which it fails. For
SHARED_CHANNEL that is the lower of the zones that share a channel (log 18). -/
def Obligations.ValidationAcceptsExactly : Prop :=
  ∀ img : Image,
    let slot (z : Zone) (i : Slot) : Byte := img.zones[z].slots[i]
    let fails (why : CommitFault) (z : Zone) : Prop := match why with
      | .badMember => (∃ i, 16 ≤ (slot z i).toNat ∧ slot z i ≠ 255) ∨ ∃ i j, i < j ∧ slot z i = 255 ∧ slot z j ≠ 255
      | .dupMember => ∃ i j, i ≠ j ∧ slot z i ≠ 255 ∧ slot z i = slot z j
      | .sharedChannel => ∃ y i j, y ≠ z ∧ slot z i ≠ 255 ∧ slot z i = slot y j
      | .emptyZone => img.zones[z].enabled = true ∧ ∀ i, slot z i = 255
      | .badLocation => img.zones[z].enabled = true ∧ ∃ k, img.zones[z].location = .coupler k ∧ img.board.coupler[k] = false
      | .timing | .clarity | .noIncomer => False
    let boardFails (why : CommitFault) : Prop := match why with
      | .timing => ¬ (img.board.tMin.val < img.board.tBf.val ∧ img.board.tBf.val < img.board.tCoil.val)
      | .clarity => ¬ img.board.blindB.val < img.board.soiledW.val
      | .noIncomer => (∃ z : Zone, img.zones[z].enabled = true) ∧ ∀ k : Incomer, img.board.incomer[k] = false
      | .badMember | .dupMember | .sharedChannel | .emptyZone | .badLocation => False
    let passes (why : CommitFault) : Prop := (∀ z, ¬ fails why z) ∧ ¬ boardFails why
    (validate img = none ↔ ∀ why, passes why) ∧
    (∀ why z, validate img = some (why, some z) ↔
      fails why z ∧ (∀ y, y < z → ¬ fails why y) ∧ ∀ x, faultCode x < faultCode why → passes x) ∧
    ∀ why, validate img = some (why, none) ↔ boardFails why ∧ ∀ x, faultCode x < faultCode why → passes x

/-- R179 (with R164, R173, R196, R197): a transfer that is due: the staged image is active, a claim of a port now unused
has lapsed, the flags are set and CONFIG_APPLIED is raised; ports whose incomers changed presence are UNUSED or SILENT,
with selection and half latch dropped (R155), and PEER_STALE is raised on the others for those that were LIVE; with none
due nothing happens (log 3). That a notice makes the transfer due, and a command of its own makes it, is log 5. R71:
reports, couplers and islands take up the new board. With no zone waiting: any drill ends with TRANSFER; R98, R99: every
zone is placed anew from the channels as they took up their pages, which is the next statement's; R133, R155: records
are as they were but for the open evidence of couplers that come into OPEN (log 31), for the re-strikes of TRIPPED zones
whose filter of 0 ms expires in the event (R92, R93, R125), and for the records of zones that decide so, which follow
them; the lockout word is asked for by R132 and R142. That no zone is under drill but that of the drill register, which
the clauses on the drill register and the records rest on, is kept by every step (`DrillInv`, `StepKeepsLinks`). The
order of zones that decide or start filters at once is a free value (log 12), and the start time of a drill is kept at
its end (log 29): both the model's choice. -/
def Obligations.TransferTakesTheStagedImage : Prop :=
  ∀ s : State,
    (s.cfg.pendingCommit = false ∨ s.cfg.transferDue = false → exec .transfer s = .next s) ∧
    (s.cfg.pendingCommit = true → s.cfg.transferDue = true →
      ∃ t, exec .transfer s = .next t ∧ t.cfg.active = s.cfg.staged ∧ t.cfg.staged = s.cfg.staged ∧
        (∀ p : Port, (s.used p = true → t.used p = false → t.lnk[p] = { s.lnk[p] with
            state := .unused, silentTimer := .stopped, heartbeat := .stopped, selection := none, latch := none }) ∧
          (s.used p = false → t.used p = true → t.lnk[p] = { s.lnk[p] with
            state := .silent, silentTimer := .running 2000, heartbeat := .stopped, selection := none, latch := none }) ∧
          (s.used p = t.used p → t.lnk[p] = { s.lnk[p] with
            selection := t.lnk[p].selection, latch := t.lnk[p].latch }) ∧
          (s.used p = true → t.used p = false → s.lnk[p].state = .live →
            ∀ q, q ≠ p → t.used q = true → t.alerted q .peerStale = true)) ∧
        t.zev.drill.active = false ∧
        (t.cfg.claim = match s.cfg.claim with
          | some p => if t.used p then some p else none
          | none => none) ∧
        t.cfg.pendingCommit = false ∧ t.cfg.transferDue = false ∧ t.cfg.transferCount = s.cfg.transferCount + 1 ∧
        t.cfg.unsaved = true ∧
        (∀ p, t.used p = true → t.alerted p .configApplied = true) ∧
        (t.cfg.job = s.cfg.job.map fun j => { j with noTransfer := false }) ∧ t.nv = s.nv ∧
        (let there (j : Option Coupler) : Bool := match j with
          | some j => s.cfg.staged.board.coupler[j]
          | none => false
        (∀ p : Port, t.top.reports[p] = if s.used p ≠ t.used p then ⟨.none, .none, .none⟩ else
          { s.top.reports[p] with
            left := if there (leftCoupler p) then s.top.reports[p].left else .none
            right := if there (rightCoupler p) then s.top.reports[p].right else .none }) ∧
        (∀ j : Coupler, t.top.couplers[j] =
          if t.resolvedNow j ≠ s.top.couplers[j].resolved then ⟨t.resolvedNow j, s.alr.time⟩ else s.top.couplers[j]) ∧
        (IslandsInv s → IslandsInv t) ∧
        ((∃ j : Coupler, t.top.couplers[j].resolved = .disputed ∧ s.top.couplers[j].resolved ≠ .disputed) ∨
          t.top.islandName ≠ s.top.islandName → ∀ p, t.used p = true → t.alerted p .topology = true)) ∧
        (s.noneWaiting →
          (s.zev.drill.active = true → ∀ p, t.used p = true → t.alerted p .drill = true) ∧
          let view (z : Zone) : Vector MemberStatus 6 := Vector.ofFn fun i : Slot =>
            match t.cfg.active.zones[z].memberAt i with
            | some n => t.statusOf n
            | none => ⟨false, false⟩
          let place (z : Zone) : ZoneState :=
            if t.cfg.active.zones[z].enabled = false then .disabled
            else if votingCount (view z) = 0 then .blocked else .quiet
          let atOnce (z : Zone) : Prop :=
            voteSatisfied t.cfg.active.zones[z] (view z) = true ∧ t.cfg.active.zones[z].tzf.val = 0
          let flagged (z : Zone) : Bool :=
            s.zev.zones[z].drill && !(s.zev.drill.active && decide (s.zev.drill.zone = some z))
          let confirmed (z : Zone) : Prop :=
            t.currentConfirms z = true ∨ (t.cfg.active.zones[z].confirm = .lightOnly ∧ flagged z = false)
          let strikes (z : Zone) (r : TripRec) : Prop := r.ArcOf z ∧ atOnce z ∧ s.zev.zones[z].state = .tripped ∧
            (s.zev.zones[z].phase = some .ready ∨ s.zev.zones[z].phase = some .filtering) ∧
            (t.cfg.active.zones[z].confirm = .lightOnly ∨ t.live (t.feedSet (s.recordRegion z)) = true)
          ((∃ z, ∃ r ∈ s.trm.records, strikes z r) → ∀ p, t.used p = true → t.alerted p .arcOpened = true) ∧
          ((∀ z, atOnce z → s.zev.zones[z].state ≠ .tripped → flagged z = false) →
            t.zev.drill = (if s.zev.drill.active = true then s.zev.drill.ended .transfer else s.zev.drill) ∧
            ∃ zs : List Zone, zs.Nodup ∧
              (∀ z, z ∈ zs ↔ atOnce z ∧ s.zev.zones[z].state ≠ .tripped ∧ confirmed z) ∧
              (zs = [] ∨ s.RoomFor zs → ∃ rs, t.ArcsOpened zs s.trm.seqCounter
                  (withEvidence s.trm.records (openedTargets s t) s.alr.time) t.trm.seqCounter rs ∧
                t.trm.records.length = rs.length ∧
                ∀ (i : Nat) (r : TripRec), rs[i]? = some r →
                  ((∃ z, strikes z r) → t.trm.records[i]? = some (t.restruck r)) ∧
                  ((∀ z, ¬ strikes z r) → t.trm.records[i]? = some r)) ∧
              s.AsksForWord t (∃ y, ∀ z, z ∈ zs ∨ (∃ r ∈ s.trm.records, strikes z r) → z = y)) ∧
          ((∃ z : Zone, place z = .blocked ∧ s.zev.zones[z].state ≠ .tripped ∧ s.zev.zones[z].state ≠ .blocked) →
            ∀ p, t.used p = true → t.alerted p .zoneBlocked = true) ∧
          ∀ z : Zone,
            let page := t.cfg.active.zones[z]
            let sat := voteSatisfied page (view z)
            let first := firstLitMember page (view z)
            let r := { s.zev.zones[z] with
              view := view z, lit := sat, degraded := voteDegraded page (view z), filter := .stopped
              drill := flagged z }
            let placed := { r with
              state := place z, confirm := .stopped
              entryTime := if place z = r.state then r.entryTime else s.alr.time }
            (r.state ≠ .tripped → sat = false → t.zev.zones[z] = placed) ∧
            (r.state ≠ .tripped → sat = true → 0 < page.tzf.val → t.zev.zones[z] = { placed with
              trigger := first, filter := .running .entry page.tzf.val, state := .lit, entryTime := s.alr.time }) ∧
            (r.state ≠ .tripped → sat = true → page.tzf.val = 0 →
              t.zev.zones[z] = { placed with
                trigger := first, entryTime := s.alr.time
                state := if confirmed z then .tripped else .waiting
                phase := if confirmed z then some .holding else placed.phase
                confirm := if confirmed z then .stopped else .running page.tcw.val }) ∧
            (r.state = .tripped → sat = false → t.zev.zones[z] = { r with
              phase := if r.phase = none then none else some .ready }) ∧
            (r.state = .tripped → sat = true → r.phase = some .holding ∨ r.phase = none → t.zev.zones[z] = r) ∧
            (r.state = .tripped → sat = true → r.phase = some .ready ∨ r.phase = some .filtering →
              t.zev.zones[z] = { r with
                trigger := first
                filter := if page.tzf.val = 0 then .stopped else .running .restrike page.tzf.val
                phase := if page.tzf.val = 0 then some .holding else some .filtering }) ∧
            (place z = .disabled → r.state = .tripped → t.zev.zones[z].lit = false)))

/-- R23 to R25, R39, R48, at a transfer that is due (log 5): a channel whose page has not changed is left as it was; one
whose page has changed takes up target, mode, fixed baseline, levels, storm action and state, and learns or stops
learning by its new state (R8, R10, R14); its clarity record and its held flag follow its target and A_ref; a test of it
in flight is aborted; a claim that lapses takes the captures with it (R32, R173). No alert of the sensors is raised
(R43). The model's choice is that a candidate which leaving LEARN discards reads 0 (log 11), and that a flash which the
passage to OFF ends uncounted leaves the flash-ended flag as it was (log 34). -/
def Obligations.TransferTakesUpTheChannels : Prop :=
  ∀ s : State, s.cfg.pendingCommit = true → s.cfg.transferDue = true →
    ∃ t, exec .transfer s = .next t ∧
      let lapses := s.cfg.claim.any fun p => !t.used p
      ∃ f : Fsu, t.fsu = (if lapses then f.claimLost else f) ∧ f.queue = s.fsu.queue ∧ f.pointer = s.fsu.pointer ∧
        f.slotTimer = s.fsu.slotTimer ∧
        (∀ p, t.alerted p .sensorSoiled = s.alerted p .sensorSoiled ∧
          t.alerted p .sensorLost = s.alerted p .sensorLost) ∧
        (f.test = s.fsu.test.filter fun run =>
          decide (s.cfg.active.chans[run.chan] = s.cfg.staged.chans[run.chan])) ∧
        ∀ n : Chan,
          let o := s.cfg.active.chans[n]
          let p := s.cfg.staged.chans[n]
          let c := s.lcu[n]
          let c' := t.lcu[n]
          let k := s.fsu.clarity[n]
          (o = p → c' = c ∧ f.clarity[n] = k) ∧
          (o ≠ p →
            let tested := s.fsu.test.any fun run => decide (run.chan = n)
            let captured := s.fsu.test.any fun run => decide (run.chan = n ∧ run.kind = .capture)
            let toOff := p.target = .off ∧ o.target ≠ .off
            let recovers := (p.target ≠ o.target ∧ p.target ≠ .armed) ∨
              (o.stormAction = .demote ∧ p.stormAction ≠ .demote)
            let newClarity := toOff ∨ (o.aRef = 0 ↔ p.aRef ≠ 0)
            (∃ (b : LU) (w : Timer) (candidate : LU) (restarts : Byte) (disturbance : Bool) (P D : LU) (st : ChanState),
              c' = { c with
                state := st, baseline := b, pickupLevel := P, dropLevel := D
                valid := if p.mode = .fixed then c'.valid else c.valid && decide (o.mode = .learned)
                pickup := c.pickup && !decide toOff
                flash := if toOff then none else c.flash
                dropRun := if toOff then 0 else c.dropRun
                mask := c.mask && !tested
                held := c.held && !decide (toOff ∨ (o.aRef ≠ 0 ∧ p.aRef = 0))
                demoted := c.demoted && !decide recovers
                quiet := if recovers then 0 else c.quiet
                window := w, candidate := candidate, restarts := restarts, disturbance := disturbance }) ∧
            (p.mode = .fixed → o.mode = .learned ∨ o.fixedBaseline ≠ p.fixedBaseline →
              c'.valid = true ∧ c'.baseline.toNat = p.fixedBaseline.val) ∧
            (p.mode = .fixed → o.mode = .fixed → o.fixedBaseline = p.fixedBaseline →
              c'.valid = c.valid ∧ c'.baseline = c.baseline) ∧
            (p.mode = .learned → c'.baseline = c.baseline) ∧
            (c'.pickupLevel.toNat = if c'.valid = true
              then min 4000 (max p.floor.val (c'.baseline.toNat * p.gain.val / 2)) else p.floor.val) ∧
            c'.dropLevel.toNat = c'.pickupLevel.toNat * p.dropRatio.val / 100 ∧
            (c'.state = if p.target = .off then .off else if c'.held = true then .held
              else if p.mode = .learned ∧ c'.valid = false then .learn else if c'.demoted = true then .observe
              else if p.target = .armed then .armed else .observe) ∧
            (c.state = .learn → c'.state ≠ .learn →
              c'.window = .stopped ∧ c'.candidate = 0 ∧ c'.disturbance = false ∧ c'.restarts = c.restarts) ∧
            (c.state ≠ .learn → c'.state = .learn →
              c'.candidate = 0 ∧ c'.disturbance = false ∧ c'.restarts = 0 ∧
              c'.window = if c'.pickup then .stopped else .running (s.cfg.staged.board.tLearn.val * 1000)) ∧
            ((c.state = .learn ↔ c'.state = .learn) →
              c'.window = c.window ∧ c'.candidate = c.candidate ∧ c'.disturbance = c.disturbance ∧
              c'.restarts = c.restarts) ∧
            f.clarity[n] = { k with
              clarity := if newClarity then (if p.aRef = 0 then .unsupervised else .untested) else k.clarity
              darkRun := if newClarity then 0 else k.darkRun
              goodRun := if newClarity then 0 else k.goodRun
              testing := k.testing && !tested
              lastOutcome := if tested then .aborted else k.lastOutcome
              capture := if captured then .failed else k.capture })

/-! ### Positions -/

/-- R194, R53 (with R57): a REPORT of a used port with its remaining bits not all zero is refused; any other makes or
keeps the port LIVE, restarts its heartbeat, sets its report record and its section's couplers, raises TOPOLOGY where a
coupler comes into DISPUTED or the islands change, and answers with the couplers' states. R113, R114 (with R62): a
reported OPEN of the incomer, and each coupler that comes into OPEN, is open evidence for the entries on its trip line,
with its notice to the CFG (R128, R178, log 5). R84, R90, R91, R106, R162: where a coupler changed its state, every zone
in WAITING whose confirming set is then live takes an arc decision, as at a change of a CP line; the incomer's evidence
comes before the decisions, after them or between any two of them (R130; log 13). R195, R152, R154: a port that becomes
LIVE has its silent timer stopped and neither selection nor half latch; where no record leaves the list, nothing else of
the ports changes. The order of the zones is a free value (log 12), and the start time of a drill that ends is kept (log
29). -/
def Obligations.ReportIsTaken : Prop :=
  ∀ (s : State) (p : Port) (f : Fields), s.frameReady p = true → s.lnk[p].state ≠ .unused →
    let v := f.value
    let at2 (i : Nat) : Position :=
      if v.extractLsb' i 2 = 0 then .none else if v.extractLsb' i 2 = 1 then .opened
      else if v.extractLsb' i 2 = 2 then .closed else .transit
    (v.extractLsb' 6 10 ≠ 0 → AnswersOnly (.report p f) s p ⟨.badValue, 0⟩) ∧
    (v.extractLsb' 6 10 = 0 → ∃ t, exec (.report p f) s = .next t ∧
      let q := s.lnk[p]
      let beat : Timer := .running s.cfg.active.board.tHb.val
      let taken : PortRec :=
        if q.state = .live then { q with heartbeat := beat }
        else { q with state := .live, silentTimer := .stopped, heartbeat := beat, selection := none, latch := none }
      TookFrame (modAll s.lnk PortRec.noWindow) (modAll t.lnk PortRec.noWindow) p taken.noWindow t.lnk[p].slot ∧
      (q.state ≠ .live → t.lnk[p].selection = none ∧ t.lnk[p].latch = none) ∧
      t.top.reports[p].incomer = at2 0 ∧
      (t.top.reports[p].left = match leftCoupler p with
        | some j => if s.cfg.active.board.coupler[j] then at2 2 else .none
        | none => .none) ∧
      (t.top.reports[p].right = match rightCoupler p with
        | some j => if s.cfg.active.board.coupler[j] then at2 4 else .none
        | none => .none) ∧
      (∀ q : Port, q ≠ p → t.top.reports[q] = s.top.reports[q]) ∧
      (∀ j : Coupler, t.top.couplers[j] =
        if adjacent p j = true ∧ t.resolvedNow j ≠ s.top.couplers[j].resolved then ⟨t.resolvedNow j, s.alr.time⟩
        else s.top.couplers[j]) ∧
      ((∃ j : Coupler, t.top.couplers[j].resolved = .disputed ∧ s.top.couplers[j].resolved ≠ .disputed) ∨
          t.top.islandName ≠ s.top.islandName → ∀ q, s.used q = true → t.alerted q .topology = true) ∧
      t.lnk[p].slot.code = .accepted ∧
      t.lnk[p].slot.value.toNat =
        16 * (match rightCoupler p with | some j => resolvedCode t.top.couplers[j].resolved | none => 0) +
        (match leftCoupler p with | some j => resolvedCode t.top.couplers[j].resolved | none => 0) ∧
      (s.noneWaiting →
        let evidence := openedTargets s t ++ if at2 0 = .opened then [Target.ti p] else []
        t.trm = { s.trm with records := withEvidence s.trm.records evidence s.alr.time } ∧ t.zev = s.zev) ∧
      let u : State := { s with top := t.top }
      let incomer := if at2 0 = .opened then [Target.ti p] else []
      (ViewsInv s → DueInv s → openedTargets s t ++ incomer ≠ [] → s.DueAfter t) ∧
      ∃ before after : List Zone,
        let zs := before ++ after
        zs.Nodup ∧
        (∀ z, z ∈ zs ↔ s.zev.zones[z].state = .waiting ∧ u.currentConfirms z = true ∧
          ∃ j : Coupler, t.top.couplers[j].resolved ≠ s.top.couplers[j].resolved) ∧
        u.Decided t zs ∧ u.DrillDecided t zs ∧
        (zs = [] ∨ s.RoomFor zs → ∃ (c : Byte) (rs : List TripRec),
          u.ArcsOpened before s.trm.seqCounter (withEvidence s.trm.records (openedTargets s t) s.alr.time) c rs ∧
          u.ArcsOpened after c (withEvidence rs incomer s.alr.time) t.trm.seqCounter t.trm.records) ∧
        (zs = [] ∨ s.trm.records.length + zs.length ≤ 12 → TookFrame s.lnk t.lnk p taken t.lnk[p].slot))

/-- R57: the lines of the resolution table, and R58: which resolved states join. R51: which couplers stand beside a
section, and which two reports speak of a coupler. -/
def Obligations.CouplersResolveAndJoin : Prop :=
  (∀ l r, resolve false l r = .absent) ∧
  (∀ l r, l = .transit ∨ r = .transit → resolve true l r = .transit) ∧
  resolve true .none .none = .unknown ∧
  (∀ v, v = .opened ∨ v = .closed →
    resolve true .none v = resolve true v v ∧ resolve true v .none = resolve true v v) ∧
  resolve true .opened .opened = .opened ∧ resolve true .closed .closed = .closed ∧
  resolve true .opened .closed = .disputed ∧ resolve true .closed .opened = .disputed ∧
  (∀ x : Resolved, x.joins = true ↔ x = .closed ∨ x = .transit ∨ x = .disputed ∨ x = .unknown) ∧
  (∀ (p : Port) (j : Coupler), (leftCoupler p = some j ↔ p.val = j.val + 1) ∧ (rightCoupler p = some j ↔ p.val = j.val) ∧
    (adjacent p j = true ↔ leftCoupler p = some j ∨ rightCoupler p = some j)) ∧
  ∀ (s : State) (j : Coupler), s.joined j = s.top.couplers[j].resolved.joins ∧ ∀ p q : Port, p.val = j.val →
    q.val = j.val + 1 →
    s.resolvedNow j = resolve s.cfg.active.board.coupler[j] s.top.reports[p].right s.top.reports[q].left

/-- R59: with the division in line with the couplers, two sections are in one island exactly when every coupler between
them is joined, and an island is named by its lowest section. R63 to R66: feed sets, their liveness, side-sets and
boundary sets. R67 to R69: the region, trip set, snapshot and FALLBACK of the answers at a decision and at a re-strike.
R70: the far section of a coupler and its side-set. R82: a zone is confirmed by current when the CP line of some present
incomer is active that lies in an island of its place, or anywhere for scope BOARD. R93: the region that a re-strike asks
for. R106: the trip lines of a trip set. -/
def Obligations.IslandsFeedsAndTripSets : Prop :=
  ∀ (s : State) (r : SectSet) (f : IncomerSet) (k : Sect) (x : Option Coupler) (loc : Location) (sc : Scope),
    (IslandsInv s →
      (∀ a b : Sect, s.sameIsland a b = true ↔
        ∀ j : Coupler, min a.val b.val ≤ j.val → j.val < max a.val b.val → s.joined j = true) ∧
      ∀ a : Sect, s.sameIsland a s.top.islandName[a] = true ∧
        ∀ b, s.sameIsland a b = true → s.top.islandName[a] ≤ b) ∧
    (∀ i : Incomer, mem (s.feedSet r) i = true ↔
      s.cfg.active.board.incomer[i] = true ∧ ∃ m : Sect, mem r m = true ∧ s.sameIsland i m = true) ∧
    (s.live f = true ↔ ∃ i : Incomer, mem f i = true ∧ s.cp[i] = true) ∧
    (∀ i : Incomer,
      (mem (s.sideSet k x) (breakerOfIncomer i) = true ↔ i = k ∧ s.cfg.active.board.incomer[i] = true) ∧
      (mem (s.boundarySet r) (breakerOfIncomer i) = true ↔ mem r i = true ∧ s.cfg.active.board.incomer[i] = true)) ∧
    (∀ j : Coupler,
      (mem (s.sideSet k x) (breakerOfCoupler j) = true ↔
        (k.val = j.val ∨ k.val = j.val + 1) ∧ s.joined j = true ∧ x ≠ some j) ∧
      (mem (s.boundarySet r) (breakerOfCoupler j) = true ↔
        s.joined j = true ∧ ((mem r (leftSect j) = true ∧ mem r (rightSect j) = false) ∨
          (mem r (leftSect j) = false ∧ mem r (rightSect j) = true))) ∧
      (mem r (leftSect j) = true → mem r (rightSect j) = false →
        s.farSide r j = some (rightSect j, s.sideSet (rightSect j) (some j))) ∧
      (mem r (leftSect j) = false → mem r (rightSect j) = true →
        s.farSide r j = some (leftSect j, s.sideSet (leftSect j) (some j))) ∧
      (mem r (leftSect j) = mem r (rightSect j) → s.farSide r j = none)) ∧
    (∀ z : Zone, s.currentConfirms z = true ↔ ∃ i : Incomer,
      s.cfg.active.board.incomer[i] = true ∧ s.cp[i] = true ∧
      match s.cfg.active.zones[z].scope, s.cfg.active.zones[z].location with
      | .board, _ => True
      | _, .sect a => s.sameIsland i a = true
      | _, .coupler j => s.sameIsland i (leftSect j) = true ∨ s.sameIsland i (rightSect j) = true) ∧
    (∀ z : Zone, s.recordRegion z = match s.trm.records.find? fun r => decide (r.ArcOf z) with
      | some r => r.region
      | none => 0) ∧
    (∀ b : BreakerSet, (targetsOf b).Nodup ∧
      (∀ i : Incomer, .ti i ∈ targetsOf b ↔ mem b (breakerOfIncomer i) = true) ∧
      (∀ j : Coupler, .tc j ∈ targetsOf b ↔ mem b (breakerOfCoupler j) = true) ∧ ∀ i : Incomer, .ut i ∉ targetsOf b) ∧
    (∀ ts : List Target,
      (∀ i : Incomer, mem (breakersOf ts) (breakerOfIncomer i) = true ↔ .ti i ∈ ts) ∧
      ∀ j : Coupler, mem (breakersOf ts) (breakerOfCoupler j) = true ↔ .tc j ∈ ts) ∧
    (s.AnswersFor sc (s.initialAnswer loc sc) ∧ ∀ m : Sect, mem (s.initialAnswer loc sc).region m = true ↔
      match sc, loc with
      | .sectional, .sect a => m = a
      | .sectional, .coupler j => m.val = j.val ∨ m.val = j.val + 1
      | .island, .sect a => s.sameIsland m a = true
      | .island, .coupler j => s.sameIsland m (leftSect j) = true ∨ s.sameIsland m (rightSect j) = true
      | .board, _ => True) ∧
    (s.AnswersFor sc (s.restrikeAnswer sc r) ∧ ∀ m : Sect, mem (s.restrikeAnswer sc r).region m = true ↔
      match sc with
      | .sectional => mem r m = true
      | .island => mem r m = true ∨ ∃ a : Sect, mem r a = true ∧ s.sameIsland m a = true
      | .board => True)

/-! ### Records -/

/-- R136 to R139: a RELEASE. It is refused at its port where its value names no breaker, or a breaker that the port does
not own while a used port does; otherwise every open record that holds the breaker is examined, takes it or refuses it,
and closes where its whole lockout set is released. R132, R142: a change of the close-inhibit lines clears the retry
flag and asks for a write of the new set, which an idle engine begins and a busy one makes the waiting set. The close
notices of closing ARC records (R139) wait in `notices`, which is the model's own list (log 26). -/
def Obligations.ReleaseDecides : Prop :=
  ∀ (s : State) (p : Port) (f : Fields), s.liveReady p = true →
    (7 ≤ f.value.toNat → AnswersOnly (.release p f) s p ⟨.badValue, 0⟩) ∧
    ∀ b : Fin 7, f.value.toNat = b.val →
      let owner (q : Port) : Bool :=
        if b.val < 4 then decide (q.val = b.val) else decide (q.val + 4 = b.val ∨ q.val + 3 = b.val)
      let examined (r : TripRec) : Bool :=
        decide (r.stage ≠ .closed) && mem r.lockout b && !mem r.released b
      let lit (r : TripRec) : Bool :=
        decide (r.kind = .arc) && (match r.origin with | some z => s.zev.zones[z].lit | none => false)
      let takes (r : TripRec) : Bool := examined r && decide (r.stage ≠ .firing) && !lit r
      let closes (r : TripRec) : Bool :=
        takes r && decide (r.stage = .locked) && decide (r.released ||| single b = r.lockout)
      let taken := (s.trm.records.filter takes).length
      let refused := (s.trm.records.filter fun r => examined r && !takes r).length
      let allowed := owner p = true ∨ ∀ q : Port, owner q = true → s.used q = false
      (¬ allowed → AnswersOnly (.release p f) s p ⟨.notPermitted, 0⟩) ∧
      (allowed → ∃ t, exec (.release p f) s = .next t ∧
        (t.lnk[p].slot.value.toNat = (taken * 256 + refused) % 65536) ∧
        (taken = 0 → refused = 0 → t.lnk[p].slot.code = .notHeld) ∧
        (0 < taken → refused = 0 → t.lnk[p].slot.code = .releasedAll) ∧
        (0 < taken → 0 < refused → t.lnk[p].slot.code = .releasedSome) ∧
        (taken = 0 → 0 < refused → t.lnk[p].slot.code =
          match s.trm.records.find? examined with
          | some r => if r.stage = .firing then .refusedFiring else .refusedLit
          | none => .notHeld) ∧
        t.trm.records = s.trm.records.map (fun r =>
          if takes r then
            { r with
              released := r.released ||| single b
              stage := if closes r then .closed else r.stage
              closedAt := if closes r then some s.alr.time else r.closedAt }
          else r) ∧
        ((s.trm.records.any closes) = true → ∀ q, s.used q = true → t.alerted q .recordClosed = true) ∧
        t.zev = { s.zev with
          notices := s.zev.notices ++
            (s.trm.records.filter fun r => closes r && decide (r.kind = .arc)).filterMap (·.origin) } ∧
        s.AsksForWord t True ∧ TookFrame s.lnk t.lnk p s.lnk[p] t.lnk[p].slot)

/-- R148, R152: a RECORD selects the record of its seq for the port's window; a SEEN adds the port to that record's
seen-by set. That the half latch (R154) is cleared with NO_RECORD and kept with ACCEPTED (log 22), and that the selection
is held as the seq of its record (log 29), is the model's choice. That seqs are distinct (R105) is kept by every step
(`StepKeepsRecords`). -/
def Obligations.RecordAndSeenNameARecord : Prop :=
  ∀ (s : State) (p : Port) (f : Fields), s.frameReady p = true →
    (255 < f.value.toNat →
      AnswersOnly (.record p f) s p ⟨.badValue, 0⟩ ∧ AnswersOnly (.seen p f) s p ⟨.badValue, 0⟩) ∧
    (f.value.toNat ≤ 255 → (∀ r ∈ s.trm.records, r.seq.toNat ≠ f.value.toNat) →
      (∃ l, exec (.record p f) s = .next { s with lnk := l } ∧
        TookFrame s.lnk l p { s.lnk[p] with selection := none, latch := none } ⟨.noRecord, 0⟩) ∧
      AnswersOnly (.seen p f) s p ⟨.noRecord, 0⟩) ∧
    ∀ r ∈ s.trm.records, r.seq.toNat = f.value.toNat → (s.trm.records.map (·.seq)).Nodup →
      (∃ l, exec (.record p f) s = .next { s with lnk := l } ∧
        TookFrame s.lnk l p { s.lnk[p] with selection := some r.seq }
          ⟨.accepted, BitVec.ofNat 16 r.entries.length⟩) ∧
      ∃ l, exec (.seen p f) s = .next { s with
          lnk := l
          trm.records := s.trm.records.map fun x =>
            if x = r then { x with seenBy := x.seenBy ||| single p } else x } ∧
        TookFrame s.lnk l p s.lnk[p]
          ⟨.accepted, match r.stage with | .firing => 0 | .locked => 1 | .closed => 2⟩

/-! ### Alerts -/

/-- R200, R201: CLEAR ALERTS clears the named bits of the port's own set and answers with those it cleared; SET MASK
writes the port's mask and enable. -/
def Obligations.AlertsAreClearedAndMasked : Prop :=
  ∀ (s : State) (p : Port) (f : Fields), s.frameReady p = true →
    (∃ l, exec (.clearAlerts p f) s = .next { s with
        lnk := l
        alr.ports := modAt s.alr.ports p fun r => { r with bits := r.bits &&& ~~~f.value } } ∧
      TookFrame s.lnk l p s.lnk[p] ⟨.accepted, s.alr.ports[p].bits &&& f.value⟩) ∧
    ∃ (l : Vector PortRec 4) (m : BitVec 15), exec (.setMask p f) s = .next { s with
        lnk := l
        alr.ports := modAt s.alr.ports p fun r => { r with mask := m, enable := f.value.getLsbD 0 } } ∧
      (∀ i : Fin 15, m.getLsbD i.val = f.value.getLsbD (i.val + 1)) ∧
      TookFrame s.lnk l p s.lnk[p] ⟨.accepted, f.value⟩

/-! ### CONTROL -/

/-- R15 (with R4, R8, R10): RELEARN, by the lines of its table. An accepted one leaves the ports as an accepted frame
does (R187, R189, R190); only where a change of the channel's voting status makes its zone open a record in a full list
can record windows be lost with the record that makes room (R107, R150). -/
def Obligations.RelearnDecides : Prop :=
  ∀ (s : State) (p : Port) (page : BitVec 4) (v : Word), s.liveReady p = true →
    (15 < v.toNat → AnswersOnly (.relearn p page v) s p ⟨.badValue, 0⟩) ∧
    ∀ n : Chan, v.toNat = n.val →
      let q := s.cfg.active.chans[n]
      let c := s.lcu[n]
      (q.target = .off → AnswersOnly (.relearn p page v) s p ⟨.refusedState, 0⟩) ∧
      (q.target ≠ .off → q.mode = .fixed → AnswersOnly (.relearn p page v) s p ⟨.notLearned, 0⟩) ∧
      (q.target ≠ .off → q.mode = .learned → ∃ t, exec (.relearn p page v) s = .next t ∧
        TookFrame (modAll s.lnk PortRec.noWindow) (modAll t.lnk PortRec.noWindow) p s.lnk[p].noWindow ⟨.accepted, 0⟩ ∧
        (s.trm.records.length < 12 ∨ t.statusOf n = s.statusOf n → TookFrame s.lnk t.lnk p s.lnk[p] ⟨.accepted, 0⟩) ∧
        t.lcu[n].valid = false ∧ t.lcu[n].pickupLevel.toNat = q.floor.val ∧
        t.lcu[n].dropLevel.toNat = q.floor.val * q.dropRatio.val / 100 ∧ t.lcu[n].pickup = c.pickup ∧
        t.lcu[n].flash = c.flash ∧ t.lcu[n].held = c.held ∧
        (c.held = true → c.state = .held → t.lcu[n].state = .held) ∧
        (c.held = false → t.lcu[n].state = .learn ∧ t.lcu[n].restarts = 0 ∧ t.lcu[n].candidate = 0 ∧
          t.lcu[n].disturbance = false ∧
          t.lcu[n].window =
            if c.pickup then .stopped else .running (s.cfg.active.board.tLearn.val * 1000)) ∧
        ∀ m : Chan, m ≠ n → t.lcu[m] = s.lcu[m])

/-- R30, R31: a TEST and a CAPTURE, by the lines of their tables. -/
def Obligations.TestAndCaptureAreQueued : Prop :=
  ∀ (s : State) (p : Port) (page : BitVec 4) (v : Word), s.liveReady p = true →
    (15 < v.toNat → AnswersOnly (.test p page v) s p ⟨.badValue, 0⟩) ∧
    (∀ n : Chan, v.toNat = n.val →
      let q := s.cfg.active.chans[n]
      let queue := s.fsu.queue
      (q.target = .off ∨ q.aRef = 0 → AnswersOnly (.test p page v) s p ⟨.refusedState, 0⟩) ∧
      (q.target ≠ .off → q.aRef ≠ 0 →
        (∀ i r, (queue.map (·.chan)).Nodup → queue[i]? = some r → r.chan = n →
          AnswersOnly (.test p page v) s p ⟨.accepted, BitVec.ofNat 16 i⟩) ∧
        (n ∉ queue.map (·.chan) → 4 ≤ queue.length → AnswersOnly (.test p page v) s p ⟨.busy, 0⟩) ∧
        (n ∉ queue.map (·.chan) → queue.length < 4 →
          ∃ l, exec (.test p page v) s = .next { s with fsu.queue := queue ++ [⟨n, .test⟩], lnk := l } ∧
            TookFrame s.lnk l p s.lnk[p] ⟨.accepted, BitVec.ofNat 16 queue.length⟩))) ∧
    (15 < v.toNat → AnswersOnly (.capture p page v) s p ⟨.badValue, 0⟩) ∧
    ∀ n : Chan, v.toNat = n.val →
      let queue := s.fsu.queue
      let noted := modAt s.fsu.clarity n fun k => { k with capture := .queued, captured := none }
      (s.cfg.claim ≠ some p → AnswersOnly (.capture p page v) s p ⟨.noClaim, 0⟩) ∧
      (s.cfg.claim = some p → s.cfg.pendingCommit = true → AnswersOnly (.capture p page v) s p ⟨.pending, 0⟩) ∧
      (s.cfg.claim = some p → s.cfg.pendingCommit = false →
        (s.cfg.active.chans[n].target = .off → AnswersOnly (.capture p page v) s p ⟨.refusedState, 0⟩) ∧
        (s.cfg.active.chans[n].target ≠ .off → s.fsu.clarity[n].capture = .testing →
          AnswersOnly (.capture p page v) s p ⟨.busy, 0⟩) ∧
        (s.cfg.active.chans[n].target ≠ .off → s.fsu.clarity[n].capture ≠ .testing →
          (∀ i, (queue.map (·.chan)).Nodup → queue[i]? = some ⟨n, .capture⟩ →
            AnswersOnly (.capture p page v) s p ⟨.accepted, BitVec.ofNat 16 i⟩) ∧
          (∀ i, (queue.map (·.chan)).Nodup → queue[i]? = some ⟨n, .test⟩ →
            ∃ l, exec (.capture p page v) s = .next { s with
                fsu.queue := queue.set i ⟨n, .capture⟩, fsu.clarity := noted, lnk := l } ∧
              TookFrame s.lnk l p s.lnk[p] ⟨.accepted, BitVec.ofNat 16 i⟩) ∧
          (n ∉ queue.map (·.chan) → 4 ≤ queue.length → AnswersOnly (.capture p page v) s p ⟨.busy, 0⟩) ∧
          (n ∉ queue.map (·.chan) → queue.length < 4 →
            ∃ l, exec (.capture p page v) s = .next { s with
                fsu.queue := queue ++ [⟨n, .capture⟩], fsu.clarity := noted, lnk := l } ∧
              TookFrame s.lnk l p s.lnk[p] ⟨.accepted, BitVec.ofNat 16 queue.length⟩)))

/-- R157, R158, R165: DRILL START and DRILL END, by the lines of their tables; and R164 at the expiry of the drill
window, which ends the drill with EXPIRY. That the start time is kept at the end of a drill is the model's choice (log
29). That an expiry acts at any remaining time of its running timer is the model's choice (log 2). -/
def Obligations.DrillStartsAndEnds : Prop :=
  (∀ (s : State) (z : Zone), s.zev.drill.active = true → s.zev.drill.window.isRunning = true →
    s.zev.drill.zone = some z →
    ∃ al : Vector AlertRec 4,
      exec .drillWindowExpiry s = .next { s with
        alr.ports := al
        zev.zones := modAt s.zev.zones z fun r => { r with drill := false }
        zev.drill := { s.zev.drill with
          active := false, zone := none, owner := none, window := .stopped, shown := 0, lastZone := some z
          lastOwner := s.zev.drill.owner, lastReason := .expiry, lastShown := s.zev.drill.shown } } ∧
      AlertsRaised s.alr.ports al .drill s.used) ∧
  ∀ (s : State) (p : Port) (page : BitVec 4) (v : Word), s.liveReady p = true →
    let d := s.zev.drill
    (7 < v.toNat → AnswersOnly (.drillStart p page v) s p ⟨.badValue, 0⟩) ∧
    (∀ z : Zone, v.toNat = z.val →
      (d.active = true → AnswersOnly (.drillStart p page v) s p ⟨.busy, 0⟩) ∧
      (d.active = false → s.cfg.active.zones[z].enabled = false ∨ s.zev.zones[z].state ≠ .quiet →
        AnswersOnly (.drillStart p page v) s p ⟨.refusedState, 0⟩) ∧
      (d.active = false → s.cfg.active.zones[z].enabled = true → s.zev.zones[z].state = .quiet →
        ∃ (l : Vector PortRec 4) (al : Vector AlertRec 4),
          exec (.drillStart p page v) s = .next { s with
            lnk := l
            alr.ports := al
            zev.zones := modAt s.zev.zones z fun r => { r with drill := true }
            zev.drill := { d with
              active := true, zone := some z, owner := some p, startTime := s.alr.time, shown := 0
              window := .running (s.cfg.active.board.tDrill.val * 1000) } } ∧
          AlertsRaised s.alr.ports al .drill s.used ∧
          TookFrame s.lnk l p s.lnk[p] ⟨.accepted, BitVec.ofNat 16 s.cfg.active.board.tDrill.val⟩)) ∧
    (d.active = false → AnswersOnly (.drillEnd p page v) s p ⟨.refusedState, 0⟩) ∧
    (d.active = true → d.owner ≠ some p → AnswersOnly (.drillEnd p page v) s p ⟨.notPermitted, 0⟩) ∧
    ∀ z : Zone, d.active = true → d.owner = some p → d.zone = some z →
      ∃ (l : Vector PortRec 4) (al : Vector AlertRec 4),
        exec (.drillEnd p page v) s = .next { s with
          lnk := l
          alr.ports := al
          zev.zones := modAt s.zev.zones z fun r => { r with drill := false }
          zev.drill := { d with
            active := false, zone := none, owner := none, window := .stopped, shown := 0, lastZone := some z
            lastOwner := some p, lastReason := .ownerEnd, lastShown := d.shown } } ∧
        AlertsRaised s.alr.ports al .drill s.used ∧
        TookFrame s.lnk l p s.lnk[p] ⟨.accepted, d.shown.setWidth 16⟩

/-- R180 to R182: SAVE is begun by an idle engine, waits behind a write, or is BUSY; that the copy loses its check when
the write begins is the model's choice (log 17). R202, R175: CLEAR COUNTERS clears its four groups of counters; DEFAULT
STAGED sets the staged image, and from a port without the claim while a commit is pending it answers NO_CLAIM first,
which is the model's choice (log 33). -/
def Obligations.SaveCountersAndDefault : Prop :=
  ∀ (s : State) (p : Port) (page : BitVec 4) (v : Word), s.liveReady p = true →
    (s.cfg.saveStatus = .writing → AnswersOnly (.save p page v) s p ⟨.busy, 0⟩) ∧
    (s.cfg.saveStatus ≠ .writing → s.cfg.engine ≠ .idle →
      ∃ l, exec (.save p page v) s = .next { s with
          cfg.saveStatus := .writing, cfg.saveWaiting := true, lnk := l } ∧
        TookFrame s.lnk l p s.lnk[p] ⟨.accepted, 0⟩) ∧
    (s.cfg.saveStatus ≠ .writing → s.cfg.engine = .idle → s.trm.lock.waiting = none →
      ∃ l, exec (.save p page v) s = .next { s.saveBegun with cfg.saveStatus := .writing, lnk := l } ∧
        TookFrame s.lnk l p s.lnk[p] ⟨.accepted, 0⟩) ∧
    (∃ (lc : Vector Channel 16) (ks : Vector ClarityRec 16) (zs : Vector ZoneRec 8) (l : Vector PortRec 4),
      exec (.clearCounters p page v) s = .next { s with
        lcu := lc, fsu.clarity := ks, zev.zones := zs, lnk := l } ∧
      (∀ n : Chan, lc[n] = { s.lcu[n] with hist := lc[n].hist } ∧ (∀ i : Fin 6, lc[n].hist[i] = 0) ∧
        ks[n] = { s.fsu.clarity[n] with deferCount := 0 }) ∧
      (∀ z : Zone, zs[z] = { s.zev.zones[z] with nuisance := 0 }) ∧
      (∀ o : Port, o ≠ p → l[o] = { s.lnk[o] with rejects := 0 }) ∧
      l[p].slot = ⟨.accepted, 0⟩ ∧ l[p].frameErr = false ∧
      SamePort { s.lnk[p] with rejects := 0 } l[p]) ∧
    (s.cfg.claim ≠ some p → AnswersOnly (.defaultStaged p page v) s p ⟨.noClaim, 0⟩) ∧
    (s.cfg.claim = some p → s.cfg.pendingCommit = true →
      AnswersOnly (.defaultStaged p page v) s p ⟨.pending, 0⟩) ∧
    (s.cfg.claim = some p → s.cfg.pendingCommit = false →
      ∃ l, exec (.defaultStaged p page v) s = .next { s with cfg.staged := Image.default, lnk := l } ∧
        TookFrame s.lnk l p s.lnk[p] ⟨.accepted, 0⟩)

/-! ### Port timers -/

/-- R195, R196: a SILENT port whose silent timer expires, and a LIVE port whose heartbeat expires, become STALE, and
PEER_STALE is raised on the other used ports. A port leaving LIVE loses its report: its couplers are resolved again with
their entry times, TOPOLOGY is raised where one comes into DISPUTED or the islands change, one that comes into OPEN is
open evidence, with its notice to the CFG (R128, R178, log 5), and zones in WAITING that are then confirmed decide (R54,
R57, R60, R62, R84, R114). It loses its claim, with the captures under way (R32) and the staged edits unless they are
frozen by a pending commit (R172, R173); and its drill, with end reason OWNER_LOST, unless the drilled zone decides in
the same event and is taken first (R164, log 14). The order of the zones is a free value (log 12), and the start time of
a drill that ends is kept (log 29). That an expiry acts at any remaining time of its running timer is the model's choice
(log 2). -/
def Obligations.PortTimersExpire : Prop :=
  ∀ (s : State) (p : Port),
    (s.lnk[p].state = .silent → s.lnk[p].silentTimer.isRunning = true →
      ∃ al : Vector AlertRec 4, exec (.silentTimerExpiry p) s = .next { s with
          alr.ports := al
          lnk := modAt s.lnk p fun q => { q with
            state := .stale, silentTimer := .stopped, heartbeat := .stopped, selection := none, latch := none } } ∧
        AlertsRaised s.alr.ports al .peerStale (fun q => s.used q && decide (q ≠ p))) ∧
    (s.lnk[p].state = .live → s.lnk[p].heartbeat.isRunning = true →
      ∃ t, exec (.heartbeatExpiry p) s = .next t ∧
        t.lnk[p] = { s.lnk[p] with
          state := .stale, silentTimer := .stopped, heartbeat := .stopped, selection := none, latch := none } ∧
        t.top.reports[p] = ⟨.none, .none, .none⟩ ∧
        (∀ q : Port, q ≠ p → t.top.reports[q] = s.top.reports[q] ∧ t.lnk[q] = { s.lnk[q] with
          selection := t.lnk[q].selection, latch := t.lnk[q].latch }) ∧
        (∀ j : Coupler, t.top.couplers[j] =
          if adjacent p j = true ∧ t.resolvedNow j ≠ s.top.couplers[j].resolved then ⟨t.resolvedNow j, s.alr.time⟩
          else s.top.couplers[j]) ∧
        ((∃ j : Coupler, t.top.couplers[j].resolved = .disputed ∧ s.top.couplers[j].resolved ≠ .disputed) ∨
            t.top.islandName ≠ s.top.islandName → ∀ q, s.used q = true → t.alerted q .topology = true) ∧
        (s.cfg.claim = some p → t.cfg.claim = none ∧ t.fsu = s.fsu.claimLost ∧
          t.cfg.staged = if s.cfg.pendingCommit then s.cfg.staged else s.cfg.active) ∧
        (s.cfg.claim ≠ some p → t.cfg.claim = s.cfg.claim ∧ t.fsu = s.fsu ∧ t.cfg.staged = s.cfg.staged) ∧
        (∀ q, s.used q = true → q ≠ p → t.alerted q .peerStale = true) ∧
        let u : State := { s with top := t.top }
        let owned := s.zev.drill.active = true ∧ s.zev.drill.owner = some p
        ∃ zs : List Zone, zs.Nodup ∧
          (∀ z, z ∈ zs ↔ s.zev.zones[z].state = .waiting ∧ u.currentConfirms z = true ∧
            ∃ j : Coupler, t.top.couplers[j].resolved ≠ s.top.couplers[j].resolved) ∧
          u.Decided t zs ∧ (ViewsInv s → DueInv s → openedTargets s t ≠ [] → s.DueAfter t) ∧
          (zs = [] ∨ s.trm.records.length + zs.length ≤ 12 → ∀ q : Port, q ≠ p → t.lnk[q] = s.lnk[q]) ∧
          (zs = [] ∨ s.RoomFor zs → u.ArcsOpened zs s.trm.seqCounter
            (withEvidence s.trm.records (openedTargets s t) s.alr.time) t.trm.seqCounter t.trm.records) ∧
          (¬ owned → u.DrillDecided t zs) ∧
          (owned → (t.zev.drill = s.zev.drill.ended .ownerLost ∨
              (t.zev.drill = s.zev.drill.ended .decision ∧ ∃ z ∈ zs, s.zev.zones[z].drill = true)) ∧
            (∀ q, s.used q = true → t.alerted q .drill = true) ∧
            ∀ z : Zone, t.zev.zones[z].drill = (s.zev.zones[z].drill && decide (s.zev.drill.zone ≠ some z))))

/-! ### What the events leave alone -/

/-- The frames: what the events of zones, records, channels, supervision and ports leave as it was, beyond what the
statements above say of each; the due transfer follows the views by `StepKeepsIslandsAndViews` (R178, log 5). R133,
R155, with no zone waiting and none lit whose filter time is 0: a transfer, made by TRANSFER or in the event of a
COMMIT, leaves every record but for the open evidence of a coupler that comes into OPEN (log 31), and every lockout as
it was. -/
def Obligations.EventsLeaveTheRest : Prop :=
  ∀ (s t : State),
    (∀ (z : Zone) (seq : Byte) (tg : Target) (k : Incomer), ∀ c ∈
      [Instr.filterExpiry z, .confirmWindowExpiry z, .restrikeFilterExpiry z, .closeNotice z, .drillWindowExpiry,
       .minPulseExpiry seq tg, .breakerFailExpiry seq tg, .coilExpiry seq tg, .pulseExpiry seq k],
      exec c s = .next t → TripFrame s t) ∧
    (∀ (k : Incomer) (active : Bool), exec (.cpLineChange k active) s = .next t → TripFrame { s with cp := t.cp } t) ∧
    (∀ (n : Chan) (v : LU), ∀ c ∈
      [Instr.lightSample n v, .learningWindowExpiry n, .stormWindowExpiry n, .slotTimerExpiry, .testWindowExpiry],
      exec c s = .next t → LightFrame s t) ∧
    (∀ (p : Port) (page : BitVec 4) (v : Word), exec (.relearn p page v) s = .next t →
      LightFrame { s with lnk := t.lnk } t) ∧
    (∀ (p : Port) (f : Fields),
      (exec (.release p f) s = .next t → TripFrame { s with lnk := t.lnk } t) ∧
      (exec (.report p f) s = .next t → TripFrame { s with lnk := t.lnk, top := t.top } t) ∧
      (exec (.heartbeatExpiry p) s = .next t → TripFrame { s with
        lnk := t.lnk, top := t.top, fsu := t.fsu, cfg.claim := t.cfg.claim, cfg.staged := t.cfg.staged } t)) ∧
    (∀ (p : Port) (f : Fields) (page : BitVec 4) (v : Word), ∀ c ∈
      [Instr.relearn p page v, .report p f, .heartbeatExpiry p], exec c s = .next t → ∀ q : Port, q ≠ p →
        t.lnk[q] = { s.lnk[q] with selection := t.lnk[q].selection, latch := t.lnk[q].latch }) ∧
    (∀ (p : Port) (f : Fields), exec (.release p f) s = .next t →
      (∀ q : Port, q ≠ p → t.lnk[q] = s.lnk[q]) ∧ SamePort s.lnk[p] t.lnk[p]) ∧
    ∀ (p : Port) (f : Fields), ∀ c ∈ [Instr.transfer, .commit p f], exec c s = .next t →
      t.alr.time = s.alr.time ∧ AlertFrame s t ∧ t.cp = s.cp ∧ t.nv = s.nv ∧ t.pending = s.pending ∧
        (s.noneWaiting → (∀ z : Zone, t.cfg.active.zones[z].tzf.val = 0 → t.zev.zones[z].lit = false) →
          t.trm = { s.trm with records := withEvidence s.trm.records (openedTargets s t) s.alr.time })

/-! ### What every step keeps -/

/-- The division into islands (R60) and the three views of the CFG (R178) stay in line with what they speak of. A
pending commit has its transfer due whenever the three views are quiet; that the transfer is then due and not made at
once, and that a test with no sample taken yet may stand beside a due transfer, is the model's reading (log 5). -/
def Obligations.StepKeepsIslandsAndViews : Prop :=
  ∀ s t : State, step s = .next t →
    (IslandsInv s → IslandsInv t) ∧ (ViewsInv s → ViewsInv t) ∧ (DueInv s → DueInv t)

/-- Every record stays as chapters 5 to 7 leave it (R102, R127, R135, R161), and the list of records so kept as R90,
R101, R105 and R109 leave it: at most twelve records of distinct seqs, at most one open ARC record for each origin zone,
which is TRIPPED, and distinct targets within a record. That a close notice is on its way in the list `notices` until it
is taken is the model's own (log 26). -/
def Obligations.StepKeepsRecords : Prop :=
  ∀ s t : State, step s = .next t → RecordsInv s → RecordsInv t ∧ (ListInv s → ListInv t)

/-- Only a LIVE port holds a report record, the edit claim or a drill, and the ports of absent incomers are UNUSED (R51,
R52, R165, R171); a zone is under drill exactly while it is the zone of the drill in progress (R158, R164). -/
def Obligations.StepKeepsLinks : Prop :=
  ∀ s t : State, step s = .next t → (LinksInv s → LinksInv t) ∧ (DrillInv s → DrillInv t)

/-- A channel is masked exactly while its test is in flight, and the request queue holds at most four requests, no two
for one channel (R16, R28, R29). -/
def Obligations.StepKeepsTheOneTest : Prop :=
  ∀ s t : State, step s = .next t → TestInv s → TestInv t

/-- The write engine stays in order, and the last set asked for is the set of close-inhibit lines that are on (R132,
R142, R181). -/
def Obligations.StepKeepsTheWriteEngine : Prop :=
  ∀ s t : State, step s = .next t → WriteInv s → WriteInv t

/-- What the steps keep holds right after reset. `State.reset` rests on the values of logs 8, 9 and 10; that no transfer
is due (log 5) and no close notice on its way (log 26) is in the model's own terms. -/
def Obligations.InvariantsHoldAtReset : Prop :=
  IslandsInv State.reset ∧ ViewsInv State.reset ∧ DueInv State.reset ∧ RecordsInv State.reset ∧ ListInv State.reset ∧
    LinksInv State.reset ∧ DrillInv State.reset ∧ TestInv State.reset ∧ WriteInv State.reset
end

