-- ==== Sys2Proof/Laws/State.lean ====
section
/-! SUPPORT. What each plain update of the state leaves as it was: one lemma per field and update, all true by
unfolding, so that no later proof unfolds a record update. -/

namespace Sys2Proof.Machine

variable (s : State)

section modChan
variable (n : Chan) (f : Channel → Channel)
@[simp] theorem modChan_alr : (s.modChan n f).alr = s.alr := rfl
@[simp] theorem modChan_cp : (s.modChan n f).cp = s.cp := rfl
@[simp] theorem modChan_fsu : (s.modChan n f).fsu = s.fsu := rfl
@[simp] theorem modChan_top : (s.modChan n f).top = s.top := rfl
@[simp] theorem modChan_zev : (s.modChan n f).zev = s.zev := rfl
@[simp] theorem modChan_trm : (s.modChan n f).trm = s.trm := rfl
@[simp] theorem modChan_cfg : (s.modChan n f).cfg = s.cfg := rfl
@[simp] theorem modChan_nv : (s.modChan n f).nv = s.nv := rfl
@[simp] theorem modChan_lnk : (s.modChan n f).lnk = s.lnk := rfl
@[simp] theorem modChan_freeTick : (s.modChan n f).freeTick = s.freeTick := rfl
@[simp] theorem modChan_pending : (s.modChan n f).pending = s.pending := rfl
end modChan

section modClarity
variable (n : Chan) (f : ClarityRec → ClarityRec)
@[simp] theorem modClarity_alr : (s.modClarity n f).alr = s.alr := rfl
@[simp] theorem modClarity_cp : (s.modClarity n f).cp = s.cp := rfl
@[simp] theorem modClarity_lcu : (s.modClarity n f).lcu = s.lcu := rfl
@[simp] theorem modClarity_top : (s.modClarity n f).top = s.top := rfl
@[simp] theorem modClarity_zev : (s.modClarity n f).zev = s.zev := rfl
@[simp] theorem modClarity_trm : (s.modClarity n f).trm = s.trm := rfl
@[simp] theorem modClarity_cfg : (s.modClarity n f).cfg = s.cfg := rfl
@[simp] theorem modClarity_nv : (s.modClarity n f).nv = s.nv := rfl
@[simp] theorem modClarity_lnk : (s.modClarity n f).lnk = s.lnk := rfl
@[simp] theorem modClarity_freeTick : (s.modClarity n f).freeTick = s.freeTick := rfl
@[simp] theorem modClarity_pending : (s.modClarity n f).pending = s.pending := rfl
end modClarity

section modZone
variable (z : Zone) (f : ZoneRec → ZoneRec)
@[simp] theorem modZone_alr : (s.modZone z f).alr = s.alr := rfl
@[simp] theorem modZone_cp : (s.modZone z f).cp = s.cp := rfl
@[simp] theorem modZone_lcu : (s.modZone z f).lcu = s.lcu := rfl
@[simp] theorem modZone_fsu : (s.modZone z f).fsu = s.fsu := rfl
@[simp] theorem modZone_top : (s.modZone z f).top = s.top := rfl
@[simp] theorem modZone_trm : (s.modZone z f).trm = s.trm := rfl
@[simp] theorem modZone_cfg : (s.modZone z f).cfg = s.cfg := rfl
@[simp] theorem modZone_nv : (s.modZone z f).nv = s.nv := rfl
@[simp] theorem modZone_lnk : (s.modZone z f).lnk = s.lnk := rfl
@[simp] theorem modZone_freeTick : (s.modZone z f).freeTick = s.freeTick := rfl
@[simp] theorem modZone_pending : (s.modZone z f).pending = s.pending := rfl
end modZone

section modPort
variable (p : Port) (f : PortRec → PortRec)
@[simp] theorem modPort_alr : (s.modPort p f).alr = s.alr := rfl
@[simp] theorem modPort_cp : (s.modPort p f).cp = s.cp := rfl
@[simp] theorem modPort_lcu : (s.modPort p f).lcu = s.lcu := rfl
@[simp] theorem modPort_fsu : (s.modPort p f).fsu = s.fsu := rfl
@[simp] theorem modPort_top : (s.modPort p f).top = s.top := rfl
@[simp] theorem modPort_zev : (s.modPort p f).zev = s.zev := rfl
@[simp] theorem modPort_trm : (s.modPort p f).trm = s.trm := rfl
@[simp] theorem modPort_cfg : (s.modPort p f).cfg = s.cfg := rfl
@[simp] theorem modPort_nv : (s.modPort p f).nv = s.nv := rfl
@[simp] theorem modPort_freeTick : (s.modPort p f).freeTick = s.freeTick := rfl
@[simp] theorem modPort_pending : (s.modPort p f).pending = s.pending := rfl
end modPort

section modRecord
variable (seq : Byte) (f : TripRec → TripRec)
@[simp] theorem modRecord_alr : (s.modRecord seq f).alr = s.alr := rfl
@[simp] theorem modRecord_cp : (s.modRecord seq f).cp = s.cp := rfl
@[simp] theorem modRecord_lcu : (s.modRecord seq f).lcu = s.lcu := rfl
@[simp] theorem modRecord_fsu : (s.modRecord seq f).fsu = s.fsu := rfl
@[simp] theorem modRecord_top : (s.modRecord seq f).top = s.top := rfl
@[simp] theorem modRecord_zev : (s.modRecord seq f).zev = s.zev := rfl
@[simp] theorem modRecord_cfg : (s.modRecord seq f).cfg = s.cfg := rfl
@[simp] theorem modRecord_nv : (s.modRecord seq f).nv = s.nv := rfl
@[simp] theorem modRecord_lnk : (s.modRecord seq f).lnk = s.lnk := rfl
@[simp] theorem modRecord_freeTick : (s.modRecord seq f).freeTick = s.freeTick := rfl
@[simp] theorem modRecord_pending : (s.modRecord seq f).pending = s.pending := rfl
end modRecord

section modAlerts
variable (p : Port) (g : AlertRec → AlertRec)
@[simp] theorem modAlerts_cp : (s.modAlerts p g).cp = s.cp := rfl
@[simp] theorem modAlerts_lcu : (s.modAlerts p g).lcu = s.lcu := rfl
@[simp] theorem modAlerts_fsu : (s.modAlerts p g).fsu = s.fsu := rfl
@[simp] theorem modAlerts_top : (s.modAlerts p g).top = s.top := rfl
@[simp] theorem modAlerts_zev : (s.modAlerts p g).zev = s.zev := rfl
@[simp] theorem modAlerts_trm : (s.modAlerts p g).trm = s.trm := rfl
@[simp] theorem modAlerts_cfg : (s.modAlerts p g).cfg = s.cfg := rfl
@[simp] theorem modAlerts_nv : (s.modAlerts p g).nv = s.nv := rfl
@[simp] theorem modAlerts_lnk : (s.modAlerts p g).lnk = s.lnk := rfl
@[simp] theorem modAlerts_freeTick : (s.modAlerts p g).freeTick = s.freeTick := rfl
@[simp] theorem modAlerts_pending : (s.modAlerts p g).pending = s.pending := rfl
end modAlerts

section raiseOn
variable (a : Alert) (on : Port → Bool)
@[simp] theorem raiseOn_cp : (s.raiseOn a on).cp = s.cp := rfl
@[simp] theorem raiseOn_lcu : (s.raiseOn a on).lcu = s.lcu := rfl
@[simp] theorem raiseOn_fsu : (s.raiseOn a on).fsu = s.fsu := rfl
@[simp] theorem raiseOn_top : (s.raiseOn a on).top = s.top := rfl
@[simp] theorem raiseOn_zev : (s.raiseOn a on).zev = s.zev := rfl
@[simp] theorem raiseOn_trm : (s.raiseOn a on).trm = s.trm := rfl
@[simp] theorem raiseOn_cfg : (s.raiseOn a on).cfg = s.cfg := rfl
@[simp] theorem raiseOn_nv : (s.raiseOn a on).nv = s.nv := rfl
@[simp] theorem raiseOn_lnk : (s.raiseOn a on).lnk = s.lnk := rfl
@[simp] theorem raiseOn_freeTick : (s.raiseOn a on).freeTick = s.freeTick := rfl
@[simp] theorem raiseOn_pending : (s.raiseOn a on).pending = s.pending := rfl
end raiseOn

section raise
variable (a : Alert)
@[simp] theorem raise_cp : (s.raise a).cp = s.cp := rfl
@[simp] theorem raise_lcu : (s.raise a).lcu = s.lcu := rfl
@[simp] theorem raise_fsu : (s.raise a).fsu = s.fsu := rfl
@[simp] theorem raise_top : (s.raise a).top = s.top := rfl
@[simp] theorem raise_zev : (s.raise a).zev = s.zev := rfl
@[simp] theorem raise_trm : (s.raise a).trm = s.trm := rfl
@[simp] theorem raise_cfg : (s.raise a).cfg = s.cfg := rfl
@[simp] theorem raise_nv : (s.raise a).nv = s.nv := rfl
@[simp] theorem raise_lnk : (s.raise a).lnk = s.lnk := rfl
@[simp] theorem raise_freeTick : (s.raise a).freeTick = s.freeTick := rfl
@[simp] theorem raise_pending : (s.raise a).pending = s.pending := rfl
end raise

section raiseOthers
variable (a : Alert) (p : Port)
@[simp] theorem raiseOthers_cp : (s.raiseOthers a p).cp = s.cp := rfl
@[simp] theorem raiseOthers_lcu : (s.raiseOthers a p).lcu = s.lcu := rfl
@[simp] theorem raiseOthers_fsu : (s.raiseOthers a p).fsu = s.fsu := rfl
@[simp] theorem raiseOthers_top : (s.raiseOthers a p).top = s.top := rfl
@[simp] theorem raiseOthers_zev : (s.raiseOthers a p).zev = s.zev := rfl
@[simp] theorem raiseOthers_trm : (s.raiseOthers a p).trm = s.trm := rfl
@[simp] theorem raiseOthers_cfg : (s.raiseOthers a p).cfg = s.cfg := rfl
@[simp] theorem raiseOthers_nv : (s.raiseOthers a p).nv = s.nv := rfl
@[simp] theorem raiseOthers_lnk : (s.raiseOthers a p).lnk = s.lnk := rfl
@[simp] theorem raiseOthers_freeTick : (s.raiseOthers a p).freeTick = s.freeTick := rfl
@[simp] theorem raiseOthers_pending : (s.raiseOthers a p).pending = s.pending := rfl
end raiseOthers

section setSlot
variable (p : Port) (r : Reply)
@[simp] theorem setSlot_alr : (s.setSlot p r).alr = s.alr := rfl
@[simp] theorem setSlot_cp : (s.setSlot p r).cp = s.cp := rfl
@[simp] theorem setSlot_lcu : (s.setSlot p r).lcu = s.lcu := rfl
@[simp] theorem setSlot_fsu : (s.setSlot p r).fsu = s.fsu := rfl
@[simp] theorem setSlot_top : (s.setSlot p r).top = s.top := rfl
@[simp] theorem setSlot_zev : (s.setSlot p r).zev = s.zev := rfl
@[simp] theorem setSlot_trm : (s.setSlot p r).trm = s.trm := rfl
@[simp] theorem setSlot_cfg : (s.setSlot p r).cfg = s.cfg := rfl
@[simp] theorem setSlot_nv : (s.setSlot p r).nv = s.nv := rfl
@[simp] theorem setSlot_freeTick : (s.setSlot p r).freeTick = s.freeTick := rfl
@[simp] theorem setSlot_pending : (s.setSlot p r).pending = s.pending := rfl
end setSlot

section settleDue
@[simp] theorem settleDue_alr : (s.settleDue).alr = s.alr := rfl
@[simp] theorem settleDue_cp : (s.settleDue).cp = s.cp := rfl
@[simp] theorem settleDue_lcu : (s.settleDue).lcu = s.lcu := rfl
@[simp] theorem settleDue_fsu : (s.settleDue).fsu = s.fsu := rfl
@[simp] theorem settleDue_top : (s.settleDue).top = s.top := rfl
@[simp] theorem settleDue_zev : (s.settleDue).zev = s.zev := rfl
@[simp] theorem settleDue_trm : (s.settleDue).trm = s.trm := rfl
@[simp] theorem settleDue_nv : (s.settleDue).nv = s.nv := rfl
@[simp] theorem settleDue_lnk : (s.settleDue).lnk = s.lnk := rfl
@[simp] theorem settleDue_freeTick : (s.settleDue).freeTick = s.freeTick := rfl
@[simp] theorem settleDue_pending : (s.settleDue).pending = s.pending := rfl
end settleDue

section noticeZones
@[simp] theorem noticeZones_alr : (s.noticeZones).alr = s.alr := rfl
@[simp] theorem noticeZones_cp : (s.noticeZones).cp = s.cp := rfl
@[simp] theorem noticeZones_lcu : (s.noticeZones).lcu = s.lcu := rfl
@[simp] theorem noticeZones_fsu : (s.noticeZones).fsu = s.fsu := rfl
@[simp] theorem noticeZones_top : (s.noticeZones).top = s.top := rfl
@[simp] theorem noticeZones_zev : (s.noticeZones).zev = s.zev := rfl
@[simp] theorem noticeZones_trm : (s.noticeZones).trm = s.trm := rfl
@[simp] theorem noticeZones_nv : (s.noticeZones).nv = s.nv := rfl
@[simp] theorem noticeZones_lnk : (s.noticeZones).lnk = s.lnk := rfl
@[simp] theorem noticeZones_freeTick : (s.noticeZones).freeTick = s.freeTick := rfl
@[simp] theorem noticeZones_pending : (s.noticeZones).pending = s.pending := rfl
end noticeZones

section noticeRecords
@[simp] theorem noticeRecords_alr : (s.noticeRecords).alr = s.alr := rfl
@[simp] theorem noticeRecords_cp : (s.noticeRecords).cp = s.cp := rfl
@[simp] theorem noticeRecords_lcu : (s.noticeRecords).lcu = s.lcu := rfl
@[simp] theorem noticeRecords_fsu : (s.noticeRecords).fsu = s.fsu := rfl
@[simp] theorem noticeRecords_top : (s.noticeRecords).top = s.top := rfl
@[simp] theorem noticeRecords_zev : (s.noticeRecords).zev = s.zev := rfl
@[simp] theorem noticeRecords_trm : (s.noticeRecords).trm = s.trm := rfl
@[simp] theorem noticeRecords_nv : (s.noticeRecords).nv = s.nv := rfl
@[simp] theorem noticeRecords_lnk : (s.noticeRecords).lnk = s.lnk := rfl
@[simp] theorem noticeRecords_freeTick : (s.noticeRecords).freeTick = s.freeTick := rfl
@[simp] theorem noticeRecords_pending : (s.noticeRecords).pending = s.pending := rfl
end noticeRecords

section noticeTest
@[simp] theorem noticeTest_alr : (s.noticeTest).alr = s.alr := rfl
@[simp] theorem noticeTest_cp : (s.noticeTest).cp = s.cp := rfl
@[simp] theorem noticeTest_lcu : (s.noticeTest).lcu = s.lcu := rfl
@[simp] theorem noticeTest_fsu : (s.noticeTest).fsu = s.fsu := rfl
@[simp] theorem noticeTest_top : (s.noticeTest).top = s.top := rfl
@[simp] theorem noticeTest_zev : (s.noticeTest).zev = s.zev := rfl
@[simp] theorem noticeTest_trm : (s.noticeTest).trm = s.trm := rfl
@[simp] theorem noticeTest_nv : (s.noticeTest).nv = s.nv := rfl
@[simp] theorem noticeTest_lnk : (s.noticeTest).lnk = s.lnk := rfl
@[simp] theorem noticeTest_freeTick : (s.noticeTest).freeTick = s.freeTick := rfl
@[simp] theorem noticeTest_pending : (s.noticeTest).pending = s.pending := rfl
end noticeTest

section setReport
variable (p : Port) (r : ReportRec)
@[simp] theorem setReport_alr : (s.setReport p r).alr = s.alr := rfl
@[simp] theorem setReport_cp : (s.setReport p r).cp = s.cp := rfl
@[simp] theorem setReport_lcu : (s.setReport p r).lcu = s.lcu := rfl
@[simp] theorem setReport_fsu : (s.setReport p r).fsu = s.fsu := rfl
@[simp] theorem setReport_zev : (s.setReport p r).zev = s.zev := rfl
@[simp] theorem setReport_trm : (s.setReport p r).trm = s.trm := rfl
@[simp] theorem setReport_cfg : (s.setReport p r).cfg = s.cfg := rfl
@[simp] theorem setReport_nv : (s.setReport p r).nv = s.nv := rfl
@[simp] theorem setReport_lnk : (s.setReport p r).lnk = s.lnk := rfl
@[simp] theorem setReport_freeTick : (s.setReport p r).freeTick = s.freeTick := rfl
@[simp] theorem setReport_pending : (s.setReport p r).pending = s.pending := rfl
end setReport

section setCp
variable (k : Incomer) (active : Bool)
@[simp] theorem setCp_alr : (s.setCp k active).alr = s.alr := rfl
@[simp] theorem setCp_lcu : (s.setCp k active).lcu = s.lcu := rfl
@[simp] theorem setCp_fsu : (s.setCp k active).fsu = s.fsu := rfl
@[simp] theorem setCp_top : (s.setCp k active).top = s.top := rfl
@[simp] theorem setCp_zev : (s.setCp k active).zev = s.zev := rfl
@[simp] theorem setCp_trm : (s.setCp k active).trm = s.trm := rfl
@[simp] theorem setCp_cfg : (s.setCp k active).cfg = s.cfg := rfl
@[simp] theorem setCp_nv : (s.setCp k active).nv = s.nv := rfl
@[simp] theorem setCp_lnk : (s.setCp k active).lnk = s.lnk := rfl
@[simp] theorem setCp_freeTick : (s.setCp k active).freeTick = s.freeTick := rfl
@[simp] theorem setCp_pending : (s.setCp k active).pending = s.pending := rfl
end setCp

section dropSelections
variable (seq : Byte)
@[simp] theorem dropSelections_alr : (s.dropSelections seq).alr = s.alr := rfl
@[simp] theorem dropSelections_cp : (s.dropSelections seq).cp = s.cp := rfl
@[simp] theorem dropSelections_lcu : (s.dropSelections seq).lcu = s.lcu := rfl
@[simp] theorem dropSelections_fsu : (s.dropSelections seq).fsu = s.fsu := rfl
@[simp] theorem dropSelections_top : (s.dropSelections seq).top = s.top := rfl
@[simp] theorem dropSelections_zev : (s.dropSelections seq).zev = s.zev := rfl
@[simp] theorem dropSelections_trm : (s.dropSelections seq).trm = s.trm := rfl
@[simp] theorem dropSelections_cfg : (s.dropSelections seq).cfg = s.cfg := rfl
@[simp] theorem dropSelections_nv : (s.dropSelections seq).nv = s.nv := rfl
@[simp] theorem dropSelections_freeTick : (s.dropSelections seq).freeTick = s.freeTick := rfl
@[simp] theorem dropSelections_pending : (s.dropSelections seq).pending = s.pending := rfl
end dropSelections

section appendRecord
variable (r : TripRec)
@[simp] theorem appendRecord_alr : (s.appendRecord r).alr = s.alr := rfl
@[simp] theorem appendRecord_cp : (s.appendRecord r).cp = s.cp := rfl
@[simp] theorem appendRecord_lcu : (s.appendRecord r).lcu = s.lcu := rfl
@[simp] theorem appendRecord_fsu : (s.appendRecord r).fsu = s.fsu := rfl
@[simp] theorem appendRecord_top : (s.appendRecord r).top = s.top := rfl
@[simp] theorem appendRecord_zev : (s.appendRecord r).zev = s.zev := rfl
@[simp] theorem appendRecord_cfg : (s.appendRecord r).cfg = s.cfg := rfl
@[simp] theorem appendRecord_nv : (s.appendRecord r).nv = s.nv := rfl
@[simp] theorem appendRecord_lnk : (s.appendRecord r).lnk = s.lnk := rfl
@[simp] theorem appendRecord_freeTick : (s.appendRecord r).freeTick = s.freeTick := rfl
@[simp] theorem appendRecord_pending : (s.appendRecord r).pending = s.pending := rfl
end appendRecord

section atEntry
variable (seq : Byte) (t : Target) (p : Entry → Bool) (f : TripRec → TripRec)
@[simp] theorem atEntry_alr : (s.atEntry seq t p f).alr = s.alr := rfl
@[simp] theorem atEntry_cp : (s.atEntry seq t p f).cp = s.cp := rfl
@[simp] theorem atEntry_lcu : (s.atEntry seq t p f).lcu = s.lcu := rfl
@[simp] theorem atEntry_fsu : (s.atEntry seq t p f).fsu = s.fsu := rfl
@[simp] theorem atEntry_top : (s.atEntry seq t p f).top = s.top := rfl
@[simp] theorem atEntry_zev : (s.atEntry seq t p f).zev = s.zev := rfl
@[simp] theorem atEntry_cfg : (s.atEntry seq t p f).cfg = s.cfg := rfl
@[simp] theorem atEntry_nv : (s.atEntry seq t p f).nv = s.nv := rfl
@[simp] theorem atEntry_lnk : (s.atEntry seq t p f).lnk = s.lnk := rfl
@[simp] theorem atEntry_freeTick : (s.atEntry seq t p f).freeTick = s.freeTick := rfl
@[simp] theorem atEntry_pending : (s.atEntry seq t p f).pending = s.pending := rfl
end atEntry

section beginWord
@[simp] theorem beginWord_alr : (s.beginWord).alr = s.alr := rfl
@[simp] theorem beginWord_cp : (s.beginWord).cp = s.cp := rfl
@[simp] theorem beginWord_lcu : (s.beginWord).lcu = s.lcu := rfl
@[simp] theorem beginWord_fsu : (s.beginWord).fsu = s.fsu := rfl
@[simp] theorem beginWord_top : (s.beginWord).top = s.top := rfl
@[simp] theorem beginWord_zev : (s.beginWord).zev = s.zev := rfl
@[simp] theorem beginWord_nv : (s.beginWord).nv = s.nv := rfl
@[simp] theorem beginWord_lnk : (s.beginWord).lnk = s.lnk := rfl
@[simp] theorem beginWord_freeTick : (s.beginWord).freeTick = s.freeTick := rfl
@[simp] theorem beginWord_pending : (s.beginWord).pending = s.pending := rfl
end beginWord

section beginSave
@[simp] theorem beginSave_alr : (s.beginSave).alr = s.alr := rfl
@[simp] theorem beginSave_cp : (s.beginSave).cp = s.cp := rfl
@[simp] theorem beginSave_lcu : (s.beginSave).lcu = s.lcu := rfl
@[simp] theorem beginSave_fsu : (s.beginSave).fsu = s.fsu := rfl
@[simp] theorem beginSave_top : (s.beginSave).top = s.top := rfl
@[simp] theorem beginSave_zev : (s.beginSave).zev = s.zev := rfl
@[simp] theorem beginSave_trm : (s.beginSave).trm = s.trm := rfl
@[simp] theorem beginSave_lnk : (s.beginSave).lnk = s.lnk := rfl
@[simp] theorem beginSave_freeTick : (s.beginSave).freeTick = s.freeTick := rfl
@[simp] theorem beginSave_pending : (s.beginSave).pending = s.pending := rfl
end beginSave

section offerPeak
variable (n : Chan) (v : LU)
@[simp] theorem offerPeak_alr : (s.offerPeak n v).alr = s.alr := rfl
@[simp] theorem offerPeak_cp : (s.offerPeak n v).cp = s.cp := rfl
@[simp] theorem offerPeak_lcu : (s.offerPeak n v).lcu = s.lcu := rfl
@[simp] theorem offerPeak_fsu : (s.offerPeak n v).fsu = s.fsu := rfl
@[simp] theorem offerPeak_top : (s.offerPeak n v).top = s.top := rfl
@[simp] theorem offerPeak_zev : (s.offerPeak n v).zev = s.zev := rfl
@[simp] theorem offerPeak_cfg : (s.offerPeak n v).cfg = s.cfg := rfl
@[simp] theorem offerPeak_nv : (s.offerPeak n v).nv = s.nv := rfl
@[simp] theorem offerPeak_lnk : (s.offerPeak n v).lnk = s.lnk := rfl
@[simp] theorem offerPeak_freeTick : (s.offerPeak n v).freeTick = s.freeTick := rfl
@[simp] theorem offerPeak_pending : (s.offerPeak n v).pending = s.pending := rfl
end offerPeak

section stageARef
variable (n : Chan) (a : LU)
@[simp] theorem stageARef_alr : (s.stageARef n a).alr = s.alr := rfl
@[simp] theorem stageARef_cp : (s.stageARef n a).cp = s.cp := rfl
@[simp] theorem stageARef_lcu : (s.stageARef n a).lcu = s.lcu := rfl
@[simp] theorem stageARef_fsu : (s.stageARef n a).fsu = s.fsu := rfl
@[simp] theorem stageARef_top : (s.stageARef n a).top = s.top := rfl
@[simp] theorem stageARef_zev : (s.stageARef n a).zev = s.zev := rfl
@[simp] theorem stageARef_trm : (s.stageARef n a).trm = s.trm := rfl
@[simp] theorem stageARef_nv : (s.stageARef n a).nv = s.nv := rfl
@[simp] theorem stageARef_lnk : (s.stageARef n a).lnk = s.lnk := rfl
@[simp] theorem stageARef_freeTick : (s.stageARef n a).freeTick = s.freeTick := rfl
@[simp] theorem stageARef_pending : (s.stageARef n a).pending = s.pending := rfl
end stageARef

section beginFrame
variable (p : Port) (sckHigh : Bool)
@[simp] theorem beginFrame_alr : (s.beginFrame p sckHigh).alr = s.alr := rfl
@[simp] theorem beginFrame_cp : (s.beginFrame p sckHigh).cp = s.cp := rfl
@[simp] theorem beginFrame_lcu : (s.beginFrame p sckHigh).lcu = s.lcu := rfl
@[simp] theorem beginFrame_fsu : (s.beginFrame p sckHigh).fsu = s.fsu := rfl
@[simp] theorem beginFrame_top : (s.beginFrame p sckHigh).top = s.top := rfl
@[simp] theorem beginFrame_zev : (s.beginFrame p sckHigh).zev = s.zev := rfl
@[simp] theorem beginFrame_trm : (s.beginFrame p sckHigh).trm = s.trm := rfl
@[simp] theorem beginFrame_cfg : (s.beginFrame p sckHigh).cfg = s.cfg := rfl
@[simp] theorem beginFrame_nv : (s.beginFrame p sckHigh).nv = s.nv := rfl
@[simp] theorem beginFrame_freeTick : (s.beginFrame p sckHigh).freeTick = s.freeTick := rfl
@[simp] theorem beginFrame_pending : (s.beginFrame p sckHigh).pending = s.pending := rfl
end beginFrame

section zeroCounters
@[simp] theorem zeroCounters_alr : (s.zeroCounters).alr = s.alr := rfl
@[simp] theorem zeroCounters_cp : (s.zeroCounters).cp = s.cp := rfl
@[simp] theorem zeroCounters_top : (s.zeroCounters).top = s.top := rfl
@[simp] theorem zeroCounters_trm : (s.zeroCounters).trm = s.trm := rfl
@[simp] theorem zeroCounters_cfg : (s.zeroCounters).cfg = s.cfg := rfl
@[simp] theorem zeroCounters_nv : (s.zeroCounters).nv = s.nv := rfl
@[simp] theorem zeroCounters_freeTick : (s.zeroCounters).freeTick = s.freeTick := rfl
@[simp] theorem zeroCounters_pending : (s.zeroCounters).pending = s.pending := rfl
end zeroCounters

section noteCapture
variable (n : Chan)
@[simp] theorem noteCapture_alr : (s.noteCapture n).alr = s.alr := rfl
@[simp] theorem noteCapture_cp : (s.noteCapture n).cp = s.cp := rfl
@[simp] theorem noteCapture_lcu : (s.noteCapture n).lcu = s.lcu := rfl
@[simp] theorem noteCapture_top : (s.noteCapture n).top = s.top := rfl
@[simp] theorem noteCapture_zev : (s.noteCapture n).zev = s.zev := rfl
@[simp] theorem noteCapture_trm : (s.noteCapture n).trm = s.trm := rfl
@[simp] theorem noteCapture_cfg : (s.noteCapture n).cfg = s.cfg := rfl
@[simp] theorem noteCapture_nv : (s.noteCapture n).nv = s.nv := rfl
@[simp] theorem noteCapture_lnk : (s.noteCapture n).lnk = s.lnk := rfl
@[simp] theorem noteCapture_freeTick : (s.noteCapture n).freeTick = s.freeTick := rfl
@[simp] theorem noteCapture_pending : (s.noteCapture n).pending = s.pending := rfl
end noteCapture

end Sys2Proof.Machine
end

