-- ==== Sys2Proof/Laws/Basics.lean ====
section
/-! SUPPORT. Reading a changed vector, sets as bits, and the predicates over zones and records as statements about every
member. -/

namespace Sys2Proof.Machine

theorem modAt_get {α : Type} {n : Nat} (v : Vector α n) (i j : Fin n) (f : α → α) :
    (modAt v i f)[j] = if j = i then f v[i] else v[j] := by
  unfold modAt
  by_cases h : j = i
  · subst h; simp
  · have : i.val ≠ j.val := fun e => h (Fin.ext e.symm)
    simp [h, this]

theorem modAt_same {α : Type} {n : Nat} (v : Vector α n) (i : Fin n) (f : α → α) : (modAt v i f)[i] = f v[i] := by
  rw [modAt_get, if_pos rfl]

theorem modAt_other {α : Type} {n : Nat} (v : Vector α n) {i j : Fin n} (f : α → α) (h : j ≠ i) :
    (modAt v i f)[j] = v[j] := by
  rw [modAt_get, if_neg h]

theorem modAll_get {α β : Type} {n : Nat} (v : Vector α n) (j : Fin n) (f : α → β) : (modAll v f)[j] = f v[j] := by
  simp [modAll]

theorem ofFn_get {α : Type} {n : Nat} (f : Fin n → α) (j : Fin n) : (Vector.ofFn f)[j] = f j := by simp

theorem vec_ext {α : Type} {n : Nat} {v w : Vector α n} (h : ∀ i : Fin n, v[i] = w[i]) : v = w := by
  apply Vector.ext
  intro i hi
  exact h ⟨i, hi⟩

theorem mem_setOf {n : Nat} (f : Fin n → Bool) (i : Fin n) : mem (setOf f) i = f i := by
  simp [mem, setOf]

theorem mem_single {n : Nat} (i j : Fin n) : mem (single i) j = decide (j = i) := mem_setOf _ _

theorem mem_or {n : Nat} (a b : BitVec n) (i : Fin n) : mem (a ||| b) i = (mem a i || mem b i) := by simp [mem]

theorem mem_and {n : Nat} (a b : BitVec n) (i : Fin n) : mem (a &&& b) i = (mem a i && mem b i) := by simp [mem]

theorem mem_not {n : Nat} (a : BitVec n) (i : Fin n) : mem (~~~a) i = !mem a i := by simp [mem]

theorem set_ext {n : Nat} {a b : BitVec n} (h : ∀ i, mem a i = mem b i) : a = b := by
  apply BitVec.eq_of_getElem_eq
  intro i hi
  exact h ⟨i, hi⟩

theorem all_toList_iff {α : Type} {n : Nat} (v : Vector α n) (p : α → Bool) :
    v.toList.all p = true ↔ ∀ i : Fin n, p v[i] = true := by
  rw [List.all_eq_true]
  constructor
  · intro h i
    exact h _ (by simp)
  · intro h x hx
    obtain ⟨i, hi, rfl⟩ := List.getElem_of_mem hx
    have hn : i < n := by simpa using hi
    simpa using h ⟨i, hn⟩

theorem noZoneLit_iff (s : State) :
    s.noZoneLit = true ↔ ∀ z : Zone, s.zev.zones[z].state ≠ .lit ∧ s.zev.zones[z].state ≠ .waiting := by
  unfold State.noZoneLit
  rw [all_toList_iff]
  simp

theorem noZoneLit_congr {s t : State} (h : ∀ z : Zone, t.zev.zones[z].state = s.zev.zones[z].state) :
    t.noZoneLit = s.noZoneLit := by
  rw [Bool.eq_iff_iff, noZoneLit_iff, noZoneLit_iff]
  simp only [h]

theorem noRecordFiring_iff (s : State) : s.noRecordFiring = true ↔ ∀ r ∈ s.trm.records, r.stage ≠ .firing := by
  simp [State.noRecordFiring]

/-- The close-inhibit lines depend on the records alone (R132). -/
def linesOf (rs : List TripRec) : BreakerSet := rs.foldr (fun r acc => if r.isOpen then r.holding ||| acc else acc) 0

theorem closeInhibit_eq (s : State) : s.closeInhibit = linesOf s.trm.records := rfl

theorem linesOf_map {f : TripRec → TripRec} (rs : List TripRec)
    (h : ∀ r ∈ rs, (f r).isOpen = r.isOpen ∧ (f r).holding = r.holding) : linesOf (rs.map f) = linesOf rs := by
  induction rs with
  | nil => rfl
  | cons r rs ih =>
    have hr := h r (by simp)
    have ih := ih fun x hx => h x (by simp [hx])
    simp only [linesOf, List.map_cons, List.foldr_cons, hr.1, hr.2] at ih ⊢
    rw [ih]

end Sys2Proof.Machine
end

