-- ==== Sys2Proof/Laws/Edges.lean ====
section
/-! SUPPORT. What clock edges do to a port (R185): which fields they leave alone, and that the eighty edges of a frame
bring its forty bits. -/

namespace Sys2Proof.Machine

/-- The fields of a port that clock edges do not touch. -/
structure SameButShifted (q r : PortRec) : Prop where
  frame : r.frame = q.frame
  sckAtFall : r.sckAtFall = q.sckAtFall
  selectTimer : r.selectTimer = q.selectTimer
  slot : r.slot = q.slot
  frameErr : r.frameErr = q.frameErr
  port : SamePort q r

theorem SameButShifted.state {q r : PortRec} (h : SameButShifted q r) : r.state = q.state := h.port.1

theorem clock_same (q : PortRec) (e : Edge) : SameButShifted q (q.clock e) := by
  unfold PortRec.clock
  split
  all_goals split
  all_goals exact ⟨rfl, rfl, rfl, rfl, rfl, rfl, rfl, rfl, rfl, rfl, rfl⟩

theorem clockAll_same (q : PortRec) (es : List Edge) : SameButShifted q (q.clockAll es) := by
  induction es generalizing q with
  | nil => exact ⟨rfl, rfl, rfl, rfl, rfl, rfl, rfl, rfl, rfl, rfl, rfl⟩
  | cons e es ih =>
    have h := clock_same q e
    have g := ih (q.clock e)
    obtain ⟨a1, a2, a3, a4, a5, a6⟩ := h.port
    obtain ⟨b1, b2, b3, b4, b5, b6⟩ := g.port
    exact ⟨g.frame.trans h.frame, g.sckAtFall.trans h.sckAtFall, g.selectTimer.trans h.selectTimer,
      g.slot.trans h.slot, g.frameErr.trans h.frameErr, b1.trans a1, b2.trans a2, b3.trans a3, b4.trans a4,
      b5.trans a5, b6.trans a6⟩

/-- A rising and a falling edge in SHIFTING with fewer than forty edges counted: one bit is received. -/
theorem clock_cycle (q : PortRec) (b : Bool) (hf : q.frame = .shifting) (hs : q.sck = false) (he : q.edges.toNat < 40) :
    let r := (q.clock (.rise b)).clock .fall
    r.frame = .shifting ∧ r.sck = false ∧ r.edges.toNat = q.edges.toNat + 1 ∧ r.request = q.request.shiftConcat b := by
  have hn : (satInc q.edges).toNat = q.edges.toNat + 1 := by
    unfold satInc
    split
    · rename_i h; rw [h] at he; exact absurd he (by decide)
    · rw [BitVec.toNat_add]; simp; omega
  simp only [PortRec.clock, hf, hs, and_self, if_true, PortRec.clockRise, PortRec.clockFall, hn]
  rw [if_pos (by omega)]
  exact ⟨trivial, trivial, trivial, rfl⟩

/-- The edges of the last `n` bits of a frame, after those of the bits before them, complete the frame. -/
theorem clockAll_edgesFrom (w : BitVec 40) (n : Nat) (q : PortRec) (hf : q.frame = .shifting) (hs : q.sck = false)
    (he : q.edges.toNat + n = 40) (hq : q.request.toNat % 2 ^ (40 - n) = w.toNat / 2 ^ n) :
    let r := q.clockAll (edgesFrom w n)
    r.edges = 40 ∧ r.sck = false ∧ r.request = w := by
  induction n generalizing q with
  | zero =>
    refine ⟨BitVec.eq_of_toNat_eq (by simpa [edgesFrom, PortRec.clockAll] using he), hs, ?_⟩
    apply BitVec.eq_of_toNat_eq
    have h := q.request.isLt
    simp only [Nat.sub_zero, Nat.pow_zero, Nat.div_one] at hq
    rw [Nat.mod_eq_of_lt h] at hq
    exact hq
  | succ n ih =>
    obtain ⟨h1, h2, h3, h4⟩ := clock_cycle q (w.getLsbD n) hf hs (by omega)
    refine ih _ h1 h2 (by omega) ?_
    rw [h4, BitVec.toNat_shiftConcat]
    have hd : w.toNat / 2 ^ n = 2 * (w.toNat / 2 ^ (n + 1)) + (w.getLsbD n).toNat := by
      rw [BitVec.getLsbD, Nat.testBit, Nat.shiftRight_eq_div_pow, Nat.pow_succ, ← Nat.div_div_eq_div_mul]
      rcases Nat.mod_two_eq_zero_or_one (w.toNat / 2 ^ n) with h | h
      · simp [h]; omega
      · simp [h]; omega
    have hp : 2 ^ (40 - n) = 2 * 2 ^ (40 - (n + 1)) := by
      rw [show 40 - n = (40 - (n + 1)) + 1 by omega, Nat.pow_succ]; omega
    have hdvd : 2 ^ (40 - n) ∣ 2 ^ 40 := Nat.pow_dvd_pow 2 (by omega)
    rw [hd, ← hq, Nat.mod_mod_of_dvd _ hdvd, hp, Nat.shiftLeft_eq]
    have hb : (w.getLsbD n).toNat < 2 := by cases w.getLsbD n <;> decide
    generalize 2 ^ (40 - (n + 1)) = m at *
    generalize (w.getLsbD n).toNat = b at *
    generalize q.request.toNat = x at *
    rw [Nat.pow_one, Nat.mul_comm x 2]
    have e := Nat.mod_add_div x m
    have : (2 * x + b) % (2 * m) = 2 * (x % m) + b := by
      rcases Nat.eq_zero_or_pos m with hm | hm
      · subst hm; simp
      · have hx := Nat.mod_lt x hm
        have : 2 * x + b = (2 * (x % m) + b) + (2 * m) * (x / m) := by
          have : 2 * m * (x / m) = 2 * (m * (x / m)) := Nat.mul_assoc 2 m _
          omega
        rw [this, Nat.add_mul_mod_self_left, Nat.mod_eq_of_lt (by omega)]
    exact this

/-- The eighty edges of a frame, from the fall of select on, bring its forty bits (R185). -/
theorem clockRest_whole (w : BitVec 40) (q : PortRec) (hf : q.frame = .shifting) (ha : q.sckAtFall = false)
    (hs : q.sck = false) (he : q.edges = 0) :
    let r := q.clockRest 40 false w
    r.edges = 40 ∧ r.sck = false ∧ r.request = w := by
  have e : q.clockRest 40 false w = q.clockAll (edgesFrom w 40) := by
    simp [PortRec.clockRest, PortRec.edgesCome, frameRun, ha, hs, he]
  rw [e]
  refine clockAll_edgesFrom w 40 q hf hs (by simp [he]) ?_
  have := w.isLt
  rw [Nat.div_eq_of_lt this]; simp [Nat.mod_one]

end Sys2Proof.Machine
end

