-- ==== Sys2Proof/Laws/Due.lean ====
section
/-! SUPPORT. What a notice to the CFG makes of the due transfer, said once (R178, log 5). -/

namespace Sys2Proof.Machine

/-- A notice leaves the transfer due as `DueAfter` says (R178). -/
theorem settleDue_dueAfter (s : State) : s.DueAfter s.settleDue := by
  unfold State.DueAfter State.settleDue State.testFresh
  cases s.fsu.test <;> simp [and_assoc]

/-- Where the transfer is due as `DueAfter` says of any state before, it is in line with the views. -/
theorem State.DueAfter.dueInv {s t : State} (h : s.DueAfter t) : DueInv t := by
  unfold DueInv
  unfold State.DueAfter at h ⊢
  tauto

/-- A notice brings the due transfer in line with the views, whatever it was before. -/
theorem dueInv_settleDue (s : State) : DueInv s.settleDue := (settleDue_dueAfter s).dueInv

/-- Whether the transfer is due as it should be hangs on the Configuration Store's views, its commit and how many samples
the test in flight lacks. -/
theorem dueInv_congr {s t : State} (hc : t.cfg = s.cfg)
    (ht : t.fsu.test.map (·.samplesLeft) = s.fsu.test.map (·.samplesLeft)) (i : DueInv s) : DueInv t := by
  have e : (∀ run ∈ t.fsu.test, run.samplesLeft = 40) ↔ ∀ run ∈ s.fsu.test, run.samplesLeft = 40 := by
    cases h1 : t.fsu.test <;> cases h2 : s.fsu.test <;> simp_all
  unfold DueInv State.DueAfter at i ⊢
  rw [hc, e]
  exact i

end Sys2Proof.Machine
end

