-- ==== Sys2Proof/Laws/Records.lean ====
section
/-! SUPPORT. What the operations on one record keep: `RecordOk`, the stage's openness, the breakers held. -/

namespace Sys2Proof.Machine

theorem RecordOk.subset {r : TripRec} (h : RecordOk r) : r.released &&& ~~~r.lockout = 0 := h.1

@[simp] theorem Entry.evidenceAt_target (e : Entry) (now : Time) : (e.evidenceAt now).target = e.target := by
  unfold Entry.evidenceAt; split <;> [split; rfl; rfl; rfl; rfl; rfl; rfl] <;> rfl

/-- Open evidence never turns a line on. -/
theorem Entry.evidenceAt_drives {e : Entry} (now : Time) (h : e.state.drives = false) :
    (e.evidenceAt now).state.drives = false := by
  cases hs : e.state <;> simp_all [Entry.evidenceAt, EntryState.drives]

@[simp] theorem settle_fields (r : TripRec) :
    r.settle.kind = r.kind ∧ r.settle.lockout = r.lockout ∧ r.settle.released = r.released ∧
      r.settle.closedAt = r.closedAt ∧ r.settle.entries = r.entries ∧ r.settle.seq = r.seq := by
  unfold TripRec.settle; split <;> simp

@[simp] theorem settle_isOpen (r : TripRec) : r.settle.isOpen = r.isOpen := by
  unfold TripRec.settle TripRec.isOpen
  split
  · rename_i h; simp [h.1]
  · rfl

@[simp] theorem settle_holding (r : TripRec) : r.settle.holding = r.holding := by
  unfold TripRec.settle; split <;> rfl

/-- Settling a record whose entries have been brought forward, its other fields as they were, keeps `RecordOk`. -/
theorem RecordOk.settle {r q : TripRec} (h : RecordOk r) (hk : q.kind = r.kind) (hs : q.stage = r.stage)
    (hl : q.lockout = r.lockout) (hr : q.released = r.released) (hc : q.closedAt = r.closedAt) (ho : r.isOpen = true)
    (he : r.stage ≠ .firing → ∀ e ∈ q.entries, e.state.drives = false) : RecordOk q.settle := by
  obtain ⟨h1, h2, h3, h4⟩ := h
  have hopen : r.stage ≠ .closed := by simpa [TripRec.isOpen] using ho
  have hnone : r.closedAt.isSome = false := Bool.eq_false_iff.2 fun hc' => hopen (h2.1 hc')
  have hkd : r.kind ≠ .drill := fun e => hopen (h4 e).1
  unfold TripRec.settle
  split
  · rename_i hf
    refine ⟨by simpa [hl, hr] using h1, by simp [hc, hnone], ?_, fun e => absurd (hk ▸ e) hkd⟩
    intro _ e hm
    have := hf.2
    simp only [List.any_eq_false] at this
    simpa using this e hm
  · refine ⟨by simpa [hl, hr] using h1, by simp [hc, hnone, hs, hopen], ?_, fun e => absurd (hk ▸ e) hkd⟩
    intro hnf
    exact he (hs ▸ hnf)

theorem evidence_isOpen (r : TripRec) (t : Target) (now : Time) : (r.evidence t now).isOpen = r.isOpen := by
  unfold TripRec.evidence; split
  · simp only [settle_isOpen]; rfl
  · rfl

theorem evidence_holding (r : TripRec) (t : Target) (now : Time) : (r.evidence t now).holding = r.holding := by
  unfold TripRec.evidence; split
  · simp only [settle_holding]; rfl
  · rfl

theorem RecordOk.evidence {r : TripRec} (h : RecordOk r) (t : Target) (now : Time) : RecordOk (r.evidence t now) := by
  unfold TripRec.evidence
  split
  · rename_i ho
    refine h.settle rfl rfl rfl rfl rfl ho ?_
    intro hf e hm
    obtain ⟨e', hm', rfl⟩ := List.mem_map.1 hm
    have := h.2.2.1 hf e' hm'
    split
    · exact Entry.evidenceAt_drives now this
    · exact this
  · exact h

theorem modEntry_map (r : TripRec) (t : Target) (f : Entry → Entry) :
    (r.modEntry t f).entries = r.entries.map fun e => if e.target = t then f e else e := rfl

theorem advance_isOpen (r : TripRec) (t : Target) (p : Entry → Bool) (f : Entry → Entry) :
    (r.advance t p f).isOpen = r.isOpen := by
  unfold TripRec.advance; simp only [settle_isOpen]; rfl

theorem advance_holding (r : TripRec) (t : Target) (p : Entry → Bool) (f : Entry → Entry) :
    (r.advance t p f).holding = r.holding := by
  unfold TripRec.advance; simp only [settle_holding]; rfl

/-- Bringing an entry forward that was driving keeps `RecordOk`. -/
theorem RecordOk.advance {r : TripRec} (h : RecordOk r) (t : Target) (p : Entry → Bool) (f : Entry → Entry)
    (ho : r.isOpen = true) (hp : ∀ e, p e = true → e.state.drives = true) : RecordOk (r.advance t p f) := by
  unfold TripRec.advance
  refine h.settle rfl rfl rfl rfl rfl ho ?_
  intro hf e hm
  rw [modEntry_map] at hm
  obtain ⟨e', hm', rfl⟩ := List.mem_map.1 hm
  have hd := h.2.2.1 hf e' hm'
  split
  · split
    · rename_i hpe; simp [hp e' hpe] at hd
    · exact hd
  · exact hd

theorem take_isOpen_of_not_closed (r : TripRec) (b : Fin 7) (now : Time) :
    (r.take b now).stage = .closed ∨ (r.take b now).stage = r.stage := by
  unfold TripRec.take; simp only; split <;> simp

/-- A release that a record which holds the breaker takes keeps `RecordOk`. -/
theorem RecordOk.take {r : TripRec} (h : RecordOk r) (b : Fin 7) (now : Time) (ho : r.isOpen = true)
    (hb : mem r.holding b = true) : RecordOk (r.take b now) := by
  obtain ⟨h1, h2, h3, h4⟩ := h
  have hopen : r.stage ≠ .closed := by simpa [TripRec.isOpen] using ho
  have hnone : r.closedAt.isSome = false := Bool.eq_false_iff.2 fun hc' => hopen (h2.1 hc')
  have hkd : r.kind ≠ .drill := fun e => hopen (h4 e).1
  have hsub : (r.released ||| single b) &&& ~~~r.lockout = 0 := by
    apply set_ext
    intro i
    have h1' : mem (r.released &&& ~~~r.lockout) i = mem (0 : BreakerSet) i := by rw [h1]
    simp only [TripRec.holding, mem_and, mem_or, mem_not, mem_single] at h1' hb ⊢
    have hz : mem (0 : BreakerSet) i = false := by simp [mem]
    rw [hz] at h1' ⊢
    by_cases hi : i = b
    · subst hi; revert hb; cases mem r.lockout i <;> simp
    · simpa [hi] using h1'
  unfold TripRec.take
  simp only
  split
  · rename_i hl
    refine ⟨hsub, by simp, ?_, fun e => absurd e hkd⟩
    intro _
    exact h3 (by simp [hl.1])
  · exact ⟨hsub, by simp [hnone, hopen], h3, fun e => absurd e hkd⟩

theorem addEntries_stage (s : State) (r : TripRec) (ts : List Target) (why : Reason) :
    (s.addEntries r ts why).stage = r.stage ∧ (s.addEntries r ts why).kind = r.kind ∧
      (s.addEntries r ts why).closedAt = r.closedAt ∧ (s.addEntries r ts why).released = r.released ∧
      (∃ b, (s.addEntries r ts why).lockout = r.lockout ||| b) := ⟨rfl, rfl, rfl, rfl, _, rfl⟩

theorem failEntry_fields (s : State) (r : TripRec) (t : Target) :
    (s.failEntry r t).stage = r.stage ∧ (s.failEntry r t).kind = r.kind ∧ (s.failEntry r t).closedAt = r.closedAt ∧
      (s.failEntry r t).released = r.released ∧ ∃ b, (s.failEntry r t).lockout = r.lockout ||| b := by
  unfold State.failEntry State.escalate
  cases t with
  | ti k => exact ⟨rfl, rfl, rfl, rfl, _, rfl⟩
  | tc j =>
    simp only
    split
    · exact ⟨rfl, rfl, rfl, rfl, _, rfl⟩
    · exact ⟨rfl, rfl, rfl, rfl, 0, by simp [TripRec.modEntry]⟩
  | ut k => exact ⟨rfl, rfl, rfl, rfl, 0, by simp [TripRec.modEntry]⟩

theorem subset_or {n : Nat} {a b : BitVec n} (c : BitVec n) (h : a &&& ~~~b = 0) : a &&& ~~~(b ||| c) = 0 := by
  apply set_ext
  intro i
  have h' : mem (a &&& ~~~b) i = mem (0 : BitVec n) i := by rw [h]
  simp only [mem_and, mem_or, mem_not] at h' ⊢
  have hz : mem (0 : BitVec n) i = false := by simp [mem]
  rw [hz] at h' ⊢
  revert h'; cases mem a i <;> cases mem b i <;> simp

/-- A breaker-fail in a FIRING record keeps `RecordOk`. -/
theorem RecordOk.failEntry {r : TripRec} (h : RecordOk r) (s : State) (t : Target) (hf : r.stage = .firing) :
    RecordOk (s.failEntry r t) := by
  obtain ⟨e1, e2, e3, e4, b, e5⟩ := failEntry_fields s r t
  obtain ⟨h1, h2, h3, h4⟩ := h
  refine ⟨by rw [e4, e5]; exact subset_or b h1, by rw [e3, e1]; exact h2, by rw [e1]; exact fun e => absurd hf e, ?_⟩
  rw [e2]
  intro e
  exact absurd (h4 e).1 (by simp [hf])

/-- A re-strike keeps `RecordOk` of an open ARC record. -/
theorem RecordOk.restrike {r : TripRec} (h : RecordOk r) (s : State) (z : Zone) (ha : r.isArcOf z = true) :
    RecordOk (s.restrikeRecord r) := by
  obtain ⟨h1, h2, h3, h4⟩ := h
  simp only [TripRec.isArcOf, TripRec.isOpen, Bool.and_eq_true, decide_eq_true_eq] at ha
  have hnone : r.closedAt.isSome = false := Bool.eq_false_iff.2 fun hc' => ha.1.1 (h2.1 hc')
  refine ⟨?_, by simp [State.restrikeRecord, hnone], fun e => absurd rfl e, ?_⟩
  · apply set_ext
    intro i
    have h' : mem (r.released &&& ~~~r.lockout) i = mem (0 : BreakerSet) i := by rw [h1]
    simp only [State.restrikeRecord, mem_and, mem_or, mem_not] at h' ⊢
    have hz : mem (0 : BreakerSet) i = false := by simp [mem]
    rw [hz] at h' ⊢
    revert h'
    generalize mem r.released i = a
    generalize mem r.lockout i = b
    generalize mem _ i = c
    cases a <;> cases b <;> cases c <;> simp
  · intro e
    have : r.kind = .drill := e
    rw [ha.1.2] at this
    exact absurd this (by decide)

theorem canFail_drives {e : Entry} (h : e.canFail = true) : e.state.drives = true := by
  unfold Entry.canFail at h
  simp only [Bool.and_eq_true, decide_eq_true_eq] at h
  simp [h.1.1.1, EntryState.drives]

end Sys2Proof.Machine
end

