-- ==== Sys2Proof/Laws/ZoneStep.lean ====
section
/-! SUPPORT. What the operations of the Trip Record Manager and of the Zone Evaluator can do, said once: `ZStep s t`
holds of the state before and the state after each of them. -/

namespace Sys2Proof.Machine

/-- The Configuration Store but for the write engine's queue and the views of zones and records. -/
def Cfg.fixed (c : Cfg) : Cfg :=
  { c with
    engine := .idle, saveWaiting := false, job := none, zonesQuiet := true, recordsQuiet := true, transferDue := false }

theorem AlertFrame.trans {s t u : State} (h : AlertFrame s t) (g : AlertFrame t u) : AlertFrame s u := fun p =>
  ⟨(g p).1.trans (h p).1, (g p).2.1.trans (h p).2.1, fun i e => (g p).2.2 i ((h p).2.2 i e)⟩

/-- What an operation of the TRM or the ZEV leaves alone, and the invariants it keeps. -/
structure ZStep (s t : State) : Prop where
  time : t.alr.time = s.alr.time
  masks : AlertFrame s t
  cp : t.cp = s.cp
  lcu : t.lcu = s.lcu
  fsu : t.fsu = s.fsu
  top : t.top = s.top
  cfg : t.cfg.fixed = s.cfg.fixed
  nv : t.nv = s.nv
  ports : ∀ p : Port, t.lnk[p].dropSelection = s.lnk[p].dropSelection
  drill : t.zev.drill.active = true → s.zev.drill.active = true ∧ t.zev.drill.owner = s.zev.drill.owner
  pending : t.pending = s.pending
  records : RecordsInv s → RecordsInv t
  views : (s.cfg.zonesQuiet = s.noZoneLit → t.cfg.zonesQuiet = t.noZoneLit) ∧
    (s.cfg.recordsQuiet = s.noRecordFiring → t.cfg.recordsQuiet = t.noRecordFiring)
  due : DueInv s → DueInv t
  write : WriteInv s → WriteInv t

namespace ZStep

theorem refl (s : State) : ZStep s s :=
  ⟨rfl, fun _ => ⟨rfl, rfl, fun _ h => h⟩, rfl, rfl, rfl, rfl, rfl, rfl, fun _ => rfl, fun h => ⟨h, rfl⟩, rfl, id, ⟨id, id⟩, id, id⟩

theorem trans {s t u : State} (h : ZStep s t) (g : ZStep t u) : ZStep s u where
  time := g.time.trans h.time
  masks := h.masks.trans g.masks
  cp := g.cp.trans h.cp
  lcu := g.lcu.trans h.lcu
  fsu := g.fsu.trans h.fsu
  top := g.top.trans h.top
  cfg := g.cfg.trans h.cfg
  nv := g.nv.trans h.nv
  ports p := (g.ports p).trans (h.ports p)
  drill e := ⟨(h.drill (g.drill e).1).1, (g.drill e).2.trans (h.drill (g.drill e).1).2⟩
  pending := g.pending.trans h.pending
  records i := g.records (h.records i)
  views := ⟨fun i => g.views.1 (h.views.1 i), fun i => g.views.2 (h.views.2 i)⟩
  due i := g.due (h.due i)
  write i := g.write (h.write i)

theorem active {s t : State} (h : ZStep s t) : t.cfg.active = s.cfg.active := by
  have := congrArg Cfg.active h.cfg; exact this
theorem staged {s t : State} (h : ZStep s t) : t.cfg.staged = s.cfg.staged := by
  have := congrArg Cfg.staged h.cfg; exact this
theorem claim {s t : State} (h : ZStep s t) : t.cfg.claim = s.cfg.claim := by
  have := congrArg Cfg.claim h.cfg; exact this
theorem pendingCommit {s t : State} (h : ZStep s t) : t.cfg.pendingCommit = s.cfg.pendingCommit := by
  have := congrArg Cfg.pendingCommit h.cfg; exact this
theorem portState {s t : State} (h : ZStep s t) (p : Port) : t.lnk[p].state = s.lnk[p].state := by
  have := congrArg PortRec.state (h.ports p); exact this
theorem portFrame {s t : State} (h : ZStep s t) (p : Port) : t.lnk[p].frame = s.lnk[p].frame := by
  have := congrArg PortRec.frame (h.ports p); exact this
theorem portSlot {s t : State} (h : ZStep s t) (p : Port) : t.lnk[p].slot = s.lnk[p].slot := by
  have := congrArg PortRec.slot (h.ports p); exact this

end ZStep

/-! ### Alerts -/

theorem raiseOn_zstep (s : State) (a : Alert) (on : Port → Bool) : ZStep s (s.raiseOn a on) := by
  refine ⟨rfl, ?_, rfl, rfl, rfl, rfl, rfl, rfl, fun _ => rfl, fun h => ⟨h, rfl⟩, rfl, id, ⟨id, id⟩, id, id⟩
  intro p
  simp only [State.raiseOn, ofFn_get]
  split
  · exact ⟨rfl, rfl, fun i h => by simp only [mem_or, h, Bool.true_or]⟩
  · exact ⟨rfl, rfl, fun _ h => h⟩

theorem raise_zstep (s : State) (a : Alert) : ZStep s (s.raise a) := raiseOn_zstep _ _ _

theorem raiseOthers_zstep (s : State) (a : Alert) (p : Port) : ZStep s (s.raiseOthers a p) := raiseOn_zstep _ _ _

/-! ### Zone records -/

/-- A change of a zone record that keeps its state. -/
theorem modZone_zstep (s : State) (z : Zone) (f : ZoneRec → ZoneRec) (hf : ∀ r, (f r).state = r.state) :
    ZStep s (s.modZone z f) := by
  refine ⟨rfl, fun _ => ⟨rfl, rfl, fun _ h => h⟩, rfl, rfl, rfl, rfl, rfl, rfl, fun _ => rfl, fun h => ⟨h, rfl⟩, rfl, id, ⟨?_, id⟩, id, id⟩
  intro h1
  have : (s.modZone z f).noZoneLit = s.noZoneLit := noZoneLit_congr (by
    intro y
    show (modAt s.zev.zones z f)[y].state = _
    rw [modAt_get]
    split
    · rename_i h; rw [hf, h]
    · rfl)
  rw [this]
  exact h1

/-- A notice of the ZEV leaves `transferDue` and the view of the zones changed, and nothing else. -/
theorem noticeZones_cfg (s : State) : s.noticeZones.cfg.fixed = s.cfg.fixed := rfl

theorem enterZone_zstep (s : State) (z : Zone) (st : ZoneState) : ZStep s (s.enterZone z st) := by
  refine ⟨rfl, fun _ => ⟨rfl, rfl, fun _ h => h⟩, rfl, rfl, rfl, rfl, rfl, rfl, fun _ => rfl, fun h => ⟨h, rfl⟩, rfl, id, ⟨fun _ => rfl, id⟩, fun _ => dueInv_settleDue _, id⟩

/-- A change of the drill register that starts no drill and gives a running one no other owner. -/
theorem drillReg_zstep (s : State) (d : DrillReg)
    (h : d.active = true → s.zev.drill.active = true ∧ d.owner = s.zev.drill.owner) :
    ZStep s { s with zev.drill := d } :=
  ⟨rfl, fun _ => ⟨rfl, rfl, fun _ h => h⟩, rfl, rfl, rfl, rfl, rfl, rfl, fun _ => rfl, h, rfl, id, ⟨id, id⟩, id, id⟩

/-- The end of a drill. -/
theorem endDrill_zstep (s : State) (why : EndReason) : ZStep s (s.endDrill why) := by
  unfold State.endDrill
  simp only
  split
  · exact .refl s
  · refine ZStep.trans ?_ (raise_zstep _ _)
    split
    · rename_i z _
      exact (modZone_zstep s z (fun r => { r with drill := false }) (by intro; rfl)).trans
        (drillReg_zstep _ _ (by simp))
    · exact drillReg_zstep _ _ (by simp)

/-! ### The lockout word (R142) -/

/-- A request for a lockout word write: begun at once by an idle engine, otherwise waiting (R142, R143, R181). -/
theorem requestWord_eq (s : State) (b : BreakerSet) :
    s.requestWord b =
      if s.cfg.engine = .idle then
        { s with
          cfg.engine := .word
          trm.lock := { s.trm.lock with retry := false, status := .writing, writing := some b, waiting := none } }
      else
        { s with
          trm.lock :=
            { s.trm.lock with
              retry := false, waiting := some b
              status := if s.trm.lock.status = .writing then .writing else .waiting } } := by
  unfold State.requestWord State.engineNext
  cases h : s.cfg.engine <;> simp [h, State.beginWord]

theorem requestWord_closeInhibit (s : State) (b : BreakerSet) : (s.requestWord b).closeInhibit = s.closeInhibit := by
  rw [requestWord_eq]; split <;> rfl

/-- A request brings the write engine in order for the set asked for. -/
theorem requestWord_engineOk {s : State} (h : EngineOk s.trm.lock s.cfg) (b : BreakerSet) :
    EngineOk (s.requestWord b).trm.lock (s.requestWord b).cfg ∧ (s.requestWord b).trm.lock.latest = some b := by
  obtain ⟨h1, h2, h3, h4, h5, h6, h7, h8⟩ := h
  rw [requestWord_eq]
  split
  · rename_i hi
    have := h5 hi
    refine ⟨⟨by simp, by simp, by simp, by simp, by simp, ?_, ?_, by simp⟩, by simp [LockState.latest]⟩
    · simp only [reduceCtorEq, iff_false]; rw [h6, hi]; simp
    · simp only [reduceCtorEq, or_false]; rw [h7, hi]; simp
  · rename_i hi
    refine ⟨⟨?_, ?_, by simp, ?_, fun e => absurd e hi, h6, h7, h8⟩, by simp [LockState.latest]⟩
    · by_cases hw : s.trm.lock.status = .writing
      · simp [hw, ← h1]
      · simp [hw, ← h1]
    · by_cases hw : s.trm.lock.status = .writing
      · simp [hw, h2]
      · simp [hw, h2]
    · by_cases hw : s.trm.lock.status = .writing <;> simp [hw]

/-- Everything a step of the TRM and the ZEV keeps but for the write engine's agreement with the lines. -/
structure TStep (s t : State) : Prop where
  time : t.alr.time = s.alr.time
  masks : AlertFrame s t
  cp : t.cp = s.cp
  lcu : t.lcu = s.lcu
  fsu : t.fsu = s.fsu
  top : t.top = s.top
  cfg : t.cfg.fixed = s.cfg.fixed
  engine : t.cfg.engine = s.cfg.engine ∧ t.cfg.saveWaiting = s.cfg.saveWaiting ∧ t.cfg.job = s.cfg.job
  lock : t.trm.lock = s.trm.lock
  nv : t.nv = s.nv
  ports : ∀ p : Port, t.lnk[p].dropSelection = s.lnk[p].dropSelection
  zev : t.zev.zones = s.zev.zones ∧ t.zev.drill = s.zev.drill
  pending : t.pending = s.pending
  records : RecordsInv s → RecordsInv t
  views : (s.cfg.zonesQuiet = s.noZoneLit → t.cfg.zonesQuiet = t.noZoneLit) ∧
    (s.cfg.recordsQuiet = s.noRecordFiring → t.cfg.recordsQuiet = t.noRecordFiring)
  due : DueInv s → DueInv t

theorem engineOk_congr {l l' : LockState} {c c' : Cfg} (hl : l' = l) (h1 : c'.engine = c.engine)
    (h2 : c'.saveWaiting = c.saveWaiting) (h3 : c'.job = c.job) (h4 : c'.saveStatus = c.saveStatus)
    (h : EngineOk l c) : EngineOk l' c' := by
  unfold EngineOk at h ⊢
  rw [hl, h1, h2, h3, h4]
  exact h

/-- One event at the TRM: whatever it does to the records, the write engine follows the lines (R132, R142). -/
theorem TStep.trmEvent {s : State} {f : State → State} (h : TStep s (f s)) : ZStep s (s.trmEvent f) := by
  have hs : (f s).cfg.saveStatus = s.cfg.saveStatus := by have := congrArg Cfg.saveStatus h.cfg; exact this
  have hok : WriteInv s → EngineOk (f s).trm.lock (f s).cfg := fun i =>
    engineOk_congr h.lock h.engine.1 h.engine.2.1 h.engine.2.2 hs i.1
  unfold State.trmEvent
  simp only
  split
  · rename_i he
    refine ⟨h.time, h.masks, h.cp, h.lcu, h.fsu, h.top, h.cfg, by rw [h.nv], h.ports, ?_, h.pending, h.records, h.views,
      h.due, ?_⟩
    · rw [h.zev.2]; exact fun e => ⟨e, rfl⟩
    · intro i
      refine ⟨hok i, fun b hb => ?_⟩
      rw [he]
      exact i.2 b (by rw [← hb, h.lock])
  · have hr := requestWord_eq (f s) (f s).closeInhibit
    have hd : (f s).zev.drill.active = true → s.zev.drill.active = true ∧ (f s).zev.drill.owner = s.zev.drill.owner := by
      rw [h.zev.2]; exact fun e => ⟨e, rfl⟩
    have hw : WriteInv s → WriteInv ((f s).requestWord (f s).closeInhibit) := by
      intro i
      have := requestWord_engineOk (hok i) (f s).closeInhibit
      refine ⟨this.1, fun b hb => ?_⟩
      rw [requestWord_closeInhibit]
      rw [this.2] at hb
      exact (Option.some.inj hb).symm
    revert hw
    rw [hr]
    split
    · intro hw
      exact ⟨h.time, h.masks, h.cp, h.lcu, h.fsu, h.top, h.cfg, by rw [← h.nv], h.ports, hd, h.pending, h.records,
        h.views, h.due, hw⟩
    · intro hw
      exact ⟨h.time, h.masks, h.cp, h.lcu, h.fsu, h.top, h.cfg, by rw [← h.nv], h.ports, hd, h.pending, h.records,
        h.views, h.due, hw⟩

namespace TStep

theorem trans {s t u : State} (h : TStep s t) (g : TStep t u) : TStep s u where
  time := g.time.trans h.time
  masks := h.masks.trans g.masks
  cp := g.cp.trans h.cp
  lcu := g.lcu.trans h.lcu
  fsu := g.fsu.trans h.fsu
  top := g.top.trans h.top
  cfg := g.cfg.trans h.cfg
  engine := ⟨g.engine.1.trans h.engine.1, g.engine.2.1.trans h.engine.2.1, g.engine.2.2.trans h.engine.2.2⟩
  lock := g.lock.trans h.lock
  nv := g.nv.trans h.nv
  ports p := (g.ports p).trans (h.ports p)
  zev := ⟨g.zev.1.trans h.zev.1, g.zev.2.trans h.zev.2⟩
  pending := g.pending.trans h.pending
  records i := g.records (h.records i)
  views := ⟨fun i => g.views.1 (h.views.1 i), fun i => g.views.2 (h.views.2 i)⟩
  due i := g.due (h.due i)

/-- A change of the records that keeps the lines is a step of the TRM by itself. -/
theorem toZStep {s t : State} (h : TStep s t) (hl : t.closeInhibit = s.closeInhibit) : ZStep s t where
  time := h.time
  masks := h.masks
  cp := h.cp
  lcu := h.lcu
  fsu := h.fsu
  top := h.top
  cfg := h.cfg
  nv := h.nv
  ports := h.ports
  drill := by rw [h.zev.2]; exact fun e => ⟨e, rfl⟩
  pending := h.pending
  records := h.records
  views := h.views
  due := h.due
  write i := by
    have hs : t.cfg.saveStatus = s.cfg.saveStatus := by have := congrArg Cfg.saveStatus h.cfg; exact this
    refine ⟨engineOk_congr h.lock h.engine.1 h.engine.2.1 h.engine.2.2 hs i.1, fun b hb => ?_⟩
    rw [hl]
    exact i.2 b (by rw [← hb, h.lock])

end TStep

/-! ### Records -/

/-- New records, with the notice of the TRM (R128). -/
theorem recordsNoticed_tstep (s : State) (rs : List TripRec) (hr : RecordsInv s → ∀ r ∈ rs, RecordOk r) :
    TStep s ({ s with trm.records := rs } : State).noticeRecords :=
  ⟨rfl, fun _ => ⟨rfl, rfl, fun _ h => h⟩, rfl, rfl, rfl, rfl, rfl, ⟨rfl, rfl, rfl⟩, rfl, rfl, fun _ => rfl, ⟨rfl, rfl⟩, rfl, hr,
    ⟨id, fun _ => rfl⟩, fun _ => dueInv_settleDue _⟩

/-- A change record by record that keeps which records are FIRING. -/
theorem recordsMapped_tstep (s : State) (f : TripRec → TripRec)
    (hr : ∀ r ∈ s.trm.records, RecordOk r → RecordOk (f r))
    (hf : ∀ r ∈ s.trm.records, (f r).stage = .firing ↔ r.stage = .firing) :
    TStep s { s with trm.records := s.trm.records.map f } := by
  refine ⟨rfl, fun _ => ⟨rfl, rfl, fun _ h => h⟩, rfl, rfl, rfl, rfl, rfl, ⟨rfl, rfl, rfl⟩, rfl, rfl, fun _ => rfl, ⟨rfl, rfl⟩, rfl, ?_, ⟨id, ?_⟩, id⟩
  · intro h r hm
    obtain ⟨r', hm', rfl⟩ := List.mem_map.1 hm
    exact hr r' hm' (h r' hm')
  · intro h2
    rw [show ({ s with trm.records := s.trm.records.map f } : State).cfg.recordsQuiet = s.cfg.recordsQuiet from rfl, h2]
    rw [Bool.eq_iff_iff, noRecordFiring_iff, noRecordFiring_iff]
    simp only [List.mem_map, forall_exists_index, and_imp, forall_apply_eq_imp_iff₂]
    exact forall₂_congr fun r hm => by rw [ne_eq, ne_eq, hf r hm]

theorem raiseOn_tstep (s : State) (a : Alert) (on : Port → Bool) : TStep s (s.raiseOn a on) :=
  ⟨rfl, (raiseOn_zstep s a on).masks, rfl, rfl, rfl, rfl, rfl, ⟨rfl, rfl, rfl⟩, rfl, rfl, fun _ => rfl, ⟨rfl, rfl⟩, rfl,
    id, ⟨id, id⟩, id⟩

theorem raise_tstep (s : State) (a : Alert) : TStep s (s.raise a) := raiseOn_tstep _ _ _

theorem openEvidence_zstep (s : State) (t : Target) : ZStep s (s.openEvidence t) := by
  refine (recordsNoticed_tstep s _ ?_).toZStep ?_
  · intro h r hm
    obtain ⟨r', hm', rfl⟩ := List.mem_map.1 hm
    exact (h r' hm').evidence t _
  · exact linesOf_map _ fun r _ => ⟨evidence_isOpen r t _, evidence_holding r t _⟩

theorem dropSelections_tstep (s : State) (seq : Byte) : TStep s (s.dropSelections seq) := by
  refine ⟨rfl, fun _ => ⟨rfl, rfl, fun _ h => h⟩, rfl, rfl, rfl, rfl, rfl, ⟨rfl, rfl, rfl⟩, rfl, rfl, ?_, ⟨rfl, rfl⟩, rfl, id, ⟨id, id⟩, id⟩
  intro p
  have := modAll_get s.lnk p fun r : PortRec => if r.selection = some seq then r.dropSelection else r.dropLatchOf seq
  refine (congrArg PortRec.dropSelection this).trans ?_
  split
  · rfl
  · unfold PortRec.dropLatchOf; split
    · split <;> rfl
    · rfl

theorem oldestClosed_mem {rs : List TripRec} {r : TripRec} (h : oldestClosed rs = some r) : r ∈ rs ∧ r.stage = .closed := by
  unfold oldestClosed at h
  exact ⟨List.mem_of_find?_eq_some h, by simpa using List.find?_some h⟩

theorem makeRoom_tstep (s : State) : TStep s s.makeRoom := by
  have hrefl : TStep s s :=
    ⟨rfl, fun _ => ⟨rfl, rfl, fun _ h => h⟩, rfl, rfl, rfl, rfl, rfl, ⟨rfl, rfl, rfl⟩, rfl, rfl, fun _ => rfl, ⟨rfl, rfl⟩, rfl, id, ⟨id, id⟩, id⟩
  unfold State.makeRoom
  split
  · exact hrefl
  · split
    · exact hrefl
    · rename_i old ho
      refine TStep.trans (TStep.trans ?_ (raiseOn_tstep _ _ _)) (dropSelections_tstep _ _)
      refine ⟨rfl, fun _ => ⟨rfl, rfl, fun _ h => h⟩, rfl, rfl, rfl, rfl, rfl, ⟨rfl, rfl, rfl⟩, rfl, rfl, fun _ => rfl, ⟨rfl, rfl⟩, rfl,
        fun h r hm => h r (List.mem_of_mem_erase hm), ⟨id, fun h2 => ?_⟩, id⟩
      refine h2.trans ?_
      rw [Bool.eq_iff_iff, noRecordFiring_iff, noRecordFiring_iff]
      constructor
      · exact fun h r hm => h r (List.mem_of_mem_erase hm)
      · intro h r hm
        by_cases he : r = old
        · rw [he, (oldestClosed_mem ho).2]; simp
        · exact h r ((List.mem_erase_of_ne he).2 hm)

theorem appendRecord_records (s : State) (r : TripRec) :
    ∃ n, (s.appendRecord r).trm.records = s.trm.records ++ [{ r with seq := n }] := ⟨_, rfl⟩

theorem openArc_zstep (s : State) (z : Zone) (trigger : Option Chan) (degraded : Bool) :
    ZStep s (s.openArc z trigger degraded) := by
  refine TStep.trmEvent (TStep.trans (TStep.trans (makeRoom_tstep s) ?_) (raise_tstep _ _))
  refine ⟨rfl, fun _ => ⟨rfl, rfl, fun _ h => h⟩, rfl, rfl, rfl, rfl, rfl, ⟨rfl, rfl, rfl⟩, rfl, rfl, fun _ => rfl, ⟨rfl, rfl⟩, rfl,
    ?_, ⟨id, fun _ => rfl⟩, fun _ => dueInv_settleDue _⟩
  intro h r hm
  rcases List.mem_append.1 (show r ∈ _ ++ [_] from hm) with hm | hm
  · exact h r hm
  · rw [List.mem_singleton.1 hm]
    refine ⟨by simp [State.arcRecord], by simp [State.arcRecord], fun e => absurd rfl e, fun e => ?_⟩
    exact absurd (show RecKind.arc = .drill from e) (by decide)

theorem drillRecord_ok (s : State) (z : Zone) (trigger : Option Chan) (degraded : Bool) (n : Byte) :
    RecordOk { s.drillRecord z trigger degraded with seq := n } := by
  refine ⟨by simp [State.drillRecord], by simp [State.drillRecord], ?_, fun _ => ⟨rfl, rfl, ?_⟩⟩
  · intro _ e hm
    obtain ⟨t, _, rfl⟩ := List.mem_map.1 (show e ∈ List.map _ _ from hm)
    rfl
  · intro e hm
    obtain ⟨t, _, rfl⟩ := List.mem_map.1 (show e ∈ List.map _ _ from hm)
    rfl

theorem appendDrill_zstep (s : State) (z : Zone) (trigger : Option Chan) (degraded : Bool) :
    ZStep s (s.appendDrill z trigger degraded) := by
  refine TStep.trmEvent (TStep.trans (makeRoom_tstep s) ?_)
  refine ⟨rfl, fun _ => ⟨rfl, rfl, fun _ h => h⟩, rfl, rfl, rfl, rfl, rfl, ⟨rfl, rfl, rfl⟩, rfl, rfl, fun _ => rfl, ⟨rfl, rfl⟩, rfl,
    ?_, ⟨id, ?_⟩, id⟩
  · intro h r hm
    rcases List.mem_append.1 (show r ∈ _ ++ [_] from hm) with hm | hm
    · exact h r hm
    · rw [List.mem_singleton.1 hm]; exact drillRecord_ok _ _ _ _ _
  · intro h2
    refine h2.trans ?_
    rw [Bool.eq_iff_iff, noRecordFiring_iff, noRecordFiring_iff]
    constructor
    · intro h r hm
      rcases List.mem_append.1 (show r ∈ _ ++ [_] from hm) with hm | hm
      · exact h r hm
      · rw [List.mem_singleton.1 hm]; simp [State.drillRecord]
    · exact fun h r hm => h r (List.mem_append_left _ hm)

theorem restrike_zstep (s : State) (z : Zone) : ZStep s (s.restrike z) := by
  unfold State.restrike
  split
  · refine TStep.trmEvent (TStep.trans (recordsNoticed_tstep s _ ?_) (raise_tstep _ _))
    intro h r hm
    obtain ⟨r', hm', rfl⟩ := List.mem_map.1 hm
    split
    · rename_i ha; exact (h r' hm').restrike s z ha
    · exact h r' hm'
  · exact .refl s

theorem releaseBreaker_zstep (s : State) (b : Fin 7) : ZStep s (s.releaseBreaker b) := by
  have hmap : TStep s { s with
      trm.records := s.trm.records.map fun r => if s.releaseAt b r = some .taken then r.take b s.alr.time else r } := by
    refine recordsMapped_tstep s _ ?_ ?_
    · intro r _ hok
      split
      · rename_i ht
        unfold State.releaseAt at ht
        split at ht
        · rename_i ho
          simp only [Bool.and_eq_true] at ho
          exact hok.take b _ ho.1 ho.2
        · simp at ht
      · exact hok
    · intro r _
      split
      · rename_i ht
        have hnf : r.stage ≠ .firing := by
          intro e
          unfold State.releaseAt at ht
          simp [e] at ht
        rcases take_isOpen_of_not_closed r b s.alr.time with h | h <;> simp [h, hnf]
      · rfl
  refine TStep.trmEvent ?_
  simp only
  have hall : TStep s { s with
      trm.records := s.trm.records.map fun r => if s.releaseAt b r = some .taken then r.take b s.alr.time else r
      zev.notices := s.zev.notices ++
        ((s.trm.records.filter (s.closesAt b)).filter fun r => decide (r.kind = .arc)).filterMap (·.origin) } :=
    ⟨hmap.time, hmap.masks, hmap.cp, hmap.lcu, hmap.fsu, hmap.top, hmap.cfg, hmap.engine, hmap.lock, hmap.nv,
      hmap.ports, ⟨rfl, rfl⟩, hmap.pending, hmap.records, hmap.views, hmap.due⟩
  split
  · exact hall
  · exact hall.trans (raise_tstep _ _)

theorem offerPeak_zstep (s : State) (n : Chan) (v : LU) : ZStep s (s.offerPeak n v) := by
  have key : ∀ r : TripRec, s.peakRecord n v r = r ∨ s.peakRecord n v r = { r with peak := some v } := by
    intro r
    unfold State.peakRecord
    split
    · split
      · exact .inr rfl
      · exact .inl rfl
    · exact .inl rfl
  refine (recordsMapped_tstep s _ ?_ ?_).toZStep ?_
  · intro r _ h
    rcases key r with e | e <;> rw [e] <;> exact h
  · intro r _
    rcases key r with e | e <;> rw [e]
  · refine linesOf_map _ fun r _ => ?_
    rcases key r with e | e <;> rw [e] <;> exact ⟨rfl, rfl⟩

/-! ### Zones -/

theorem toWaiting_zstep (s : State) (z : Zone) : ZStep s (s.toWaiting z) :=
  (modZone_zstep s z _ (by intro; rfl)).trans (enterZone_zstep _ _ _)

theorem decideArc_zstep (s : State) (z : Zone) : ZStep s (s.decideArc z) := by
  unfold State.decideArc
  simp only
  have h := ((openArc_zstep s z s.zev.zones[z].trigger s.zev.zones[z].degraded).trans
    (modZone_zstep _ z (fun r => { r with filter := .stopped, confirm := .stopped, phase := some .holding })
      (by intro; rfl))).trans (enterZone_zstep _ z .tripped)
  split
  · exact h.trans (endDrill_zstep _ _)
  · exact h

theorem entryFilterExpiry_zstep (s : State) (z : Zone) : ZStep s (s.entryFilterExpiry z) := by
  unfold State.entryFilterExpiry
  simp only
  split
  · split
    · exact decideArc_zstep s z
    · have h := appendDrill_zstep s z s.zev.zones[z].trigger s.zev.zones[z].degraded
      exact (h.trans (drillReg_zstep _
        { (s.appendDrill z s.zev.zones[z].trigger s.zev.zones[z].degraded).zev.drill with
          shown := satInc (s.appendDrill z s.zev.zones[z].trigger s.zev.zones[z].degraded).zev.drill.shown }
        fun e => ⟨e, rfl⟩)).trans (toWaiting_zstep _ z)
  · split
    · exact decideArc_zstep s z
    · exact toWaiting_zstep s z

theorem toLit_zstep (s : State) (z : Zone) (ev : Option Chan) : ZStep s (s.toLit z ev) := by
  unfold State.toLit
  simp only
  have h := (modZone_zstep s z (fun r =>
    { r with
      lit := true, degraded := voteDegraded (s.zonePage z) r.view, trigger := triggerOf (s.zonePage z) r.view ev
      filter := .running .entry (s.zonePage z).tzf.val }) (by intro; rfl)).trans (enterZone_zstep _ z .lit)
  split
  · exact h.trans (entryFilterExpiry_zstep _ z)
  · exact h

theorem toQuiet_zstep (s : State) (z : Zone) : ZStep s (s.toQuiet z) :=
  (modZone_zstep s z _ (by intro; rfl)).trans (enterZone_zstep _ _ _)

theorem toBlocked_zstep (s : State) (z : Zone) : ZStep s (s.toBlocked z) :=
  ((modZone_zstep s z _ (by intro; rfl)).trans (enterZone_zstep _ _ _)).trans (raise_zstep _ _)

theorem restrikeFilterExpiry_zstep (s : State) (z : Zone) : ZStep s (s.restrikeFilterExpiry z) := by
  unfold State.restrikeFilterExpiry
  simp only
  split
  · exact (restrike_zstep s z).trans (modZone_zstep _ z _ (by intro; rfl))
  · exact modZone_zstep _ z _ (by intro; rfl)

theorem startRestrike_zstep (s : State) (z : Zone) (ev : Option Chan) : ZStep s (s.startRestrike z ev) := by
  unfold State.startRestrike
  simp only
  have h := modZone_zstep s z (fun r =>
    { r with
      trigger := triggerOf (s.zonePage z) r.view ev, filter := .running .restrike (s.zonePage z).tzf.val
      phase := some .filtering }) (by intro; rfl)
  split
  · exact h.trans (restrikeFilterExpiry_zstep _ z)
  · exact h

theorem trippedVote_zstep (s : State) (z : Zone) (ev : Option Chan) : ZStep s (s.trippedVote z ev) := by
  unfold State.trippedVote
  simp only
  refine ZStep.trans (modZone_zstep s z (fun r =>
    { r with
      lit := voteSatisfied (s.zonePage z) s.zev.zones[z].view
      degraded := voteDegraded (s.zonePage z) s.zev.zones[z].view }) (by intro; rfl)) ?_
  split
  · exact modZone_zstep _ z _ (by intro; rfl)
  · exact startRestrike_zstep _ z ev
  · exact modZone_zstep _ z _ (by intro; rfl)
  · exact .refl _

theorem reevaluate_zstep (s : State) (z : Zone) (ev : Option Chan) : ZStep s (s.reevaluate z ev) := by
  have keep : ZStep s (s.modZone z fun r => { r with degraded := voteDegraded (s.zonePage z) s.zev.zones[z].view }) :=
    modZone_zstep s z _ (by intro; rfl)
  unfold State.reevaluate
  simp only
  split
  · exact .refl s
  · exact trippedVote_zstep s z ev
  · split
    · exact .refl s
    · split
      · exact (toQuiet_zstep s z).trans (toLit_zstep _ z ev)
      · exact toQuiet_zstep s z
  · split
    · exact toBlocked_zstep s z
    · split
      · exact toLit_zstep s z ev
      · exact keep
  all_goals
    split
    · exact toBlocked_zstep s z
    · split
      · exact keep
      · exact toQuiet_zstep s z

theorem statusEvent_zstep (s : State) (z : Zone) (n : Chan) (st : MemberStatus) : ZStep s (s.statusEvent z n st) :=
  (modZone_zstep s z _ (by intro; rfl)).trans (reevaluate_zstep _ z _)

/-- An event at the LCU: what its change does, and then a step of the zone. -/
theorem lcuEvent_zstep (s : State) (n : Chan) (f : State → State) : ZStep (f s) (s.lcuEvent n f) := by
  unfold State.lcuEvent
  simp only
  split
  · exact .refl _
  · split
    · exact .refl _
    · exact statusEvent_zstep _ _ _ _

theorem foldl_zstep {α : Type} (f : State → α → State) (hf : ∀ s a, ZStep s (f s a)) (as : List α) (s : State) :
    ZStep s (as.foldl f s) := by
  induction as generalizing s with
  | nil => exact .refl s
  | cons a as ih => exact (hf s a).trans (ih (f s a))

theorem inFreeOrder_zstep (s : State) (zs : List Zone) (f : Zone → State → State) (hf : ∀ z t, ZStep t (f z t)) :
    ZStep s (s.inFreeOrder zs f) := by
  unfold State.inFreeOrder
  refine ZStep.trans ?_ (foldl_zstep _ (fun t z => hf z t) _ _)
  exact ⟨rfl, fun _ => ⟨rfl, rfl, fun _ h => h⟩, rfl, rfl, rfl, rfl, rfl, rfl, fun _ => rfl, fun h => ⟨h, rfl⟩, rfl, id, ⟨id, id⟩, id, id⟩

theorem draw_zstep (s : State) : ZStep s s.draw.2 :=
  ⟨rfl, fun _ => ⟨rfl, rfl, fun _ h => h⟩, rfl, rfl, rfl, rfl, rfl, rfl, fun _ => rfl, fun h => ⟨h, rfl⟩, rfl, id, ⟨id, id⟩, id, id⟩

theorem askConfirmation_zstep (s : State) : ZStep s s.askConfirmation := by
  unfold State.askConfirmation
  simp only
  split
  · exact .refl s
  · exact inFreeOrder_zstep s _ _ fun z t => decideArc_zstep t z

theorem askConfirmationWith_zstep (s : State) (evidence : State → State) (h : ∀ t, ZStep t (evidence t)) :
    ZStep s (s.askConfirmationWith evidence) := by
  have decides := fun zs t => foldl_zstep (fun t z => State.decideArc t z) (fun t z => decideArc_zstep t z) zs t
  unfold State.askConfirmationWith
  simp only
  split
  · exact h s
  · refine ZStep.trans ?_ ((decides _ _).trans ((h _).trans (decides _ _)))
    exact ⟨rfl, fun _ => ⟨rfl, rfl, fun _ h => h⟩, rfl, rfl, rfl, rfl, rfl, rfl, fun _ => rfl, fun h => ⟨h, rfl⟩, rfl, id, ⟨id, id⟩, id, id⟩

theorem couplerEvidence_zstep (s : State) (before : Vector CouplerRec 3) : ZStep s (s.couplerEvidence before) :=
  foldl_zstep (fun t j => t.openEvidence (.tc j)) (fun t _ => openEvidence_zstep t _) _ s

theorem topHandOff_zstep (s : State) (before : Vector CouplerRec 3) : ZStep s (s.topHandOff before) := by
  unfold State.topHandOff
  simp only
  have h := couplerEvidence_zstep s before
  split
  · exact h
  · exact h.trans (askConfirmation_zstep _)

theorem leaveTripped_zstep (s : State) (z : Zone) : ZStep s (s.leaveTripped z) := by
  have h0 := modZone_zstep s z (fun r => { r with filter := .stopped, phase := none }) (by intro; rfl)
  unfold State.leaveTripped
  simp only
  split
  · exact (h0.trans (modZone_zstep _ z _ (by intro; rfl))).trans (enterZone_zstep _ z _)
  · split
    · exact h0.trans (toBlocked_zstep _ z)
    · split
      · exact (h0.trans (toQuiet_zstep _ z)).trans (toLit_zstep _ z none)
      · exact h0.trans (toQuiet_zstep _ z)

theorem startPlaced_zstep (s : State) (z : Zone) : ZStep s (s.startPlaced z) := by
  unfold State.startPlaced
  simp only
  split
  · exact .refl s
  · split
    · exact toLit_zstep s z none
    · exact startRestrike_zstep s z none
    · exact .refl s

theorem placeAll_zstep (s : State) : ZStep s s.placeAll := by
  unfold State.placeAll
  simp only
  split
  · exact ⟨rfl, (raise_zstep s .zoneBlocked).masks, rfl, rfl, rfl, rfl, rfl, rfl, fun _ => rfl, fun h => ⟨h, rfl⟩, rfl,
      id, ⟨fun _ => rfl, id⟩, fun _ => dueInv_settleDue _, id⟩
  · exact ⟨rfl, fun _ => ⟨rfl, rfl, fun _ h => h⟩, rfl, rfl, rfl, rfl, rfl, rfl, fun _ => rfl, fun h => ⟨h, rfl⟩, rfl, id,
      ⟨fun _ => rfl, id⟩, fun _ => dueInv_settleDue _, id⟩

theorem startAllPlaced_zstep (s : State) : ZStep s s.startAllPlaced := by
  unfold State.startAllPlaced
  simp only
  have h := foldl_zstep (fun t z => State.startPlaced t z) (fun t z => startPlaced_zstep t z)
    ((List.finRange 8).filter fun z => !s.instant z) s
  split
  · exact h
  · exact h.trans (inFreeOrder_zstep _ _ _ fun z t => startPlaced_zstep t z)

theorem placeZones_zstep (s : State) : ZStep s s.placeZones :=
  (placeAll_zstep s).trans (startAllPlaced_zstep _)

end Sys2Proof.Machine
end

