-- ==== Sys2Proof/Laws/LightStep.lean ====
section
/-! SUPPORT. What the operations of the Light Channel Unit and of the Fibre Supervision Unit can do, said once: `LStep s t`
holds of the state before and the state after each of them. -/

namespace Sys2Proof.Machine

/-! ### Changes of a channel leave its mask flag -/

@[simp] theorem withLevels_mask (c : Channel) (page : ChannelPage) : (c.withLevels page).mask = c.mask := rfl
@[simp] theorem enterLearn_mask (c : Channel) (t : Nat) : (c.enterLearn t).mask = c.mask := rfl
@[simp] theorem abandonLearn_mask (c : Channel) : c.abandonLearn.mask = c.mask := rfl
@[simp] theorem recompute_mask (c : Channel) (page : ChannelPage) (t : Nat) : (c.recompute page t).mask = c.mask := by
  unfold Channel.recompute
  simp only
  split
  · rfl
  · split <;> split <;> rfl
@[simp] theorem learned_mask (c : Channel) (page : ChannelPage) : (c.learned page).mask = c.mask := rfl
@[simp] theorem relearn_mask (c : Channel) (page : ChannelPage) (t : Nat) : (c.relearn page t).mask = c.mask := by
  unfold Channel.relearn
  simp only
  split <;> simp
@[simp] theorem hold_mask (c : Channel) (page : ChannelPage) (t : Nat) (h i : Bool) :
    (c.hold page t h i).mask = c.mask := by
  unfold Channel.hold
  simp only [recompute_mask]
  split <;> rfl
@[simp] theorem startPickup_mask (c : Channel) (now : Time) : (c.startPickup now).mask = c.mask := by
  unfold Channel.startPickup
  simp only
  split <;> rfl
@[simp] theorem offerCandidate_mask (c : Channel) (v : LU) : (c.offerCandidate v).mask = c.mask := by
  unfold Channel.offerCandidate
  split <;> rfl
@[simp] theorem endFlash_mask (c : Channel) (a : Time) (d : Word) : (c.endFlash a d).mask = c.mask := rfl
@[simp] theorem stormExpiry_mask (c : Channel) (page : ChannelPage) (t : Nat) : (c.stormExpiry page t).mask = c.mask := by
  unfold Channel.stormExpiry
  simp only
  split
  · split
    · rfl
    · split
      · simp
      · rfl
  · rfl
@[simp] theorem takeUp_mask (c : Channel) (o p : ChannelPage) (t : Nat) : (c.takeUp o p t).mask = c.mask := by
  unfold Channel.takeUp
  simp only [recompute_mask, withLevels_mask]
  repeat' split
  all_goals rfl

/-! ### The relation -/

/-- The Configuration Store but for what captures, tests and the write engine change. -/
def Cfg.fixedL (c : Cfg) : Cfg := { c.fixed with staged := Image.default, testQuiet := true }

/-- What an operation of the LCU or the FSU leaves alone, and the invariants it keeps, but for the view of the test. -/
structure LCore (s t : State) : Prop where
  time : t.alr.time = s.alr.time
  masks : AlertFrame s t
  cp : t.cp = s.cp
  top : t.top = s.top
  cfg : t.cfg.fixedL = s.cfg.fixedL
  nv : t.nv = s.nv
  ports : ∀ p : Port, t.lnk[p].dropSelection = s.lnk[p].dropSelection
  drill : t.zev.drill.active = true → s.zev.drill.active = true ∧ t.zev.drill.owner = s.zev.drill.owner
  pending : t.pending = s.pending
  records : RecordsInv s → RecordsInv t
  zonesView : s.cfg.zonesQuiet = s.noZoneLit → t.cfg.zonesQuiet = t.noZoneLit
  recordsView : s.cfg.recordsQuiet = s.noRecordFiring → t.cfg.recordsQuiet = t.noRecordFiring
  write : WriteInv s → WriteInv t
  tests : TestInv s → TestInv t

/-- What an operation of the LCU or the FSU leaves alone, and the invariants it keeps. -/
structure LStep (s t : State) : Prop extends LCore s t where
  testView : s.cfg.testQuiet = s.fsu.test.isNone → t.cfg.testQuiet = t.fsu.test.isNone
  due : DueInv s → DueInv t

namespace LCore

theorem trans {s t u : State} (h : LCore s t) (g : LCore t u) : LCore s u where
  time := g.time.trans h.time
  masks := h.masks.trans g.masks
  cp := g.cp.trans h.cp
  top := g.top.trans h.top
  cfg := g.cfg.trans h.cfg
  nv := g.nv.trans h.nv
  ports p := (g.ports p).trans (h.ports p)
  drill e := ⟨(h.drill (g.drill e).1).1, (g.drill e).2.trans (h.drill (g.drill e).1).2⟩
  pending := g.pending.trans h.pending
  records i := g.records (h.records i)
  zonesView i := g.zonesView (h.zonesView i)
  recordsView i := g.recordsView (h.recordsView i)
  write i := g.write (h.write i)
  tests i := g.tests (h.tests i)

theorem active {s t : State} (h : LCore s t) : t.cfg.active = s.cfg.active := by
  have := congrArg Cfg.active h.cfg; exact this
theorem claim {s t : State} (h : LCore s t) : t.cfg.claim = s.cfg.claim := by
  have := congrArg Cfg.claim h.cfg; exact this
theorem pendingCommit {s t : State} (h : LCore s t) : t.cfg.pendingCommit = s.cfg.pendingCommit := by
  have := congrArg Cfg.pendingCommit h.cfg; exact this
theorem portState {s t : State} (h : LCore s t) (p : Port) : t.lnk[p].state = s.lnk[p].state := by
  have := congrArg PortRec.state (h.ports p); exact this

/-- The FSU's notice brings the view of the test in line (R178). -/
theorem notice {s t : State} (h : LCore s t) : LStep s t.noticeTest where
  time := h.time
  masks := h.masks
  cp := h.cp
  top := h.top
  cfg := h.cfg
  nv := h.nv
  ports := h.ports
  drill := h.drill
  pending := h.pending
  records := h.records
  zonesView := h.zonesView
  recordsView := h.recordsView
  write := h.write
  tests := h.tests
  testView _ := rfl
  due _ := dueInv_settleDue _

end LCore

namespace LStep

theorem refl (s : State) : LStep s s :=
  ⟨⟨rfl, fun _ => ⟨rfl, rfl, fun _ h => h⟩, rfl, rfl, rfl, rfl, fun _ => rfl, fun h => ⟨h, rfl⟩, rfl, id, id, id, id, id⟩, id, id⟩

theorem trans {s t u : State} (h : LStep s t) (g : LStep t u) : LStep s u :=
  ⟨h.toLCore.trans g.toLCore, fun i => g.testView (h.testView i), fun i => g.due (h.due i)⟩

theorem views {s t : State} (h : LStep s t) (i : ViewsInv s) : ViewsInv t :=
  ⟨h.zonesView i.1, h.recordsView i.2.1, h.testView i.2.2⟩

end LStep

theorem testInv_congr {s t : State} (hl : ∀ n : Chan, t.lcu[n].mask = s.lcu[n].mask)
    (ht : t.fsu.test.map (·.chan) = s.fsu.test.map (·.chan))
    (hc : ∀ n : Chan, t.fsu.clarity[n].testing = s.fsu.clarity[n].testing)
    (hq : t.fsu.queue.length ≤ s.fsu.queue.length ∧
      (t.fsu.queue.map (·.chan)).Sublist (s.fsu.queue.map (·.chan))) (i : TestInv s) : TestInv t := by
  have he : ∀ n, t.emitter n = s.emitter n := by
    intro n
    unfold State.emitter
    cases h1 : t.fsu.test <;> cases h2 : s.fsu.test <;> simp_all
  refine ⟨fun n => ?_, hq.1.trans i.2.1, hq.2.nodup i.2.2⟩
  rw [hl, hc, he]
  exact i.1 n

/-- A step of the TRM or the ZEV is one of these. -/
theorem ZStep.light {s t : State} (h : ZStep s t) : LStep s t where
  time := h.time
  masks := h.masks
  cp := h.cp
  top := h.top
  cfg := congrArg (fun c : Cfg => { c with staged := Image.default, testQuiet := true }) h.cfg
  nv := h.nv
  ports := h.ports
  drill := h.drill
  pending := h.pending
  records := h.records
  zonesView := h.views.1
  recordsView := h.views.2
  write := h.write
  tests := testInv_congr (by rw [h.lcu]; simp) (by rw [h.fsu]) (by rw [h.fsu]; simp) (by rw [h.fsu]; simp)
  testView := by
    have := congrArg Cfg.testQuiet h.cfg
    have h2 : t.cfg.testQuiet = s.cfg.testQuiet := this
    rw [h2, h.fsu]
    exact id
  due := h.due

/-! ### The frames of Safety.lean -/

theorem cfg_of_fixed {c d : Cfg} (h : c.fixed = d.fixed) :
    c = { d with
      engine := c.engine, saveWaiting := c.saveWaiting, job := c.job, zonesQuiet := c.zonesQuiet
      recordsQuiet := c.recordsQuiet, transferDue := c.transferDue } := by
  cases c; cases d
  simp only [Cfg.fixed, Cfg.mk.injEq] at h ⊢
  tauto

theorem port_of_dropSelection {q r : PortRec} (h : q.dropSelection = r.dropSelection) :
    q = { r with selection := q.selection, latch := q.latch } := by
  cases q; cases r
  simp only [PortRec.dropSelection, PortRec.mk.injEq] at h ⊢
  tauto

theorem ZStep.tripFrame {s t : State} (h : ZStep s t) : TripFrame s t :=
  ⟨h.time, h.masks, h.cp, h.lcu, h.fsu, h.top, h.nv, h.pending, fun p => port_of_dropSelection (h.ports p),
    cfg_of_fixed h.cfg⟩

theorem LStep.lightFrame {s t : State} (h : LStep s t) : LightFrame s t := by
  refine ⟨h.time, h.masks, h.cp, rfl, rfl, h.top, h.nv, h.pending, fun p => port_of_dropSelection (h.ports p), ?_⟩
  have e := h.cfg
  generalize t.cfg = c at e
  cases c
  generalize s.cfg = d at e
  cases d
  simp only [Cfg.fixedL, Cfg.fixed, Cfg.mk.injEq] at e ⊢
  tauto

theorem TripFrame.refl (s : State) : TripFrame s s := (ZStep.refl s).tripFrame

theorem LightFrame.refl (s : State) : LightFrame s s := (LStep.refl s).lightFrame

/-! ### Plain changes -/

theorem raise_lstep (s : State) (a : Alert) : LStep s (s.raise a) := (raise_zstep s a).light

/-- A change of a channel that keeps its mask flag. -/
theorem modChan_lstep (s : State) (n : Chan) (f : Channel → Channel) (hf : ∀ c, (f c).mask = c.mask) :
    LStep s (s.modChan n f) := by
  refine ⟨⟨rfl, fun _ => ⟨rfl, rfl, fun _ h => h⟩, rfl, rfl, rfl, rfl, fun _ => rfl, fun h => ⟨h, rfl⟩, rfl, id, id, id, id, ?_⟩, id, id⟩
  refine testInv_congr (fun m => ?_) rfl (fun _ => rfl) ⟨le_refl _, List.Sublist.refl _⟩
  show (modAt s.lcu n f)[m].mask = _
  rw [modAt_get]
  split
  · rename_i h; rw [hf, h]
  · rfl

/-- A change of a clarity record that keeps its testing flag. -/
theorem modClarity_lstep (s : State) (n : Chan) (f : ClarityRec → ClarityRec) (hf : ∀ c, (f c).testing = c.testing) :
    LStep s (s.modClarity n f) := by
  refine ⟨⟨rfl, fun _ => ⟨rfl, rfl, fun _ h => h⟩, rfl, rfl, rfl, rfl, fun _ => rfl, fun h => ⟨h, rfl⟩, rfl, id, id, id, id, ?_⟩, id, id⟩
  refine testInv_congr (fun _ => rfl) rfl (fun m => ?_) ⟨le_refl _, List.Sublist.refl _⟩
  show (modAt s.fsu.clarity n f)[m].testing = _
  rw [modAt_get]
  split
  · rename_i h; rw [hf, h]
  · rfl

/-- The queue of requests loses members. -/
theorem setQueue_lstep (s : State) (q : List Request) (hq : q.Sublist s.fsu.queue) :
    LStep s { s with fsu.queue := q } :=
  ⟨⟨rfl, fun _ => ⟨rfl, rfl, fun _ h => h⟩, rfl, rfl, rfl, rfl, fun _ => rfl, fun h => ⟨h, rfl⟩, rfl, id, id, id, id,
    testInv_congr (fun _ => rfl) rfl (fun _ => rfl) ⟨hq.length_le, hq.map _⟩⟩, id, id⟩

theorem lcuEvent_lstep (s : State) (n : Chan) (f : State → State) (h : LStep s (f s)) : LStep s (s.lcuEvent n f) :=
  h.trans (lcuEvent_zstep s n f).light

/-! ### Light channels -/

theorem stormFlash_lstep (s : State) (n : Chan) : LStep s (s.stormFlash n) := by
  have h := modChan_lstep s n (fun c =>
    let c' := { c with stormCount := satInc c.stormCount }
    if stormPasses (s.chanPage n) s.lcu[n] && decide ((s.chanPage n).stormAction = .demote) &&
        decide ((s.chanPage n).target = .armed) && !c.demoted then
      { c' with demoted := true, quiet := 0 }.recompute (s.chanPage n) s.tLearn
    else c') (by intro c; simp only; split <;> simp)
  unfold State.stormFlash
  simp only
  split
  · exact h.trans (raise_lstep _ _)
  · exact h

theorem learnDropout_lstep (s : State) (n : Chan) : LStep s (s.learnDropout n) := by
  unfold State.learnDropout
  simp only
  split
  · exact .refl s
  · split
    · have h := modChan_lstep s n (fun c =>
        { c with restarts := satInc c.restarts, candidate := 0, window := .running s.tLearn, disturbance := false })
        (by intro; rfl)
      split
      · exact h.trans (raise_lstep _ _)
      · exact h
    · exact modChan_lstep s n _ (by intro; rfl)

theorem endPickup_lstep (s : State) (n : Chan) (a : Time) (d : Word) : LStep s (s.endPickup n a d) := by
  have h := modChan_lstep s n (fun c => c.endFlash a d) (by intro; rfl)
  unfold State.endPickup
  simp only
  split
  · exact (h.trans (stormFlash_lstep _ n)).trans (learnDropout_lstep _ n)
  · exact h.trans (learnDropout_lstep _ n)

theorem pickupSample_lstep (s : State) (n : Chan) (v : LU) : LStep s (s.pickupSample n v) := by
  unfold State.pickupSample
  simp only
  split
  · exact modChan_lstep s n _ (by intro; rfl)
  · split
    · exact endPickup_lstep s n _ _
    · exact modChan_lstep s n _ (by intro; rfl)

/-! ### The test in flight -/

/-- The test in flight goes, with its mask and testing flags (R38, R39). -/
theorem clearTest_lcore (s : State) (t : TestRun) (ht : s.fsu.test = some t) (f : ClarityRec → ClarityRec)
    (hf : ∀ r, (f r).testing = false) :
    LCore s ((({ s with fsu.test := none } : State).modChan t.chan fun c => { c with mask := false }).modClarity t.chan f) := by
  refine ⟨rfl, fun _ => ⟨rfl, rfl, fun _ h => h⟩, rfl, rfl, rfl, rfl, fun _ => rfl, fun h => ⟨h, rfl⟩, rfl, id, id, id, id, ?_⟩
  rintro ⟨h1, h2⟩
  refine ⟨fun n => ?_, h2⟩
  have h := h1 n
  have e : s.emitter n = decide (t.chan = n) := by unfold State.emitter; rw [ht]
  rw [e] at h
  show (modAt s.lcu t.chan _)[n].mask = false ∧ (modAt s.fsu.clarity t.chan f)[n].testing = false
  rw [modAt_get, modAt_get]
  by_cases hn : n = t.chan
  · simp [hn, hf]
  · have : t.chan ≠ n := fun e => hn e.symm
    rw [decide_eq_false this] at h
    simpa [hn] using h

/-- A test begins where none is in flight, with its mask and testing flags (R36). -/
theorem setTest_lcore (s : State) (t : TestRun) (ht : s.fsu.test = none) (f : ClarityRec → ClarityRec)
    (hf : ∀ r, (f r).testing = true) :
    LCore s ((({ s with fsu.test := some t } : State).modChan t.chan fun c => { c with mask := true }).modClarity t.chan f) := by
  refine ⟨rfl, fun _ => ⟨rfl, rfl, fun _ h => h⟩, rfl, rfl, rfl, rfl, fun _ => rfl, fun h => ⟨h, rfl⟩, rfl, id, id, id, id, ?_⟩
  rintro ⟨h1, h2⟩
  refine ⟨fun n => ?_, h2⟩
  have h := h1 n
  have e : s.emitter n = false := by unfold State.emitter; rw [ht]
  rw [e] at h
  show (modAt s.lcu t.chan _)[n].mask = decide (t.chan = n) ∧ (modAt s.fsu.clarity t.chan f)[n].testing = decide (t.chan = n)
  rw [modAt_get, modAt_get]
  by_cases hn : n = t.chan
  · simp [hn, hf]
  · have : t.chan ≠ n := fun e => hn e.symm
    rw [decide_eq_false this]
    simpa [hn] using h

theorem abortTest_lstep (s : State) : LStep s s.abortTest := by
  unfold State.abortTest
  split
  · exact .refl s
  · rename_i t ht
    exact (clearTest_lcore s t ht _ (by intro; rfl)).notice

theorem startTest_lstep (s : State) (n : Chan) (k : TestKind) (ht : s.fsu.test = none) : LStep s (s.startTest n k) :=
  (setTest_lcore s ⟨n, k, 0, 40⟩ ht _ (by intro; rfl)).notice

theorem pickupAborts_lstep (s : State) (m : Chan) : LStep s (s.pickupAborts m) := by
  unfold State.pickupAborts
  split
  · exact .refl s
  · split
    · exact abortTest_lstep s
    · exact .refl s

theorem evaluateSample_lstep (s : State) (n : Chan) (v : LU) : LStep s (s.evaluateSample n v) := by
  refine lcuEvent_lstep s n _ ((offerPeak_zstep s n v).light.trans ?_)
  simp only
  split
  · exact pickupSample_lstep _ n v
  · split
    · exact (modChan_lstep _ n _ (by intro; simp)).trans (pickupAborts_lstep _ n)
    · exact modChan_lstep _ n _ (by intro; simp)

/-! ### Requests and the scan -/

theorem skipRequest_lstep (s : State) (r : Request) : LStep s (s.skipRequest r) :=
  modClarity_lstep s r.chan _ (by intro; rfl)

theorem serveQueue_lstep (q : List Request) (s : State) (ht : s.fsu.test = none) (hq : q.Sublist s.fsu.queue) :
    LStep s (s.serveQueue q) := by
  induction q generalizing s with
  | nil => exact setQueue_lstep s [] (List.nil_sublist _)
  | cons r rest ih =>
    unfold State.serveQueue
    split
    · exact (skipRequest_lstep s r).trans (ih (s.skipRequest r) ht ((List.sublist_cons_self r rest).trans hq))
    · split
      · exact (setQueue_lstep s rest ((List.sublist_cons_self r rest).trans hq)).trans (startTest_lstep _ _ _ ht)
      · exact setQueue_lstep s _ hq

theorem deferChan_lstep (s : State) (n : Chan) : LStep s (s.deferChan n) := by
  unfold State.deferChan
  split
  · exact modClarity_lstep s n _ (by intro; rfl)
  · exact .refl s

theorem deferChan_test (s : State) (n : Chan) : (s.deferChan n).fsu.test = s.fsu.test := by
  unfold State.deferChan
  split <;> rfl

theorem scan_lstep (ns : List Chan) (s : State) (ht : s.fsu.test = none) : LStep s (s.scan ns) := by
  induction ns generalizing s with
  | nil => exact .refl s
  | cons n rest ih =>
    unfold State.scan
    split
    · refine LStep.trans ?_ (startTest_lstep { s with fsu.pointer := nextChan n } n .roundRobin ht)
      exact ⟨⟨rfl, fun _ => ⟨rfl, rfl, fun _ h => h⟩, rfl, rfl, rfl, rfl, fun _ => rfl, fun h => ⟨h, rfl⟩, rfl, id, id, id, id, id⟩, id, id⟩
    · exact (deferChan_lstep s n).trans (ih _ (by rw [deferChan_test]; exact ht))

/-! ### Completion -/

theorem classify_lstep (s : State) (n : Chan) (o : TestOutcome) (c : Nat) : LStep s (s.classify n o c) := by
  have h := modClarity_lstep s n (fun r => r.classify s.cfg.active.board o c) (by intro; rfl)
  unfold State.classify
  simp only
  split
  · exact h
  · split
    · split
      · exact h.trans (raise_lstep _ _)
      · exact h
    · split
      · exact (h.trans (raise_lstep _ _)).trans (modChan_lstep _ n _ (by intro; simp))
      · exact h.trans (modChan_lstep _ n _ (by intro; simp))

theorem stageARef_lstep (s : State) (n : Chan) (a : LU) : LStep s (s.stageARef n a) :=
  ⟨⟨rfl, fun _ => ⟨rfl, rfl, fun _ h => h⟩, rfl, rfl, rfl, rfl, fun _ => rfl, fun h => ⟨h, rfl⟩, rfl, id, id, id, id, id⟩, id, id⟩

theorem endCapture_lstep (s : State) (n : Chan) (o : TestOutcome) (a : LU) : LStep s (s.endCapture n o a) := by
  unfold State.endCapture
  split
  · exact modClarity_lstep s n _ (by intro; rfl)
  · exact (stageARef_lstep s n a).trans (modClarity_lstep _ n _ (by intro; rfl))

theorem judge_lstep (s : State) (t : TestRun) : LStep s (s.judge t) := by
  unfold State.judge
  simp only
  split
  · exact modClarity_lstep s t.chan _ (by intro; rfl)
  · exact classify_lstep s _ _ _

theorem completeTest_lstep (s : State) : LStep s s.completeTest := by
  unfold State.completeTest
  split
  · exact .refl s
  · rename_i t ht
    refine lcuEvent_lstep s t.chan _ ?_
    simp only
    have h0 := clearTest_lcore s t ht (fun r => { r with testing := false }) (by intro; rfl)
    have h1 := h0.trans (judge_lstep _ t).toLCore
    split
    · exact (h1.trans (endCapture_lstep _ _ _ _).toLCore).notice
    · exact h1.notice

theorem testSample_lstep (s : State) (n : Chan) (v : LU) : LStep s (s.testSample n v) := by
  unfold State.testSample
  split
  · exact .refl s
  · rename_i t ht
    split
    · exact .refl s
    · simp only
      have h : LStep s ({ s with
          fsu.test := some
            { t with amplitude := if t.amplitude < v then v else t.amplitude, samplesLeft := t.samplesLeft - 1 } } :
            State).settleDue := by
        refine ⟨⟨rfl, fun _ => ⟨rfl, rfl, fun _ h => h⟩, rfl, rfl, rfl, rfl, fun _ => rfl, fun h => ⟨h, rfl⟩, rfl, id, id, id, id, ?_⟩, ?_, fun _ => dueInv_settleDue _⟩
        · exact testInv_congr (fun _ => rfl) (by rw [ht]; rfl) (fun _ => rfl) ⟨le_refl _, List.Sublist.refl _⟩
        · rw [ht]; exact id
      split
      · exact h.trans (completeTest_lstep _)
      · exact h

/-- A change of the FSU's state that keeps whether a test is in flight and how many samples it lacks. -/
theorem fsuChange_lstep (s : State) (x : Fsu) (ht : x.test.map (·.samplesLeft) = s.fsu.test.map (·.samplesLeft))
    (hi : TestInv s → TestInv { s with fsu := x }) : LStep s { s with fsu := x } :=
  ⟨⟨rfl, fun _ => ⟨rfl, rfl, fun _ h => h⟩, rfl, rfl, rfl, rfl, fun _ => rfl, fun h => ⟨h, rfl⟩, rfl, id, id, id, id, hi⟩,
    fun i => i.trans (by simpa using (congrArg Option.isNone ht).symm), dueInv_congr rfl ht⟩

theorem capturesLoseClaim_lstep (s : State) : LStep s s.capturesLoseClaim := by
  refine fsuChange_lstep s _ ?_ ?_
  · cases s.fsu.test <;> rfl
  · refine testInv_congr (fun _ => rfl) ?_ (fun n => ?_) ⟨?_, ?_⟩
    · show (s.fsu.test.map _).map _ = _
      rw [Option.map_map]
      rfl
    · refine (congrArg ClarityRec.testing (ofFn_get _ n)).trans ?_
      split <;> rfl
    · show (s.fsu.queue.map _).length ≤ _
      rw [List.length_map]
    · show ((s.fsu.queue.map _).map _).Sublist _
      rw [List.map_map]
      exact List.Sublist.refl _

end Sys2Proof.Machine
end

