-- ==== Sys2Proof/Laws/Keeps.lean ====
section
/-! SUPPORT. Which invariants each operation keeps, from its state before to its state after: `Keeps s t`. -/

namespace Sys2Proof.Machine

/-- Every invariant of Safety.lean that holds of `s` holds of `t`, each by itself; and the queue is as it was. -/
structure Keeps (s t : State) : Prop where
  pending : t.pending = s.pending
  islands : IslandsInv s → IslandsInv t
  records : RecordsInv s → RecordsInv t
  links : LinksInv s → LinksInv t
  tests : TestInv s → TestInv t
  write : WriteInv s → WriteInv t
  views : ViewsInv s → ViewsInv t
  due : DueInv s → DueInv t

namespace Keeps

theorem refl (s : State) : Keeps s s := ⟨rfl, id, id, id, id, id, id, id⟩

theorem trans {s t u : State} (h : Keeps s t) (g : Keeps t u) : Keeps s u where
  pending := g.pending.trans h.pending
  islands i := g.islands (h.islands i)
  records i := g.records (h.records i)
  links i := g.links (h.links i)
  tests i := g.tests (h.tests i)
  write i := g.write (h.write i)
  views i := g.views (h.views i)
  due i := g.due (h.due i)

end Keeps

theorem linksInv_congr {s t : State} (ha : t.cfg.active = s.cfg.active)
    (hp : ∀ p : Port, t.lnk[p].state = s.lnk[p].state) (hr : t.top.reports = s.top.reports)
    (hc : t.cfg.claim = s.cfg.claim)
    (hd : t.zev.drill.active = true → s.zev.drill.active = true ∧ t.zev.drill.owner = s.zev.drill.owner)
    (i : LinksInv s) : LinksInv t := by
  intro p
  obtain ⟨h1, h2⟩ := i p
  refine ⟨?_, fun hl => ?_⟩
  · rw [hp]; unfold State.used at h1 ⊢; rw [ha]; exact h1
  · rw [hp] at hl
    obtain ⟨g1, g2, g3⟩ := h2 hl
    refine ⟨by rw [hr]; exact g1, by rw [hc]; exact g2, fun e => ?_⟩
    rw [(hd e).2]
    exact g3 (hd e).1

theorem LStep.keeps {s t : State} (h : LStep s t) : Keeps s t where
  pending := h.pending
  islands := by
    unfold IslandsInv
    have : t.joined = s.joined := by unfold State.joined; rw [h.top]
    rw [this, h.top]
    exact id
  records := h.records
  links := linksInv_congr h.active h.portState (by rw [h.top]) h.claim h.drill
  tests := h.tests
  write := h.write
  views := h.views
  due := h.due

theorem ZStep.keeps {s t : State} (h : ZStep s t) : Keeps s t := h.light.keeps

/-! ### Ports -/

/-- A change of the ports that keeps their port states. -/
theorem setPorts_keeps (s : State) (l : Vector PortRec 4) (h : ∀ q : Port, l[q].state = s.lnk[q].state) :
    Keeps s { s with lnk := l } :=
  ⟨rfl, id, id, linksInv_congr rfl h rfl rfl fun e => ⟨e, rfl⟩, id, id, id, id⟩

/-- A change of a port that keeps its port state. -/
theorem modPort_keeps (s : State) (p : Port) (f : PortRec → PortRec) (hf : ∀ r, (f r).state = r.state) :
    Keeps s (s.modPort p f) := by
  refine setPorts_keeps s _ fun q => ?_
  rw [modAt_get]
  split
  · rename_i h; rw [hf, h]
  · rfl

theorem setSlot_keeps (s : State) (p : Port) (r : Reply) : Keeps s (s.setSlot p r) :=
  modPort_keeps s p _ (by intro; rfl)

theorem beginFrame_keeps (s : State) (p : Port) (b : Bool) : Keeps s (s.beginFrame p b) :=
  modPort_keeps s p _ (by intro; rfl)

theorem openFrame_keeps (s : State) (p : Port) (b : Bool) : Keeps s (s.openFrame p b) := by
  unfold State.openFrame
  split
  · exact beginFrame_keeps s p b
  · exact .refl s

theorem clock_keeps (s : State) (p : Port) (es : List Edge) : Keeps s (s.clock p es) :=
  modPort_keeps s p _ fun r => (clockAll_same r es).state

theorem receive_keeps (s : State) (p : Port) (n : Nat) (b : Bool) (w : BitVec 40) : Keeps s (s.receive p n b w) :=
  (openFrame_keeps s p false).trans (modPort_keeps _ p _ fun r => (clockAll_same r _).state)

theorem riseSelect_keeps (s : State) (p : Port) (k : State → State) (hk : ∀ t, Keeps t (k t)) :
    Keeps s (s.riseSelect p k) := by
  have h := modPort_keeps s p PortRec.closeFrame (by intro; rfl)
  unfold State.riseSelect
  simp only
  split
  · exact h
  · exact h.trans (modPort_keeps _ p _ (by intro; rfl))
  · exact (h.trans (modPort_keeps _ p (fun q => { q with frameErr := false }) (by intro; rfl))).trans (hk _)

theorem goodFrame_keeps (s : State) (p : Port) (c : BitVec 4) (f : Fields) (k : State → State)
    (hk : ∀ t, Keeps t (k t)) : Keeps s (s.goodFrame p c f k) := by
  unfold State.goodFrame
  simp only
  split
  · exact (receive_keeps s p _ _ _).trans (riseSelect_keeps _ p k hk)
  · exact .refl s

/-- A function keeps what its body keeps in a port state that permits it. -/
theorem function_keeps (s : State) (p : Port) (fn : Fn) (f : Fields) (body : State → State)
    (hb : ∀ t : State, fn.permitted t.lnk[p].state = true → Keeps t (body t)) : Keeps s (s.function p fn f body) := by
  refine goodFrame_keeps s p _ _ _ fun t => ?_
  split
  · rename_i h; exact hb t h
  · split
    · exact setSlot_keeps _ _ _
    · exact setSlot_keeps _ _ _

theorem control_keeps (s : State) (p : Port) (sub : Byte) (page : BitVec 4) (v : Word) (body : State → State)
    (hb : ∀ t : State, t.lnk[p].state = .live → Keeps t (body t)) : Keeps s (s.control p sub page v body) :=
  function_keeps s p .control _ body fun t h => hb t (by simpa [Fn.permitted] using h)

theorem modAlerts_keeps (s : State) (p : Port) (g : AlertRec → AlertRec) : Keeps s (s.modAlerts p g) :=
  ⟨rfl, id, id, linksInv_congr rfl (fun _ => rfl) rfl rfl fun e => ⟨e, rfl⟩, id, id, id, id⟩

/-! ### The Configuration Store -/

/-- A change of the Configuration Store in fields that no invariant reads. -/
theorem setCfg_keeps (s : State) (c : Cfg) (ha : c.active = s.cfg.active) (hc : c.claim = s.cfg.claim)
    (h1 : c.engine = s.cfg.engine) (h2 : c.saveWaiting = s.cfg.saveWaiting) (h3 : c.job = s.cfg.job)
    (h4 : c.saveStatus = s.cfg.saveStatus) (h5 : c.zonesQuiet = s.cfg.zonesQuiet)
    (h6 : c.recordsQuiet = s.cfg.recordsQuiet) (h7 : c.testQuiet = s.cfg.testQuiet)
    (h8 : c.pendingCommit = s.cfg.pendingCommit) (h9 : c.transferDue = s.cfg.transferDue) : Keeps s { s with cfg := c } := by
  refine ⟨rfl, id, id, linksInv_congr ha (fun _ => rfl) rfl hc fun e => ⟨e, rfl⟩, id, ?_, ?_, ?_⟩
  · exact fun i => ⟨engineOk_congr rfl h1 h2 h3 h4 i.1, i.2⟩
  · exact fun i => ⟨h5.trans i.1, h6.trans i.2.1, h7.trans i.2.2⟩
  · unfold DueInv State.DueAfter
    simp only [h5, h6, h7, h8, h9]
    exact id

/-- The claim is taken away (R172, R173). -/
theorem releaseClaim_keeps (s : State) : Keeps s s.releaseClaim := by
  have h0 : Keeps s { s with cfg.claim := none } := by
    refine ⟨rfl, id, id, ?_, id, id, id, id⟩
    intro i p
    refine ⟨(i p).1, fun hl => ⟨((i p).2 hl).1, by simp, ((i p).2 hl).2.2⟩⟩
  unfold State.releaseClaim
  simp only
  refine Keeps.trans (h0.trans ?_) (capturesLoseClaim_lstep _).keeps
  split
  · exact .refl _
  · exact setCfg_keeps { s with cfg.claim := none } _ rfl rfl rfl rfl rfl rfl rfl rfl rfl rfl rfl

/-! ### The Topology Unit -/

/-- What the resolution of couplers leaves alone, and that it leaves the islands in line (R57, R60). -/
theorem topResolve_spec (s : State) (which : Coupler → Bool) :
    ZStep { s with top := (s.topResolve which).top } (s.topResolve which) ∧
      (s.topResolve which).top.reports = s.top.reports ∧ (IslandsInv s → IslandsInv (s.topResolve which)) := by
  unfold State.topResolve
  simp only
  split
  · exact ⟨.refl s, rfl, id⟩
  · split
    · exact ⟨raise_zstep _ _, rfl, fun _ => rfl⟩
    · exact ⟨.refl _, rfl, fun _ => rfl⟩

/-- A change of the Topology Unit that leaves the islands in line. -/
theorem setTop_keeps (s : State) (x : Top) (hi : IslandsInv s → IslandsInv { s with top := x })
    (hl : LinksInv s → LinksInv { s with top := x }) : Keeps s { s with top := x } := ⟨rfl, hi, id, hl, id, id, id, id⟩

theorem topResolve_keeps (s : State) (which : Coupler → Bool) : Keeps s (s.topResolve which) := by
  obtain ⟨h1, h2, h3⟩ := topResolve_spec s which
  refine Keeps.trans (setTop_keeps s (s.topResolve which).top ?_ ?_) h1.keeps
  · intro i
    have := h3 i
    unfold IslandsInv at this ⊢
    exact this
  · exact linksInv_congr rfl (fun _ => rfl) h2 rfl fun e => ⟨e, rfl⟩

theorem topHandOff_keeps (s : State) (before : Vector CouplerRec 3) : Keeps s (s.topHandOff before) :=
  (topHandOff_zstep s before).keeps

/-- A report record is set at a port that is LIVE, or to NONE. -/
theorem setReport_keeps (s : State) (p : Port) (r : ReportRec) (h : s.lnk[p].state = .live ∨ r = ReportRec.empty) :
    Keeps s (s.setReport p r) := by
  refine setTop_keeps s _ id ?_
  intro i q
  refine ⟨(i q).1, fun hl => ⟨?_, ((i q).2 hl).2⟩⟩
  show (s.top.reports.set p r)[q] = _
  by_cases hq : q = p
  · subst hq
    rcases h with h | h
    · exact absurd h hl
    · simp [h]
  · have : p.val ≠ q.val := fun e => hq (Fin.ext e.symm)
    simpa [this] using ((i q).2 hl).1

theorem takeReport_keeps (s : State) (p : Port) (v : ReportRec) (hl : s.lnk[p].state = .live) :
    Keeps s (s.takeReport p v) := by
  have h0 : Keeps s ((s.setReport p (takenReport s.cfg.active p v)).topResolve (adjacent p)) :=
    (setReport_keeps s p _ (.inl hl)).trans (topResolve_keeps _ _)
  have inc : ∀ t : State, ZStep t (t.incomerPosition p v.incomer) := by
    intro t
    unfold State.incomerPosition
    split
    · exact openEvidence_zstep _ _
    · exact .refl _
  unfold State.takeReport
  simp only
  split
  · exact h0.trans ((couplerEvidence_zstep _ _).trans (askConfirmationWith_zstep _ _ inc)).keeps
  · exact h0.trans ((topHandOff_keeps _ _).trans (inc _).keeps)

end Sys2Proof.Machine
end

