-- ==== Sys2Proof/Laws/Board.lean ====
section
/-! SUPPORT. The invariants through a port's leaving LIVE and through a transfer. -/

namespace Sys2Proof.Machine

/-- All invariants but that of the links, and what the links' one reads besides the port states and reports. -/
structure Quiet (s t : State) : Prop where
  pending : t.pending = s.pending
  islands : IslandsInv s → IslandsInv t
  records : RecordsInv s → RecordsInv t
  tests : TestInv s → TestInv t
  write : WriteInv s → WriteInv t
  views : ViewsInv s → ViewsInv t
  due : DueInv s → DueInv t
  drill : t.zev.drill.active = true → s.zev.drill.active = true ∧ t.zev.drill.owner = s.zev.drill.owner

/-- A `Quiet` step that also keeps the port states, the reports, the images and the claim. -/
structure Still (s t : State) : Prop extends Quiet s t where
  ports : ∀ q : Port, t.lnk[q].state = s.lnk[q].state
  reports : t.top.reports = s.top.reports
  active : t.cfg.active = s.cfg.active
  staged : t.cfg.staged = s.cfg.staged
  claim : t.cfg.claim = s.cfg.claim
  pendingCommit : t.cfg.pendingCommit = s.cfg.pendingCommit

theorem Quiet.refl (s : State) : Quiet s s := ⟨rfl, id, id, id, id, id, id, fun e => ⟨e, rfl⟩⟩

theorem Quiet.trans {s t u : State} (h : Quiet s t) (g : Quiet t u) : Quiet s u where
  pending := g.pending.trans h.pending
  islands i := g.islands (h.islands i)
  records i := g.records (h.records i)
  tests i := g.tests (h.tests i)
  write i := g.write (h.write i)
  views i := g.views (h.views i)
  due i := g.due (h.due i)
  drill e := ⟨(h.drill (g.drill e).1).1, (g.drill e).2.trans (h.drill (g.drill e).1).2⟩

theorem Still.trans {s t u : State} (h : Still s t) (g : Still t u) : Still s u where
  toQuiet := h.toQuiet.trans g.toQuiet
  ports q := (g.ports q).trans (h.ports q)
  reports := g.reports.trans h.reports
  active := g.active.trans h.active
  staged := g.staged.trans h.staged
  claim := g.claim.trans h.claim
  pendingCommit := g.pendingCommit.trans h.pendingCommit

theorem Still.refl (s : State) : Still s s := ⟨.refl s, fun _ => rfl, rfl, rfl, rfl, rfl, rfl⟩

theorem ZStep.still {s t : State} (h : ZStep s t) : Still s t where
  pending := h.pending
  islands := h.keeps.islands
  records := h.records
  tests := h.keeps.tests
  write := h.write
  views := h.keeps.views
  due := h.due
  drill := h.drill
  ports := h.portState
  reports := by rw [h.top]
  active := h.active
  staged := h.staged
  claim := h.claim
  pendingCommit := h.pendingCommit

theorem topResolve_still (s : State) (which : Coupler → Bool) : Still s (s.topResolve which) := by
  obtain ⟨h1, h2, h3⟩ := topResolve_spec s which
  have g := h1.still
  exact ⟨⟨h1.pending, h3, h1.records, g.tests, h1.write, g.views, h1.due, h1.drill⟩, h1.portState, h2, h1.active, h1.staged,
    h1.claim, h1.pendingCommit⟩

theorem topHandOff_still (s : State) (b : Vector CouplerRec 3) : Still s (s.topHandOff b) := (topHandOff_zstep s b).still

/-! ### Leaving LIVE (R54, R196) -/

theorem setReport_quiet (s : State) (p : Port) (r : ReportRec) : Quiet s (s.setReport p r) :=
  ⟨rfl, id, id, id, id, id, id, fun e => ⟨e, rfl⟩⟩

theorem dropReport_spec (s : State) (p : Port) :
    Quiet s (s.dropReport p) ∧ (s.dropReport p).top.reports = s.top.reports.set p ReportRec.empty ∧
      Still (s.setReport p ReportRec.empty) (s.dropReport p) := by
  have h : Still (s.setReport p ReportRec.empty) (s.dropReport p) :=
    (topResolve_still _ (adjacent p)).trans (topHandOff_still _ _)
  exact ⟨(setReport_quiet s p _).trans h.toQuiet, h.reports, h⟩

theorem endOwnedDrill_zstep (s : State) (p : Port) : ZStep s (s.endOwnedDrill p) := by
  unfold State.endOwnedDrill
  split
  · exact endDrill_zstep s _
  · exact .refl s

theorem endDrill_inactive (s : State) (why : EndReason) : (s.endDrill why).zev.drill.active = false := by
  unfold State.endDrill
  simp only
  split
  · rename_i h; simpa using h
  · rfl

theorem endOwnedDrill_owner (s : State) (p : Port) (h : (s.endOwnedDrill p).zev.drill.active = true) :
    (s.endOwnedDrill p).zev.drill.owner ≠ some p := by
  unfold State.endOwnedDrill at h ⊢
  split
  · rename_i hc
    rw [if_pos hc, endDrill_inactive] at h
    exact absurd h (by decide)
  · rename_i hc
    rw [if_neg hc] at h
    simpa [h] using hc

/-- What the effects of leaving LIVE on the board do, in either order (log 14). -/
structure LeftBoard (s t : State) (p : Port) : Prop where
  quiet : Quiet s t
  reports : t.top.reports = s.top.reports.set p ReportRec.empty
  owner : t.zev.drill.active = true → t.zev.drill.owner ≠ some p
  ports : ∀ q : Port, t.lnk[q].state = s.lnk[q].state
  active : t.cfg.active = s.cfg.active
  staged : t.cfg.staged = s.cfg.staged
  claim : t.cfg.claim = s.cfg.claim
  pendingCommit : t.cfg.pendingCommit = s.cfg.pendingCommit

theorem leftBoard_drillFirst (s : State) (p : Port) : LeftBoard s ((s.endOwnedDrill p).dropReport p) p := by
  have z := (endOwnedDrill_zstep s p).still
  obtain ⟨h1, h2, h3⟩ := dropReport_spec (s.endOwnedDrill p) p
  refine ⟨z.toQuiet.trans h1, by rw [h2, z.reports], fun e => ?_, fun q => (h3.ports q).trans (z.ports q),
    h3.active.trans z.active, h3.staged.trans z.staged, h3.claim.trans z.claim, h3.pendingCommit.trans z.pendingCommit⟩
  rw [(h1.drill e).2]
  exact endOwnedDrill_owner s p (h1.drill e).1

theorem leftBoard_reportFirst (s : State) (p : Port) : LeftBoard s ((s.dropReport p).endOwnedDrill p) p := by
  obtain ⟨h1, h2, h3⟩ := dropReport_spec s p
  have z := (endOwnedDrill_zstep (s.dropReport p) p).still
  exact ⟨h1.trans z.toQuiet, z.reports.trans h2, endOwnedDrill_owner _ p, fun q => (z.ports q).trans (h3.ports q),
    z.active.trans h3.active, z.staged.trans h3.staged, z.claim.trans h3.claim, z.pendingCommit.trans h3.pendingCommit⟩

/-- The record of a port that becomes STALE (R195, R196). -/
def PortRec.toStale (r : PortRec) : PortRec := r.enter .stale .stopped .stopped

/-- The board's part of leaving LIVE, before the claim lapses. -/
theorem leaveLive_board (s : State) (p : Port) :
    ∃ t, LeftBoard (s.modPort p PortRec.toStale) t p ∧
      s.leaveLive p = (t.lapseClaim p).raiseOthers .peerStale p := by
  unfold State.leaveLive
  simp only
  split
  · split
    · have h := leftBoard_drillFirst (s.modPort p PortRec.toStale).draw.2 p
      exact ⟨_, ⟨((draw_zstep _).still.toQuiet).trans h.quiet, h.reports, h.owner, h.ports, h.active, h.staged, h.claim,
        h.pendingCommit⟩, rfl⟩
    · have h := leftBoard_reportFirst (s.modPort p PortRec.toStale).draw.2 p
      exact ⟨_, ⟨((draw_zstep _).still.toQuiet).trans h.quiet, h.reports, h.owner, h.ports, h.active, h.staged, h.claim,
        h.pendingCommit⟩, rfl⟩
  · exact ⟨_, leftBoard_reportFirst (s.modPort p PortRec.toStale) p, rfl⟩

/-- The claim lapses where the port holds it (R173). -/
theorem lapseClaim_spec (s : State) (p : Port) :
    Keeps s (s.lapseClaim p) ∧ (s.lapseClaim p).cfg.claim ≠ some p ∧ (s.lapseClaim p).lnk = s.lnk ∧
      (s.lapseClaim p).top = s.top ∧ (s.lapseClaim p).zev = s.zev ∧ (s.lapseClaim p).trm = s.trm ∧
      (s.lapseClaim p).alr = s.alr ∧ (s.lapseClaim p).cfg.active = s.cfg.active ∧
      (∀ q, (s.lapseClaim p).cfg.claim = some q → s.cfg.claim = some q) := by
  unfold State.lapseClaim
  split
  · refine ⟨releaseClaim_keeps s, ?_, ?_⟩ <;>
      (unfold State.releaseClaim State.capturesLoseClaim; simp only; split <;> simp)
  · rename_i h
    exact ⟨.refl s, h, rfl, rfl, rfl, rfl, rfl, rfl, fun _ e => e⟩

/-- A port that leaves LIVE keeps every invariant (R54, R196). -/
theorem leaveLive_keeps (s : State) (p : Port) (hu : s.lnk[p].state ≠ .unused) : Keeps s (s.leaveLive p) := by
  obtain ⟨t, h, e⟩ := leaveLive_board s p
  rw [e]
  obtain ⟨k, k1, k2, k3, k4, k5, k6, k7, k8⟩ := lapseClaim_spec t p
  have z := (raiseOthers_zstep (t.lapseClaim p) .peerStale p).keeps
  have q0 : Quiet s (s.modPort p PortRec.toStale) := ⟨rfl, id, id, id, id, id, id, fun e => ⟨e, rfl⟩⟩
  have q := q0.trans h.quiet
  refine ⟨z.pending.trans (k.pending.trans q.pending), fun i => z.islands (k.islands (q.islands i)),
    fun i => z.records (k.records (q.records i)), fun i => z.links ?_, fun i => z.tests (k.tests (q.tests i)),
    fun i => z.write (k.write (q.write i)), fun i => z.views (k.views (q.views i)),
    fun i => z.due (k.due (q.due i))⟩
  have hst : ∀ r : Port, (t.lapseClaim p).lnk[r].state = if r = p then .stale else s.lnk[r].state := by
    intro r
    rw [k2, h.ports r]
    show (modAt s.lnk p _)[r].state = _
    rw [modAt_get]
    split
    · rfl
    · rfl
  have hact : (t.lapseClaim p).cfg.active = s.cfg.active := k7.trans h.active
  intro r
  rw [hst]
  unfold State.used
  rw [hact, k3, h.reports, k4]
  by_cases hr : r = p
  · subst hr
    rw [if_pos rfl]
    refine ⟨?_, fun _ => ⟨by simp, k1, h.owner⟩⟩
    have := (i r).1
    unfold State.used at this
    simp only [reduceCtorEq, false_iff]
    exact fun e => hu (this.2 e)
  · rw [if_neg hr]
    refine ⟨(i r).1, fun hl => ?_⟩
    obtain ⟨g1, g2, g3⟩ := (i r).2 hl
    have hne : p.val ≠ r.val := fun e => hr (Fin.ext e.symm)
    refine ⟨by show (s.top.reports.set p _)[r] = _; simpa [hne] using g1, fun e => g2 ?_, fun e => ?_⟩
    · have := k8 r e
      rw [h.claim] at this
      exact this
    · rw [(q.drill e).2]
      exact g3 (q.drill e).1

/-! ### The transfer (R179) -/

theorem abortTest_still (s : State) : Still s s.abortTest := by
  have h := abortTest_lstep s
  have hs : s.abortTest.cfg.staged = s.cfg.staged := by unfold State.abortTest; split <;> rfl
  exact ⟨⟨h.pending, h.keeps.islands, h.records, h.tests, h.write, h.views, h.due, h.drill⟩, h.portState,
    congrArg Top.reports h.top, h.active, hs, h.claim, h.pendingCommit⟩

theorem lightChange_still (s : State) (l : Vector Channel 16) (k : Vector ClarityRec 16)
    (hl : ∀ n : Chan, l[n].mask = s.lcu[n].mask) (hc : ∀ n : Chan, k[n].testing = s.fsu.clarity[n].testing) :
    Still s { s with lcu := l, fsu.clarity := k } :=
  ⟨⟨rfl, id, id, testInv_congr hl rfl hc ⟨le_refl _, List.Sublist.refl _⟩, id, id, id, fun e => ⟨e, rfl⟩⟩, fun _ => rfl, rfl,
    rfl, rfl, rfl, rfl⟩

theorem clarityTakeUp_testing (r : ClarityRec) (o p : ChannelPage) : (r.takeUp o p).testing = r.testing := by
  unfold ClarityRec.takeUp
  simp only
  split <;> rfl

theorem takeUpChannels_still (s : State) (o : Image) : Still s (s.takeUpChannels o) := by
  have h1 : ∀ u : State, Still u { u with
      lcu := Vector.ofFn fun n =>
        if pageChanged o s.cfg.active n then u.lcu[n].takeUp o.chans[n] s.cfg.active.chans[n] u.tLearn else u.lcu[n]
      fsu.clarity := Vector.ofFn fun n =>
        if pageChanged o s.cfg.active n then u.fsu.clarity[n].takeUp o.chans[n] s.cfg.active.chans[n]
        else u.fsu.clarity[n] } := by
    intro u
    refine lightChange_still u _ _ (fun n => ?_) (fun n => ?_)
    · refine (congrArg Channel.mask (ofFn_get _ n)).trans ?_
      split <;> simp
    · refine (congrArg ClarityRec.testing (ofFn_get _ n)).trans ?_
      split
      · exact clarityTakeUp_testing _ _ _
      · rfl
  unfold State.takeUpChannels
  simp only
  split
  · split
    · exact (abortTest_still s).trans (h1 _)
    · exact h1 s
  · exact h1 s

theorem takeUpBoard_eq (s : State) (o : Image) :
    s.takeUpBoard o = ((s.boardSet o).topResolve fun _ => true).topHandOff s.top.couplers := rfl

theorem takeUpBoard_still (s : State) (o : Image) : Still (s.boardSet o) (s.takeUpBoard o) := by
  rw [takeUpBoard_eq]
  exact (topResolve_still _ _).trans (topHandOff_still _ _)

theorem boardChange_quiet (s : State) (l : Vector PortRec 4) (r : Vector ReportRec 4) :
    Quiet s { s with lnk := l, top.reports := r } := ⟨rfl, id, id, id, id, id, id, fun e => ⟨e, rfl⟩⟩

theorem boardSet_quiet (s : State) (o : Image) : Quiet s (s.boardSet o) := boardChange_quiet s _ _

/-- The invariant of the links but for the claim, which a transfer judges last (R179). -/
def LinksBoard (s : State) : Prop :=
  ∀ p : Port,
    (s.lnk[p].state = .unused ↔ s.used p = false) ∧ (s.lnk[p].state ≠ .live → s.top.reports[p] = ReportRec.empty) ∧
      (s.used p = true → s.lnk[p].state ≠ .live → s.cfg.claim ≠ some p)

theorem takeUp_empty (img : Image) (k : Port) (c : Bool) : ReportRec.empty.takeUp img k c = ReportRec.empty := by
  unfold ReportRec.takeUp
  split
  · rfl
  · cases couplerPresent img (leftCoupler k) <;> cases couplerPresent img (rightCoupler k) <;> rfl

theorem boardSet_links (s : State) (o : Image) (i : LinksInv { s with cfg.active := o }) : LinksBoard (s.boardSet o) := by
  intro p
  obtain ⟨h1, h2⟩ := i p
  change (s.lnk[p].state = .unused ↔ o.board.incomer[p] = false) at h1
  change s.lnk[p].state ≠ .live → s.top.reports[p] = ReportRec.empty ∧ s.cfg.claim ≠ some p ∧ _ at h2
  have e1 : (s.boardSet o).lnk[p] =
      s.lnk[p].takeUp (becomesAbsent o s.cfg.active p) (becomesPresent o s.cfg.active p) := ofFn_get _ p
  have e2 : (s.boardSet o).top.reports[p] =
      s.top.reports[p].takeUp s.cfg.active p (becomesAbsent o s.cfg.active p || becomesPresent o s.cfg.active p) :=
    ofFn_get _ p
  have e3 : (s.boardSet o).used p = s.cfg.active.board.incomer[p] := rfl
  have e4 : (s.boardSet o).cfg.claim = s.cfg.claim := rfl
  rw [e1, e2, e3, e4]
  unfold PortRec.takeUp becomesAbsent becomesPresent
  generalize o.board.incomer[p] = x at h1 ⊢
  generalize s.cfg.active.board.incomer[p] = y at h1 ⊢
  cases x <;> cases y <;> simp only [Bool.not_false, Bool.not_true, Bool.and_true, Bool.and_false, Bool.or_false,
    Bool.or_true, if_true, if_false, Bool.false_eq_true] at h1 ⊢
  · refine ⟨by simpa using h1, fun hl => ?_, by simp⟩
    rw [(h2 hl).1]; exact takeUp_empty _ _ _
  · have hun : s.lnk[p].state = .unused := h1.2 (by simp)
    refine ⟨by simp [PortRec.enter], fun _ => by simp [ReportRec.takeUp], fun _ _ => ?_⟩
    exact (h2 (by rw [hun]; decide)).2.1
  · exact ⟨by simp [PortRec.enter], fun _ => by simp [ReportRec.takeUp], by simp⟩
  · refine ⟨by simpa using h1, fun hl => ?_, fun _ hl => (h2 hl).2.1⟩
    rw [(h2 hl).1]; exact takeUp_empty _ _ _

theorem linksBoard_still {s t : State} (h : Still s t) (i : LinksBoard s) : LinksBoard t := by
  intro p
  have hu : t.used p = s.used p := by unfold State.used; rw [h.active]
  rw [h.ports, hu, h.reports, h.claim]
  exact i p

theorem takeUpStaged_spec (s : State) :
    Quiet s s.takeUpStaged ∧ s.takeUpStaged.cfg.active = s.cfg.staged ∧ s.takeUpStaged.cfg.staged = s.cfg.staged ∧
      s.takeUpStaged.cfg.pendingCommit = s.cfg.pendingCommit ∧ (LinksInv s → LinksBoard s.takeUpStaged) := by
  have h0 : Quiet s { s with cfg.active := s.cfg.staged } :=
    ⟨rfl, id, id, id, id, id, id, fun e => ⟨e, rfl⟩⟩
  have h1 := takeUpChannels_still { s with cfg.active := s.cfg.staged } s.cfg.active
  unfold State.takeUpStaged
  generalize State.takeUpChannels { s with cfg.active := s.cfg.staged } s.cfg.active = u at h1
  have h2 := boardSet_quiet u s.cfg.active
  have h3 := takeUpBoard_still u s.cfg.active
  refine ⟨((h0.trans h1.toQuiet).trans h2).trans h3.toQuiet, h3.active.trans h1.active, h3.staged.trans h1.staged,
    h3.pendingCommit.trans h1.pendingCommit, fun i => linksBoard_still h3 (boardSet_links _ _ ?_)⟩
  exact linksInv_congr (s := s) rfl h1.ports h1.reports h1.claim h1.drill i

theorem noteLeavers_zstep (s : State) (ps : List Port) : ZStep s (s.noteLeavers ps) :=
  foldl_zstep _ (fun t p => raiseOthers_zstep t .peerStale p) ps s

theorem transferred_spec (s : State) :
    Quiet s s.transferred ∧ s.transferred.cfg.active = s.cfg.staged ∧ s.transferred.cfg.staged = s.cfg.staged ∧
      s.transferred.cfg.pendingCommit = s.cfg.pendingCommit ∧ s.transferred.zev.drill.active = false ∧
      (LinksInv s → LinksBoard s.transferred) := by
  obtain ⟨q, ha, hs, hp, hl⟩ := takeUpStaged_spec s
  unfold State.transferred
  generalize s.takeUpStaged = u at *
  have h4 := noteLeavers_zstep u (s.leavers s.cfg.active s.cfg.staged)
  generalize u.noteLeavers (s.leavers s.cfg.active s.cfg.staged) = v at *
  have h5 := endDrill_zstep v .transfer
  have hi := endDrill_inactive v .transfer
  generalize v.endDrill .transfer = w at *
  have h6 := placeZones_zstep w
  have h7 := ((h4.trans h5).trans h6).still
  refine ⟨q.trans h7.toQuiet, h7.active.trans ha, h7.staged.trans hs, h7.pendingCommit.trans hp, ?_,
    fun i => linksBoard_still h7 (hl i)⟩
  by_contra hc
  have := (h6.drill (Bool.eq_true_of_not_eq_false hc)).1
  rw [hi] at this
  exact absurd this (by decide)

theorem lapseUnused_spec (s : State) :
    Keeps s s.lapseUnused ∧ s.lapseUnused.cfg.active = s.cfg.active ∧ s.lapseUnused.lnk = s.lnk ∧
      s.lapseUnused.top = s.top ∧ s.lapseUnused.zev = s.zev ∧
      (∀ p, s.lapseUnused.cfg.claim = some p → s.used p = true ∧ s.cfg.claim = some p) ∧
      (s.cfg.pendingCommit = true → s.lapseUnused.cfg.staged = s.cfg.staged) := by
  unfold State.lapseUnused
  split
  · rename_i p hp
    split
    · rename_i hu
      refine ⟨.refl s, rfl, rfl, rfl, rfl, fun q hq => ⟨?_, hq⟩, fun _ => rfl⟩
      rw [hp] at hq
      rw [← Option.some.inj hq]
      exact hu
    · refine ⟨releaseClaim_keeps s, ?_⟩
      unfold State.releaseClaim State.capturesLoseClaim
      simp only
      split
      · simp
      · rename_i hq
        simp only [true_and, reduceCtorEq, false_implies, implies_true]
        exact fun e => absurd e hq
  · rename_i hp
    exact ⟨.refl s, rfl, rfl, rfl, rfl, fun q hq => by rw [hp] at hq; exact absurd hq (by simp), fun _ => rfl⟩

/-- A transfer keeps every invariant (R71, R179, R197). -/
theorem makeTransfer_keeps (s : State) : Keeps s s.makeTransfer := by
  obtain ⟨q, ha, _, _, hd, hl⟩ := transferred_spec s
  obtain ⟨k, ka, kl, kt, kz, kc, _⟩ := lapseUnused_spec s.transferred
  unfold State.makeTransfer
  simp only
  generalize s.transferred = u at *
  generalize u.lapseUnused = t at *
  refine Keeps.trans ?_ (raise_zstep _ _).keeps
  refine ⟨k.pending.trans q.pending, fun i => k.islands (q.islands i), fun i => k.records (q.records i), fun i => ?_,
    fun i => k.tests (q.tests i), fun i => ?_, fun i => k.views (q.views i), fun _ => ?_⟩
  · intro p
    obtain ⟨g1, g2, g3⟩ := hl i p
    have hu : t.used p = u.used p := by unfold State.used; rw [ka]
    show (t.lnk[p].state = .unused ↔ t.used p = false) ∧
      (t.lnk[p].state ≠ .live → t.top.reports[p] = ReportRec.empty ∧ t.cfg.claim ≠ some p ∧
        (t.zev.drill.active = true → t.zev.drill.owner ≠ some p))
    rw [hu, kl, kt, kz, hd]
    refine ⟨g1, fun h => ⟨g2 h, fun e => ?_, by simp⟩⟩
    exact g3 (kc p e).1 h (kc p e).2
  · obtain ⟨⟨h1, h2, h3, h4, h5, h6, h7, h8⟩, h9⟩ := k.write (q.write i)
    refine ⟨⟨h1, h2, h3, h4, h5, ?_, h7, h8⟩, h9⟩
    show (t.cfg.job.map SaveJob.noteTransfer).isSome = true ↔ _
    rw [Option.isSome_map]
    exact h6
  · simp [DueInv, State.DueAfter]

end Sys2Proof.Machine
end

