-- ==== Sys2Proof/Laws/Commands.lean ====
section
/-! SUPPORT. The invariants through what each command does: `Keeps` for every operation that a meaning calls. -/

namespace Sys2Proof.Machine

/-! ### Reset -/

theorem placedAtReset_engine (nv : Nv) : EngineOk (Trm.atReset nv).lock (Cfg.atReset nv) := by
  refine ⟨?_, ?_, ?_, ?_, ?_, ?_, ?_, ?_⟩ <;> simp [Trm.atReset, Cfg.atReset]

theorem restored_ok (b : BreakerSet) : RecordOk (TripRec.restored b) := by
  refine ⟨by simp [TripRec.restored], by simp [TripRec.restored], ?_, ?_⟩
  · intro _ e h; simp [TripRec.restored] at h
  · intro h; simp [TripRec.restored] at h

theorem atReset_mask (page : ChannelPage) (t : Nat) : (Channel.atReset page t).mask = false := by
  unfold Channel.atReset
  simp only [recompute_mask, withLevels_mask]
  rfl

theorem placedState_notLit (page : ZonePage) (v : Vector MemberStatus 6) :
    placedState page v ≠ .lit ∧ placedState page v ≠ .waiting := by
  unfold placedState
  split
  · simp
  · split <;> simp

/-- What reset places meets every invariant, whatever the state before. -/
theorem placedAtReset_inv (s : State) :
    IslandsInv s.placedAtReset ∧ RecordsInv s.placedAtReset ∧ LinksInv s.placedAtReset ∧ TestInv s.placedAtReset ∧
      WriteInv s.placedAtReset ∧ ViewsInv s.placedAtReset ∧ DueInv s.placedAtReset := by
  refine ⟨?_, ?_, ?_, ?_, ?_, ?_, by simp [DueInv, State.DueAfter, State.placedAtReset, Cfg.atReset]⟩
  · show (Top.atReset s.nv.loadedImage.board).islandName = islandNames s.placedAtReset.joined
    unfold Top.atReset
    simp only
    congr 1
    funext j
    exact (congrArg (fun c : CouplerRec => c.resolved.joins)
      (ofFn_get (fun j => CouplerRec.atReset s.nv.loadedImage.board.coupler[j]) j)).symm
  · intro r h
    have h : r ∈ (Trm.atReset s.nv).records := h
    unfold Trm.atReset at h
    simp only at h
    split at h
    · simp at h
    · rw [List.mem_singleton.1 h]; exact restored_ok _
  · intro p
    have hl : s.placedAtReset.lnk[p] = PortRec.atReset s.nv.loadedImage.board.incomer[p] := ofFn_get _ p
    have hr : s.placedAtReset.top.reports[p] = ReportRec.empty := by
      show (Vector.replicate 4 _)[p] = _
      simp [ReportRec.empty]
    refine ⟨?_, fun _ => ⟨hr, by simp [State.placedAtReset, Cfg.atReset], by
      simp [State.placedAtReset, DrillReg.afterReset]⟩⟩
    rw [hl]
    show _ ↔ s.nv.loadedImage.board.incomer[p] = false
    generalize s.nv.loadedImage.board.incomer[p] = b
    cases b <;> simp [PortRec.atReset, PortRec.afterReset]
  · refine ⟨fun n => ⟨?_, ?_⟩, by simp [State.placedAtReset], by simp [State.placedAtReset]⟩
    · exact (congrArg Channel.mask (ofFn_get _ n)).trans (atReset_mask _ _)
    · exact congrArg ClarityRec.testing (ofFn_get _ n)
  · refine ⟨placedAtReset_engine s.nv, fun b h => ?_⟩
    simp [State.placedAtReset, Trm.atReset, LockState.latest] at h
  · refine ⟨?_, ?_, rfl⟩
    · have : s.placedAtReset.noZoneLit = true := by
        rw [noZoneLit_iff]
        intro z
        have e : s.placedAtReset.zev.zones[z] = ZoneRec.atReset s.nv.loadedImage s.nv.loadedImage.zones[z] := ofFn_get _ z
        rw [e]
        exact placedState_notLit _ _
      rw [this]; rfl
    · have : s.placedAtReset.noRecordFiring = true := by
        rw [noRecordFiring_iff]
        intro r h
        have h : r ∈ (Trm.atReset s.nv).records := h
        unfold Trm.atReset at h
        simp only at h
        split at h
        · simp at h
        · rw [List.mem_singleton.1 h]; simp [TripRec.restored]
      rw [this]; rfl

/-- A request for a lockout word write of the set of lines that are on keeps every invariant. -/
theorem requestWord_keeps (s : State) (hb : b = s.closeInhibit) : Keeps s (s.requestWord b) := by
  have hw : WriteInv s → WriteInv (s.requestWord b) := by
    intro i
    have := requestWord_engineOk i.1 b
    refine ⟨this.1, fun x hx => ?_⟩
    rw [requestWord_closeInhibit, ← hb]
    rw [this.2] at hx
    exact (Option.some.inj hx).symm
  revert hw
  rw [requestWord_eq]
  split
  · exact fun hw => ⟨rfl, id, id, linksInv_congr rfl (fun _ => rfl) rfl rfl fun e => ⟨e, rfl⟩, id, hw, id, id⟩
  · exact fun hw => ⟨rfl, id, id, linksInv_congr rfl (fun _ => rfl) rfl rfl fun e => ⟨e, rfl⟩, id, hw, id, id⟩

/-- Reset meets every invariant, whatever the state before. -/
theorem powerOn_inv (s : State) :
    IslandsInv s.powerOn ∧ RecordsInv s.powerOn ∧ LinksInv s.powerOn ∧ TestInv s.powerOn ∧ WriteInv s.powerOn ∧
      ViewsInv s.powerOn ∧ DueInv s.powerOn := by
  obtain ⟨h1, h2, h3, h4, h5, h6, h7⟩ := placedAtReset_inv s
  have hc : lockWordValid s.nv.word = false → s.placedAtReset.closeInhibit = 0 := by
    intro h
    have : s.placedAtReset.trm.records = [] := by
      show (Trm.atReset s.nv).records = []
      simp [Trm.atReset, Nv.restoredSet, h]
    rw [closeInhibit_eq, this]; rfl
  have k : Keeps s.placedAtReset s.powerOn := by
    unfold State.powerOn
    simp only
    have r := (raise_zstep s.placedAtReset .configDefault).keeps
    have e : (s.placedAtReset.raise .configDefault).closeInhibit = s.placedAtReset.closeInhibit := rfl
    cases hw : lockWordValid s.nv.word <;> cases hn : s.nv.newest.isNone
    · exact r.trans (requestWord_keeps _ (by rw [e, hc hw]))
    · exact r.trans (requestWord_keeps _ (by rw [e, hc hw]))
    · exact .refl _
    · exact r
  exact ⟨k.islands h1, k.records h2, k.links h3, k.tests h4, k.write h5, k.views h6, k.due h7⟩

/-! ### Time and the CP lines -/

theorem filterTick_state (r : ZoneRec) : r.tick.state = r.state := rfl

theorem tickRecords_ok {r : TripRec} (h : RecordOk r) : RecordOk r.tick := by
  obtain ⟨h1, h2, h3, h4⟩ := h
  refine ⟨h1, h2, fun hf e hm => ?_, fun hk => ⟨(h4 hk).1, (h4 hk).2.1, fun e hm => ?_⟩⟩
  · obtain ⟨e', hm', rfl⟩ := List.mem_map.1 (show e ∈ r.entries.map Entry.tick from hm)
    exact h3 hf e' hm'
  · obtain ⟨e', hm', rfl⟩ := List.mem_map.1 (show e ∈ r.entries.map Entry.tick from hm)
    exact (h4 hk).2.2 e' hm'

/-- The passing of a millisecond, with the parts that it changes as variables. -/
theorem timeChange_keeps (s : State) (now : Time) (l : Vector Channel 16) (slot : Timer) (zs : Vector ZoneRec 8)
    (w : Timer) (ps : Vector PortRec 4) (hl : ∀ n : Chan, l[n].mask = s.lcu[n].mask)
    (hz : ∀ z : Zone, zs[z].state = s.zev.zones[z].state) (hp : ∀ p : Port, ps[p].state = s.lnk[p].state) :
    Keeps s { s with
      alr.time := now, lcu := l, fsu.slotTimer := slot, zev.zones := zs, zev.drill.window := w
      trm.records := s.trm.records.map TripRec.tick, lnk := ps } := by
  refine ⟨rfl, id, ?_, linksInv_congr rfl hp rfl rfl fun e => ⟨e, rfl⟩, ?_, ?_, ?_, id⟩
  · intro i r hm
    obtain ⟨r', hm', rfl⟩ := List.mem_map.1 (show r ∈ s.trm.records.map TripRec.tick from hm)
    exact tickRecords_ok (i r' hm')
  · exact testInv_congr hl rfl (fun _ => rfl) ⟨le_refl _, List.Sublist.refl _⟩
  · refine fun i => ⟨i.1, fun b hb => (i.2 b hb).trans ?_⟩
    exact (linesOf_map (f := TripRec.tick) s.trm.records fun _ _ => ⟨rfl, rfl⟩).symm
  · rintro ⟨h1, h2, h3⟩
    refine ⟨h1.trans (noZoneLit_congr hz).symm, h2.trans ?_, h3⟩
    rw [Bool.eq_iff_iff, noRecordFiring_iff, noRecordFiring_iff]
    show _ ↔ ∀ r ∈ s.trm.records.map TripRec.tick, _
    simp only [List.mem_map, forall_exists_index, and_imp, forall_apply_eq_imp_iff₂]
    rfl

theorem tick_keeps (s : State) : Keeps s s.tick := by
  refine timeChange_keeps s _ _ _ _ _ _ (fun n => ?_) (fun z => ?_) (fun p => ?_)
  · exact (congrArg Channel.mask (modAll_get s.lcu n Channel.tick)).trans rfl
  · exact (congrArg ZoneRec.state (modAll_get s.zev.zones z ZoneRec.tick)).trans rfl
  · exact (congrArg PortRec.state (modAll_get s.lnk p PortRec.tick)).trans rfl

theorem cpChange_keeps (s : State) (k : Incomer) (a : Bool) : Keeps s (s.cpChange k a) := by
  have h0 : Keeps s (s.setCp k a) :=
    ⟨rfl, id, id, linksInv_congr rfl (fun _ => rfl) rfl rfl fun e => ⟨e, rfl⟩, id, id, id, id⟩
  unfold State.cpChange
  split
  · exact .refl s
  · simp only
    split
    · exact h0.trans (askConfirmation_zstep _).keeps
    · exact (h0.trans (openEvidence_zstep _ _).keeps).trans (askConfirmation_zstep _).keeps

/-! ### Light and supervision -/

theorem takeSample_keeps (s : State) (n : Chan) (v : LU) : Keeps s (s.takeSample n v) := by
  unfold State.takeSample
  split
  · exact .refl s
  · split
    · exact (testSample_lstep s n v).keeps
    · exact (evaluateSample_lstep s n v).keeps

theorem learningExpiry_keeps (s : State) (n : Chan) : Keeps s (s.learningExpiry n) := by
  unfold State.learningExpiry
  split
  · exact (lcuEvent_lstep s n _ (modChan_lstep s n _ (by intro; simp))).keeps
  · exact .refl s

theorem stormWindowExpiry_keeps (s : State) (n : Chan) : Keeps s (s.stormWindowExpiry n) := by
  unfold State.stormWindowExpiry
  split
  · exact (lcuEvent_lstep s n _ (modChan_lstep s n _ (by intro; simp))).keeps
  · exact .refl s

theorem serveSlot_keeps (s : State) (ht : s.fsu.test = none) : Keeps s s.serveSlot := by
  have h := serveQueue_lstep s.fsu.queue s ht (List.Sublist.refl _)
  unfold State.serveSlot
  simp only
  split
  · exact h.keeps
  · rename_i hn
    exact (h.trans (scan_lstep _ _ (by simpa using hn))).keeps

theorem slotExpiry_keeps (s : State) : Keeps s s.slotExpiry := by
  have h0 : Keeps s { s with fsu.slotTimer := .running s.cfg.active.board.slotPeriod.val } :=
    (fsuChange_lstep s { s.fsu with slotTimer := .running s.cfg.active.board.slotPeriod.val } rfl id).keeps
  unfold State.slotExpiry
  split
  · simp only
    split
    · exact h0
    · rename_i hn
      exact h0.trans (serveSlot_keeps _ (by simpa using hn))
  · exact .refl s

theorem completeTest_keeps (s : State) : Keeps s s.completeTest := (completeTest_lstep s).keeps

/-! ### Zones -/

theorem filterExpiry_keeps (s : State) (z : Zone) : Keeps s (s.filterExpiry z) := by
  unfold State.filterExpiry
  split
  · exact (entryFilterExpiry_zstep s z).keeps
  · exact .refl s

theorem toSuppressed_zstep (s : State) (z : Zone) : ZStep s (s.toSuppressed z) := by
  unfold State.toSuppressed
  generalize s.zev.zones[z].drill = d
  have h := (modZone_zstep s z (fun r =>
    { r with confirm := .stopped, nuisance := if d then r.nuisance else satInc r.nuisance }) (by intro; rfl)).trans
    (enterZone_zstep _ z .suppressed)
  cases d
  · exact h.trans (raise_zstep _ _)
  · exact h

theorem confirmExpiry_keeps (s : State) (z : Zone) : Keeps s (s.confirmExpiry z) := by
  unfold State.confirmExpiry
  split
  · exact (toSuppressed_zstep s z).keeps
  · exact .refl s

theorem restrikeExpiry_keeps (s : State) (z : Zone) : Keeps s (s.restrikeExpiry z) := by
  unfold State.restrikeExpiry
  split
  · exact (restrikeFilterExpiry_zstep s z).keeps
  · exact .refl s

theorem closeNotice_keeps (s : State) (z : Zone) : Keeps s (s.closeNotice z) := by
  have h0 : Keeps s { s with zev.notices := s.zev.notices.erase z } :=
    ⟨rfl, id, id, linksInv_congr rfl (fun _ => rfl) rfl rfl fun e => ⟨e, rfl⟩, id, id, id, id⟩
  unfold State.closeNotice
  split
  · simp only
    split
    · exact h0.trans (leaveTripped_zstep _ z).keeps
    · exact h0
  · exact .refl s

theorem drillExpiry_keeps (s : State) : Keeps s s.drillExpiry := by
  unfold State.drillExpiry
  split
  · exact (endDrill_zstep s _).keeps
  · exact .refl s

/-! ### Entries of records -/

theorem advanceEntry_zstep (s : State) (seq : Byte) (t : Target) (p : Entry → Bool) (f : Entry → Entry)
    (hp : ∀ e, p e = true → e.state.drives = true) : ZStep s (s.advanceEntry seq t p f) := by
  refine (recordsNoticed_tstep s _ ?_).toZStep ?_
  · intro h r hm
    obtain ⟨r', hm', rfl⟩ := List.mem_map.1 hm
    split
    · rename_i hc
      unfold TripRec.entryHas at hc
      simp only [Bool.and_eq_true] at hc
      exact (h r' hm').advance t p f hc.1.2 hp
    · exact h r' hm'
  · refine linesOf_map _ fun r _ => ?_
    split
    · exact ⟨advance_isOpen r t p f, advance_holding r t p f⟩
    · exact ⟨rfl, rfl⟩

theorem inMinPulse_drives (e : Entry) (h : e.inMinPulse = true) : e.state.drives = true := by
  unfold Entry.inMinPulse at h
  simp only [Bool.and_eq_true, decide_eq_true_eq] at h
  rw [h.1]; rfl

theorem inCoil_drives (e : Entry) (h : e.inCoil = true) : e.state.drives = true := by
  unfold Entry.inCoil at h
  simp only [Bool.and_eq_true, decide_eq_true_eq] at h
  rw [h.1]; rfl

theorem inPulse_drives (e : Entry) (h : e.inPulse = true) : e.state.drives = true := by
  unfold Entry.inPulse at h
  simp only [Bool.and_eq_true, decide_eq_true_eq] at h
  rw [h.1]; rfl

theorem minPulseExpiry_keeps (s : State) (seq : Byte) (t : Target) : Keeps s (s.minPulseExpiry seq t) := by
  unfold State.minPulseExpiry
  split
  · exact (advanceEntry_zstep s seq t _ _ inMinPulse_drives).keeps
  · exact .refl s

theorem coilExpiry_keeps (s : State) (seq : Byte) (t : Target) : Keeps s (s.coilExpiry seq t) := by
  unfold State.coilExpiry
  split
  · exact (advanceEntry_zstep s seq t _ _ inCoil_drives).keeps
  · exact .refl s

theorem pulseExpiry_keeps (s : State) (seq : Byte) (k : Incomer) : Keeps s (s.pulseExpiry seq k) := by
  unfold State.pulseExpiry
  split
  · exact (advanceEntry_zstep s seq _ _ _ inPulse_drives).keeps
  · exact .refl s

/-- A record with an entry that can fail is FIRING or breaks its own invariant. -/
theorem entryHas_firing {r : TripRec} {seq : Byte} {t : Target} {p : Entry → Bool} (h : RecordOk r)
    (hp : ∀ e, p e = true → e.state.drives = true) (he : r.entryHas seq t p = true) : r.stage = .firing := by
  by_contra hf
  unfold TripRec.entryHas at he
  simp only [Bool.and_eq_true, List.any_eq_true] at he
  obtain ⟨_, e, hm, _, hpe⟩ := he
  have := h.2.2.1 hf e hm
  rw [hp e hpe] at this
  exact absurd this (by decide)

theorem failBreaker_zstep (s : State) (seq : Byte) (t : Target) : ZStep s (s.failBreaker seq t) := by
  refine (TStep.trmEvent ?_).trans (raise_zstep _ _)
  refine recordsMapped_tstep s _ ?_ ?_
  · intro r _ h
    split
    · rename_i hc
      exact h.failEntry s t (entryHas_firing h (fun e he => canFail_drives he) hc)
    · exact h
  · intro r _
    split
    · rw [(failEntry_fields s r t).1]
    · rfl

theorem breakerFailExpiry_keeps (s : State) (seq : Byte) (t : Target) : Keeps s (s.breakerFailExpiry seq t) := by
  unfold State.breakerFailExpiry
  split
  · exact (failBreaker_zstep s seq t).keeps
  · exact .refl s

/-! ### The write engine -/

/-- What a free engine begins leaves the write engine in order (R181). -/
theorem engineNext_spec (s : State) :
    (s.engineNext).pending = s.pending ∧ s.engineNext.top = s.top ∧ s.engineNext.lnk = s.lnk ∧
      s.engineNext.zev = s.zev ∧ s.engineNext.fsu = s.fsu ∧ s.engineNext.lcu = s.lcu ∧
      s.engineNext.trm.records = s.trm.records ∧ s.engineNext.cfg.active = s.cfg.active ∧
      s.engineNext.cfg.claim = s.cfg.claim ∧ s.engineNext.cfg.zonesQuiet = s.cfg.zonesQuiet ∧
      s.engineNext.cfg.recordsQuiet = s.cfg.recordsQuiet ∧ s.engineNext.cfg.testQuiet = s.cfg.testQuiet ∧
      s.engineNext.cfg.pendingCommit = s.cfg.pendingCommit ∧ s.engineNext.cfg.transferDue = s.cfg.transferDue := by
  unfold State.engineNext
  split
  · split
    · exact ⟨rfl, rfl, rfl, rfl, rfl, rfl, rfl, rfl, rfl, rfl, rfl, rfl, rfl, rfl⟩
    · split <;> exact ⟨rfl, rfl, rfl, rfl, rfl, rfl, rfl, rfl, rfl, rfl, rfl, rfl, rfl, rfl⟩
  · exact ⟨rfl, rfl, rfl, rfl, rfl, rfl, rfl, rfl, rfl, rfl, rfl, rfl, rfl, rfl⟩
  · exact ⟨rfl, rfl, rfl, rfl, rfl, rfl, rfl, rfl, rfl, rfl, rfl, rfl, rfl, rfl⟩

/-- The state of lock and engine before a free engine looks at what waits (R143, R181). -/
def EngineFree (l : LockState) (c : Cfg) : Prop :=
  (l.status = .writing ↔ c.engine = .word) ∧ (l.writing.isSome ↔ l.status = .writing) ∧
    (l.status = .waiting → l.waiting.isSome) ∧ (l.status = .idle → l.waiting = none) ∧
    (c.job.isSome ↔ c.engine = .saving) ∧ (c.saveStatus = .writing ↔ c.saveWaiting = true ∨ c.engine = .saving) ∧
    ¬(c.saveWaiting = true ∧ c.engine = .saving)

theorem engineNext_ok (s : State) (h : EngineFree s.trm.lock s.cfg) :
    EngineOk s.engineNext.trm.lock s.engineNext.cfg ∧ s.engineNext.trm.lock.latest = s.trm.lock.latest := by
  obtain ⟨h1, h2, h3, h4, h5, h6, h7⟩ := h
  unfold State.engineNext
  split
  · rename_i he
    have hnw : s.trm.lock.status ≠ .writing := fun e => by rw [h1.1 e] at he; exact absurd he (by decide)
    have hwn : s.trm.lock.writing = none := by
      cases hw : s.trm.lock.writing with
      | none => rfl
      | some x => exact absurd (h2.1 (by simp [hw])) hnw
    split
    · rename_i hw
      refine ⟨⟨by simp [State.beginWord], by simpa [State.beginWord] using hw, by simp [State.beginWord],
        by simp [State.beginWord], by simp [State.beginWord], ?_, ?_, by simp [State.beginWord]⟩, ?_⟩
      · simp only [State.beginWord]; rw [h5, he]; simp
      · simp only [State.beginWord]; rw [h6, he]; simp
      · simp [State.beginWord, LockState.latest, hw]
    · rename_i hw
      have hn : s.trm.lock.waiting = none := by simpa using hw
      split
      · rename_i hs
        refine ⟨⟨?_, h2, h3, h4, by simp [State.beginSave], by simp [State.beginSave], ?_, by simp [State.beginSave]⟩, rfl⟩
        · simp only [State.beginSave, reduceCtorEq, iff_false]; exact hnw
        · simp only [State.beginSave]; rw [h6, hs]; simp
      · rename_i hs
        exact ⟨⟨h1, h2, h3, h4, fun _ => ⟨hn, by simpa using hs⟩, h5, h6, h7⟩, rfl⟩
  · rename_i he
    exact ⟨⟨h1, h2, h3, h4, fun e => by rw [he] at e; exact absurd e (by decide), h5, h6, h7⟩, rfl⟩
  · rename_i he
    exact ⟨⟨h1, h2, h3, h4, fun e => by rw [he] at e; exact absurd e (by decide), h5, h6, h7⟩, rfl⟩

/-- An operation that frees the engine, or gives it something to do, followed by what it begins. -/
theorem engineNext_keeps (s u : State) (k1 : u.pending = s.pending) (k2 : u.top = s.top) (k3 : u.lnk = s.lnk)
    (k4 : u.zev = s.zev) (k5 : u.fsu = s.fsu) (k6 : u.lcu = s.lcu) (k7 : u.trm.records = s.trm.records)
    (k8 : u.cfg.active = s.cfg.active) (k9 : u.cfg.claim = s.cfg.claim) (k10 : u.cfg.zonesQuiet = s.cfg.zonesQuiet)
    (k11 : u.cfg.recordsQuiet = s.cfg.recordsQuiet) (k12 : u.cfg.testQuiet = s.cfg.testQuiet)
    (k13 : u.cfg.pendingCommit = s.cfg.pendingCommit) (k14 : u.cfg.transferDue = s.cfg.transferDue)
    (hf : WriteInv s → EngineFree u.trm.lock u.cfg ∧ ∀ b, u.trm.lock.latest = some b → b = s.closeInhibit) :
    Keeps s u.engineNext := by
  obtain ⟨e1, e2, e3, e4, e5, e6, e7, e8, e9, e10, e11, e12, e13, e14⟩ := engineNext_spec u
  have hc : u.engineNext.closeInhibit = s.closeInhibit := by rw [closeInhibit_eq, closeInhibit_eq, e7, k7]
  refine ⟨e1.trans k1, ?_, ?_, ?_, ?_, ?_, ?_, ?_⟩
  · unfold IslandsInv
    have : u.engineNext.joined = s.joined := by unfold State.joined; rw [e2, k2]
    rw [this, e2, k2]
    exact id
  · unfold RecordsInv; rw [e7, k7]; exact id
  · exact linksInv_congr (e8.trans k8) (by rw [e3, k3]; simp) (by rw [e2, k2]) (e9.trans k9)
      (by rw [e4, k4]; exact fun e => ⟨e, rfl⟩)
  · exact testInv_congr (by rw [e6, k6]; simp) (by rw [e5, k5]) (by rw [e5, k5]; simp) (by rw [e5, k5]; simp)
  · intro i
    obtain ⟨f1, f2⟩ := hf i
    obtain ⟨g1, g2⟩ := engineNext_ok u f1
    exact ⟨g1, fun b hb => by rw [hc]; exact f2 b (by rw [← g2]; exact hb)⟩
  · unfold ViewsInv State.noZoneLit State.noRecordFiring
    rw [e10, e11, e12, k10, k11, k12, e4, k4, e7, k7, e5, k5]
    exact id
  · unfold DueInv State.DueAfter
    rw [e10, e11, e12, e13, e14, k10, k11, k12, k13, k14, e5, k5]
    exact id

/-- What the end of a lockout word write leaves (R143). -/
theorem writeEnd_spec (l : LockState) (ok : Bool) (hw : l.writing.isSome = true) :
    (l.writeEnd ok).status ≠ .writing ∧ (l.writeEnd ok).writing = none ∧
      ((l.writeEnd ok).status = .waiting → (l.writeEnd ok).waiting.isSome = true) ∧
      ((l.writeEnd ok).status = .idle → (l.writeEnd ok).waiting = none) ∧
      ∀ b, (l.writeEnd ok).latest = some b → l.latest = some b := by
  obtain ⟨st, wr, wa, lw, lr, rt⟩ := l
  cases wr with
  | none => simp at hw
  | some x => cases wa <;> cases ok <;> cases rt <;> simp [LockState.writeEnd, LockState.latest]

theorem wordWriteEnd_keeps (s : State) (rb : ReadBack LockWord) : Keeps s (s.wordWriteEnd rb) := by
  unfold State.wordWriteEnd
  split
  · rename_i he
    simp only
    generalize decide (readBackFound rb (lockWordOf (s.trm.lock.writing.getD 0)) =
      lockWordOf (s.trm.lock.writing.getD 0)) = ok
    refine engineNext_keeps s _ rfl rfl rfl rfl rfl rfl rfl rfl rfl rfl rfl rfl rfl rfl ?_
    rintro ⟨⟨h1, h2, h3, h4, h5, h6, h7, h8⟩, h9⟩
    obtain ⟨w1, w2, w3, w4, w5⟩ := writeEnd_spec s.trm.lock ok (h2.2 (h1.2 he))
    have hsv : ¬ (s.cfg.engine = .saving) := by rw [he]; decide
    refine ⟨⟨?_, ?_, w3, w4, ?_, ?_, by simp⟩, fun b hb => h9 b (w5 b hb)⟩
    · simpa using w1
    · simp [w1, w2]
    · simp only [reduceCtorEq, iff_false]; rw [h6]; exact hsv
    · simp only [reduceCtorEq, or_false]; rw [h7]; simp [hsv]
  · exact .refl s

theorem saveWriteEnd_keeps (s : State) (rb : ReadBack NvCopy) : Keeps s (s.saveWriteEnd rb) := by
  unfold State.saveWriteEnd
  split
  · rename_i j he hj
    simp only
    refine engineNext_keeps s _ rfl rfl rfl rfl rfl rfl rfl rfl rfl rfl rfl rfl rfl rfl ?_
    rintro ⟨⟨h1, h2, h3, h4, h5, h6, h7, h8⟩, h9⟩
    have hns : s.cfg.saveWaiting = false := by
      cases hs : s.cfg.saveWaiting with
      | false => rfl
      | true => exact absurd ⟨hs, he⟩ h8
    have hnw : s.trm.lock.status ≠ .writing := fun e => by rw [h1.1 e] at he; exact absurd he (by decide)
    refine ⟨⟨?_, h2, h3, h4, by simp [Cfg.saveEnd], ?_, by simp [Cfg.saveEnd]⟩, h9⟩
    · simp only [Cfg.saveEnd, reduceCtorEq, iff_false]; exact hnw
    · simp only [Cfg.saveEnd, hns, Bool.false_eq_true, reduceCtorEq, or_self, iff_false]
      split <;> simp
  · exact .refl s

theorem saveBody_keeps (s : State) (p : Port) : Keeps s (s.saveBody p) := by
  unfold State.saveBody
  split
  · exact setSlot_keeps _ _ _
  · rename_i hs
    refine Keeps.trans ?_ (setSlot_keeps _ _ _)
    refine engineNext_keeps s _ rfl rfl rfl rfl rfl rfl rfl rfl rfl rfl rfl rfl rfl rfl ?_
    rintro ⟨⟨h1, h2, h3, h4, h5, h6, h7, h8⟩, h9⟩
    have hne : ¬ (s.cfg.engine = .saving) := fun e => hs (h7.2 (.inr e))
    exact ⟨⟨h1, h2, h3, h4, h6, by simp, by simpa using hne⟩, h9⟩

theorem transferIfDue_keeps (s : State) : Keeps s s.transferIfDue := by
  unfold State.transferIfDue
  split
  · exact makeTransfer_keeps s
  · exact .refl s

end Sys2Proof.Machine
end

