-- ==== Sys2Proof/Laws/Events.lean ====
section
/-! SUPPORT. What shared operations do, in the words of the statements: a request for the lockout word, the next sequence
number, the CRC-8, an entry commanded anew, a re-strike, and the service of the request queue. -/

namespace Sys2Proof.Machine

/-- One event at the TRM that leaves the write engine alone asks it as `AsksForWord` says (R132, R142). -/
theorem trmEvent_asksForWord (s : State) (f : State → State) (hl : (f s).trm.lock = s.trm.lock)
    (he : (f s).cfg.engine = s.cfg.engine) : s.AsksForWord (s.trmEvent f) True := by
  unfold State.trmEvent
  simp only
  split
  · rename_i h
    exact ⟨fun _ => ⟨hl, he⟩, fun n => absurd h n, fun n => absurd h n⟩
  · rename_i h
    refine ⟨fun e => absurd (by rwa [requestWord_closeInhibit] at e) h, fun _ hi => ?_, fun _ hi => ?_⟩
    · rw [← he] at hi
      rw [requestWord_closeInhibit, requestWord_eq, if_neg hi]
      simp [he, hl]
    · rw [← he] at hi
      refine ⟨by rw [requestWord_eq, if_pos hi], (f s).closeInhibit, fun _ => (requestWord_closeInhibit _ _).symm, ?_⟩
      rw [requestWord_closeInhibit, requestWord_eq, if_pos hi]
      simp [hl]

/-- The number found is the next one where it is found within the steps that the search may take. -/
theorem nextSeq_of_free (used : List Byte) (k fuel : Nat) (c : Byte) (hk : k ≤ fuel)
    (hf : c + BitVec.ofNat 8 (k + 1) ∉ used) (hu : ∀ i, 1 ≤ i → i ≤ k → c + BitVec.ofNat 8 i ∈ used) :
    nextSeq used fuel c = c + BitVec.ofNat 8 (k + 1) := by
  induction k generalizing fuel c with
  | zero =>
    cases fuel with
    | zero => rfl
    | succ n => exact if_neg hf
  | succ k ih =>
    cases fuel with
    | zero => omega
    | succ n =>
      have shift : ∀ i, c + 1 + BitVec.ofNat 8 i = c + BitVec.ofNat 8 (i + 1) := fun i => by
        rw [BitVec.add_assoc, BitVec.ofNat_add, BitVec.add_comm (1 : Byte)]; rfl
      have h1 : c + 1 ∈ used := hu 1 (by omega) (by omega)
      show (if (c + 1) ∈ used then nextSeq used n (c + 1) else c + 1) = _
      rw [if_pos h1, ih n (c + 1) (by omega) (by rwa [shift]) fun i h h' => by
        rw [shift]; exact hu (i + 1) (by omega) (by omega), shift]

/-- In a list with no more than twelve numbers in use the search of `appendRecord` finds the next one (R105). -/
theorem nextSeq_nextNumber (used : List Byte) (c : Byte) (h : used.length ≤ 12) :
    NextNumber used c (nextSeq used 12 c) := by
  have free : ∃ k, k ≤ 12 ∧ c + BitVec.ofNat 8 (k + 1) ∉ used := by
    by_contra hn
    push Not at hn
    let f : Nat → Byte := fun k => c + BitVec.ofNat 8 (k + 1)
    have hd : ((List.range 13).map f).Nodup := by
      refine List.Nodup.map_on (fun a ha b hb e => ?_) List.nodup_range
      rw [List.mem_range] at ha hb
      have e' := congrArg BitVec.toNat (BitVec.add_right_inj c |>.1 e)
      simp only [BitVec.toNat_ofNat] at e'
      omega
    have hs : (List.range 13).map f ⊆ used := fun x hx => by
      obtain ⟨k, hk, rfl⟩ := List.mem_map.1 hx
      exact hn k (by have := List.mem_range.1 hk; omega)
    have := (hd.subperm hs).length_le
    simp at this
    omega
  obtain ⟨hk, hf⟩ := Nat.find_spec free
  have least : ∀ i, 1 ≤ i → i ≤ Nat.find free → c + BitVec.ofNat 8 i ∈ used := fun i h1 hi => by
    by_contra hn
    have := Nat.find_min' free (m := i - 1) ⟨by omega, by rwa [Nat.sub_add_cancel h1]⟩
    omega
  refine ⟨Nat.find free + 1, by omega, nextSeq_of_free used _ 12 c hk hf least, ?_, fun i h1 hi => least i h1 (by omega)⟩
  rw [nextSeq_of_free used _ 12 c hk hf least]
  exact hf

/-- The CRC-8 in the words of R188: a fold over the bits, most significant first. -/
theorem crc8_eq {n : Nat} (w : BitVec n) :
    crc8 w = ((List.range n).map fun i => w.getMsbD i).foldl
      (fun (reg : Byte) bit => reg <<< 1 ^^^ (if reg.getLsbD 7 ≠ bit then 0x07 else 0)) 0xFF := by
  have step : ∀ (reg : Byte) (bit : Bool),
      crcBit reg bit = reg <<< 1 ^^^ (if reg.getLsbD 7 ≠ bit then 0x07 else 0) := by
    intro reg bit
    unfold crcBit
    cases h : reg.getLsbD 7 <;> cases bit <;> simp
  have fold : ∀ (k : Nat) (reg : Byte), crcFrom w k reg =
      ((List.range k).map fun i => w.getLsbD (k - 1 - i)).foldl
        (fun (reg : Byte) bit => reg <<< 1 ^^^ (if reg.getLsbD 7 ≠ bit then 0x07 else 0)) reg := by
    intro k
    induction k with
    | zero => intro reg; rfl
    | succ k ih =>
      intro reg
      rw [crcFrom, ih, step, List.range_succ_eq_map, List.map_cons, List.foldl_cons, List.map_map]
      congr 1
      refine List.map_congr_left fun i _ => congrArg w.getLsbD ?_
      omega
  unfold crc8
  rw [fold]
  congr 1
  refine List.map_congr_left fun i hi => ?_
  rw [BitVec.getMsbD_eq_getLsbD, decide_eq_true (List.mem_range.1 hi), Bool.true_and]

/-- An entry commanded anew is a fresh entry or pulse on its target (R108, R125). -/
theorem command_eq (s : State) (e : Entry) :
    s.command e = match e.target with
      | .ut k => s.freshPulse k e.reason
      | tg => s.freshEntry tg e.reason := by
  obtain ⟨t, w, st, c, ev, l, a, b, d, p⟩ := e
  cases t <;> simp [State.command, State.freshPulse, State.freshEntry, State.evidenceAtCommand]

/-- The entries of a trip set are on TI and TC lines. -/
theorem newEntry_targetsOf (s : State) (b : BreakerSet) (why : Reason) {t : Target} (h : t ∈ targetsOf b) :
    s.newEntry t why = s.freshEntry t why := by
  obtain ⟨i, -, rfl⟩ := List.mem_map.1 h
  unfold State.newEntry
  rw [command_eq]
  by_cases h4 : i.val < 4 <;> simp [tripLineOf, h4]

/-- A re-strike of a record in the words of the statements (R125, R126). -/
theorem restrikeRecord_eq (s : State) (r : TripRec) : s.restrikeRecord r = s.restruck r := by
  unfold State.restrikeRecord State.restruck
  simp only
  congr 2
  · refine List.map_congr_left fun e _ => ?_
    rw [command_eq]
    refine if_congr ?_ rfl rfl
    rw [List.contains_iff_mem, List.mem_append, List.mem_filterMap, List.any_eq_true]
    constructor
    · rintro (h | ⟨x, h, e'⟩)
      · exact ⟨_, h, by simp⟩
      · refine ⟨x, h, ?_⟩
        cases x <;> simp_all [intertripOf]
    · rintro ⟨x, h, e'⟩
      cases x with
      | ti k =>
        simp only [Bool.or_eq_true, decide_eq_true_eq] at e'
        rcases e' with e' | e'
        · exact .inl (e' ▸ h)
        · exact .inr ⟨_, h, by rw [e']; rfl⟩
      | tc j => simp only [Bool.or_false, decide_eq_true_eq] at e'; exact .inl (e' ▸ h)
      | ut k => simp only [Bool.or_false, decide_eq_true_eq] at e'; exact .inl (e' ▸ h)
  · exact List.map_congr_left fun t h => newEntry_targetsOf s _ _ (List.mem_of_mem_filter h)

/-- The queue is served (R33): requests at the head are removed one after another, and the head then left is started where
it is eligible, or left with the rest. -/
theorem serveQueue_eq (s : State) (q : List Request) :
    s.serveQueue q =
      let u := (q.takeWhile s.dropsRequest).foldl State.skipRequest s
      match q.dropWhile s.dropsRequest with
      | [] => { u with fsu.queue := [] }
      | r :: rest =>
        if u.eligible r.chan r.kind.testKind then
          ({ u with fsu.queue := rest } : State).startTest r.chan r.kind.testKind
        else { u with fsu.queue := r :: rest } := by
  induction q generalizing s with
  | nil => rfl
  | cons r rest ih =>
    rw [State.serveQueue]
    by_cases h : s.dropsRequest r = true
    · rw [if_pos h, ih, List.takeWhile_cons_of_pos h, List.dropWhile_cons_of_pos h]
      rfl
    · rw [if_neg h, List.takeWhile_cons_of_neg h, List.dropWhile_cons_of_neg h]
      rfl

end Sys2Proof.Machine
end

