-- ==== Sys2Proof/Laws/Frames.lean ====
section
/-! SUPPORT. What a good frame does at its port: everything `goodFrame`, `function` and `control` can do, said once, and
what the reply and a change of the port add to it. -/

namespace Sys2Proof.Machine

/-- A frame built with its check byte passes the checks of R187, lines 4 and 5 included (R188). -/
theorem judgeFrame_good (body : BitVec 32) : judgeFrame false 40 false (frameOf body) = .accepted := by
  have hlow : (frameOf body).extractLsb' 0 8 = crc8 body := by
    unfold frameOf
    apply BitVec.eq_of_getLsbD_eq
    intro i hi
    simp only [BitVec.getLsbD_extractLsb', BitVec.getLsbD_append]
    simp [hi]
  have hhigh : (frameOf body).extractLsb' 8 32 = body := by
    unfold frameOf
    apply BitVec.eq_of_getLsbD_eq
    intro i hi
    simp only [BitVec.getLsbD_extractLsb', BitVec.getLsbD_append]
    have : ¬ 8 + i < 8 := by omega
    simp [hi, this]
  have h0 : frameOf body ≠ 0 := by
    intro h
    rw [h] at hlow hhigh
    rw [← hhigh] at hlow
    exact absurd hlow (by decide +kernel)
  have h1 : frameOf body ≠ BitVec.allOnes 40 := by
    intro h
    rw [h] at hlow hhigh
    rw [← hhigh] at hlow
    exact absurd hlow (by decide +kernel)
  unfold judgeFrame
  rw [hlow, hhigh]
  rw [if_neg (by decide), if_neg (by decide)]
  simp only [Bool.or_self, Bool.false_eq_true, if_false, h0, h1, or_self, ne_eq, not_true_eq_false]

theorem modPort_same (s : State) (p : Port) (g : PortRec → PortRec) : (s.modPort p g).lnk[p] = g s.lnk[p] :=
  modAt_same s.lnk p g

theorem modPort_other (s : State) {p o : Port} (g : PortRec → PortRec) (h : o ≠ p) :
    (s.modPort p g).lnk[o] = s.lnk[o] := modAt_other s.lnk g h

/-- A good frame that can be the next thing at its port: the port has received it and the checks accept it. -/
theorem receive_ready (s : State) (p : Port) (w : BitVec 40) (h : s.frameReady p = true) :
    let q := (s.receive p 40 false w).lnk[p]
    q.frame = .shifting ∧ q.sckAtFall = false ∧ q.edges = 40 ∧ q.sck = false ∧ q.request = w ∧
      (∀ o, o ≠ p → (s.receive p 40 false w).lnk[o] = s.lnk[o]) ∧ SamePort s.lnk[p] q ∧ q.slot = s.lnk[p].slot := by
  have key : ∀ t : State, t.lnk[p].frame = .shifting → t.lnk[p].sckAtFall = false → t.lnk[p].sck = false →
      t.lnk[p].edges = 0 →
      let u := t.modPort p fun q => q.clockRest 40 false w
      let q := u.lnk[p]
      q.frame = .shifting ∧ q.sckAtFall = false ∧ q.edges = 40 ∧ q.sck = false ∧ q.request = w ∧
        (∀ o, o ≠ p → u.lnk[o] = t.lnk[o]) ∧ SamePort t.lnk[p] q ∧ q.slot = t.lnk[p].slot := by
    intro t h1 h2 h3 h4
    obtain ⟨g1, g2, g3⟩ := clockRest_whole w t.lnk[p] h1 h2 h3 h4
    have c := clockAll_same t.lnk[p] ((frameRun t.lnk[p].sckAtFall 40 false w).drop t.lnk[p].edgesCome)
    simp only [modPort_same]
    exact ⟨c.frame.trans h1, c.sckAtFall.trans h2, g1, g2, g3, fun o ho => modPort_other t _ ho, c.port, c.slot⟩
  unfold State.frameReady at h
  unfold State.receive State.openFrame
  split at h
  · rename_i hf
    rw [if_pos hf]
    have e : (s.beginFrame p false).lnk[p] = _ := modPort_same s p _
    obtain ⟨g1, g2, g3, g4, g5, g6, g7, g8⟩ := key (s.beginFrame p false) (by rw [e]) (by rw [e]) (by rw [e]) (by rw [e])
    rw [e] at g7 g8
    exact ⟨g1, g2, g3, g4, g5, fun o ho => (g6 o ho).trans (modPort_other s _ ho), g7, g8⟩
  · rename_i hf
    rw [if_neg (by rw [hf]; decide)]
    simp only [Bool.and_eq_true, Bool.not_eq_true', decide_eq_true_eq] at h
    exact key s hf h.1.1 h.1.2 h.2
  · exact absurd h (by decide)

/-- A good frame that can end runs its function on the state in which only the port has changed, as `TookFrame` says. -/
theorem goodFrame_ready (s : State) (p : Port) (code : BitVec 4) (f : Fields) (accept : State → State)
    (h : s.frameReady p = true) :
    ∃ l, s.goodFrame p code f accept = accept { s with lnk := l } ∧ TookFrame s.lnk l p s.lnk[p] s.lnk[p].slot := by
  obtain ⟨h1, h2, h3, h4, h5, h6, h7, h8⟩ := receive_ready s p (frameOf (requestBody code f)) h
  have hv : (s.receive p 40 false (frameOf (requestBody code f))).lnk[p].verdict = .accepted := by
    unfold PortRec.verdict
    rw [h2, h3, h4, h5]
    exact judgeFrame_good _
  unfold State.goodFrame
  simp only
  rw [if_pos ⟨h1, hv, h5⟩]
  unfold State.riseSelect
  simp only [hv]
  refine ⟨(((s.receive p 40 false (frameOf (requestBody code f))).modPort p PortRec.closeFrame).modPort p
    fun q => { q with frameErr := false }).lnk, ?_,
    fun o ho => (modPort_other _ _ ho).trans ((modPort_other _ _ ho).trans (h6 o ho)), ?_⟩
  · congr 1
    unfold State.receive State.openFrame
    split <;> rfl
  · unfold SamePort at h7 ⊢
    rw [modPort_same, modPort_same]
    exact ⟨rfl, rfl, rfl, h8, h7⟩

/-- A reply takes the slot of a port that took a frame. -/
theorem TookFrame.setSlot {s : State} {l : Vector PortRec 4} {p : Port} {q : PortRec} {r : Reply}
    (h : TookFrame s.lnk l p q r) (r' : Reply) :
    ∃ l', State.setSlot { s with lnk := l } p r' = { s with lnk := l' } ∧ TookFrame s.lnk l' p q r' := by
  obtain ⟨h1, h2, h3, h4, _, h6⟩ := h
  refine ⟨_, rfl, ?_⟩
  unfold TookFrame
  rw [modAt_same]
  exact ⟨fun o ho => (modAt_other l _ ho).trans (h1 o ho), h2, h3, h4, rfl, h6⟩

/-- The port of a taken frame, and every other, keep their port state. -/
theorem TookFrame.state {before after : Vector PortRec 4} {p : Port} {r : Reply}
    (h : TookFrame before after p before[p] r) (q : Port) : after[q].state = before[q].state := by
  by_cases hq : q = p
  · rw [hq]; exact h.2.2.2.2.2.1
  · rw [h.1 q hq]

/-- A function whose port permits it runs its body (R192 line 4). -/
theorem function_permitted (s : State) (p : Port) (fn : Fn) (f : Fields) (body : State → State)
    (h : s.frameReady p = true) (hp : fn.permitted s.lnk[p].state = true) :
    ∃ l, s.function p fn f body = body { s with lnk := l } ∧ TookFrame s.lnk l p s.lnk[p] s.lnk[p].slot := by
  obtain ⟨l, h1, h2⟩ := goodFrame_ready s p fn.code f (fun s =>
    if fn.permitted s.lnk[p].state then body s
    else if fn = .report then s.setSlot p ⟨.notUsed, 0⟩
    else s.setSlot p ⟨.notLive, 0⟩) h
  refine ⟨l, h1.trans ?_, h2⟩
  have : fn.permitted l[p].state = true := by rw [h2.state]; exact hp
  exact if_pos this

/-- A function that its port does not permit is refused (R192 lines 2 and 3). -/
theorem function_refused (s : State) (p : Port) (fn : Fn) (f : Fields) (body : State → State)
    (h : s.frameReady p = true) (hp : fn.permitted s.lnk[p].state = false) :
    ∃ l, s.function p fn f body = { s with lnk := l } ∧
      TookFrame s.lnk l p s.lnk[p] ⟨if fn = .report then .notUsed else .notLive, 0⟩ := by
  obtain ⟨l, h1, h2⟩ := goodFrame_ready s p fn.code f (fun s =>
    if fn.permitted s.lnk[p].state then body s
    else if fn = .report then s.setSlot p ⟨.notUsed, 0⟩
    else s.setSlot p ⟨.notLive, 0⟩) h
  obtain ⟨l', h3, h4⟩ := h2.setSlot ⟨if fn = .report then .notUsed else .notLive, 0⟩
  refine ⟨l', (h1.trans ?_).trans h3, h4⟩
  have : ¬ fn.permitted l[p].state = true := by rw [h2.state, hp]; decide
  refine (if_neg this).trans ?_
  split <;> rfl

theorem liveReady_ready {s : State} {p : Port} (h : s.liveReady p = true) :
    s.frameReady p = true ∧ s.lnk[p].state = .live := by
  unfold State.liveReady at h
  simpa using h

end Sys2Proof.Machine
end

