-- ==== Sys2Proof/Laws/Requests.lean ====
section
/-! SUPPORT. The invariants through what each frame and each port timer does: `Keeps` for the bodies that the meanings of
the functions and subfunctions call. -/

namespace Sys2Proof.Machine

/-! ### Frames -/

theorem fallSelect_keeps (s : State) (p : Port) (c : ClockLine) : Keeps s (s.fallSelect p c) := by
  unfold State.fallSelect
  split
  · exact (beginFrame_keeps s p c.high).trans (clock_keeps _ p c.edges)
  · exact .refl s

theorem selectExpiry_keeps (s : State) (p : Port) : Keeps s (s.selectExpiry p) := by
  unfold State.selectExpiry
  split
  · exact modPort_keeps s p _ (by intro; rfl)
  · exact .refl s

theorem riseTimedOut_keeps (s : State) (p : Port) : Keeps s (s.riseTimedOut p) := by
  unfold State.riseTimedOut
  split
  · exact modPort_keeps s p _ (by intro; rfl)
  · exact .refl s

theorem emptyPulse_keeps (s : State) (p : Port) : Keeps s (s.emptyPulse p) := by
  unfold State.emptyPulse
  simp only
  split
  · exact (openFrame_keeps s p false).trans (riseSelect_keeps _ p _ fun t => .refl t)
  · exact .refl s

theorem rejectFrame_keeps (s : State) (p : Port) (e : Byte) (b : Bool) (w : BitVec 40) :
    Keeps s (s.rejectFrame p e b w) := by
  unfold State.rejectFrame
  simp only
  split
  · split
    · exact (receive_keeps s p _ _ _).trans (riseSelect_keeps _ p _ fun t => .refl t)
    · exact .refl s
    · exact .refl s
  · exact .refl s

theorem noFunction_keeps (s : State) (p : Port) (c : BitVec 4) (f : Fields) : Keeps s (s.noFunction p c f) := by
  unfold State.noFunction
  split
  · exact goodFrame_keeps s p _ _ _ fun t => setSlot_keeps t _ _
  · exact .refl s

theorem noSubfunction_keeps (s : State) (p : Port) (f : Fields) : Keeps s (s.noSubfunction p f) := by
  unfold State.noSubfunction
  split
  · exact function_keeps s p .control f _ fun t _ => setSlot_keeps t _ _
  · exact .refl s

/-! ### Port timers -/

theorem heartbeatExpiry_keeps (s : State) (p : Port) : Keeps s (s.heartbeatExpiry p) := by
  unfold State.heartbeatExpiry
  split
  · rename_i h
    simp only [Bool.and_eq_true, decide_eq_true_eq] at h
    exact leaveLive_keeps s p (by rw [h.1]; decide)
  · exact .refl s

/-- A port that is SILENT becomes STALE: neither of them is UNUSED or LIVE. -/
theorem toStale_keeps (s : State) (p : Port) (hs : s.lnk[p].state = .silent) :
    Keeps s (s.modPort p fun r => r.enter .stale .stopped .stopped) := by
  refine ⟨rfl, id, id, ?_, id, id, id, id⟩
  intro i q
  obtain ⟨h1, h2⟩ := i q
  have e : (modAt s.lnk p fun r => r.enter .stale .stopped .stopped)[q] =
      if q = p then s.lnk[p].enter .stale .stopped .stopped else s.lnk[q] := modAt_get _ _ _ _
  by_cases hq : q = p
  · subst hq
    have e : (s.modPort q fun r => r.enter .stale .stopped .stopped).lnk[q].state = .stale := by
      show (modAt s.lnk q _)[q].state = _
      rw [modAt_get]; simp [PortRec.enter]
    refine ⟨?_, fun _ => h2 (by rw [hs]; decide)⟩
    rw [e]
    rw [hs] at h1
    exact ⟨by simp, fun x => absurd (h1.2 x) (by decide)⟩
  · have e : (s.modPort p fun r => r.enter .stale .stopped .stopped).lnk[q].state = s.lnk[q].state := by
      show (modAt s.lnk p _)[q].state = _
      rw [modAt_get]; simp [hq]
    rw [e]
    exact ⟨h1, h2⟩

theorem silentExpiry_keeps (s : State) (p : Port) : Keeps s (s.silentExpiry p) := by
  unfold State.silentExpiry
  split
  · rename_i h
    simp only [Bool.and_eq_true, decide_eq_true_eq] at h
    exact (toStale_keeps s p h.1).trans (raiseOn_zstep _ _ _).keeps
  · exact .refl s

/-! ### Requests -/

theorem readBody_keeps (s : State) (p : Port) (f : Fields) : Keeps s (s.readBody p f) :=
  (modPort_keeps s p _ (by intro; rfl)).trans (setSlot_keeps _ _ _)

theorem readStagedBody_keeps (s : State) (p : Port) (f : Fields) : Keeps s (s.readStagedBody p f) := setSlot_keeps s p _

theorem setStaged_keeps (s : State) (x : Image) : Keeps s { s with cfg.staged := x } :=
  setCfg_keeps s _ rfl rfl rfl rfl rfl rfl rfl rfl rfl rfl rfl

theorem writeBody_keeps (s : State) (p : Port) (f : Fields) : Keeps s (s.writeBody p f) := by
  unfold State.writeBody
  split
  · exact setSlot_keeps _ _ _
  · split
    · exact setSlot_keeps _ _ _
    · split
      · exact setSlot_keeps _ _ _
      · exact setSlot_keeps _ _ _
      · exact (setStaged_keeps s _).trans (setSlot_keeps _ _ _)

theorem claimBody_keeps (s : State) (p : Port) (hl : s.lnk[p].state = .live) : Keeps s (s.claimBody p) := by
  unfold State.claimBody
  split
  · refine Keeps.trans (t := { s with cfg.claim := some p }) ⟨rfl, id, id, ?_, id, id, id, id⟩ (setSlot_keeps _ _ _)
    intro i q
    refine ⟨(i q).1, fun h => ⟨((i q).2 h).1, ?_, ((i q).2 h).2.2⟩⟩
    intro e
    have : p = q := Option.some.inj e
    exact h (by rw [← this]; exact hl)
  · split <;> exact setSlot_keeps _ _ _

theorem yieldBody_keeps (s : State) (p : Port) : Keeps s (s.yieldBody p) := by
  unfold State.yieldBody
  split
  · exact (releaseClaim_keeps s).trans (setSlot_keeps _ _ _)
  · exact setSlot_keeps _ _ _

/-- A commit becomes pending, with its transfer due where the board is quiet (R176, R178). -/
theorem setPending_keeps (s : State) (due : Bool)
    (hd : DueInv s → DueInv { s with cfg.lastCommit := .accepted, cfg.pendingCommit := true, cfg.transferDue := due }) :
    Keeps s { s with cfg.lastCommit := .accepted, cfg.pendingCommit := true, cfg.transferDue := due } :=
  ⟨rfl, id, id, linksInv_congr rfl (fun _ => rfl) rfl rfl fun e => ⟨e, rfl⟩, id, id, id, hd⟩

theorem acceptCommit_keeps (s : State) (p : Port) (hp : s.cfg.pendingCommit = false) : Keeps s (s.acceptCommit p) := by
  unfold State.acceptCommit State.boardQuiet
  simp only
  split
  · rename_i hq
    have due := setPending_keeps s true (by simp_all [DueInv, State.DueAfter])
    exact (due.trans (transferIfDue_keeps _)).trans (setSlot_keeps _ _ _)
  · rename_i hq
    have h := setPending_keeps s s.cfg.transferDue (by
      simp only [DueInv, State.DueAfter, hp, Bool.and_eq_true] at hq ⊢
      tauto)
    exact h.trans (setSlot_keeps _ _ _)

theorem commitBody_keeps (s : State) (p : Port) : Keeps s (s.commitBody p) := by
  unfold State.commitBody
  split
  · exact setSlot_keeps _ _ _
  · split
    · exact setSlot_keeps _ _ _
    · split
      · rename_i why z _
        exact (setCfg_keeps s { s.cfg with lastCommit := .invalid why z } rfl rfl rfl rfl rfl rfl rfl rfl rfl rfl rfl).trans
          (setSlot_keeps _ _ _)
      · rename_i hp _ _
        exact acceptCommit_keeps s p (by simpa using hp)

/-- A port that is used becomes LIVE, or stays so. -/
theorem toLive_keeps (s : State) (p : Port) (t : Nat) (hu : s.lnk[p].state ≠ .unused) :
    Keeps s (s.modPort p fun r => r.report t) := by
  have hl : ∀ r : PortRec, (r.report t).state = .live := by
    intro r
    unfold PortRec.report
    split
    · rename_i h; exact h
    · rfl
  refine ⟨rfl, id, id, ?_, id, id, id, id⟩
  intro i q
  obtain ⟨h1, h2⟩ := i q
  by_cases hq : q = p
  · subst hq
    have e : (s.modPort q fun r => r.report t).lnk[q].state = .live := by
      show (modAt s.lnk q _)[q].state = _
      rw [modAt_get, if_pos rfl]; exact hl _
    refine ⟨?_, fun h => absurd e h⟩
    rw [e]
    exact ⟨by simp, fun x => absurd (h1.2 x) hu⟩
  · have e : (s.modPort p fun r => r.report t).lnk[q].state = s.lnk[q].state := by
      show (modAt s.lnk p _)[q].state = _
      rw [modAt_get, if_neg hq]
    rw [e]
    exact ⟨h1, h2⟩

theorem report_live (s : State) (p : Port) (t : Nat) : (s.modPort p fun r => r.report t).lnk[p].state = .live := by
  show (modAt s.lnk p _)[p].state = _
  rw [modAt_get, if_pos rfl]
  unfold PortRec.report
  split
  · rename_i h; exact h
  · rfl

theorem reportBody_keeps (s : State) (p : Port) (f : Fields) (hu : s.lnk[p].state ≠ .unused) :
    Keeps s (s.reportBody p f) := by
  unfold State.reportBody
  split
  · exact setSlot_keeps _ _ _
  · exact ((toLive_keeps s p _ hu).trans (takeReport_keeps _ p _ (report_live s p _))).trans (setSlot_keeps _ _ _)

theorem releaseBody_keeps (s : State) (p : Port) (f : Fields) : Keeps s (s.releaseBody p f) := by
  unfold State.releaseBody
  split
  · simp only
    split
    · exact (releaseBreaker_zstep s _).keeps.trans (setSlot_keeps _ _ _)
    · exact setSlot_keeps _ _ _
  · exact setSlot_keeps _ _ _

theorem recordBody_keeps (s : State) (p : Port) (f : Fields) : Keeps s (s.recordBody p f) := by
  unfold State.recordBody
  split
  · exact setSlot_keeps _ _ _
  · split
    · exact (modPort_keeps s p _ (by intro; rfl)).trans (setSlot_keeps _ _ _)
    · exact (modPort_keeps s p _ (by intro; rfl)).trans (setSlot_keeps _ _ _)

theorem seenBody_keeps (s : State) (p : Port) (f : Fields) : Keeps s (s.seenBody p f) := by
  unfold State.seenBody
  split
  · exact setSlot_keeps _ _ _
  · split
    · exact setSlot_keeps _ _ _
    · rename_i r _
      refine Keeps.trans ?_ (setSlot_keeps _ _ _)
      refine ((recordsMapped_tstep s _ ?_ ?_).toZStep ?_).keeps
      · intro x _ h
        split
        · exact h
        · exact h
      · intro x _
        split <;> rfl
      · refine linesOf_map _ fun x _ => ?_
        split <;> exact ⟨rfl, rfl⟩

theorem clearAlertsBody_keeps (s : State) (p : Port) (f : Fields) : Keeps s (s.clearAlertsBody p f) :=
  (modAlerts_keeps s p _).trans (setSlot_keeps _ _ _)

theorem setMaskBody_keeps (s : State) (p : Port) (f : Fields) : Keeps s (s.setMaskBody p f) :=
  (modAlerts_keeps s p _).trans (setSlot_keeps _ _ _)

/-! ### CONTROL subfunctions -/

theorem relearnBody_keeps (s : State) (p : Port) (v : Word) : Keeps s (s.relearnBody p v) := by
  unfold State.relearnBody
  split
  · exact setSlot_keeps _ _ _
  · rename_i n _
    split
    · exact setSlot_keeps _ _ _
    · split
      · exact setSlot_keeps _ _ _
      · exact (lcuEvent_lstep s n _ (modChan_lstep s n _ fun c => relearn_mask c _ _)).keeps.trans (setSlot_keeps _ _ _)

/-- A request for a channel that the queue does not name is appended where there is room (R30, R31). -/
theorem appendRequest_keeps (s : State) (r : Request) (hn : placeOf s.fsu.queue r.chan = none)
    (hl : ¬ 4 ≤ s.fsu.queue.length) : Keeps s { s with fsu.queue := s.fsu.queue ++ [r] } := by
  refine (fsuChange_lstep s { s.fsu with queue := s.fsu.queue ++ [r] } rfl ?_).keeps
  rintro ⟨h1, h2, h3⟩
  refine ⟨h1, ?_, ?_⟩
  · show (s.fsu.queue ++ [r]).length ≤ 4
    rw [List.length_append, List.length_singleton]
    omega
  · show ((s.fsu.queue ++ [r]).map (·.chan)).Nodup
    rw [List.map_append, List.map_singleton, List.nodup_append]
    refine ⟨h3, by simp, ?_⟩
    intro a ha b hb e
    rw [List.mem_singleton] at hb
    subst hb
    obtain ⟨x, hx, rfl⟩ := List.mem_map.1 ha
    unfold placeOf at hn
    rw [List.findIdx?_eq_none_iff] at hn
    have := hn x hx
    simp [e] at this

theorem testBody_keeps (s : State) (p : Port) (v : Word) : Keeps s (s.testBody p v) := by
  unfold State.testBody
  split
  · exact setSlot_keeps _ _ _
  · rename_i n _
    split
    · exact setSlot_keeps _ _ _
    · split
      · exact setSlot_keeps _ _ _
      · rename_i hn
        split
        · exact setSlot_keeps _ _ _
        · rename_i hl
          exact (appendRequest_keeps s ⟨n, .test⟩ hn hl).trans (setSlot_keeps _ _ _)

theorem noteCapture_keeps (s : State) (n : Chan) : Keeps s (s.noteCapture n) :=
  (modClarity_lstep s n _ (by intro; rfl)).keeps

/-- A request keeps its place and its channel as its kind changes (R31). -/
theorem toCapture_keeps (s : State) (n : Chan) :
    Keeps s { s with fsu.queue := s.fsu.queue.map fun r => if r.chan = n then ⟨n, .capture⟩ else r } := by
  have e : (s.fsu.queue.map fun r => if r.chan = n then (⟨n, .capture⟩ : Request) else r).map (·.chan) =
      s.fsu.queue.map (·.chan) := by
    rw [List.map_map]
    refine List.map_congr_left fun r _ => ?_
    show (if r.chan = n then (⟨n, .capture⟩ : Request) else r).chan = r.chan
    split
    · rename_i h; exact h.symm
    · rfl
  refine (fsuChange_lstep s
    { s.fsu with queue := s.fsu.queue.map fun r => if r.chan = n then ⟨n, .capture⟩ else r } rfl ?_).keeps
  rintro ⟨h1, h2, h3⟩
  refine ⟨h1, ?_, ?_⟩
  · show (s.fsu.queue.map _).length ≤ 4
    rw [List.length_map]; exact h2
  · exact e ▸ h3

theorem queueCapture_keeps (s : State) (p : Port) (n : Chan) : Keeps s (s.queueCapture p n) := by
  unfold State.queueCapture
  split
  · split
    · exact setSlot_keeps _ _ _
    · exact ((toCapture_keeps s n).trans (noteCapture_keeps _ n)).trans (setSlot_keeps _ _ _)
  · rename_i hn
    split
    · exact setSlot_keeps _ _ _
    · rename_i hl
      exact ((appendRequest_keeps s ⟨n, .capture⟩ hn hl).trans (noteCapture_keeps _ n)).trans (setSlot_keeps _ _ _)

theorem captureBody_keeps (s : State) (p : Port) (v : Word) : Keeps s (s.captureBody p v) := by
  unfold State.captureBody
  split
  · exact setSlot_keeps _ _ _
  · split
    · exact setSlot_keeps _ _ _
    · split
      · exact setSlot_keeps _ _ _
      · split
        · exact setSlot_keeps _ _ _
        · split
          · exact setSlot_keeps _ _ _
          · exact queueCapture_keeps s p _

theorem drillStartBody_keeps (s : State) (p : Port) (v : Word) (hl : s.lnk[p].state = .live) :
    Keeps s (s.drillStartBody p v) := by
  unfold State.drillStartBody
  split
  · exact setSlot_keeps _ _ _
  · rename_i z _
    split
    · exact setSlot_keeps _ _ _
    · split
      · exact setSlot_keeps _ _ _
      · refine Keeps.trans ?_ (setSlot_keeps _ _ _)
        refine Keeps.trans (modZone_zstep s z (fun r => { r with drill := true }) (by intro; rfl)).keeps ?_
        refine Keeps.trans ?_ (raise_zstep _ _).keeps
        refine ⟨rfl, id, id, ?_, id, id, id, id⟩
        intro i q
        refine ⟨(i q).1, fun h => ⟨((i q).2 h).1, ((i q).2 h).2.1, fun _ e => ?_⟩⟩
        have : p = q := Option.some.inj e
        exact h (by rw [← this]; exact hl)

theorem drillEndBody_keeps (s : State) (p : Port) : Keeps s (s.drillEndBody p) := by
  unfold State.drillEndBody
  split
  · exact setSlot_keeps _ _ _
  · split
    · exact setSlot_keeps _ _ _
    · exact (endDrill_zstep s _).keeps.trans (setSlot_keeps _ _ _)

/-- Counters are set to 0, with the parts that hold them as variables. -/
theorem counters_keeps (s : State) (l : Vector Channel 16) (k : Vector ClarityRec 16) (zs : Vector ZoneRec 8)
    (ps : Vector PortRec 4) (hl : ∀ n : Chan, l[n].mask = s.lcu[n].mask)
    (hk : ∀ n : Chan, k[n].testing = s.fsu.clarity[n].testing)
    (hz : ∀ z : Zone, zs[z].state = s.zev.zones[z].state) (hp : ∀ p : Port, ps[p].state = s.lnk[p].state) :
    Keeps s { s with lcu := l, fsu.clarity := k, zev.zones := zs, lnk := ps } := by
  refine ⟨rfl, id, id, linksInv_congr rfl hp rfl rfl fun e => ⟨e, rfl⟩, ?_, id, ?_, id⟩
  · exact testInv_congr hl rfl hk ⟨le_refl _, List.Sublist.refl _⟩
  · rintro ⟨h1, h2, h3⟩
    exact ⟨h1.trans (noZoneLit_congr hz).symm, h2, h3⟩

theorem zeroCounters_keeps (s : State) : Keeps s s.zeroCounters := by
  refine counters_keeps s _ _ _ _ (fun n => ?_) (fun n => ?_) (fun z => ?_) (fun p => ?_)
  · exact (congrArg Channel.mask (modAll_get s.lcu n _)).trans rfl
  · exact (congrArg ClarityRec.testing (modAll_get s.fsu.clarity n _)).trans rfl
  · exact (congrArg ZoneRec.state (modAll_get s.zev.zones z _)).trans rfl
  · exact (congrArg PortRec.state (modAll_get s.lnk p _)).trans rfl

theorem defaultStagedBody_keeps (s : State) (p : Port) : Keeps s (s.defaultStagedBody p) := by
  unfold State.defaultStagedBody
  split
  · exact setSlot_keeps _ _ _
  · split
    · exact setSlot_keeps _ _ _
    · exact (setStaged_keeps s _).trans (setSlot_keeps _ _ _)

end Sys2Proof.Machine
end

