-- ==== Sys2Proof/Tests/Slice0.lean ====
section
/-! SUPPORT. Tests: the well-formedness checks refuse ill-formed commands, a few worked values of the data book, and for
every statement that has hypotheses a state and operands that meet them. -/

/- Each `decide +kernel` below waits for the kernel to have checked all that stands before it. Elaborated side by side, all
of them wait at once, each in a thread of its own, and the memory reserved for threads runs out: one after another,
then. -/
set_option Elab.async false

namespace Sys2Proof.Tests

open Sys2Proof.Machine

/-! ### States -/

/-- An ARMED channel page with a fixed baseline of 500 LU and a reference of 1000 LU. -/
def armedPage : ChannelPage :=
  { ChannelPage.default with
    target := .armed, mode := .fixed, fixedBaseline := ⟨500, by decide⟩, aRef := 1000, stormLimit := ⟨1, by decide⟩
    stormAction := .demote }

/-- Zone 0 watches S0 with L0 and L1, zone 1 the compartment of C1 with L2 and light alone. -/
def image : Image where
  board := BoardPage.default
  chans := ((((Vector.replicate 16 ChannelPage.default).set 0 armedPage).set 1 armedPage).set 2 armedPage).set 3
    { ChannelPage.default with target := .off }
  zones := ((Vector.replicate 8 ZonePage.default).set 0
      { ZonePage.default with enabled := true, slots := #v[0, 1, 255, 255, 255, 255] }).set 1
      { ZonePage.default with
        enabled := true, location := .coupler 1, confirm := .lightOnly, slots := #v[2, 255, 255, 255, 255, 255] }

/-- A lockout word with a right check byte. -/
def word (b : Byte) : LockWord := ⟨b, crc8 b⟩

/-- An NV array with `image` in copy A and a valid empty lockout word. -/
def nv : Nv := ⟨⟨image, 7, true⟩, ⟨Image.default, 8, false⟩, word 0⟩

/-- The part after reset with that NV array. -/
def started : State := ({ State.reset with nv := nv } : State).powerOn

/-- A state with a LIVE port. -/
def live (s : State) (p : Port) : State := s.modPort p fun q => { q with state := .live, heartbeat := .running 100 }

/-- P0 and P1 are LIVE, and P0 holds the edit claim. -/
def edited : State := { live (live started 0) 1 with cfg.claim := some 0 }

def fields (v : Word) : Fields := ⟨0, 0, v⟩

/-- L0 in pickup with a flash in progress. -/
def flashing (s : State) (run : Nat) : State :=
  s.modChan 0 fun c => { c with
    pickup := true, dropRun := run, flash := some ⟨5, 100, if run = 0 then none else some 90⟩ }

/-- Zone `z` in a state, with its vote satisfied. -/
def zoneIn (s : State) (z : Zone) (st : ZoneState) : State :=
  s.modZone z fun r => { r with
    state := st, lit := true, view := modAt r.view 0 fun _ => ⟨true, true⟩, trigger := some 0
    filter := if st = .lit then .running .entry 2 else .stopped
    confirm := if st = .waiting then .running 20 else .stopped
    phase := if st = .tripped then some .holding else none }

/-- Current at every incomer. -/
def current (s : State) : State := { s with cp := Vector.replicate 4 true }

/-- A drill of zone 0 owned by P0. -/
def drilled (s : State) : State :=
  { s.modZone 0 (fun r => { r with drill := true }) with
    zev.drill := { s.zev.drill with active := true, zone := some 0, owner := some 0, window := .running 60000 } }

def entry (t : Target) (st : EntryState) (evidence : Option Time) : Entry :=
  ⟨t, .initial, st, 0, evidence, false, .stopped, .stopped, .stopped, .stopped⟩

/-- An ARC record of zone 0 that holds I0 and C0. -/
def arc (stage : Stage) (es : List Entry) : TripRec :=
  { TripRec.restored 0x11 with
    seq := 1, kind := .arc, stage := stage, origin := some 0, trigger := some 0, peak := some 0
    scope := some .sectional, region := 1, snapshot := 15, entries := es
    closedAt := if stage = .closed then some 9 else none }

def withRecords (s : State) (rs : List TripRec) : State := { s with trm.records := rs }

def noted (s : State) (q : List Request) (t : Option TestRun) : State := { s with fsu.queue := q, fsu.test := t }

/-! ### Well-formedness refuses each kind of ill-formed command -/

theorem test_unknownFunction_illFormed : (Instr.unknownFunction 0 13 (fields 0)).wellFormed = false := by decide
theorem test_badSubfunction_illFormed :
    (Instr.controlBadSubfunction 0 ⟨0, 1, 0⟩).wellFormed = false ∧
      (Instr.controlBadSubfunction 0 ⟨0, 8, 0⟩).wellFormed = false := by decide
theorem test_minPulse_illFormed : (Instr.minPulseExpiry 1 (.ut 0)).wellFormed = false := by decide
theorem test_breakerFail_illFormed : (Instr.breakerFailExpiry 1 (.ut 0)).wellFormed = false := by decide
theorem test_coil_illFormed : (Instr.coilExpiry 1 (.ut 0)).wellFormed = false := by decide
theorem test_wellFormed :
    (Instr.unknownFunction 0 14 (fields 0)).wellFormed = true ∧
      (Instr.controlBadSubfunction 0 ⟨0, 9, 0⟩).wellFormed = true ∧
      (Instr.frameRejected 0 0 false 0).wellFormed = true := by decide

/-! ### Worked values -/

/-- `State.reset` is what RESET leaves of a part whose NV array was never written. -/
theorem test_reset_state : State.reset.powerOn = State.reset := by decide +kernel

/-- A step takes the front command. -/
theorem test_step :
    step { State.reset with pending := [.millisecondTick, .reset] } =
      exec .millisecondTick { State.reset with pending := [.reset] } := rfl

theorem test_withFetchWord : State.reset.withFetchWord 16 0 = State.reset := rfl

/-- R26, R4: L0 is ARMED with P the larger of F and 500 times 3, and D 80 % of it. -/
theorem test_levels :
    started.lcu[(0 : Chan)].state = .armed ∧ started.lcu[(0 : Chan)].pickupLevel = 1500 ∧
      started.lcu[(0 : Chan)].dropLevel = 1200 := by decide +kernel

/-- R100: zones 0 and 1 are QUIET, the others DISABLED. -/
theorem test_zones :
    started.zev.zones[(0 : Zone)].state = .quiet ∧ started.zev.zones[(1 : Zone)].state = .quiet ∧
      started.zev.zones[(2 : Zone)].state = .disabled := by decide +kernel

/-- R141: the check byte of the erased word does not match. -/
theorem test_erased_word : lockWordValid ⟨0xFF, 0xFF⟩ = false ∧ lockWordValid (word 0x7F) = true := by decide +kernel

/-- R188: the check byte of the nine characters 1 to 9. -/
theorem test_crc : crc8 (0x313233343536373839 : BitVec 72) = 0xFB := by decide +kernel

/-- R38, R41, R44: an amplitude of 200 LU against 1000 is BLIND, and L0 is held. -/
theorem test_blind_holds :
    let t := (noted (started.modChan 0 fun c => { c with mask := true }) [] (some ⟨0, .test, 200, 1⟩)).completeTest
    t.fsu.clarity[(0 : Chan)].clarity = .blind ∧ t.lcu[(0 : Chan)].state = .held ∧ t.lcu[(0 : Chan)].mask = false ∧
      t.alerted 0 .sensorLost = true ∧ t.fsu.clarity[(0 : Chan)].lastC = 20 := by decide +kernel

/-- R80: a sample at P lights zone 0. -/
theorem test_pickup_lights :
    let t := started.takeSample 0 1500
    t.zev.zones[(0 : Zone)].state = .lit ∧ t.zev.zones[(0 : Zone)].trigger = some 0 ∧ t.boardQuiet = false := by
  decide +kernel

/-- R83, R90, R106, R131, R132: the filter expires with current, and TI0 and TC0 are driven and held. -/
theorem test_decision :
    let t := (zoneIn (current started) 0 .lit).filterExpiry 0
    t.zev.zones[(0 : Zone)].state = .tripped ∧ t.tripLine (.ti 0) = true ∧ t.tripLine (.tc 0) = true ∧
      t.tripLine (.ti 1) = false ∧ t.closeInhibit = 0x11 ∧ t.trm.records.map (·.seq) = [1] ∧
      t.cfg.engine = .word ∧ t.trm.lock.writing = some 0x11 := by decide +kernel

/-- R137, R139: the release of its last breaker closes a RESTORED record. -/
theorem test_release_closes :
    let t := (withRecords started [TripRec.restored 1]).releaseBreaker 0
    t.trm.records.map (·.stage) = [.closed] ∧ t.closeInhibit = 0 ∧ t.alerted 2 .recordClosed = true := by
  decide +kernel

/-- R176, R178, R179: a COMMIT on a quiet board transfers at once. -/
theorem test_commit :
    let t := edited.commitBody 0
    t.lnk[(0 : Port)].slot = ⟨.accepted, 1⟩ ∧ t.cfg.transferCount = 1 ∧ t.alerted 3 .configApplied = true := by
  decide +kernel

/-- R185: after three clock periods three bits of SDI stand in the request register and SDO has the fourth bit of the
reply; after forty-one SDO holds the fortieth and the fortieth bit received is the last. -/
theorem test_clock_edges :
    let line (k : Nat) : ClockLine := ⟨false, (List.replicate k [Edge.rise true, .fall]).flatten⟩
    let reply := (started.fallSelect 0 (line 0)).lnk[(0 : Port)].reply
    let t := started.fallSelect 0 (line 3)
    let u := started.fallSelect 0 (line 41)
    t.lnk[(0 : Port)].request = 7 ∧ t.lnk[(0 : Port)].edges = 3 ∧ t.sdo 0 = some (reply.getLsbD 36) ∧
      u.lnk[(0 : Port)].request = BitVec.allOnes 40 ∧ u.lnk[(0 : Port)].edges = 41 ∧
      u.sdo 0 = some (reply.getLsbD 0) := by decide +kernel

/-- R185 to R187: a REPORT whose first edges came with the fall of select ends as one whose edges all come with its
end. -/
theorem test_frame_in_pieces :
    let f := fields 0x2A
    let run := frameRun false 40 false (frameOf (requestBody 4 f))
    exec (.report 0 f) (started.fallSelect 0 ⟨false, run.take 33⟩) = exec (.report 0 f) (started.fallSelect 0 ⟨false, []⟩) ∧
      ((started.fallSelect 0 ⟨false, run.take 33⟩).function 0 .report f fun s => s.reportBody 0 f).lnk[(0 : Port)].state =
        .live := by
  refine ⟨?_, by decide +kernel⟩
  exact congrArg Host.Outcome.next (by decide +kernel)

/-! ### States that meet the hypotheses of the statements -/

theorem witness_resets :
    State.reset.nv = Nv.neverWritten ∧ lockWordValid State.reset.nv.word = false ∧
      lockWordValid started.nv.word = true ∧ lockWordSet started.nv.word = 0 ∧
      lockWordSet (word 0x7F) = 0x7F ∧ nv.copyA.valid = true ∧ nv.copyB.valid = false := by decide +kernel

theorem witness_SampleIsDiscardedOrTested :
    started.lcu[(3 : Chan)].state = .off ∧
      ∀ left : Fin 3, let s := noted (started.modChan 0 fun c => { c with mask := true }) [] (some ⟨0, .test, 7, left.val⟩)
        s.lcu[(0 : Chan)].state ≠ .off ∧ s.lcu[(0 : Chan)].mask = true ∧
          s.fsu.test = some ⟨0, .test, 7, left.val⟩ := by decide +kernel

theorem witness_SampleStartsPickup :
    let c := started.lcu[(0 : Chan)]
    let d := started.lcu[(4 : Chan)]
    c.state ≠ .off ∧ c.mask = false ∧ c.pickup = false ∧ c.pickupLevel ≤ 1500 ∧ 1499 < c.pickupLevel ∧
      d.state = .learn ∧ d.mask = false ∧ d.pickup = false ∧ d.pickupLevel ≤ 400 ∧ 399 < d.pickupLevel := by
  decide +kernel

/-- The abort clause of `SampleStartsPickup`: a capture of L1 in flight while L0, of the same zone, picks up. -/
theorem witness_SampleStartsPickup_abort :
    let s := (noted started [] (some ⟨1, .capture, 7, 9⟩)).modChan 1 fun c => { c with mask := true }
    let c := s.lcu[(0 : Chan)]
    c.state ≠ .off ∧ c.mask = false ∧ c.pickup = false ∧ c.pickupLevel ≤ 1500 ∧
      s.fsu.test = some ⟨1, .capture, 7, 9⟩ ∧ (1 : Chan) ≠ 0 ∧ (0 : Chan) ∈ s.cfg.active.zones[(0 : Zone)].members ∧
      (1 : Chan) ∈ s.cfg.active.zones[(0 : Zone)].members ∧
      (s.takeSample 0 1500).fsu.clarity[(1 : Chan)].lastOutcome = .aborted := by decide +kernel

theorem witness_SampleDuringPickup :
    let a := (flashing started 0).lcu[(0 : Chan)]
    let b := (flashing started 3).lcu[(0 : Chan)]
    let n := started.cfg.active.chans[(0 : Chan)].dropCount.val
    a.state ≠ .off ∧ a.mask = false ∧ a.pickup = true ∧ a.flash = some ⟨5, 100, none⟩ ∧ a.dropLevel ≤ 1200 ∧
      1199 < a.dropLevel ∧ a.dropRun = 0 ∧ a.dropRun + 1 < n ∧ b.flash = some ⟨5, 100, some 90⟩ ∧ b.dropRun ≠ 0 ∧
      n ≤ b.dropRun + 1 ∧ started.zoneOf 0 = some 0 ∧ 0 < started.cfg.active.zones[(0 : Zone)].tzf.val := by decide +kernel

/-- The storm and the learning clauses of `SampleDuringPickup`: a demotion, a third restart with a storm limit in force, and
the dropout of a pickup that is no disturbance. -/
theorem witness_SampleDuringPickup_endings :
    let s := (flashing started 3).modChan 0 fun c => { c with stormCount := 1 }
    let page := s.cfg.active.chans[(0 : Chan)]
    let learns (n : Chan) (disturbed : Bool) (past : Byte) := started.modChan n fun c => { c with
      state := .learn, held := false, pickup := true, dropRun := 3, flash := some ⟨0, 9, some 7⟩, window := .stopped
      disturbance := disturbed, restarts := past }
    let ends (u : State) (n : Chan) := (u.takeSample n 0).lcu[n]
    s.zoneOf 0 = some 0 ∧ s.zev.zones[(0 : Zone)].state ≠ .tripped ∧ s.zev.zones[(0 : Zone)].drill = false ∧
      page.stormLimit.val ≠ 0 ∧ s.lcu[(0 : Chan)].stormCount.toNat = page.stormLimit.val ∧
      page.stormAction = .demote ∧ page.target = .armed ∧ s.lcu[(0 : Chan)].demoted = false ∧
      (ends s 0).demoted = true ∧ (ends s 0).state = .observe ∧
      (ends (learns 4 true 2) 4).restarts = 3 ∧ (ends (learns 4 false 2) 4).restarts = 2 ∧
      (ends (learns 0 true 2) 0).restarts = 3 ∧ ((learns 0 true 2).takeSample 0 0).alerted 0 .learnFault = true := by
  decide +kernel

/-- The two windows, and a tenth quiet storm window that restores a demoted channel. -/
theorem witness_ChannelWindowsExpire :
    let d := (started.modChan 0 fun c => { c with demoted := true, state := .observe, quiet := 9 }).lcu[(0 : Chan)]
    started.lcu[(4 : Chan)].window.isRunning = true ∧ started.lcu[(0 : Chan)].window = .stopped ∧
      started.lcu[(0 : Chan)].stormWindow.isRunning = true ∧ d.stormWindow.isRunning = true ∧ d.demoted = true ∧
      d.flashEnded = false ∧ d.flash = none ∧ 9 ≤ d.quiet := by decide +kernel

theorem witness_PickupLightsItsZone :
    let c := started.lcu[(0 : Chan)]
    let page := started.cfg.active.zones[(0 : Zone)]
    let view : Vector MemberStatus 6 := Vector.ofFn fun i : Slot =>
      if page.memberAt i = some 0 then ⟨true, true⟩ else started.zev.zones[(0 : Zone)].view[i]
    c.state ≠ .off ∧ c.mask = false ∧ c.pickup = false ∧ c.pickupLevel ≤ 1500 ∧ started.zoneOf 0 = some 0 ∧
      started.zev.zones[(0 : Zone)].state = .quiet ∧
      channelVotes c started.cfg.active.chans[(0 : Chan)].target = true ∧ voteSatisfied page view = true ∧
      0 < page.tzf.val := by decide +kernel

/-- Zone 0 in a state, seen by its two members as these two. -/
def seen (s : State) (st : ZoneState) (a b : MemberStatus) : State :=
  (zoneIn s 0 st).modZone 0 fun r => { r with view := (r.view.set 0 a).set 1 b }

/-- The clauses of `VoteMovesTheZone` on a zone: its state, and the vote after a status event of L0 that leaves no voting
member, breaks the vote, or satisfies it. -/
theorem witness_VoteMovesTheZone :
    let after (s : State) (st : MemberStatus) : Vector MemberStatus 6 := Vector.ofFn fun i : Slot =>
      if s.cfg.active.zones[(0 : Zone)].slots[i].toNat = (0 : Chan).val then st else s.zev.zones[(0 : Zone)].view[i]
    let page := started.cfg.active.zones[(0 : Zone)]
    started.lcu[(0 : Chan)].mask = false ∧ started.zoneOf 0 = some 0 ∧
      (∀ st ∈ [ZoneState.disabled, .blocked, .quiet, .lit, .waiting, .suppressed, .tripped],
        let alone := seen started st ⟨true, true⟩ ⟨false, false⟩
        let both := seen started st ⟨true, true⟩ ⟨false, true⟩
        alone.zev.zones[(0 : Zone)].state = st ∧ both.zev.zones[(0 : Zone)].state = st ∧
          votingCount (after alone ⟨false, false⟩) = 0 ∧ votingCount (after both ⟨false, false⟩) ≠ 0 ∧
          voteSatisfied page (after both ⟨false, false⟩) = false ∧ votingCount (after both ⟨true, true⟩) ≠ 0 ∧
          voteSatisfied page (after both ⟨true, true⟩) = true) ∧
      (∀ ph ∈ [Phase.holding, .ready, .filtering], ∀ lit : Bool,
        let s := (seen started .tripped ⟨true, true⟩ ⟨false, true⟩).modZone 0 fun r => { r with phase := some ph, lit := lit }
        s.zev.zones[(0 : Zone)].phase = some ph ∧ s.zev.zones[(0 : Zone)].lit = lit) := by decide +kernel

/-- A queue whose first two requests are removed, before a head that is started and one that waits. -/
def requested : List Request := [⟨3, .capture⟩, ⟨4, .test⟩, ⟨0, .test⟩, ⟨1, .test⟩]

theorem witness_SlotServesTheQueue :
    let s := noted started requested none
    let lit := noted (flashing started 0) requested none
    s.fsu.slotTimer.isRunning = true ∧ s.fsu.test = none ∧ s.removed = [⟨3, .capture⟩, ⟨4, .test⟩] ∧
      s.queueLeft = [⟨0, .test⟩, ⟨1, .test⟩] ∧ s.eligible 0 .test = true ∧ lit.fsu.slotTimer.isRunning = true ∧
      lit.fsu.test = none ∧ lit.queueLeft = [⟨0, .test⟩, ⟨1, .test⟩] ∧ lit.eligible 0 .test = false ∧
      (noted started [] (some ⟨0, .test, 7, 9⟩)).fsu.slotTimer.isRunning = true := by decide +kernel

/-- The scan behind an empty queue, behind a head that waits, and one that finds no channel. -/
theorem witness_RoundRobinScan :
    let s : State := { started with fsu.pointer := 15 }
    let lit := noted (flashing started 0) requested none
    s.fsu.slotTimer.isRunning = true ∧ s.fsu.test = none ∧ s.queueLeft = [] ∧
      (∀ i : Fin 16, i < 1 → s.eligible (chanAfter s.fsu.pointer i) .roundRobin = false) ∧
      s.eligible (chanAfter s.fsu.pointer 1) .roundRobin = true ∧
      lit.queueLeft = [⟨0, .test⟩, ⟨1, .test⟩] ∧ lit.eligible 0 .test = false ∧
      (∀ i : Fin 16, i < 1 → lit.eligible (chanAfter lit.fsu.pointer i) .roundRobin = false) ∧
      lit.eligible (chanAfter lit.fsu.pointer 1) .roundRobin = true ∧
      (∀ i : Fin 16, State.reset.eligible (chanAfter 0 i) .roundRobin = false) ∧
      State.reset.fsu.slotTimer.isRunning = true ∧ State.reset.fsu.queue = [] := by decide +kernel

/-- The four kinds of end of a test: classified, without a reference, a capture that fails and one that is staged. -/
theorem witness_TestCompletes :
    started.fsu.test = none ∧ started.cfg.active.chans[(0 : Chan)].aRef = 1000 ∧
      (noted started [] (some ⟨0, .test, 700, 1⟩)).fsu.test = some ⟨0, .test, 700, 1⟩ ∧
      min 255 (700 * 100 / 1000) = 70 ∧ min 255 (1510 * 100 / 1000) = 151 ∧
      started.cfg.active.chans[(4 : Chan)].aRef = 0 ∧ started.cfg.pendingCommit = false ∧
      (noted started [] (some ⟨0, .capture, 1510, 1⟩)).fsu.test = some ⟨0, .capture, 1510, 1⟩ := by decide +kernel

/-- The clauses on clarity: broken or not, the dark run below and at K_a. -/
theorem witness_TestCompletes_clarity :
    (BoardPage.default.ka.val ≤ (3 : Byte).toNat) ∧ ((2 : Byte).toNat < BoardPage.default.ka.val) ∧
      BoardPage.default.blindB.val < BoardPage.default.soiledW.val := by decide

theorem witness_CpFallGivesEvidence :
    (current started).cp[(0 : Incomer)] = true ∧ (current started).noneWaiting := by
  unfold State.noneWaiting; decide +kernel

/-- A drilled zone in WAITING that a rising line confirms, and a list with room for its record. -/
theorem witness_CpChangeConfirmsWaitingZones :
    let s := drilled (zoneIn started 0 .waiting)
    let u : State := { s with cp := s.cp.set 3 true }
    let t := s.cpChange 3 true
    s.cp[(3 : Incomer)] = false ∧ s.zev.zones[(0 : Zone)].state = .waiting ∧ u.currentConfirms 0 = true ∧
      s.zev.zones[(1 : Zone)].state ≠ .waiting ∧ s.trm.records.length + 1 ≤ 12 ∧ s.zev.drill.active = true ∧
      s.zev.zones[(0 : Zone)].drill = true ∧ t.zev.drill = s.zev.drill.ended .decision ∧
      t.trm.records = [u.arcOf 0 1] := by decide +kernel

/-- The number after 1 where 2 and 3 are in use, and its wrap. -/
theorem witness_NextNumber : NextNumber [2, 3] 1 4 ∧ NextNumber [255, 0] 254 1 := by
  have small (P : Nat → Prop) (h1 : P 1) (h2 : P 2) (i : Nat) (hi : 1 ≤ i) (hk : i < 3) : P i := by
    obtain rfl | rfl : i = 1 ∨ i = 2 := by omega
    · exact h1
    · exact h2
  exact ⟨⟨3, by decide, by decide, by decide, small _ (by decide) (by decide)⟩,
    ⟨3, by decide, by decide, by decide, small _ (by decide) (by decide)⟩⟩

theorem witness_FilterExpiryDecides :
    let s := drilled (zoneIn (current started) 0 .lit)
    let l := zoneIn started 1 .lit
    let w := zoneIn started 0 .lit
    w.zev.zones[(0 : Zone)].state = .lit ∧ w.zev.zones[(0 : Zone)].filter.isRunning .entry = true ∧
      w.zev.zones[(0 : Zone)].drill = false ∧ w.cfg.active.zones[(0 : Zone)].confirm = .current ∧
      w.currentConfirms 0 = false ∧
    s.zev.zones[(0 : Zone)].state = .lit ∧ s.zev.zones[(0 : Zone)].filter.isRunning .entry = true ∧
      s.currentConfirms 0 = true ∧ s.zev.zones[(0 : Zone)].drill = true ∧ s.zev.drill.active = true ∧
      s.trm.records.length < 12 ∧ l.zev.zones[(1 : Zone)].state = .lit ∧
      l.zev.zones[(1 : Zone)].filter.isRunning .entry = true ∧ l.zev.zones[(1 : Zone)].drill = false ∧
      l.cfg.active.zones[(1 : Zone)].confirm = .lightOnly ∧ l.trm.records.length < 12 := by decide +kernel

/-- A full list whose second record is the oldest closed one, at a confirmed expiry and at one under drill. -/
theorem witness_RoomIsMade :
    let older := [arc .locked []]
    let old := arc .closed []
    let newer := List.replicate 10 (arc .locked [])
    let s := withRecords (zoneIn (current started) 0 .lit) (older ++ old :: newer)
    let d := withRecords (drilled (zoneIn started 0 .lit)) (older ++ old :: newer)
    s.zev.zones[(0 : Zone)].state = .lit ∧ s.zev.zones[(0 : Zone)].filter.isRunning .entry = true ∧
      s.currentConfirms 0 = true ∧ s.trm.records = older ++ old :: newer ∧ s.trm.records.length = 12 ∧
      (∀ r ∈ older, r.stage ≠ .closed) ∧ old.stage = .closed ∧ d.zev.zones[(0 : Zone)].state = .lit ∧
      d.zev.zones[(0 : Zone)].filter.isRunning .entry = true ∧ d.zev.zones[(0 : Zone)].drill = true ∧
      ¬(d.currentConfirms 0 = true ∨
        (d.zev.zones[(0 : Zone)].drill = false ∧ d.cfg.active.zones[(0 : Zone)].confirm = .lightOnly)) ∧
      d.trm.records = older ++ old :: newer ∧ s.used 0 = true ∧ mem old.seenBy (0 : Port) = false := by decide +kernel

theorem witness_DrillFilterExpiryShowsARecord :
    let s := drilled (zoneIn started 0 .lit)
    s.zev.zones[(0 : Zone)].state = .lit ∧ s.zev.zones[(0 : Zone)].filter.isRunning .entry = true ∧
      s.zev.zones[(0 : Zone)].drill = true ∧ s.currentConfirms 0 = false ∧ s.trm.records.length < 12 := by
  decide +kernel

theorem witness_ConfirmWindowExpires :
    let s := zoneIn started 0 .waiting
    s.zev.zones[(0 : Zone)].state = .waiting ∧ s.zev.zones[(0 : Zone)].confirm.isRunning = true := by decide +kernel

/-- The three clauses of `AsksForWord`, at a decision: an idle engine, one that writes a word, and lines that stay. -/
theorem witness_AsksForWord :
    let s := zoneIn (current started) 0 .lit
    let busy : State := { s with cfg.engine := .word, trm.lock := ⟨.writing, some 5, some 9, 0, .failed, true⟩ }
    let held := withRecords s [{ TripRec.restored 0x7F with seq := 9 }]
    s.cfg.engine = .idle ∧ (s.entryFilterExpiry 0).closeInhibit ≠ s.closeInhibit ∧ busy.cfg.engine ≠ .idle ∧
      (busy.entryFilterExpiry 0).closeInhibit ≠ busy.closeInhibit ∧
      (busy.entryFilterExpiry 0).trm.lock = ⟨.writing, some 5, some (busy.entryFilterExpiry 0).closeInhibit, 0, .failed, false⟩ ∧
      (held.entryFilterExpiry 0).closeInhibit = held.closeInhibit ∧ held.trm.records.length < 12 := by decide +kernel

/-- A tripped zone of a LOCKED record whose re-strike filter runs, without and with current. -/
theorem witness_RestrikeFilterExpires :
    let s := (withRecords (zoneIn started 0 .tripped) [arc .locked []]).modZone 0 fun r => { r with
      filter := .running .restrike 1, phase := some .filtering }
    s.zev.zones[(0 : Zone)].state = .tripped ∧ s.zev.zones[(0 : Zone)].filter.isRunning .restrike = true ∧
      ¬ s.RestrikeConfirmed 0 ∧ (current s).RestrikeConfirmed 0 ∧ ∃ r ∈ s.trm.records, r.ArcOf 0 := by
  unfold State.RestrikeConfirmed; decide +kernel

theorem witness_CloseNoticeFreesItsZone :
    let s : State := { zoneIn started 0 .tripped with zev.notices := [0] }
    let r := s.zev.zones[(0 : Zone)]
    let page := s.cfg.active.zones[(0 : Zone)]
    let none' := Vector.replicate 6 (⟨false, false⟩ : MemberStatus)
    (0 : Zone) ∉ started.zev.notices ∧ (0 : Zone) ∈ s.zev.notices ∧ r.state = .tripped ∧ page.enabled = true ∧
      votingCount r.view ≠ 0 ∧ voteSatisfied page r.view = true ∧ 0 < page.tzf.val ∧ votingCount none' = 0 ∧
      voteSatisfied page (started.zev.zones[(0 : Zone)].view) = false ∧
      votingCount started.zev.zones[(0 : Zone)].view ≠ 0 ∧
      started.cfg.active.zones[(2 : Zone)].enabled = false := by decide +kernel

theorem witness_DrillWindowExpires :
    let s := drilled started
    s.zev.drill.active = true ∧ s.zev.drill.window.isRunning = true ∧ s.zev.drill.zone = some 0 := by decide +kernel

theorem witness_EntryTimersExpire :
    let e := { entry (.ti 0) .commanded none with minPulse := .running 1 }
    let g := { entry (.tc 0) .failing none with coil := .running 1 }
    let u := { entry (.ut 0) .pulsing none with pulse := .running 1 }
    let r := arc .firing [e, g, u]
    r.seq = 1 ∧ r.stage ≠ .closed ∧
      (∃ x ∈ r.entries, x.target = .ti 0 ∧ (decide (x.state = .commanded) && x.minPulse.isRunning) = true) ∧
      (∃ x ∈ r.entries, x.target = .tc 0 ∧ (decide (x.state = .failing) && x.coil.isRunning) = true) ∧
      ∃ x ∈ r.entries, x.target = .ut 0 ∧ (decide (x.state = .pulsing) && x.pulse.isRunning) = true := by
  decide +kernel

/-- A failing incomer, a failing coupler with a far section, and one whose sections are both in the region. -/
theorem witness_BreakerFailEscalates :
    let e := fun t => { entry t .commanded none with breakerFail := .running 1 }
    let s := withRecords started [arc .firing [e (.ti 0), e (.tc 0)]]
    (∀ t ∈ [Target.ti 0, Target.tc 0], ∃ r ∈ s.trm.records, r.seq = 1 ∧ r.stage ≠ .closed ∧
      ∃ x ∈ r.entries, x.target = t ∧ x.state = .commanded ∧ x.breakerFail.isRunning = true ∧ x.evidence = none ∧
        x.minPulse.isRunning = false) ∧
      (s.farSide 1 0).isSome = true ∧ s.farSide 3 0 = none := by decide +kernel

/-- The clauses of `ClarityHoldsTheChannel`: the clarity state of L0 before a test, its dark and good run, the amplitude,
and the clarity state after it. -/
theorem witness_ClarityHoldsTheChannel :
    ∀ x ∈ ([(.clean, 0, 0, 800, .clean), (.clean, 0, 0, 400, .soiled), (.clean, 0, 0, 200, .blind),
        (.clean, 2, 0, 0, .broken), (.blind, 2, 0, 0, .broken), (.blind, 0, 0, 800, .clean),
        (.broken, 0, 2, 200, .blind), (.broken, 0, 2, 400, .soiled)] : List (Clarity × Byte × Byte × LU × Clarity)),
      let s := (noted started [] (some ⟨0, .test, x.2.2.2.1, 1⟩)).modClarity 0 fun k => { k with
        clarity := x.1, darkRun := x.2.1, goodRun := x.2.2.1 }
      s.fsu.test.isSome = true ∧ s.fsu.clarity[(0 : Chan)].clarity = x.1 ∧
        s.completeTest.fsu.clarity[(0 : Chan)].clarity = x.2.2.2.2 := by decide +kernel

/-- The clauses on a release: L0 comes out of BLIND with a baseline and a target, demoted or not, and without a baseline. -/
theorem witness_ClarityHoldsTheChannel_release :
    ∀ x ∈ ([(.fixed, .armed, false, .armed), (.fixed, .observe, false, .observe), (.fixed, .armed, true, .observe),
        (.learned, .armed, true, .learn), (.fixed, .off, false, .off)] :
        List (BaselineMode × ChanTarget × Bool × ChanState)),
      let s := ((noted started [] (some ⟨0, .test, 800, 1⟩)).modClarity 0 fun k => { k with clarity := .blind }).modChan 0
        fun c => { c with state := .held, held := true, valid := decide (x.1 = .fixed), demoted := x.2.2.1 }
      let t : State := { s with
        cfg.active.chans := s.cfg.active.chans.set 0 { armedPage with mode := x.1, target := x.2.1 } }
      t.completeTest.fsu.clarity[(0 : Chan)].clarity = .clean ∧
        t.completeTest.lcu[(0 : Chan)].state = x.2.2.2 := by decide +kernel

/-- Word writes with and without a waiting word, a waiting save and the retry flag; save writes with and without a waiting
word. -/
theorem witness_NvWritesEnd :
    let s : State := { State.reset with trm.lock := ⟨.writing, some 0, some 1, 0, .none, true⟩, cfg.saveWaiting := true }
    let v : State := { started with cfg.engine := .saving, cfg.job := some ⟨.b, 8, image, true⟩ }
    let w : State := { v with trm.lock := ⟨.waiting, none, some 1, 0, .none, false⟩ }
    State.reset.cfg.engine = .word ∧ State.reset.trm.lock.writing = some 0 ∧
      State.reset.trm.lock.waiting = none ∧ State.reset.trm.lock.retry = false ∧
      (⟨1, 0⟩ : LockWord) ≠ ⟨0, crc8 (0 : Byte)⟩ ∧ s.cfg.engine = .word ∧ s.trm.lock.writing = some 0 ∧
      s.trm.lock.waiting = some 1 ∧ s.trm.lock.retry = true ∧ v.cfg.engine = .saving ∧
      v.cfg.job = some ⟨.b, 8, image, true⟩ ∧ v.cfg.saveWaiting = false ∧ v.trm.lock.waiting = none ∧
      (⟨image, 8, false⟩ : NvCopy) ≠ ⟨image, 8, true⟩ ∧ w.trm.lock.waiting = some 1 := by decide +kernel

/-- The three frame states, for the selects and the rejected frames. -/
theorem witness_frames :
    let at' (f : FrameState) := started.modPort 0 fun q => { q with frame := f }
    (at' .idle).lnk[(0 : Port)].frame = .idle ∧ (at' .shifting).lnk[(0 : Port)].frame = .shifting ∧
      (at' .timedOut).lnk[(0 : Port)].frame = .timedOut ∧ (at' .shifting).lnk[(0 : Port)].sckAtFall = false ∧
      (at' .shifting).lnk[(0 : Port)].sck = false ∧ (at' .shifting).lnk[(0 : Port)].edges = 0 ∧
      (0 : BitVec 40).extractLsb' 0 8 ≠ crc8 ((0 : BitVec 40).extractLsb' 8 32) := by decide +kernel

/-- A FETCH and a frame of the wrong length, each with the edges of three bits before its end. -/
theorem witness_ClockEdgesShiftTheRegisters :
    let u := started.fallSelect 0 ⟨false, []⟩
    let run := frameRun false 40 false (frameOf (requestBody 0 (fields 0)))
    let short := frameRun false 39 false 5
    started.lnk[(0 : Port)].frame = .idle ∧ frameEdges false (.fetch 0 (fields 0)) = some (0, run) ∧
      run.take 6 <+: run ∧ (u.function 0 .fetch (fields 0) fun s => s).lnk[(0 : Port)].frame = .idle ∧
      frameEdges false (.frameRejected 0 39 false 5) = some (0, short) ∧ short.take 6 <+: short ∧
      (u.rejectFrame 0 39 false 5).lnk[(0 : Port)].frame = .idle := by
  refine ⟨by decide +kernel, rfl, List.take_prefix _ _, by decide +kernel, rfl, List.take_prefix _ _, by decide +kernel⟩

/-- Ports that take requests: P0 LIVE, P2 SILENT, and P3 UNUSED with its incomer absent. -/
theorem witness_requests :
    edited.liveReady 0 = true ∧ edited.frameReady 2 = true ∧ edited.lnk[(2 : Port)].state = .silent ∧
      edited.lnk[(0 : Port)].state ≠ .unused ∧
      (started.modPort 3 fun q => { q with state := .unused }).frameReady 3 = true := by decide +kernel

/-- A READ STAGED and a WRITE, on an item and off the pages, at the ends of a range and between two steps. -/
theorem witness_WriteDecides :
    edited.cfg.claim = some 0 ∧ edited.cfg.claim ≠ some 1 ∧ edited.cfg.pendingCommit = false ∧
      itemAt edited.cfg.staged 3 0 = none ∧ itemAt edited.cfg.staged 0 7 = some 30 ∧ itemRange 3 0 = none ∧
      itemRange 0 20 = none ∧ itemRange 2 128 = none ∧ itemRange 0 7 = some (10, 100, 1) ∧
      itemRange 1 5 = some (50, 95, 5) ∧ 5 ∣ 95 - 50 ∧ ¬ 5 ∣ 94 - 50 := by decide +kernel

/-- The items and the ranges of the statements agree with what the part reads and writes, on the ends of two ranges. -/
theorem test_item_ranges :
    (setImageItem image 0 7 9).map Option.isSome = some false ∧ (setImageItem image 0 7 100).map Option.isSome = some true ∧
      (setImageItem image 1 5 94).map Option.isSome = some false ∧
      (setImageItem image 2 17 6).map Option.isSome = some true ∧ itemAt image 2 17 = imageItem image 2 17 := by
  decide +kernel

/-- The first failure in the order of the checks, at its first zone: zones 2 and 5 share L9, and zone 1 is then without a
channel. -/
theorem witness_ValidationAcceptsExactly :
    let shared : Image := { image with
      zones := (image.zones.set 2 { ZonePage.default with slots := #v[9, 255, 255, 255, 255, 255] }).set 5
        { ZonePage.default with slots := #v[8, 9, 255, 255, 255, 255] } }
    let empty : Image := { shared with zones := shared.zones.set 1 { ZonePage.default with enabled := true } }
    validate image = none ∧ validate shared = some (.sharedChannel, some 2) ∧
      validate empty = some (.sharedChannel, some 2) ∧
      validate { empty with zones := empty.zones.set 2 ZonePage.default } = some (.emptyZone, some 1) ∧
      validate { image with board := { image.board with incomer := Vector.replicate 4 false } } =
        some (.noIncomer, none) := by decide +kernel

/-- CLAIM, YIELD and COMMIT: free, own and foreign claim, a valid image on a quiet board and on one with a lit zone, and
an image that fails. -/
theorem witness_ClaimYieldCommit :
    started.cfg.claim = none ∧ edited.cfg.claim = some 0 ∧ edited.liveReady 1 = true ∧
      validate edited.cfg.staged = none ∧ edited.boardQuiet = true ∧
      ({ edited with cfg.zonesQuiet := false } : State).boardQuiet = false ∧
      (validate { image with board := { image.board with tBf := ⟨40, by decide⟩, tMin := ⟨40, by decide⟩ } }).isSome =
        true := by decide +kernel

theorem witness_TransferTakesTheStagedImage :
    let s : State := { edited with cfg.pendingCommit := true, cfg.transferDue := true }
    s.cfg.pendingCommit = true ∧ s.cfg.transferDue = true ∧ edited.cfg.pendingCommit = false ∧
      s.used 3 = true := by decide +kernel

/-- A transfer of an image with a filter time of 0 to a zone in light: its record is opened, and a drill has ended. -/
theorem witness_TransferTakesTheStagedImage_atOnce :
    let s : State := { current (drilled (flashing edited 0)) with
      cfg.pendingCommit := true, cfg.transferDue := true
      cfg.staged := { image with zones := image.zones.set 0 { image.zones[0] with tzf := ⟨0, by decide⟩ } } }
    let t := s.makeTransfer
    s.zev.zones[(0 : Zone)].state ≠ .tripped ∧ t.cfg.active.zones[(0 : Zone)].tzf.val = 0 ∧
      t.zev.zones[(0 : Zone)].lit = true ∧ t.currentConfirms 0 = true ∧ t.trm.records = [t.arcOf 0 1] ∧
      t.zev.drill = s.zev.drill.ended .transfer := by decide +kernel

/-- A transfer of such an image to a TRIPPED zone in light: its record is re-struck. -/
theorem witness_TransferTakesTheStagedImage_restrike :
    let z : State := (withRecords (zoneIn (current (flashing edited 0)) 0 .tripped) [arc .locked []]).modZone 0 fun r =>
      { r with phase := some .ready }
    let s : State := { z with
      cfg.pendingCommit := true, cfg.transferDue := true
      cfg.staged := { image with zones := image.zones.set 0 { image.zones[0] with tzf := ⟨0, by decide⟩ } } }
    let t := s.makeTransfer
    s.zev.zones[(0 : Zone)].state = .tripped ∧ s.zev.zones[(0 : Zone)].phase = some .ready ∧
      (arc .locked []).ArcOf 0 ∧ t.live (t.feedSet (s.recordRegion 0)) = true ∧
      t.cfg.active.zones[(0 : Zone)].tzf.val = 0 ∧ t.zev.zones[(0 : Zone)].lit = true ∧
      t.trm.records = [t.restruck (arc .locked [])] := by decide +kernel

/-- A transfer that changes the page of L0, with its test in flight, and leaves that of L1; one that takes the claim's
port out of use; and one with no zone waiting. -/
theorem witness_TransferTakesUpTheChannels :
    let s : State := { noted edited [] (some ⟨0, .capture, 7, 9⟩) with
      cfg.pendingCommit := true, cfg.transferDue := true
      cfg.staged := { image with
        board := { image.board with incomer := image.board.incomer.set 0 false }
        chans := image.chans.set 0 { armedPage with target := .off } } }
    s.cfg.pendingCommit = true ∧ s.cfg.transferDue = true ∧
      s.cfg.active.chans[(0 : Chan)] ≠ s.cfg.staged.chans[(0 : Chan)] ∧
      s.cfg.active.chans[(1 : Chan)] = s.cfg.staged.chans[(1 : Chan)] ∧ s.cfg.claim = some 0 ∧
      s.cfg.staged.board.incomer[(0 : Port)] = false ∧ s.noneWaiting := by
  unfold State.noneWaiting; decide +kernel

/-- Ports with and without a record selected, and a latch of another item. -/
theorem witness_StatusAndRecordItemsAreRead :
    let s := (withRecords started [arc .locked [entry (.ti 0) .confirmed none]]).modPort 0 fun q => { q with
      selection := some 1, latch := some ⟨⟨7, 48, none⟩, none⟩ }
    started.frameReady 0 = true ∧ started.lnk[(0 : Port)].selection = none ∧ started.lnk[(0 : Port)].latch = none ∧
      s.frameReady 0 = true ∧ s.lnk[(0 : Port)].selection = some 1 ∧ (s.trm.records.map (·.seq)).Nodup ∧
      (∃ r ∈ s.trm.records, r.seq = 1 ∧ (r.entries[0]?).isSome = true ∧ r.entries.length ≤ 1) ∧
      (∀ l ∈ s.lnk[(0 : Port)].latch, l.key ≠ ⟨10, 32, some 1⟩ ∧ l.key ≠ ⟨7, 33, none⟩) := by decide +kernel

/-- A port that becomes LIVE and one that is; no zone waits, or two do with room for their records. -/
theorem witness_ReportIsTaken :
    let s := zoneIn (zoneIn edited 0 .waiting) 1 .waiting
    s.frameReady 2 = true ∧ s.lnk[(2 : Port)].state ≠ .live ∧ s.lnk[(0 : Port)].state = .live ∧ s.RoomFor [0, 1] ∧
      s.trm.records.length + 2 ≤ 12 ∧ s.zev.zones[(0 : Zone)].state = .waiting ∧
      s.zev.zones[(1 : Zone)].state = .waiting ∧ edited.noneWaiting ∧ edited.frameReady 2 = true ∧ edited.lnk[(2 : Port)].state ≠ .unused ∧
      (0x3F : Word).extractLsb' 6 10 = 0 ∧ (0x40 : Word).extractLsb' 6 10 ≠ 0 := by
  unfold State.RoomFor State.noneWaiting; decide +kernel

/-- Zone 0 waits at S0, cut off by C0 reported OPEN by P0 alone, with current at I3. -/
def cutOff : State :=
  let s := zoneIn edited 0 .waiting
  let couplers := s.top.couplers.set 0 ⟨.opened, 0⟩
  { s with
    cp := s.cp.set 3 true, top.reports := s.top.reports.set 0 ⟨.none, .none, .opened⟩, top.couplers := couplers
    top.islandName := islandNames fun j => couplers[j].resolved.joins }

/-- A topology event confirms a zone in WAITING: by a REPORT that closes C0, and by the loss of the report that opened
it. -/
theorem witness_TopologyConfirmsWaitingZones :
    IslandsInv cutOff ∧ cutOff.currentConfirms 0 = false ∧ cutOff.lnk[(0 : Port)].state = .live ∧
      (∀ t ∈ [cutOff.takeReport 0 ⟨.closed, .none, .closed⟩, cutOff.leaveLive 0],
        t.top.couplers[(0 : Coupler)].resolved ≠ cutOff.top.couplers[(0 : Coupler)].resolved ∧
          t.zev.zones[(0 : Zone)].state = .tripped ∧
          t.trm.records = [({ cutOff with top := t.top } : State).arcOf 0 1]) := by
  unfold IslandsInv; decide +kernel

/-- A commit pending behind a FIRING record, whose last entry a REPORT of its breaker's opening confirms: the transfer is
due. -/
theorem witness_ReportMakesTheTransferDue :
    let e : Entry := { entry (.ti 0) .commanded none with minPulse := .stopped }
    let s : State := { withRecords edited [arc .firing [e]] with cfg.pendingCommit := true, cfg.recordsQuiet := false }
    let t := s.reportBody 0 (fields 1)
    ViewsInv s ∧ DueInv s ∧ s.frameReady 0 = true ∧ s.lnk[(0 : Port)].state ≠ .unused ∧ s.noneWaiting ∧
      t.cfg.recordsQuiet = true ∧ t.cfg.transferDue = true ∧ s.DueAfter t := by
  unfold ViewsInv DueInv State.DueAfter State.noneWaiting; decide +kernel

/-- A RELEASE of I0 by its owner and of I3 by another port; records that take it, that refuse it, and none. -/
theorem witness_ReleaseDecides :
    edited.liveReady 0 = true ∧ (7 : Nat) ≤ (fields 7).value.toNat ∧ (fields 0).value.toNat = (0 : Fin 7).val ∧
      (fields 6).value.toNat = (6 : Fin 7).val ∧ edited.used 3 = true ∧
      mem (arc .locked []).lockout (0 : Fin 7) = true ∧ mem (arc .locked []).released (0 : Fin 7) = false ∧
      edited.zev.zones[(0 : Zone)].lit = false ∧
      (TripRec.restored 1).released ||| single (0 : Fin 7) = (TripRec.restored 1).lockout := by decide +kernel

theorem witness_RecordAndSeenNameARecord :
    let s := withRecords edited [arc .closed []]
    s.frameReady 0 = true ∧ 255 < (fields 256).value.toNat ∧ (fields 255).value.toNat ≤ 255 ∧
      (∀ r ∈ s.trm.records, r.seq.toNat ≠ 255) ∧ (∃ r ∈ s.trm.records, r.seq.toNat = 1) ∧
      (s.trm.records.map (·.seq)).Nodup := by decide +kernel

theorem witness_RelearnDecides :
    let q := fun n : Chan => edited.cfg.active.chans[n]
    edited.liveReady 0 = true ∧ 15 < (16 : Word).toNat ∧ (15 : Word).toNat = (15 : Chan).val ∧
      (q 3).target = .off ∧ (q 0).target ≠ .off ∧ (q 0).mode = .fixed ∧ (q 15).target ≠ .off ∧
      (q 15).mode = .learned ∧ edited.lcu[(15 : Chan)].held = false ∧ edited.trm.records.length < 12 := by decide +kernel

theorem witness_TestAndCaptureAreQueued :
    let q := fun n : Chan => edited.cfg.active.chans[n]
    let full : List Request := [⟨0, .test⟩, ⟨5, .capture⟩, ⟨6, .capture⟩, ⟨7, .capture⟩]
    (q 3).target = .off ∧ (q 4).aRef = 0 ∧ (q 1).target ≠ .off ∧ (q 1).aRef ≠ 0 ∧ (full.map (·.chan)).Nodup ∧
      full[0]? = some ⟨0, .test⟩ ∧ full[3]? = some ⟨7, .capture⟩ ∧ (1 : Chan) ∉ full.map (·.chan) ∧ 4 ≤ full.length ∧
      edited.fsu.queue.length < 4 ∧ edited.fsu.clarity[(1 : Chan)].capture ≠ .testing := by decide +kernel

theorem witness_DrillStartsAndEnds :
    7 < (8 : Word).toNat ∧ (7 : Word).toNat = (7 : Zone).val ∧ edited.zev.drill.active = false ∧
      edited.cfg.active.zones[(7 : Zone)].enabled = false ∧ edited.cfg.active.zones[(0 : Zone)].enabled = true ∧
      edited.zev.zones[(0 : Zone)].state = .quiet ∧ (drilled edited).zev.drill.active = true ∧
      (drilled edited).zev.drill.owner = some 0 ∧ (drilled edited).zev.drill.zone = some 0 ∧
      (drilled edited).zev.drill.owner ≠ some 1 := by decide +kernel

theorem witness_SaveCountersAndDefault :
    edited.cfg.saveStatus ≠ .writing ∧ edited.cfg.engine = .idle ∧ edited.trm.lock.waiting = none ∧
      (live State.reset 0).cfg.engine ≠ .idle ∧ (live State.reset 0).cfg.saveStatus ≠ .writing ∧
      (live State.reset 0).liveReady 0 = true := by decide +kernel

theorem witness_PortTimersExpire :
    edited.lnk[(2 : Port)].state = .silent ∧ edited.lnk[(2 : Port)].silentTimer.isRunning = true ∧
      edited.lnk[(0 : Port)].state = .live ∧ edited.lnk[(0 : Port)].heartbeat.isRunning = true ∧
      edited.cfg.claim = some 0 ∧ (drilled edited).zev.drill.owner = some 0 := by decide +kernel

/-- `started` with a sample waiting that picks L0 up and lights its zone. -/
def sampled : State := { started with pending := [.lightSample 0 1500] }

/-- The invariants hold in a state with an image in force and a command at the front of its queue, which a step carries
out. -/
theorem witness_StepKeeps :
    step sampled = .next (started.takeSample 0 1500) ∧ IslandsInv sampled ∧ ViewsInv sampled ∧ DueInv sampled ∧
      RecordsInv sampled ∧ ListInv sampled ∧ LinksInv sampled ∧ DrillInv sampled ∧ TestInv sampled ∧ WriteInv sampled := by
  refine ⟨?_, ?_, ?_, ?_, ?_, ?_, ?_, ?_, ?_, ?_⟩
  · have h : ({ sampled with pending := [] } : State) = started := by decide +kernel
    show exec (.lightSample 0 1500) { sampled with pending := [] } = _
    rw [h]; rfl
  · unfold IslandsInv; decide +kernel
  · unfold ViewsInv; decide +kernel
  · unfold DueInv State.DueAfter; decide +kernel
  · intro r hr; exact absurd (show sampled.trm.records = [] by decide +kernel) (List.ne_nil_of_mem hr)
  · unfold ListInv; decide +kernel
  · unfold LinksInv; decide +kernel
  · unfold DrillInv; decide +kernel
  · unfold TestInv; decide +kernel
  · refine ⟨by unfold EngineOk; decide +kernel, ?_⟩
    intro b hb
    have h : sampled.trm.lock.latest = none := by decide +kernel
    rw [h] at hb; exact absurd hb (by simp)

/-- A commit pending behind a zone that waits, the only one: the zone's confirm window makes its transfer due, a test
started since leaves it due, and a sample of that test takes it back. -/
theorem witness_DueAfter :
    let s : State := { zoneIn started 0 .waiting with cfg.pendingCommit := true, cfg.zonesQuiet := false }
    let t := s.toSuppressed 0
    let u := t.startTest 0 .roundRobin
    let v := u.testSample 0 100
    s.cfg.transferDue = false ∧ t.cfg.transferDue = true ∧ u.cfg.transferDue = true ∧ v.cfg.transferDue = false ∧
      (∀ x ∈ [s, t, u, v], DueInv x) ∧ s.DueAfter t ∧ t.DueAfter u ∧ u.DueAfter v ∧ ¬ s.DueAfter u := by
  unfold DueInv State.DueAfter; decide +kernel

/-- `ListInv` in a state with an open record of zone 0, a closed one of zone 1, and a close notice on its way to zone 1. -/
theorem witness_ListInv :
    ListInv { withRecords (zoneIn (zoneIn started 0 .tripped) 1 .tripped)
      [arc .locked [entry (.ti 0) .confirmed none, entry (.tc 0) .gaveUp none],
        { arc .closed [] with seq := 2, origin := some 1 }] with zev.notices := [1] } := by
  unfold ListInv; decide +kernel

end Sys2Proof.Tests
end

section
/-! PROOFS. Which command keeps which invariant, for every command at once; and O58. -/

namespace Sys2Proof.Machine

/-- What a command keeps on its way to the state it is known to reach, it keeps on its way to the state it answers. -/
theorem Keeps.of_next {s t u : State} (h : (Host.Outcome.next u : Host.Outcome State Fault Refusal) = .next t)
    (k : Keeps s u) : Keeps s t :=
  Host.Outcome.next.inj h ▸ k

/-- Every command but RESET keeps each invariant by itself, and the queue as it was. -/
theorem exec_keeps {c : Instr} {s t : State} (hc : c ≠ .reset) (h : exec c s = .next t) : Keeps s t := by
  cases c with
  | reset => exact absurd rfl hc
  | millisecondTick => exact .of_next h (tick_keeps s)
  | lightSample n v => exact .of_next h (takeSample_keeps s n v)
  | learningWindowExpiry n => exact .of_next h (learningExpiry_keeps s n)
  | stormWindowExpiry n => exact .of_next h (stormWindowExpiry_keeps s n)
  | slotTimerExpiry => exact .of_next h (slotExpiry_keeps s)
  | testWindowExpiry => exact .of_next h (completeTest_keeps s)
  | cpLineChange k active => exact .of_next h (cpChange_keeps s k active)
  | filterExpiry z => exact .of_next h (filterExpiry_keeps s z)
  | confirmWindowExpiry z => exact .of_next h (confirmExpiry_keeps s z)
  | restrikeFilterExpiry z => exact .of_next h (restrikeExpiry_keeps s z)
  | closeNotice z => exact .of_next h (closeNotice_keeps s z)
  | minPulseExpiry seq tg => exact .of_next h (minPulseExpiry_keeps s seq tg)
  | breakerFailExpiry seq tg => exact .of_next h (breakerFailExpiry_keeps s seq tg)
  | coilExpiry seq tg => exact .of_next h (coilExpiry_keeps s seq tg)
  | pulseExpiry seq k => exact .of_next h (pulseExpiry_keeps s seq k)
  | lockoutWordWriteEnd rb => exact .of_next h (wordWriteEnd_keeps s rb)
  | saveWriteEnd rb => exact .of_next h (saveWriteEnd_keeps s rb)
  | selectTimeout p => exact .of_next h (selectExpiry_keeps s p)
  | frameRejected p edges sckHigh bits => exact .of_next h (rejectFrame_keeps s p edges sckHigh bits)
  | unknownFunction p code f => exact .of_next h (noFunction_keeps s p code f)
  | fetch p f => exact .of_next h (function_keeps s p .fetch f _ fun u _ => .refl u)
  | read p f => exact .of_next h (function_keeps s p .read f _ fun u _ => readBody_keeps u p f)
  | readStaged p f => exact .of_next h (function_keeps s p .readStaged f _ fun u _ => readStagedBody_keeps u p f)
  | write p f => exact .of_next h (function_keeps s p .write f _ fun u _ => writeBody_keeps u p f)
  | report p f =>
    exact .of_next h (function_keeps s p .report f _ fun u hu =>
      reportBody_keeps u p f (by simpa [Fn.permitted] using hu))
  | claim p f =>
    exact .of_next h (function_keeps s p .claim f _ fun u hu => claimBody_keeps u p (by simpa [Fn.permitted] using hu))
  | yield p f => exact .of_next h (function_keeps s p .yield f _ fun u _ => yieldBody_keeps u p)
  | commit p f => exact .of_next h (function_keeps s p .commit f _ fun u _ => commitBody_keeps u p)
  | release p f => exact .of_next h (function_keeps s p .release f _ fun u _ => releaseBody_keeps u p f)
  | record p f => exact .of_next h (function_keeps s p .record f _ fun u _ => recordBody_keeps u p f)
  | seen p f => exact .of_next h (function_keeps s p .seen f _ fun u _ => seenBody_keeps u p f)
  | clearAlerts p f => exact .of_next h (function_keeps s p .clearAlerts f _ fun u _ => clearAlertsBody_keeps u p f)
  | setMask p f => exact .of_next h (function_keeps s p .setMask f _ fun u _ => setMaskBody_keeps u p f)
  | relearn p page v => exact .of_next h (control_keeps s p 1 page v _ fun u _ => relearnBody_keeps u p v)
  | test p page v => exact .of_next h (control_keeps s p 2 page v _ fun u _ => testBody_keeps u p v)
  | capture p page v => exact .of_next h (control_keeps s p 3 page v _ fun u _ => captureBody_keeps u p v)
  | drillStart p page v => exact .of_next h (control_keeps s p 4 page v _ fun u hu => drillStartBody_keeps u p v hu)
  | drillEnd p page v => exact .of_next h (control_keeps s p 5 page v _ fun u _ => drillEndBody_keeps u p)
  | save p page v => exact .of_next h (control_keeps s p 6 page v _ fun u _ => saveBody_keeps u p)
  | clearCounters p page v =>
    exact .of_next h (control_keeps s p 7 page v _ fun u _ => (zeroCounters_keeps u).trans (setSlot_keeps _ p _))
  | defaultStaged p page v => exact .of_next h (control_keeps s p 8 page v _ fun u _ => defaultStagedBody_keeps u p)
  | drillWindowExpiry => exact .of_next h (drillExpiry_keeps s)
  | heartbeatExpiry p => exact .of_next h (heartbeatExpiry_keeps s p)
  | silentTimerExpiry p => exact .of_next h (silentExpiry_keeps s p)
  | transfer => exact .of_next h (transferIfDue_keeps s)
  | selectFall p sck => exact .of_next h (fallSelect_keeps s p sck)
  | timedOutSelectRise p => exact .of_next h (riseTimedOut_keeps s p)
  | selectPulseIgnored p => exact .of_next h (emptyPulse_keeps s p)
  | controlBadSubfunction p f => exact .of_next h (noSubfunction_keeps s p f)

/-- A step idles on an empty queue, meets every invariant by RESET, or runs another command, which keeps them (log 7). -/
theorem step_cases {s t : State} (h : step s = .next t) :
    t = s ∨ (∃ rest, t = State.powerOn { s with pending := rest }) ∨ ∃ rest, Keeps { s with pending := rest } t := by
  unfold step at h
  split at h
  · exact .inl (Host.Outcome.next.inj h).symm
  · rename_i c rest _
    by_cases hc : c = .reset
    · subst hc; exact .inr (.inl ⟨rest, (Host.Outcome.next.inj h).symm⟩)
    · exact .inr (.inr ⟨rest, exec_keeps hc h⟩)

/-- Settles O58: RESET leaves no test and an empty queue, and every other command keeps the invariant, which does not
read the queue of commands. -/
theorem stepKeepsTheOneTest : Obligations.StepKeepsTheOneTest := by
  intro s t h i
  obtain rfl | ⟨rest, rfl⟩ | ⟨rest, k⟩ := step_cases h
  · exact i
  · obtain ⟨-, -, -, ht, -, -, -⟩ := powerOn_inv { s with pending := rest }
    exact ht
  · exact k.tests i

end Sys2Proof.Machine
end

section
/-! PROOFS. Votes, zones of channels, eligibility and the output lines as statements about the state; and O12. -/

namespace Sys2Proof.Machine

/-- The voting status of a channel (R9). -/
theorem channelVotes_iff (c : Channel) (target : ChanTarget) :
    channelVotes c target = true ↔ c.state = .armed ∨ (c.state = .learn ∧ target = .armed ∧ c.demoted = false) := by
  unfold channelVotes
  cases c.state <;> simp

/-! ### Members and zones -/

theorem slotChan_eq_some_iff (v : Byte) (n : Chan) : slotChan v = some n ↔ v.toNat = n.val := by
  unfold slotChan
  by_cases h : v.toNat < 16
  · simp [h, Fin.ext_iff]
  · have := n.isLt
    simp only [h, dite_false, reduceCtorEq, false_iff]
    omega

theorem memberAt_eq_some_iff (page : ZonePage) (i : Slot) (n : Chan) :
    page.memberAt i = some n ↔ page.slots[i].toNat = n.val :=
  slotChan_eq_some_iff _ _

theorem mem_members_iff (page : ZonePage) (n : Chan) : n ∈ page.members ↔ ∃ i : Slot, page.slots[i].toNat = n.val := by
  unfold ZonePage.members
  simp only [List.mem_filterMap, slotChan_eq_some_iff, Vector.mem_toList_iff]
  constructor
  · rintro ⟨v, hv, e⟩
    obtain ⟨i, hi, rfl⟩ := Vector.getElem_of_mem hv
    exact ⟨⟨i, hi⟩, e⟩
  · rintro ⟨i, e⟩
    exact ⟨_, Vector.getElem_mem i.isLt, e⟩

theorem isMember_iff (s : State) (z : Zone) (n : Chan) :
    s.isMember z n = true ↔ n ∈ s.cfg.active.zones[z].members := decide_eq_true_iff

/-- The zone of a channel is the first that lists it (R75). -/
theorem zoneOf_eq_some_iff (s : State) (n : Chan) (z : Zone) :
    s.zoneOf n = some z ↔ s.isMember z n = true ∧ ∀ y, y < z → s.isMember y n = false := by
  unfold State.zoneOf
  rw [← Fin.find?_eq_find?_finRange, Fin.find?_eq_some_iff]

/-! ### Eligibility (R34) -/

theorem mayTest_iff (s : State) (n : Chan) (k : TestKind) :
    s.mayTest n k = true ↔ s.lcu[n].state ≠ .off ∧ (k = .capture ∨ s.cfg.active.chans[n].aRef ≠ 0) := by
  unfold State.mayTest State.chanPage
  rw [Bool.and_eq_true, Bool.or_eq_true, decide_eq_true_iff, decide_eq_true_iff, decide_eq_true_iff]

theorem atRest_eq_false_iff (z : ZoneState) :
    z.atRest = false ↔ z = .lit ∨ z = .waiting ∨ z = .suppressed ∨ z = .tripped := by
  cases z <;> simp [ZoneState.atRest]

theorem zoneAtRest_eq_false_iff (s : State) (n : Chan) :
    s.zoneAtRest n = false ↔ ∃ z, s.zoneOf n = some z ∧ s.zev.zones[z].state.atRest = false := by
  unfold State.zoneAtRest
  cases s.zoneOf n <;> simp

theorem lightBars_iff (s : State) (n : Chan) :
    s.lightBars n = true ↔ s.lcu[n].pickup = true ∨ ∃ z, s.zoneOf n = some z ∧
      (s.zev.zones[z].state = .lit ∨ s.zev.zones[z].state = .waiting ∨ s.zev.zones[z].state = .suppressed ∨
        s.zev.zones[z].state = .tripped) := by
  unfold State.lightBars
  simp only [Bool.or_eq_true, Bool.not_eq_true', zoneAtRest_eq_false_iff, atRest_eq_false_iff]

theorem eligible_iff (s : State) (n : Chan) (k : TestKind) :
    s.eligible n k = true ↔ s.mayTest n k = true ∧ ¬ s.lightBars n = true := by
  simp [State.eligible]

/-! ### Lines (R131, R132, R36, R198) -/

theorem drives_iff (e : EntryState) : e.drives = true ↔ e = .commanded ∨ e = .failing ∨ e = .pulsing := by
  cases e <;> simp [EntryState.drives]

theorem tripLine_iff (s : State) (tg : Target) :
    s.tripLine tg = true ↔ ∃ r ∈ s.trm.records, ∃ e ∈ r.entries, e.target = tg ∧
      (e.state = .commanded ∨ e.state = .failing ∨ e.state = .pulsing) := by
  simp [State.tripLine, drives_iff]

theorem mem_holding (r : TripRec) (b : Fin 7) :
    mem r.holding b = true ↔ mem r.lockout b = true ∧ mem r.released b = false := by
  simp [TripRec.holding, mem_and, mem_not]

/-- The close-inhibit lines of a list of records (R132). -/
theorem mem_linesOf (rs : List TripRec) (b : Fin 7) :
    mem (linesOf rs) b = true ↔ ∃ r ∈ rs, r.stage ≠ .closed ∧ mem r.lockout b = true ∧ mem r.released b = false := by
  induction rs with
  | nil => simp [linesOf, mem]
  | cons r rs ih =>
    have step : mem (linesOf (r :: rs)) b = true ↔
        (r.stage ≠ .closed ∧ mem r.holding b = true) ∨ mem (linesOf rs) b = true := by
      show mem (if r.isOpen then r.holding ||| linesOf rs else linesOf rs) b = true ↔ _
      by_cases h : r.stage = .closed <;> simp [TripRec.isOpen, h, mem_or]
    rw [step, ih, mem_holding, List.exists_mem_cons_iff]

theorem emitter_iff (s : State) (n : Chan) :
    s.emitter n = true ↔ ∃ run, s.fsu.test = some run ∧ run.chan = n := by
  unfold State.emitter
  cases s.fsu.test <;> simp

theorem ne_zero_iff_mem {n : Nat} (a : BitVec n) : a ≠ 0 ↔ ∃ i, mem a i = true := by
  have zero (i : Fin n) : mem (0 : BitVec n) i = false := by simp [mem]
  constructor
  · intro h
    by_contra hn
    refine h (set_ext fun i => ?_)
    rw [zero]
    exact Bool.eq_false_iff.2 fun hi => hn ⟨i, hi⟩
  · rintro ⟨i, hi⟩ rfl
    rw [zero] at hi
    exact Bool.false_ne_true hi

/-- Alert 0 has no mask bit; bit i - 1 of the mask is that of alert i (R198). -/
theorem mem_maskBits (m : BitVec 15) (i : Fin 16) :
    mem (m ++ 0#1 : BitVec 16) i = false ↔ i = 0 ∨ m.getLsbD (i.val - 1) = false := by
  have e : mem (m ++ 0#1 : BitVec 16) i = (m ++ 0#1).getLsbD i.val := by simp [mem]
  rw [e, BitVec.getLsbD_append]
  rcases Nat.eq_zero_or_pos i.val with h | h
  · have : i = 0 := Fin.ext h
    simp [this]
  · have h0 : i ≠ 0 := fun e => by simp [e] at h
    have h1 : ¬ i.val < 1 := by omega
    simp [h0, h1]

theorem unmasked_iff (r : AlertRec) :
    r.unmasked = true ↔ ∃ i : Fin 16, mem r.bits i = true ∧ (i = 0 ∨ r.mask.getLsbD (i.val - 1) = false) := by
  unfold AlertRec.unmasked
  rw [bne_iff_ne, ne_zero_iff_mem]
  simp only [mem_and, mem_not, Bool.and_eq_true, Bool.not_eq_true', mem_maskBits]

/-- Settles O12, line by line of the statement. -/
theorem votesAndLinesFollowTheState : Obligations.VotesAndLinesFollowTheState := by
  refine ⟨channelVotes_iff, fun s => ⟨fun n z => ?_, fun n k => ⟨mayTest_iff s n k, lightBars_iff s n, ?_⟩,
    tripLine_iff s, mem_linesOf s.trm.records, emitter_iff s, fun p => ?_⟩⟩
  · simp only [zoneOf_eq_some_iff, ← Bool.not_eq_true, isMember_iff, mem_members_iff]
  · rw [eligible_iff, mayTest_iff, lightBars_iff]
  · rw [State.alertLine, Bool.and_eq_true, unmasked_iff]

end Sys2Proof.Machine
end

section
/-! PROOFS. What the changes of a channel do to each of its fields: levels, the state by R8 and what entering or leaving
LEARN brings. -/

namespace Sys2Proof.Machine

/-! ### Levels (R4) -/

theorem pickupLevelOf_le (page : ChannelPage) (b : LU) (v : Bool) : pickupLevelOf page b v ≤ 4000 := by
  obtain ⟨-, hf, -⟩ := page.floor.ok
  unfold pickupLevelOf
  split
  · exact min_le_left _ _
  · exact hf

theorem dropLevelOf_le (page : ChannelPage) (p : Nat) : dropLevelOf page p ≤ p := by
  obtain ⟨-, hr, -⟩ := page.dropRatio.ok
  unfold dropLevelOf
  refine Nat.div_le_of_le_mul ?_
  rw [Nat.mul_comm 100]
  exact Nat.mul_le_mul_left p (by omega)

theorem withLevels_pickupLevel (c : Channel) (page : ChannelPage) :
    (c.withLevels page).pickupLevel.toNat = pickupLevelOf page c.baseline c.valid := by
  have h := pickupLevelOf_le page c.baseline c.valid
  exact (BitVec.toNat_ofNat _ _).trans (Nat.mod_eq_of_lt (by omega))

theorem withLevels_dropLevel (c : Channel) (page : ChannelPage) :
    (c.withLevels page).dropLevel.toNat = (c.withLevels page).pickupLevel.toNat * page.dropRatio.val / 100 := by
  have h := pickupLevelOf_le page c.baseline c.valid
  have h' := dropLevelOf_le page (pickupLevelOf page c.baseline c.valid)
  rw [withLevels_pickupLevel]
  exact (BitVec.toNat_ofNat _ _).trans (Nat.mod_eq_of_lt (by omega))

/-! ### The state is recomputed (R8, R10, R14) -/

theorem recompute_of_eq {c : Channel} {page : ChannelPage} (t : Nat) (h : stateOf page c = c.state) :
    c.recompute page t = c := if_pos h

theorem recompute_to_learn {c : Channel} {page : ChannelPage} (t : Nat) (hc : c.state ≠ .learn)
    (h : stateOf page c = .learn) : c.recompute page t = { c with
      state := .learn, restarts := 0, candidate := 0, disturbance := false
      window := if c.pickup then .stopped else .running t } := by
  have hne : ¬ .learn = c.state := fun e => hc e.symm
  simp only [Channel.recompute, h, hc, hne, if_true, if_false, Channel.enterLearn]

theorem recompute_from_learn {c : Channel} {page : ChannelPage} (t : Nat) (hc : c.state = .learn)
    (h : stateOf page c ≠ .learn) : c.recompute page t = { c with
      state := stateOf page c, window := .stopped, candidate := 0, disturbance := false } := by
  simp only [Channel.recompute, hc, h, if_true, if_false, Channel.abandonLearn]

theorem recompute_beside_learn {c : Channel} {page : ChannelPage} (t : Nat) (hc : c.state ≠ .learn)
    (h : stateOf page c ≠ .learn) : c.recompute page t = { c with state := stateOf page c } := by
  by_cases e : stateOf page c = c.state
  · rw [recompute_of_eq t e, e]
  · simp only [Channel.recompute, e, hc, h, if_false]

/-- Recomputing the state sets the state of R8 and changes nothing beside it but what learning uses. -/
theorem recompute_fields (c : Channel) (page : ChannelPage) (t : Nat) :
    c.recompute page t = { c with
      state := stateOf page c
      window := (c.recompute page t).window, candidate := (c.recompute page t).candidate
      restarts := (c.recompute page t).restarts, disturbance := (c.recompute page t).disturbance } := by
  by_cases hc : c.state = .learn <;> by_cases h : stateOf page c = .learn
  · rw [recompute_of_eq t (h.trans hc.symm), h, ← hc]
  · rw [recompute_from_learn t hc h]
  · rw [recompute_to_learn t hc h, h]
  · rw [recompute_beside_learn t hc h]

theorem recompute_state (c : Channel) (page : ChannelPage) (t : Nat) : (c.recompute page t).state = stateOf page c :=
  congrArg Channel.state (recompute_fields c page t)

/-- Where a channel is in LEARN after as before, or neither after nor before, its learning goes on as it was. -/
theorem recompute_learning {c : Channel} {page : ChannelPage} (t : Nat)
    (h : (c.recompute page t).state = .learn ↔ c.state = .learn) :
    (c.recompute page t).window = c.window ∧ (c.recompute page t).candidate = c.candidate ∧
      (c.recompute page t).restarts = c.restarts ∧ (c.recompute page t).disturbance = c.disturbance := by
  rw [recompute_state] at h
  by_cases hc : c.state = .learn
  · rw [recompute_of_eq t ((h.2 hc).trans hc.symm)]
    exact ⟨rfl, rfl, rfl, rfl⟩
  · rw [recompute_beside_learn t hc (mt h.1 hc)]
    exact ⟨rfl, rfl, rfl, rfl⟩

end Sys2Proof.Machine
end

section
/-! PROOFS. What RESET places in every block; and O6. -/

namespace Sys2Proof.Machine

/-! ### A channel (R26) -/

/-- A channel before reset places it by its page: OFF, with the baseline of mode FIXED. -/
def Channel.unplaced (page : ChannelPage) : Channel :=
  { Channel.afterReset with
    state := .off, window := .stopped
    baseline := if page.mode = .fixed then BitVec.ofNat 12 page.fixedBaseline.val else 0
    valid := decide (page.mode = .fixed) }

theorem atReset_eq (page : ChannelPage) (t : Nat) :
    Channel.atReset page t = ((Channel.unplaced page).withLevels page).recompute page t := by
  unfold Channel.atReset Channel.unplaced
  simp only [decide_eq_true_eq]

/-- The state that reset gives a channel (R26). -/
theorem stateOf_unplaced (page : ChannelPage) :
    stateOf page ((Channel.unplaced page).withLevels page) =
      if page.target = .off then .off else if page.mode = .learned then .learn
        else if page.target = .armed then .armed else .observe := by
  have hv : ((Channel.unplaced page).withLevels page).valid = false ↔ page.mode = .learned := by
    show decide (page.mode = .fixed) = false ↔ _
    cases page.mode <;> simp
  have hh : ((Channel.unplaced page).withLevels page).held = false := rfl
  have hd : ((Channel.unplaced page).withLevels page).demoted = false := rfl
  unfold stateOf
  simp only [hv, hh, hd, and_self, Bool.false_eq_true, if_false]

/-- A channel after reset: learning runs exactly in LEARN, and everything else is as before the placing. -/
theorem atReset_fields (page : ChannelPage) (t : Nat) :
    Channel.atReset page t = { (Channel.unplaced page).withLevels page with
      state := (Channel.atReset page t).state
      window := if (Channel.atReset page t).state = .learn then .running t else .stopped } := by
  rw [atReset_eq]
  have hc : ((Channel.unplaced page).withLevels page).state ≠ .learn := by
    show ChanState.off ≠ .learn
    decide
  by_cases h : stateOf page ((Channel.unplaced page).withLevels page) = .learn
  · rw [recompute_to_learn t hc h]
    rfl
  · rw [recompute_beside_learn t hc h]
    simp only [h, if_false]
    rfl

theorem atReset_state (page : ChannelPage) (t : Nat) :
    (Channel.atReset page t).state =
      if page.target = .off then .off else if page.mode = .learned then .learn
        else if page.target = .armed then .armed else .observe := by
  rw [atReset_eq, recompute_state, stateOf_unplaced]

theorem fixedBaseline_toNat (page : ChannelPage) :
    (BitVec.ofNat 12 page.fixedBaseline.val).toNat = page.fixedBaseline.val := by
  obtain ⟨-, h, -⟩ := page.fixedBaseline.ok
  exact (BitVec.toNat_ofNat _ _).trans (Nat.mod_eq_of_lt (by omega))

theorem unplaced_pickupLevel (page : ChannelPage) :
    ((Channel.unplaced page).withLevels page).pickupLevel.toNat =
      if page.mode = .fixed then min 4000 (max page.floor.val (page.fixedBaseline.val * page.gain.val / 2))
      else page.floor.val := by
  rw [withLevels_pickupLevel]
  unfold pickupLevelOf Channel.unplaced
  by_cases h : page.mode = .fixed
  · simp only [h, decide_true, if_true, fixedBaseline_toNat]
  · simp only [h, decide_false, Bool.false_eq_true, if_false]

/-! ### Topology (R59, R72) -/

/-- Two sections have one name exactly where every coupler between them joins (R59). -/
theorem islandNames_eq_iff : ∀ (joins : Coupler → Bool) (a b : Sect),
    (islandNames joins)[a] = (islandNames joins)[b] ↔
      ∀ j : Coupler, min a.val b.val ≤ j.val → j.val < max a.val b.val → joins j = true := by decide

theorem couplerAtReset_eq (present : Bool) :
    CouplerRec.atReset present = ⟨if present then .unknown else .absent, 0⟩ := by
  cases present <;> rfl

theorem couplerAtReset_joins (present : Bool) : (CouplerRec.atReset present).resolved.joins = present := by
  cases present <;> rfl

/-! ### The whole part -/

/-- After placing every block, reset changes alerts and the lockout word's write only (R183, R146). -/
theorem powerOn_placed (s : State) :
    s.powerOn.alr.time = 0 ∧ s.powerOn.lcu = s.placedAtReset.lcu ∧ s.powerOn.fsu = s.placedAtReset.fsu ∧
      s.powerOn.top = s.placedAtReset.top ∧ s.powerOn.zev = s.placedAtReset.zev ∧
      s.powerOn.lnk = s.placedAtReset.lnk ∧ s.powerOn.cfg.active = s.nv.loadedImage ∧
      (s.powerOn.alr = s.placedAtReset.alr ∨ s.powerOn.alr = (s.placedAtReset.raise .configDefault).alr) := by
  have hr (t : State) : (t.requestWord 0).alr = t.alr ∧ (t.requestWord 0).lcu = t.lcu ∧ (t.requestWord 0).fsu = t.fsu ∧
      (t.requestWord 0).top = t.top ∧ (t.requestWord 0).zev = t.zev ∧ (t.requestWord 0).lnk = t.lnk ∧
      (t.requestWord 0).cfg.active = t.cfg.active := by
    rw [requestWord_eq]
    split <;> exact ⟨rfl, rfl, rfl, rfl, rfl, rfl, rfl⟩
  unfold State.powerOn
  cases hw : lockWordValid s.nv.word
  · obtain ⟨h1, h2, h3, h4, h5, h6, h7⟩ := hr (s.placedAtReset.raise .configDefault)
    simp only [Bool.not_false, Bool.or_true, if_true, Bool.false_eq_true, if_false]
    exact ⟨congrArg Alr.time h1, h2, h3, h4, h5, h6, h7, .inr h1⟩
  · cases s.nv.newest.isNone
    · exact ⟨rfl, rfl, rfl, rfl, rfl, rfl, rfl, .inl rfl⟩
    · exact ⟨rfl, rfl, rfl, rfl, rfl, rfl, rfl, .inr rfl⟩

/-- No alert but RESTARTED and CONFIG_DEFAULT stands after reset (R198, R183, R146). -/
theorem powerOn_alerts (s : State) (p : Port) : s.powerOn.alr.ports[p].bits &&& ~~~0x2001 = 0 := by
  obtain ⟨-, -, -, -, -, -, -, h | h⟩ := powerOn_placed s
  · rw [h]
    show (Vector.replicate 4 (⟨1, 0, true⟩ : AlertRec))[p].bits &&& ~~~0x2001 = 0
    simp
  · rw [h]
    have hp : s.placedAtReset.alr.ports[p] = ⟨1, 0, true⟩ := by
      show (Vector.replicate 4 (⟨1, 0, true⟩ : AlertRec))[p] = _
      simp
    simp only [State.raise, State.raiseOn, ofFn_get, hp]
    split
    · decide
    · decide

theorem portAtReset_fields (used : Bool) :
    (PortRec.atReset used).state = (if used then .silent else .unused) ∧
      (PortRec.atReset used).silentTimer = (if used then .running 2000 else .stopped) ∧
      (PortRec.atReset used).heartbeat = .stopped ∧ (PortRec.atReset used).frame = .idle ∧
      (PortRec.atReset used).selectTimer = .stopped ∧ (PortRec.atReset used).slot = ⟨.restarted, 0⟩ ∧
      (PortRec.atReset used).frameErr = false ∧ (PortRec.atReset used).rejects = 0 ∧
      (PortRec.atReset used).selection = none ∧ (PortRec.atReset used).latch = none := by
  cases used <;> exact ⟨rfl, rfl, rfl, rfl, rfl, rfl, rfl, rfl, rfl, rfl⟩

/-- Settles O6, block by block. -/
theorem resetPlacesEveryBlock : Obligations.ResetPlacesEveryBlock := by
  intro s
  obtain ⟨htime, hlcu, hfsu, htop, hzev, hlnk, hact, -⟩ := powerOn_placed s
  have hchan (n : Chan) : s.powerOn.lcu[n] =
      Channel.atReset s.nv.loadedImage.chans[n] (s.nv.loadedImage.board.tLearn.val * 1000) := by
    rw [hlcu]; exact ofFn_get _ n
  have hport (p : Port) : s.powerOn.lnk[p] = PortRec.atReset s.nv.loadedImage.board.incomer[p] := by
    rw [hlnk]; exact ofFn_get _ p
  have hcoupler (j : Coupler) :
      s.powerOn.top.couplers[j] = CouplerRec.atReset s.nv.loadedImage.board.coupler[j] := by
    rw [htop]; exact ofFn_get _ j
  have hzone (z : Zone) : s.powerOn.zev.zones[z] = ZoneRec.atReset s.nv.loadedImage s.nv.loadedImage.zones[z] := by
    rw [hzev]; exact ofFn_get _ z
  refine ⟨s.powerOn, rfl, htime, by rw [hzev]; rfl, by rw [hzev]; rfl, ?ports, ?channels, powerOn_alerts s,
    ?clarity, by rw [hfsu]; rfl, by rw [hfsu]; rfl, by rw [hfsu]; rfl, by rw [hfsu, hact]; rfl, ?reports, ?couplers,
    ?islands, ?zones⟩
  case ports =>
    intro p
    simp only [hact, hport]
    exact portAtReset_fields _
  case channels =>
    intro n
    have hs := hchan n ▸ atReset_state s.nv.loadedImage.chans[n] (s.nv.loadedImage.board.tLearn.val * 1000)
    have hf := hchan n ▸ atReset_fields s.nv.loadedImage.chans[n] (s.nv.loadedImage.board.tLearn.val * 1000)
    generalize s.powerOn.lcu[n] = c at hs hf
    rw [hact]
    refine ⟨hs, ?_⟩
    rw [hf]
    refine ⟨decide_eq_true_iff, fun h => ?_, unplaced_pickupLevel _, withLevels_dropLevel _ _, rfl, rfl, rfl, rfl,
      ⟨rfl, rfl, rfl, rfl, rfl⟩, rfl, rfl, rfl, rfl, rfl, rfl, fun i => ?_⟩
    · exact (congrArg BitVec.toNat (if_pos h)).trans (fixedBaseline_toNat _)
    · show (Vector.replicate 6 (0 : Word))[i] = 0
      simp
  case clarity =>
    intro n
    rw [hchan, hact]
    refine ⟨by unfold State.emitter; rw [hfsu]; rfl, atReset_mask _ _, by rw [atReset_fields]; rfl, ?_⟩
    rw [hfsu]
    exact ofFn_get _ n
  case reports =>
    intro p
    rw [htop]
    show (Vector.replicate 4 _)[p] = _
    simp
  case couplers =>
    intro j
    rw [hcoupler, hact, couplerAtReset_eq]
  case islands =>
    intro a b
    unfold State.sameIsland
    rw [decide_eq_true_iff, htop, hact]
    refine (islandNames_eq_iff _ a b).trans ?_
    simp only [couplerAtReset_joins]
  case zones =>
    intro z
    simp only [hzone, hact, hchan]
    refine ⟨?_, rfl, fun i => ?_, rfl, rfl, rfl, rfl, rfl, rfl, rfl, rfl⟩
    · show placedState _ _ = _
      unfold placedState
      simp only [Bool.not_eq_true']
      rfl
    · refine (ofFn_get _ i).trans ?_
      cases s.nv.loadedImage.zones[z].memberAt i <;> rfl

end Sys2Proof.Machine
end

section
/-! PROOFS. Samples that are discarded or go to a test, and the windows of a channel; O8 and O11. -/

namespace Sys2Proof.Machine

/-! ### A sample (R3) -/

theorem takeSample_off {s : State} {n : Chan} (v : LU) (h : s.lcu[n].state = .off) : s.takeSample n v = s := if_pos h

theorem takeSample_masked {s : State} {n : Chan} (v : LU) (h : s.lcu[n].state ≠ .off) (hm : s.lcu[n].mask = true) :
    s.takeSample n v = s.testSample n v := by
  unfold State.takeSample
  rw [if_neg h, if_pos hm]

theorem takeSample_evaluated {s : State} {n : Chan} (v : LU) (h : s.lcu[n].state ≠ .off) (hm : s.lcu[n].mask = false) :
    s.takeSample n v = s.evaluateSample n v := by
  unfold State.takeSample
  rw [if_neg h, if_neg (by rw [hm]; decide)]

/-- The test in flight after it has taken a sample (R37). -/
def TestRun.sampled (run : TestRun) (v : LU) : TestRun :=
  { run with amplitude := if run.amplitude < v then v else run.amplitude, samplesLeft := run.samplesLeft - 1 }

/-- A sample of the tested channel is taken, and the last one completes the test (R36, R37). -/
theorem testSample_tested {s : State} {run : TestRun} (v : LU) (ht : s.fsu.test = some run) :
    s.testSample run.chan v =
      if (run.sampled v).samplesLeft = 0 then
        (State.settleDue { s with fsu.test := some (run.sampled v) }).completeTest
      else State.settleDue { s with fsu.test := some (run.sampled v) } := by
  unfold State.testSample
  rw [ht]
  exact if_neg (fun h => h rfl)

/-- Settles O8: the transfer that is due after the sample is the one `settleDue` leaves. -/
theorem sampleIsDiscardedOrTested : Obligations.SampleIsDiscardedOrTested := by
  intro s n v
  refine ⟨fun h => congrArg _ (takeSample_off v h), fun run h hm ht hn => ?_⟩
  subst hn
  refine ⟨_, settleDue_dueAfter { s with fsu.test := some (run.sampled v) }, ?_⟩
  have e : exec (.lightSample run.chan v) s = .next (s.testSample run.chan v) :=
    congrArg Host.Outcome.next (takeSample_masked v h hm)
  rw [e, testSample_tested v ht]
  exact apply_ite Host.Outcome.next _ _ _

/-! ### One channel changes in an event at the LCU (R7) -/

theorem modChan_same (s : State) (n : Chan) (f : Channel → Channel) : (s.modChan n f).lcu[n] = f s.lcu[n] :=
  modAt_same s.lcu n f

theorem modChan_other (s : State) {n m : Chan} (f : Channel → Channel) (h : m ≠ n) :
    (s.modChan n f).lcu[m] = s.lcu[m] := modAt_other s.lcu f h

/-- The hand-over of a status to a zone leaves the channels as the event made them. -/
theorem lcuEvent_lcu (s : State) (n : Chan) (f : State → State) : (s.lcuEvent n f).lcu = (f s).lcu :=
  (lcuEvent_zstep s n f).lcu

theorem lcuEvent_fsu (s : State) (n : Chan) (f : State → State) : (s.lcuEvent n f).fsu = (f s).fsu :=
  (lcuEvent_zstep s n f).fsu

theorem lcuEvent_modChan_same (s : State) (n : Chan) (f : State → Channel → Channel) :
    (s.lcuEvent n fun s => s.modChan n (f s)).lcu[n] = f s s.lcu[n] := by
  simp only [lcuEvent_lcu, modChan_same]

theorem lcuEvent_modChan_other (s : State) {n m : Chan} (f : State → Channel → Channel) (h : m ≠ n) :
    (s.lcuEvent n fun s => s.modChan n (f s)).lcu[m] = s.lcu[m] := by
  simp only [lcuEvent_lcu, modChan_other s _ h]

/-! ### The learning window (R13) -/

theorem learned_fields (c : Channel) (page : ChannelPage) :
    c.learned page = { c with
      window := .stopped, baseline := c.candidate, valid := true, restarts := 0
      pickupLevel := (c.learned page).pickupLevel, dropLevel := (c.learned page).dropLevel
      state := (c.learned page).state } := rfl

theorem learned_pickupLevel (c : Channel) (page : ChannelPage) :
    (c.learned page).pickupLevel.toNat = min 4000 (max page.floor.val (c.candidate.toNat * page.gain.val / 2)) :=
  withLevels_pickupLevel { c with window := .stopped, baseline := c.candidate, valid := true, restarts := 0 } page

theorem learned_dropLevel (c : Channel) (page : ChannelPage) :
    (c.learned page).dropLevel.toNat = (c.learned page).pickupLevel.toNat * page.dropRatio.val / 100 :=
  withLevels_dropLevel { c with window := .stopped, baseline := c.candidate, valid := true, restarts := 0 } page

/-- With a valid baseline R8 gives no LEARN. -/
theorem stateOf_valid {page : ChannelPage} {c : Channel} (h : c.valid = true) :
    stateOf page c = if page.target = .off then .off else if c.held = true then .held
      else if c.demoted = true then .observe else if page.target = .armed then .armed else .observe := by
  unfold stateOf
  simp only [h, Bool.true_eq_false, and_false, if_false]

theorem learned_state (c : Channel) (page : ChannelPage) :
    (c.learned page).state = if page.target = .off then .off else if c.held = true then .held
      else if c.demoted = true then .observe else if page.target = .armed then .armed else .observe :=
  stateOf_valid (page := page)
    (c := ({ c with window := .stopped, baseline := c.candidate, valid := true, restarts := 0 } : Channel).withLevels page)
    rfl

/-! ### The storm window (R20, R22) -/

/-- The tenth quiet storm window of a demoted channel (R22). -/
def Channel.restores (c : Channel) : Prop := c.demoted = true ∧ (c.flashEnded = false ∧ c.flash = none) ∧ 9 ≤ c.quiet

theorem wasQuiet_iff (c : Channel) : (!c.flashEnded && c.flash.isNone) = true ↔ c.flashEnded = false ∧ c.flash = none := by
  simp

theorem stormExpiry_restores {c : Channel} (page : ChannelPage) (t : Nat) (h : c.restores) :
    c.stormExpiry page t = { c with
      stormCount := 0, stormWindow := .running 1000, flashEnded := false, demoted := false, quiet := 0 }.recompute page t := by
  obtain ⟨hd, hq, h9⟩ := h
  have h10 : 10 ≤ c.quiet + 1 := by omega
  simp only [Channel.stormExpiry, hd, (wasQuiet_iff c).2 hq, h10, Bool.not_true, Bool.false_eq_true, if_true, if_false]

theorem stormExpiry_counts {c : Channel} (page : ChannelPage) (t : Nat) (h : ¬ c.restores) :
    c.stormExpiry page t = { c with
      stormCount := 0, stormWindow := .running 1000, flashEnded := false
      quiet := if c.demoted = true ∧ (c.flashEnded = false ∧ c.flash = none) ∧ c.quiet < 9 then c.quiet + 1 else 0 } := by
  by_cases hd : c.demoted = true
  · by_cases hq : c.flashEnded = false ∧ c.flash = none
    · have h9 : c.quiet < 9 := Nat.lt_of_not_le fun h9 => h ⟨hd, hq, h9⟩
      have h10 : ¬ 10 ≤ c.quiet + 1 := by omega
      simp only [Channel.stormExpiry, hd, (wasQuiet_iff c).2 hq, h10, Bool.not_true, Bool.false_eq_true, if_true, if_false]
      rw [if_pos ⟨trivial, hq, h9⟩]
    · have hw : (!c.flashEnded && c.flash.isNone) = false := Bool.eq_false_iff.2 (mt (wasQuiet_iff c).1 hq)
      simp only [Channel.stormExpiry, hd, hw, Bool.not_false, if_true]
      rw [if_neg fun e => hq e.2.1]
  · simp only [Channel.stormExpiry, hd, Bool.false_eq_true, if_false, false_and]

/-- R8 for a channel that is no longer demoted. -/
theorem stateOf_not_demoted {page : ChannelPage} {c : Channel} (h : c.demoted = false) :
    stateOf page c = if page.target = .off then .off else if c.held = true then .held
      else if page.mode = .learned ∧ c.valid = false then .learn else if page.target = .armed then .armed
      else .observe := by
  unfold stateOf
  simp only [h, Bool.false_eq_true, if_false]

/-- Settles O11: the two windows at the level of the channel, which the hand-over to its zone leaves alone. -/
theorem channelWindowsExpire : Obligations.ChannelWindowsExpire := by
  intro s n
  refine ⟨fun h => ⟨s.lcuEvent n fun s => s.modChan n fun c => c.learned (s.chanPage n),
    congrArg Host.Outcome.next (if_pos h), ?_⟩, fun h => ?_, fun h => ⟨s.lcuEvent n fun s => s.modChan n
      fun c => c.stormExpiry (s.chanPage n) s.tLearn, congrArg Host.Outcome.next (if_pos h), ?_⟩⟩
  · have e := lcuEvent_modChan_same s n fun s c => c.learned (s.chanPage n)
    have eo (m : Chan) (hm : m ≠ n) := lcuEvent_modChan_other s (fun s c => c.learned (s.chanPage n)) hm
    simp only [e]
    exact ⟨learned_fields _ _, learned_pickupLevel _ _, learned_dropLevel _ _, learned_state _ _, eo⟩
  · exact congrArg Host.Outcome.next (if_neg (by rw [h]; decide))
  · have e := lcuEvent_modChan_same s n fun s c => c.stormExpiry (s.chanPage n) s.tLearn
    have eo (m : Chan) (hm : m ≠ n) := lcuEvent_modChan_other s (fun s c => c.stormExpiry (s.chanPage n) s.tLearn) hm
    generalize State.lcuEvent s n _ = t at e eo ⊢
    generalize t.lcu[n] = c' at e ⊢
    by_cases hr : s.lcu[n].restores
    · rw [stormExpiry_restores _ _ hr] at e
      subst e
      refine ⟨?_, fun _ => ?_, fun h => absurd hr h, recompute_learning _, eo⟩
      · rw [recompute_state]
        refine (recompute_fields _ _ _).trans ?_
        obtain ⟨hd, ⟨hf, hn⟩, h9⟩ := hr
        simp only [hd, hf, hn, h9, Nat.not_lt.2 h9, and_self, and_false, decide_true, Bool.not_true, Bool.and_false,
          if_false]
      · rw [recompute_state]
        exact stateOf_not_demoted rfl
    · rw [stormExpiry_counts _ _ hr] at e
      subst e
      refine ⟨?_, fun h => absurd h hr, fun _ => rfl, fun _ => ⟨rfl, rfl, rfl, rfl⟩, eo⟩
      have hr' : ¬ (s.lcu[n].demoted = true ∧ (s.lcu[n].flashEnded = false ∧ s.lcu[n].flash = none) ∧
        9 ≤ s.lcu[n].quiet) := hr
      simp only [hr', decide_false, Bool.not_false, Bool.and_true]

end Sys2Proof.Machine
end

section
/-! PROOFS. What a status event at a zone, and the other work of the Zone Evaluator and the Trip Record Manager, leaves
alone beyond `ZStep`: the alerts of channels and sensors; and, with a filter time or with room in the list, the records
and the ports. -/

namespace Sys2Proof.Machine

/-! ### The alerts of channels and sensors (R12, R21, R43) -/

/-- The alerts that only the Light Channel Unit and the Fibre Supervision Unit raise. -/
def Alert.ofLight : Alert → Bool
  | .sensorSoiled | .sensorLost | .storm | .learnFault => true
  | .restarted | .arcOpened | .recordClosed | .recordMissed | .breakerFail | .nuisance | .zoneBlocked | .topology
  | .peerStale | .configApplied | .configDefault | .drill => false

theorem bit_injective {a b : Alert} (h : a.bit = b.bit) : a = b := by
  revert a b
  intro a b
  cases a <;> cases b <;> simp [Alert.bit]

/-- An alert is raised on the ports picked, and no other alert with it (R199). -/
theorem raiseOn_alerted (s : State) (a b : Alert) (on : Port → Bool) (p : Port) :
    (s.raiseOn a on).alerted p b = (s.alerted p b || (on p && decide (b = a))) := by
  have hb : decide (b.bit = a.bit) = decide (b = a) :=
    decide_eq_decide.2 ⟨bit_injective, congrArg Alert.bit⟩
  unfold State.alerted State.raiseOn
  simp only [ofFn_get]
  cases on p
  · simp
  · simp [mem_or, mem_single, hb]

theorem raise_alerted (s : State) (a b : Alert) (p : Port) :
    (s.raise a).alerted p b = (s.alerted p b || (s.used p && decide (b = a))) := raiseOn_alerted s a b s.used p

/-- A zone takes a state: nothing but the zone and the CFG's view changes (R74, R97). -/
@[simp] theorem enterZone_alr (s : State) (z : Zone) (st : ZoneState) : (s.enterZone z st).alr = s.alr := rfl
@[simp] theorem enterZone_trm (s : State) (z : Zone) (st : ZoneState) : (s.enterZone z st).trm = s.trm := rfl
@[simp] theorem enterZone_lnk (s : State) (z : Zone) (st : ZoneState) : (s.enterZone z st).lnk = s.lnk := rfl
@[simp] theorem enterZone_zonePage (s : State) (z y : Zone) (st : ZoneState) :
    (s.enterZone z st).zonePage y = s.zonePage y := rfl
@[simp] theorem modZone_zonePage (s : State) (z y : Zone) (f : ZoneRec → ZoneRec) :
    (s.modZone z f).zonePage y = s.zonePage y := rfl
@[simp] theorem toWaiting_alr (s : State) (z : Zone) : (s.toWaiting z).alr = s.alr := rfl
@[simp] theorem toWaiting_trm (s : State) (z : Zone) : (s.toWaiting z).trm = s.trm := rfl
@[simp] theorem toWaiting_lnk (s : State) (z : Zone) : (s.toWaiting z).lnk = s.lnk := rfl
@[simp] theorem toQuiet_alr (s : State) (z : Zone) : (s.toQuiet z).alr = s.alr := rfl
@[simp] theorem toQuiet_trm (s : State) (z : Zone) : (s.toQuiet z).trm = s.trm := rfl
@[simp] theorem toQuiet_lnk (s : State) (z : Zone) : (s.toQuiet z).lnk = s.lnk := rfl

/-- No alert of a channel or a sensor is raised or taken away between two states of the Alert Block. -/
def SameLightAlerts (x y : Alr) : Prop :=
  ∀ (p : Port) (a : Alert), a.ofLight = true → mem y.ports[p].bits a.bit = mem x.ports[p].bits a.bit

theorem SameLightAlerts.refl (x : Alr) : SameLightAlerts x x := fun _ _ _ => rfl

theorem SameLightAlerts.trans {x y w : Alr} (h : SameLightAlerts x y) (g : SameLightAlerts y w) : SameLightAlerts x w :=
  fun p a ha => (g p a ha).trans (h p a ha)

theorem raiseOn_lightAlerts (s : State) {a : Alert} (on : Port → Bool) (h : a.ofLight = false) :
    SameLightAlerts s.alr (s.raiseOn a on).alr := by
  intro p b hb
  have hne : b ≠ a := fun e => by rw [e, h] at hb; exact Bool.false_ne_true hb
  have e := raiseOn_alerted s a b on p
  rw [decide_eq_false hne, Bool.and_false, Bool.or_false] at e
  exact e

theorem raise_lightAlerts (s : State) {a : Alert} (h : a.ofLight = false) : SameLightAlerts s.alr (s.raise a).alr :=
  raiseOn_lightAlerts s _ h

theorem requestWord_alr (s : State) (b : BreakerSet) : (s.requestWord b).alr = s.alr := by
  rw [requestWord_eq]
  split <;> rfl

theorem trmEvent_lightAlerts {s : State} {f : State → State} (h : SameLightAlerts s.alr (f s).alr) :
    SameLightAlerts s.alr (s.trmEvent f).alr := by
  unfold State.trmEvent
  simp only
  split
  · exact h
  · rw [requestWord_alr]
    exact h

theorem makeRoom_lightAlerts (s : State) : SameLightAlerts s.alr s.makeRoom.alr := by
  unfold State.makeRoom
  split
  · exact .refl _
  · split
    · exact .refl _
    · simp only [dropSelections_alr]
      exact raiseOn_lightAlerts _ _ rfl

theorem openArc_lightAlerts (s : State) (z : Zone) (trigger : Option Chan) (degraded : Bool) :
    SameLightAlerts s.alr (s.openArc z trigger degraded).alr := by
  refine trmEvent_lightAlerts ((makeRoom_lightAlerts s).trans ?_)
  exact raise_lightAlerts (State.noticeRecords _) rfl

theorem appendDrill_lightAlerts (s : State) (z : Zone) (trigger : Option Chan) (degraded : Bool) :
    SameLightAlerts s.alr (s.appendDrill z trigger degraded).alr := trmEvent_lightAlerts (makeRoom_lightAlerts s)

theorem restrike_lightAlerts (s : State) (z : Zone) : SameLightAlerts s.alr (s.restrike z).alr := by
  unfold State.restrike
  split
  · exact trmEvent_lightAlerts (raise_lightAlerts (State.noticeRecords _) rfl)
  · exact .refl _

theorem endDrill_lightAlerts (s : State) (why : EndReason) : SameLightAlerts s.alr (s.endDrill why).alr := by
  unfold State.endDrill
  simp only
  split
  · exact .refl _
  · split
    · exact raise_lightAlerts { s.modZone _ _ with zev.drill := _ } rfl
    · exact raise_lightAlerts { s with zev.drill := _ } rfl

theorem decideArc_lightAlerts (s : State) (z : Zone) : SameLightAlerts s.alr (s.decideArc z).alr := by
  have h := openArc_lightAlerts s z s.zev.zones[z].trigger s.zev.zones[z].degraded
  unfold State.decideArc
  simp only
  split
  · refine SameLightAlerts.trans ?_ (endDrill_lightAlerts _ _)
    simpa using h
  · simpa using h

theorem entryFilterExpiry_lightAlerts (s : State) (z : Zone) :
    SameLightAlerts s.alr (s.entryFilterExpiry z).alr := by
  unfold State.entryFilterExpiry
  simp only
  split
  · split
    · exact decideArc_lightAlerts s z
    · rw [toWaiting_alr]
      exact appendDrill_lightAlerts s z _ _
  · split
    · exact decideArc_lightAlerts s z
    · exact .refl _

theorem toLit_lightAlerts (s : State) (z : Zone) (ev : Option Chan) : SameLightAlerts s.alr (s.toLit z ev).alr := by
  unfold State.toLit
  simp only
  split
  · exact entryFilterExpiry_lightAlerts (State.enterZone _ z .lit) z
  · exact .refl _

theorem toBlocked_lightAlerts (s : State) (z : Zone) : SameLightAlerts s.alr (s.toBlocked z).alr :=
  raise_lightAlerts (State.enterZone _ z .blocked) rfl

theorem startRestrike_lightAlerts (s : State) (z : Zone) (ev : Option Chan) :
    SameLightAlerts s.alr (s.startRestrike z ev).alr := by
  unfold State.startRestrike State.restrikeFilterExpiry
  simp only
  split
  · split
    · exact restrike_lightAlerts (State.modZone s z _) z
    · exact .refl _
  · exact .refl _

theorem trippedVote_lightAlerts (s : State) (z : Zone) (ev : Option Chan) :
    SameLightAlerts s.alr (s.trippedVote z ev).alr := by
  unfold State.trippedVote
  simp only
  split
  · exact .refl _
  · exact startRestrike_lightAlerts (State.modZone s z _) z ev
  · exact .refl _
  · exact .refl _

theorem reevaluate_lightAlerts (s : State) (z : Zone) (ev : Option Chan) :
    SameLightAlerts s.alr (s.reevaluate z ev).alr := by
  have hb := toBlocked_lightAlerts s z
  unfold State.reevaluate
  simp only
  split
  · exact .refl _
  · exact trippedVote_lightAlerts s z ev
  · split
    · exact .refl _
    · split
      · exact toLit_lightAlerts (s.toQuiet z) z ev
      · exact .refl _
  · split
    · exact hb
    · split
      · exact toLit_lightAlerts s z ev
      · exact .refl _
  all_goals
    split
    · exact hb
    · split <;> exact .refl _

theorem lcuEvent_lightAlerts (s : State) (n : Chan) (f : State → State) :
    SameLightAlerts (f s).alr (s.lcuEvent n f).alr := by
  unfold State.lcuEvent
  simp only
  split
  · exact .refl _
  · split
    · exact .refl _
    · exact reevaluate_lightAlerts (State.modZone (f s) _ _) _ _

/-! ### With a filter time no status event reaches the records (R80, R92) -/

theorem toLit_trm {s : State} {z : Zone} (ev : Option Chan) (h : 0 < (s.zonePage z).tzf.val) :
    (s.toLit z ev).trm = s.trm := by
  unfold State.toLit
  simp only
  rw [if_neg (Nat.ne_of_gt h)]
  rfl

theorem startRestrike_trm {s : State} {z : Zone} (ev : Option Chan) (h : 0 < (s.zonePage z).tzf.val) :
    (s.startRestrike z ev).trm = s.trm := by
  unfold State.startRestrike
  simp only
  rw [if_neg (Nat.ne_of_gt h)]
  rfl

theorem trippedVote_trm {s : State} {z : Zone} (ev : Option Chan) (h : 0 < (s.zonePage z).tzf.val) :
    (s.trippedVote z ev).trm = s.trm := by
  unfold State.trippedVote
  simp only
  split
  · rfl
  · exact startRestrike_trm ev h
  · rfl
  · rfl

theorem reevaluate_trm {s : State} {z : Zone} (ev : Option Chan) (h : 0 < (s.zonePage z).tzf.val) :
    (s.reevaluate z ev).trm = s.trm := by
  unfold State.reevaluate
  simp only
  split
  · rfl
  · exact trippedVote_trm ev h
  · split
    · rfl
    · split
      · exact toLit_trm (s := s.toQuiet z) ev h
      · rfl
  · split
    · rfl
    · split
      · exact toLit_trm ev h
      · rfl
  all_goals
    split
    · rfl
    · split <;> rfl

/-- An event at the LCU that leaves the image reaches the records by itself only, where the channel's zone has a filter
time. -/
theorem lcuEvent_trm {s : State} {n : Chan} {f : State → State} (ha : (f s).cfg.active = s.cfg.active)
    (h : ∀ z, s.zoneOf n = some z → 0 < s.cfg.active.zones[z].tzf.val) : (s.lcuEvent n f).trm = (f s).trm := by
  unfold State.lcuEvent
  simp only
  split
  · rfl
  · split
    · rfl
    · rename_i z hz
      have hz' : s.zoneOf n = some z := by
        rw [← hz]
        unfold State.zoneOf State.isMember
        rw [ha]
      refine reevaluate_trm (s := (f s).modZone z _) (some n) ?_
      show 0 < (f s).cfg.active.zones[z].tzf.val
      rw [ha]
      exact h z hz'

/-! ### With room in the list no status event reaches the ports (R107, R150) -/

theorem requestWord_lnk (s : State) (b : BreakerSet) : (s.requestWord b).lnk = s.lnk := by
  rw [requestWord_eq]
  split <;> rfl

theorem trmEvent_lnk {s : State} {f : State → State} (h : (f s).lnk = s.lnk) : (s.trmEvent f).lnk = s.lnk := by
  unfold State.trmEvent
  simp only
  split
  · exact h
  · exact (requestWord_lnk _ _).trans h

theorem makeRoom_of_room {s : State} (h : s.trm.records.length < 12) : s.makeRoom = s := if_pos h

theorem openArc_lnk {s : State} (z : Zone) (trigger : Option Chan) (degraded : Bool) (h : s.trm.records.length < 12) :
    (s.openArc z trigger degraded).lnk = s.lnk :=
  trmEvent_lnk (by simp [makeRoom_of_room h])

theorem appendDrill_lnk {s : State} (z : Zone) (trigger : Option Chan) (degraded : Bool)
    (h : s.trm.records.length < 12) : (s.appendDrill z trigger degraded).lnk = s.lnk :=
  trmEvent_lnk (by simp [makeRoom_of_room h])

theorem endDrill_lnk (s : State) (why : EndReason) : (s.endDrill why).lnk = s.lnk := by
  unfold State.endDrill
  simp only
  split
  · rfl
  · split <;> rfl

theorem decideArc_lnk {s : State} (z : Zone) (h : s.trm.records.length < 12) : (s.decideArc z).lnk = s.lnk := by
  have ho := openArc_lnk z s.zev.zones[z].trigger s.zev.zones[z].degraded h
  unfold State.decideArc
  simp only
  split
  · rw [endDrill_lnk]
    simpa using ho
  · simpa using ho

theorem entryFilterExpiry_lnk {s : State} (z : Zone) (h : s.trm.records.length < 12) :
    (s.entryFilterExpiry z).lnk = s.lnk := by
  unfold State.entryFilterExpiry
  simp only
  split
  · split
    · exact decideArc_lnk z h
    · rw [toWaiting_lnk]
      exact appendDrill_lnk z _ _ h
  · split
    · exact decideArc_lnk z h
    · rfl

theorem toLit_lnk {s : State} (z : Zone) (ev : Option Chan) (h : s.trm.records.length < 12) :
    (s.toLit z ev).lnk = s.lnk := by
  unfold State.toLit
  simp only
  split
  · refine entryFilterExpiry_lnk z ?_
    exact h
  · rfl

theorem restrike_lnk (s : State) (z : Zone) : (s.restrike z).lnk = s.lnk := by
  unfold State.restrike
  split
  · exact trmEvent_lnk rfl
  · rfl

theorem trippedVote_lnk (s : State) (z : Zone) (ev : Option Chan) : (s.trippedVote z ev).lnk = s.lnk := by
  unfold State.trippedVote State.startRestrike State.restrikeFilterExpiry
  simp only
  split
  · rfl
  · split
    · split
      · exact restrike_lnk _ z
      · rfl
    · rfl
  · rfl
  · rfl

theorem reevaluate_lnk {s : State} (z : Zone) (ev : Option Chan) (h : s.trm.records.length < 12) :
    (s.reevaluate z ev).lnk = s.lnk := by
  unfold State.reevaluate
  simp only
  split
  · rfl
  · exact trippedVote_lnk s z ev
  · split
    · rfl
    · split
      · exact toLit_lnk (s := s.toQuiet z) z ev h
      · rfl
  · split
    · rfl
    · split
      · exact toLit_lnk z ev h
      · rfl
  all_goals
    split
    · rfl
    · split <;> rfl

theorem lcuEvent_lnk {s : State} (n : Chan) {f : State → State} (h : (f s).trm.records.length < 12) :
    (s.lcuEvent n f).lnk = (f s).lnk := by
  unfold State.lcuEvent
  simp only
  split
  · rfl
  · split
    · rfl
    · exact reevaluate_lnk (s := (f s).modZone _ _) _ _ h

end Sys2Proof.Machine
end

section
/-! PROOFS. An evaluated sample out of pickup, and the abort of a test by it; O9. -/

namespace Sys2Proof.Machine

/-! ### Peak light (R111) -/

theorem peakRecord_eq (s : State) (n : Chan) (v : LU) (r : TripRec) : s.peakRecord n v r = s.peaked n v r := by
  unfold State.peakRecord State.peaked State.isMember
  cases r.origin <;> cases r.peak <;> simp [and_assoc]

/-- A sample offered to the records changes their peak light only. -/
theorem offerPeak_eq (s : State) (n : Chan) (v : LU) :
    s.offerPeak n v = { s with trm.records := s.trm.records.map (s.peaked n v) } := by
  unfold State.offerPeak
  rw [show s.peakRecord n v = s.peaked n v from funext (peakRecord_eq s n v)]

/-! ### One event at the LCU (R7) -/

/-- An event that leaves pickup and voting status hands nothing over. -/
theorem lcuEvent_of_same {s : State} {n : Chan} {f : State → State} (h : (f s).statusOf n = s.statusOf n) :
    s.lcuEvent n f = f s := if_pos h

theorem statusOf_congr {s t : State} {n : Chan} (ha : t.cfg.active = s.cfg.active)
    (hp : t.lcu[n].pickup = s.lcu[n].pickup) (hs : t.lcu[n].state = s.lcu[n].state)
    (hd : t.lcu[n].demoted = s.lcu[n].demoted) : t.statusOf n = s.statusOf n := by
  unfold State.statusOf channelVotes
  rw [hp, hs, hd, ha]

/-! ### An evaluated sample (R3) -/

/-- What an evaluated sample does before a status is handed over. -/
def State.evaluated (s : State) (n : Chan) (v : LU) : State :=
  let s := s.offerPeak n v
  if s.lcu[n].pickup then s.pickupSample n v
  else if s.lcu[n].pickupLevel ≤ v then (s.modChan n fun c => c.startPickup s.alr.time).pickupAborts n
  else s.modChan n fun c => c.offerCandidate v

theorem exec_lightSample_evaluated {s : State} {n : Chan} (v : LU) (h : s.lcu[n].state ≠ .off)
    (hm : s.lcu[n].mask = false) :
    exec (.lightSample n v) s = .next (s.lcuEvent n fun s => s.evaluated n v) :=
  congrArg Host.Outcome.next (takeSample_evaluated v h hm)

theorem evaluated_below {s : State} {n : Chan} {v : LU} (hp : s.lcu[n].pickup = false)
    (hv : v < s.lcu[n].pickupLevel) :
    s.evaluated n v = (s.offerPeak n v).modChan n fun c => c.offerCandidate v := by
  unfold State.evaluated
  exact (if_neg (by simpa [State.offerPeak] using hp)).trans (if_neg (BitVec.not_le.2 hv))

theorem evaluated_starts {s : State} {n : Chan} {v : LU} (hp : s.lcu[n].pickup = false)
    (hv : s.lcu[n].pickupLevel ≤ v) :
    s.evaluated n v = ((s.offerPeak n v).modChan n fun c => c.startPickup s.alr.time).pickupAborts n := by
  unfold State.evaluated
  exact (if_neg (by simpa [State.offerPeak] using hp)).trans (if_pos hv)

theorem evaluated_during {s : State} {n : Chan} (v : LU) (hp : s.lcu[n].pickup = true) :
    s.evaluated n v = (s.offerPeak n v).pickupSample n v := if_pos hp

theorem startPickup_eq (c : Channel) (now : Time) :
    c.startPickup now = { c with
      pickup := true, dropRun := 0, flash := some ⟨now, 0, none⟩
      window := if c.state = .learn then .stopped else c.window
      candidate := if c.state = .learn then 0 else c.candidate
      disturbance := decide (c.state = .learn) || c.disturbance } := by
  by_cases h : c.state = .learn <;> simp [Channel.startPickup, h]

theorem offerCandidate_eq (c : Channel) (v : LU) :
    c.offerCandidate v = { c with
      candidate := if c.state = .learn ∧ c.window.isRunning = true ∧ c.candidate < v then v else c.candidate } := by
  by_cases h : c.state = .learn ∧ c.window.isRunning = true ∧ c.candidate < v
  · simp [Channel.offerCandidate, h]
  · rw [if_neg h]
    unfold Channel.offerCandidate
    refine if_neg fun e => h ?_
    simpa [and_assoc] using e

/-! ### The abort of a test (R39) -/

theorem fellows_iff (s : State) (m n : Chan) :
    s.fellows m n = true ↔ ∃ z : Zone, m ∈ s.cfg.active.zones[z].members ∧ n ∈ s.cfg.active.zones[z].members := by
  simp [State.fellows, State.isMember]

theorem pickupAborts_abort {s : State} {m : Chan} {run : TestRun} (ht : s.fsu.test = some run) (hc : run.chan ≠ m)
    (hf : s.fellows m run.chan = true) : s.pickupAborts m = s.abortTest := by
  unfold State.pickupAborts
  rw [ht]
  exact if_pos (by simp [hc, hf])

theorem pickupAborts_none {s : State} {m : Chan}
    (h : ∀ run, s.fsu.test = some run → run.chan ≠ m → s.fellows m run.chan = false) : s.pickupAborts m = s := by
  unfold State.pickupAborts
  split
  · rfl
  · rename_i run ht
    refine if_neg ?_
    rw [Bool.and_eq_true, decide_eq_true_iff]
    rintro ⟨hc, hf⟩
    rw [h run ht hc] at hf
    exact Bool.false_ne_true hf

theorem abortTest_eq {s : State} {run : TestRun} (ht : s.fsu.test = some run) :
    s.abortTest = ((({ s with fsu.test := none } : State).modChan run.chan fun c => { c with mask := false }).modClarity
      run.chan fun k => { k with
        testing := false, lastOutcome := .aborted
        capture := if run.kind = .capture then .failed else k.capture }).noticeTest := by
  unfold State.abortTest
  rw [ht]

/-- An abort leaves the transfer of a pending commit due by the other two views (R178, log 5). -/
theorem dueAfter_of_testQuiet {t : State} (s : State) (h : DueInv t) (hq : t.cfg.testQuiet = true) : s.DueAfter t := by
  unfold State.DueAfter
  unfold DueInv State.DueAfter at h
  rw [h, hq]
  simp

theorem ZStep.testQuiet {s t : State} (h : ZStep s t) : t.cfg.testQuiet = s.cfg.testQuiet := by
  have := congrArg Cfg.testQuiet h.cfg
  exact this

/-- What an abort leaves (R39, R178). -/
theorem abortTest_fields {s : State} {run : TestRun} (ht : s.fsu.test = some run) :
    s.abortTest.lcu = modAt s.lcu run.chan (fun c => { c with mask := false }) ∧
      s.abortTest.fsu = { s.fsu with
        test := none
        clarity := modAt s.fsu.clarity run.chan fun k => { k with
          testing := false, lastOutcome := .aborted
          capture := if run.kind = .capture then .failed else k.capture } } ∧
      s.abortTest.trm = s.trm ∧ s.abortTest.zev = s.zev ∧ s.abortTest.alr = s.alr ∧ s.abortTest.lnk = s.lnk ∧
      s.abortTest.cfg.active = s.cfg.active ∧ s.abortTest.cfg.testQuiet = true ∧ DueInv s.abortTest := by
  rw [abortTest_eq ht]
  exact ⟨rfl, rfl, rfl, rfl, rfl, rfl, rfl, rfl, dueInv_settleDue _⟩

/-- The test of another member of the zone, which the pickup of a channel aborts (R39). -/
def State.Fellow (s : State) (n : Chan) (run : TestRun) : Prop :=
  s.fsu.test = some run ∧ run.chan ≠ n ∧
    ∃ z : Zone, n ∈ s.cfg.active.zones[z].members ∧ run.chan ∈ s.cfg.active.zones[z].members

/-- The channel has started its pickup, and nothing but records and this channel has changed. -/
def State.pickedUp (s : State) (n : Chan) (v : LU) : State :=
  (s.offerPeak n v).modChan n fun c => c.startPickup s.alr.time

theorem pickedUp_same (s : State) (n : Chan) (v : LU) : (s.pickedUp n v).lcu[n] = s.lcu[n].startPickup s.alr.time :=
  modAt_same _ _ _

theorem pickedUp_other (s : State) {n m : Chan} (v : LU) (h : m ≠ n) : (s.pickedUp n v).lcu[m] = s.lcu[m] :=
  modAt_other _ _ h

theorem pickedUp_records (s : State) (n : Chan) (v : LU) :
    (s.pickedUp n v).trm.records = s.trm.records.map (s.peaked n v) := by
  unfold State.pickedUp
  rw [offerPeak_eq]
  rfl

theorem pickedUp_aborts {s : State} {n : Chan} {run : TestRun} (v : LU) (h : s.Fellow n run) :
    (s.pickedUp n v).pickupAborts n = (s.pickedUp n v).abortTest :=
  pickupAborts_abort (s := s.pickedUp n v) h.1 h.2.1 ((fellows_iff s n run.chan).2 h.2.2)

theorem pickedUp_goesOn {s : State} {n : Chan} (v : LU) (h : ∀ run, ¬ s.Fellow n run) :
    (s.pickedUp n v).pickupAborts n = s.pickedUp n v :=
  pickupAborts_none fun run ht hc =>
    Bool.eq_false_iff.2 fun hf => h run ⟨ht, hc, (fellows_iff s n run.chan).1 hf⟩

theorem pickupAborts_active (s : State) (m : Chan) : (s.pickupAborts m).cfg.active = s.cfg.active :=
  (pickupAborts_lstep s m).active

theorem pickupAborts_trm (s : State) (m : Chan) : (s.pickupAborts m).trm = s.trm := by
  unfold State.pickupAborts State.abortTest
  split
  · rfl
  · split
    · rfl
    · rfl

/-- Settles O9: below P nothing is handed over; at P the pickup starts, then a fellow's test is aborted or nothing more
happens, and the hand-over leaves channels and supervision alone. -/
theorem sampleStartsPickup : Obligations.SampleStartsPickup := by
  intro s n v hs hm hp
  have hexec := exec_lightSample_evaluated v hs hm
  refine ⟨fun hv => ⟨_, hexec, ?_⟩, fun hv => ?_⟩
  · have hev : s.evaluated n v = (s.pickedUp n v).pickupAborts n := evaluated_starts hp hv
    have hz := lcuEvent_zstep s n fun s => s.evaluated n v
    have htrm := lcuEvent_trm (s := s) (n := n) (f := fun s => s.evaluated n v)
    generalize State.lcuEvent s n _ = t at hz htrm ⊢
    simp only [hev, pickupAborts_active, pickupAborts_trm] at hz htrm
    have hrec h : t.trm.records = _ := (congrArg Trm.records (htrm rfl h)).trans (pickedUp_records s n v)
    by_cases hf : ∃ run, s.Fellow n run
    · obtain ⟨run, hrun⟩ := hf
      rw [pickedUp_aborts v hrun] at hz
      obtain ⟨hlcu, hfsu, -, -, -, -, -, hquiet, hdue⟩ := abortTest_fields (s := s.pickedUp n v) hrun.1
      obtain ⟨ht, hc, -⟩ := id hrun
      rw [← hz.lcu] at hlcu
      rw [← hz.fsu] at hfsu
      rw [hlcu]
      refine ⟨?_, fun run' h => ?_, fun h => absurd hrun (h run), hrec⟩
      · rw [modAt_other _ _ hc.symm, pickedUp_same, startPickup_eq]
      · obtain rfl : run = run' := Option.some.inj (ht.symm.trans h.1)
        have htq := hz.testQuiet.trans hquiet
        refine ⟨?_, fun m hmn hmr => ?_, hfsu, htq, dueAfter_of_testQuiet s (hz.due hdue) htq⟩
        · rw [modAt_same, pickedUp_other s v hc]
        · rw [modAt_other _ _ hmr, pickedUp_other s v hmn]
    · have hnone : ∀ run, ¬ s.Fellow n run := fun run h => hf ⟨run, h⟩
      rw [pickedUp_goesOn v hnone] at hz
      rw [hz.lcu]
      refine ⟨?_, fun run h => absurd h (hnone run), fun _ => ⟨hz.fsu, fun m hmn => pickedUp_other s v hmn⟩, hrec⟩
      rw [pickedUp_same, startPickup_eq]
  · have hev := evaluated_below hp hv
    have hsame : (s.evaluated n v).lcu[n] = s.lcu[n].offerCandidate v := by rw [hev]; exact modAt_same _ _ _
    have hstatus : (s.evaluated n v).statusOf n = s.statusOf n := by
      rw [offerCandidate_eq] at hsame
      exact statusOf_congr (by rw [hev]; rfl) (by rw [hsame]) (by rw [hsame]) (by rw [hsame])
    rw [hexec, lcuEvent_of_same (f := fun s => s.evaluated n v) hstatus, hev, offerPeak_eq]
    unfold State.modChan
    simp only [offerCandidate_eq]

end Sys2Proof.Machine
end

section
/-! PROOFS. An evaluated sample during pickup: the flash goes on or ends, with its storm count and its dropout; O10. -/

namespace Sys2Proof.Machine

/-- A change of one member depends on what it makes of that member alone. -/
theorem modAt_congr {α : Type} {n : Nat} (v : Vector α n) (i : Fin n) {f g : α → α} (h : f v[i] = g v[i]) :
    modAt v i f = modAt v i g := by
  unfold modAt
  rw [h]

theorem modAt_id {α : Type} {n : Nat} (v : Vector α n) (i : Fin n) {f : α → α} (h : f v[i] = v[i]) : modAt v i f = v := by
  refine vec_ext fun j => ?_
  rw [modAt_get]
  split
  · rename_i e; rw [h, e]
  · rfl

/-! ### The storm count (R21) -/

theorem stormPasses_iff (page : ChannelPage) (c : Channel) :
    stormPasses page c = true ↔ page.stormLimit.val ≠ 0 ∧ c.stormCount.toNat = page.stormLimit.val := by
  unfold stormPasses
  simp only [Bool.and_eq_true, decide_eq_true_eq, Nat.add_right_cancel_iff]

theorem countsAgainstStorm_iff (s : State) (n : Chan) :
    s.countsAgainstStorm n = true ↔
      ∀ z, s.zoneOf n = some z → s.zev.zones[z].state ≠ .tripped ∧ s.zev.zones[z].drill = false := by
  unfold State.countsAgainstStorm
  cases s.zoneOf n <;> simp

/-- The flash that passes the storm limit demotes the channel (R21). -/
abbrev Channel.Demotes (c : Channel) (page : ChannelPage) : Prop :=
  stormPasses page c = true ∧ page.stormAction = .demote ∧ page.target = .armed ∧ c.demoted = false

/-- A channel demoted by a storm, before its state follows (R21). -/
def Channel.stormDemoted (c : Channel) : Channel :=
  { c with stormCount := satInc c.stormCount, demoted := true, quiet := 0 }

/-- A channel after a flash was set against its storm count (R21). -/
def Channel.stormed (c : Channel) (page : ChannelPage) (tLearn : Nat) : Channel :=
  if c.Demotes page then c.stormDemoted.recompute page tLearn
  else { c with stormCount := satInc c.stormCount }

theorem stormFlash_eq (s : State) (n : Chan) :
    s.stormFlash n =
      let t := s.modChan n fun c => c.stormed (s.chanPage n) s.tLearn
      if stormPasses (s.chanPage n) s.lcu[n] then t.raise .storm else t := by
  unfold State.stormFlash State.modChan
  simp only
  rw [modAt_congr (g := fun c => c.stormed (s.chanPage n) s.tLearn)]
  unfold Channel.stormed Channel.stormDemoted Channel.Demotes
  simp only [Bool.and_eq_true, decide_eq_true_eq, Bool.not_eq_true', and_assoc]

/-! ### The dropout of a channel in LEARN (R10, R12) -/

/-- A channel after its dropout: in LEARN its window starts, after a disturbance as a restart. -/
def Channel.dropout (c : Channel) (tLearn : Nat) : Channel :=
  if c.state = .learn then { c with
    window := .running tLearn, disturbance := false
    restarts := if c.disturbance then satInc c.restarts else c.restarts
    candidate := if c.disturbance then 0 else c.candidate }
  else c

/-- The dropout is a third restart (R12). -/
abbrev Channel.Faults (c : Channel) : Prop := c.state = .learn ∧ c.disturbance = true ∧ c.restarts = 2

theorem dropout_restart {c : Channel} (t : Nat) (hs : c.state = .learn) (hd : c.disturbance = true) :
    c.dropout t = { c with
      restarts := satInc c.restarts, candidate := 0, window := .running t, disturbance := false } := by
  simp only [Channel.dropout, hs, hd, if_true]

theorem dropout_first {c : Channel} (t : Nat) (hs : c.state = .learn) (hd : c.disturbance = false) :
    c.dropout t = { c with window := .running t } := by
  simp only [Channel.dropout, hs, hd, if_true, Bool.false_eq_true, if_false]

theorem dropout_beside {c : Channel} (t : Nat) (hs : c.state ≠ .learn) : c.dropout t = c := if_neg hs

theorem learnDropout_eq (s : State) (n : Chan) :
    s.learnDropout n =
      let t := s.modChan n fun c => c.dropout s.tLearn
      if s.lcu[n].Faults then t.raise .learnFault else t := by
  have change {f : Channel → Channel} (h : f s.lcu[n] = s.lcu[n].dropout s.tLearn) :
      s.modChan n f = s.modChan n fun c => c.dropout s.tLearn := by
    unfold State.modChan
    rw [modAt_congr (g := fun c => c.dropout s.tLearn) _ _ h]
  unfold State.learnDropout Channel.Faults
  by_cases hs : s.lcu[n].state = .learn
  · by_cases hd : s.lcu[n].disturbance = true
    · simp only [hs, hd, true_and, if_true, ne_eq, not_true_eq_false, if_false]
      rw [change (dropout_restart s.tLearn hs hd).symm]
    · have hd' := Bool.not_eq_true _ ▸ hd
      simp only [hs, hd', Bool.false_eq_true, false_and, and_false, if_false, ne_eq, not_true_eq_false]
      exact change (dropout_first s.tLearn hs hd').symm
  · simp only [hs, false_and, if_false, ne_eq, not_false_eq_true, if_true]
    have h := modAt_id s.lcu n (f := fun c => c.dropout s.tLearn) (dropout_beside _ hs)
    unfold State.modChan
    rw [h]

/-! ### The end of a pickup (R6) -/

theorem modAt_modAt {α : Type} {n : Nat} (v : Vector α n) (i : Fin n) (f g : α → α) :
    modAt (modAt v i f) i g = modAt v i fun x => g (f x) := by
  refine vec_ext fun j => ?_
  simp only [modAt_get]
  split <;> rfl

/-- What the operations at the end of a pickup leave beside channels and alerts. -/
def SameBesideChannels (s t : State) : Prop :=
  t.fsu = s.fsu ∧ t.trm = s.trm ∧ t.cfg = s.cfg ∧ t.zev = s.zev

theorem stormFlash_spec (s : State) (n : Chan) :
    (s.stormFlash n).lcu = modAt s.lcu n (fun c => c.stormed (s.chanPage n) s.tLearn) ∧
      SameBesideChannels s (s.stormFlash n) ∧
      ∀ p a, (s.stormFlash n).alerted p a =
        (s.alerted p a || (s.used p && (stormPasses (s.chanPage n) s.lcu[n] && decide (a = .storm)))) := by
  rw [stormFlash_eq]
  cases h : stormPasses (s.chanPage n) s.lcu[n]
  · refine ⟨rfl, ⟨rfl, rfl, rfl, rfl⟩, fun p a => ?_⟩
    rw [Bool.false_and, Bool.and_false, Bool.or_false]
    rfl
  · refine ⟨rfl, ⟨rfl, rfl, rfl, rfl⟩, fun p a => ?_⟩
    rw [Bool.true_and]
    exact raise_alerted _ _ _ _

theorem learnDropout_spec (s : State) (n : Chan) :
    (s.learnDropout n).lcu = modAt s.lcu n (fun c => c.dropout s.tLearn) ∧ SameBesideChannels s (s.learnDropout n) ∧
      ∀ p a, (s.learnDropout n).alerted p a =
        (s.alerted p a || (s.used p && (decide s.lcu[n].Faults && decide (a = .learnFault)))) := by
  rw [learnDropout_eq]
  by_cases h : s.lcu[n].Faults
  · simp only [if_pos h, decide_eq_true h, Bool.true_and]
    exact ⟨rfl, ⟨rfl, rfl, rfl, rfl⟩, fun p a => raise_alerted _ _ _ _⟩
  · simp only [if_neg h, decide_eq_false h, Bool.false_and, Bool.and_false, Bool.or_false]
    exact ⟨rfl, ⟨rfl, rfl, rfl, rfl⟩, fun p a => rfl⟩

/-- A channel at the end of its pickup, before its dropout reaches the learning. -/
def Channel.flashed (c : Channel) (page : ChannelPage) (tLearn : Nat) (counts : Bool) (start : Time) (d : Word) :
    Channel :=
  if counts then (c.endFlash start d).stormed page tLearn else c.endFlash start d

/-- What the end of a pickup leaves: the channel, and STORM and LEARN_FAULT where they come of it. -/
theorem endPickup_spec (s : State) (n : Chan) (start : Time) (d : Word) :
    let x := s.lcu[n].flashed (s.chanPage n) s.tLearn (s.countsAgainstStorm n) start d
    let t := s.endPickup n start d
    t.lcu = modAt s.lcu n (fun _ => x.dropout s.tLearn) ∧ SameBesideChannels s t ∧
      (∀ p, t.alerted p .storm = (s.alerted p .storm ||
        (s.used p && (s.countsAgainstStorm n && stormPasses (s.chanPage n) s.lcu[n])))) ∧
      ∀ p, t.alerted p .learnFault = (s.alerted p .learnFault || (s.used p && decide x.Faults)) := by
  have stage (u : State) (x : Channel) (hl : u.lcu = modAt s.lcu n fun _ => x) (hb : SameBesideChannels s u) :
      (u.learnDropout n).lcu = modAt s.lcu n (fun _ => x.dropout s.tLearn) ∧ SameBesideChannels s (u.learnDropout n) ∧
        ∀ p a, (u.learnDropout n).alerted p a =
          (u.alerted p a || (s.used p && (decide x.Faults && decide (a = .learnFault)))) := by
    obtain ⟨h1, ⟨h2, h3, h4, h5⟩, h6⟩ := learnDropout_spec u n
    obtain ⟨b2, b3, b4, b5⟩ := hb
    have ht : u.tLearn = s.tLearn := by unfold State.tLearn; rw [b4]
    have hu : u.used = s.used := by unfold State.used; rw [b4]
    rw [hl, modAt_same, hu] at h6
    refine ⟨?_, ⟨h2.trans b2, h3.trans b3, h4.trans b4, h5.trans b5⟩, h6⟩
    rw [h1, hl, modAt_modAt, ht]
  unfold State.endPickup Channel.flashed
  simp only
  cases hc : s.countsAgainstStorm n
  · obtain ⟨h1, h2, h3⟩ := stage (s.modChan n fun c => c.endFlash start d) (s.lcu[n].endFlash start d)
      rfl ⟨rfl, rfl, rfl, rfl⟩
    refine ⟨h1, h2, fun p => ?_, fun p => ?_⟩
    · refine (h3 p .storm).trans ?_
      simp only [reduceCtorEq, decide_false, Bool.and_false, Bool.false_and]
      rfl
    · refine (h3 p .learnFault).trans ?_
      simp only [decide_true, Bool.and_true]
      rfl
  · obtain ⟨g1, g2, g3⟩ := stormFlash_spec (s.modChan n fun c => c.endFlash start d) n
    simp only [modChan_same] at g3
    obtain ⟨h1, h2, h3⟩ := stage _ ((s.lcu[n].endFlash start d).stormed (s.chanPage n) s.tLearn)
      (g1.trans (modAt_modAt s.lcu n (fun c => c.endFlash start d) _)) g2
    refine ⟨h1, h2, fun p => ?_, fun p => ?_⟩
    · refine (h3 p .storm).trans ?_
      rw [g3]
      simp only [reduceCtorEq, decide_false, Bool.and_false, decide_true, Bool.and_true, Bool.or_false, Bool.true_and]
      rfl
    · refine (h3 p .learnFault).trans ?_
      rw [g3]
      simp only [reduceCtorEq, decide_false, Bool.and_false, decide_true, Bool.and_true, Bool.or_false]
      rfl

/-! ### The channel at the end of its pickup -/

theorem flashed_stays {c : Channel} {page : ChannelPage} (t : Nat) {counts : Bool} (start : Time) (d : Word)
    (h : ¬ (counts = true ∧ c.Demotes page)) :
    c.flashed page t counts start d = { c.endFlash start d with
      stormCount := if counts then satInc c.stormCount else c.stormCount } := by
  unfold Channel.flashed Channel.stormed
  cases counts
  · rfl
  · simp only [if_true]
    exact if_neg fun hd => h ⟨rfl, hd⟩

theorem flashed_demotes {c : Channel} {page : ChannelPage} (t : Nat) (start : Time) (d : Word) (h : c.Demotes page) :
    c.flashed page t true start d =
      (c.endFlash start d).stormDemoted.recompute page t :=
  if_pos h

/-- The channel before its dropout, field by field: what stays, and what the storm count and the demotion change. -/
theorem flashed_fields (c : Channel) (page : ChannelPage) (t : Nat) (counts : Bool) (start : Time) (d : Word) :
    c.flashed page t counts start d = { c.endFlash start d with
      state := (c.flashed page t counts start d).state
      stormCount := if counts then satInc c.stormCount else c.stormCount
      demoted := decide (counts = true ∧ c.Demotes page) || c.demoted
      quiet := if counts = true ∧ c.Demotes page then 0 else c.quiet
      window := (c.flashed page t counts start d).window, candidate := (c.flashed page t counts start d).candidate
      restarts := (c.flashed page t counts start d).restarts
      disturbance := (c.flashed page t counts start d).disturbance } := by
  by_cases h : counts = true ∧ c.Demotes page
  · rw [decide_eq_true h, if_pos h]
    obtain ⟨rfl, h⟩ := h
    rw [flashed_demotes t start d h, recompute_state]
    exact recompute_fields (c.endFlash start d).stormDemoted page t
  · rw [decide_eq_false h, if_neg h, Bool.false_or, flashed_stays t start d h]
    rfl

/-- R8 for an ARMED target that has been demoted. -/
theorem stateOf_demoted {page : ChannelPage} {c : Channel} (ht : page.target = .armed) (hd : c.demoted = true) :
    stateOf page c = if c.held = true then .held else if page.mode = .learned ∧ c.valid = false then .learn
      else .observe := by
  unfold stateOf
  simp only [ht, hd, reduceCtorEq, if_false, if_true]

theorem bucketOf_val (d : Word) :
    (bucketOf d).val = if d.toNat < 20 then 0 else if d.toNat < 80 then 1 else if d.toNat < 320 then 2
      else if d.toNat < 1280 then 3 else if d.toNat < 5120 then 4 else 5 := by
  unfold bucketOf
  simp only [apply_ite Fin.val]
  rfl

/-- What demotion at the end of a flash makes of the learning: as before while LEARN is neither entered nor left, and
afresh where it is entered. -/
theorem flashed_learning (c : Channel) (page : ChannelPage) (t : Nat) (counts : Bool) (start : Time) (d : Word) :
    let x := c.flashed page t counts start d
    ((x.state = .learn ↔ c.state = .learn) → x.window = c.window ∧ x.candidate = c.candidate ∧
      x.restarts = c.restarts ∧ x.disturbance = c.disturbance) ∧
    (c.state ≠ .learn → x.state = .learn → x.disturbance = false) := by
  by_cases h : counts = true ∧ c.Demotes page
  · obtain ⟨rfl, h⟩ := h
    rw [flashed_demotes t start d h]
    refine ⟨fun e => recompute_learning t e, fun hc hx => ?_⟩
    rw [recompute_state] at hx
    exact congrArg Channel.disturbance (recompute_to_learn t (c := (c.endFlash start d).stormDemoted) hc hx)
  · rw [flashed_stays t start d h]
    exact ⟨fun _ => ⟨rfl, rfl, rfl, rfl⟩, fun hc hx => absurd hx hc⟩

theorem dropout_fields (c : Channel) (t : Nat) :
    c.dropout t = { c with
      window := (c.dropout t).window, disturbance := (c.dropout t).disturbance, restarts := (c.dropout t).restarts
      candidate := (c.dropout t).candidate } := by
  unfold Channel.dropout
  split <;> rfl

end Sys2Proof.Machine
end

section
namespace Sys2Proof.Machine

/-! ### The channel after a flash (R6, R12, R18, R21) -/

/-- A channel after the flash that ends its pickup, with its dropout. -/
def Channel.flashOver (c : Channel) (page : ChannelPage) (tLearn : Nat) (counts : Bool) (start : Time) (d : Word) :
    Channel :=
  (c.flashed page tLearn counts start d).dropout tLearn

theorem flashOver_fields (c : Channel) (page : ChannelPage) (t : Nat) (counts : Bool) (start : Time) (d : Word) :
    c.flashOver page t counts start d = { c.endFlash start d with
      state := (c.flashed page t counts start d).state
      stormCount := if counts then satInc c.stormCount else c.stormCount
      demoted := decide (counts = true ∧ c.Demotes page) || c.demoted
      quiet := if counts = true ∧ c.Demotes page then 0 else c.quiet
      window := (c.flashOver page t counts start d).window
      candidate := (c.flashOver page t counts start d).candidate
      restarts := (c.flashOver page t counts start d).restarts
      disturbance := (c.flashOver page t counts start d).disturbance } := by
  unfold Channel.flashOver
  have h := flashed_fields c page t counts start d
  generalize c.flashed page t counts start d = x at h ⊢
  refine (dropout_fields x t).trans ?_
  generalize x.dropout t = y
  rw [h]

theorem flashOver_state (c : Channel) (page : ChannelPage) (t : Nat) (counts : Bool) (start : Time) (d : Word) :
    (c.flashOver page t counts start d).state = (c.flashed page t counts start d).state := by
  rw [flashOver_fields]

/-- What a flash that ends leaves of its channel as it was. -/
theorem flashOver_kept (c : Channel) (page : ChannelPage) (t : Nat) (counts : Bool) (start : Time) (d : Word) :
    let c' := c.flashOver page t counts start d
    c'.baseline = c.baseline ∧ c'.valid = c.valid ∧ c'.pickupLevel = c.pickupLevel ∧ c'.dropLevel = c.dropLevel ∧
      c'.mask = c.mask ∧ c'.held = c.held ∧ c'.stormWindow = c.stormWindow := by
  simp only
  rw [flashOver_fields]
  exact ⟨rfl, rfl, rfl, rfl, rfl, rfl, rfl⟩

/-- The flash is over and counted (R6, R18, R22). -/
theorem flashOver_flash (c : Channel) (page : ChannelPage) (t : Nat) (counts : Bool) (start : Time) (d : Word) :
    let c' := c.flashOver page t counts start d
    c'.pickup = false ∧ c'.dropRun = 0 ∧ c'.flash = none ∧ c'.lastFlash = some ⟨start, d⟩ ∧ c'.flashEnded = true ∧
      c'.hist = modAt c.hist (bucketOf d) satInc ∧
      c'.stormCount = if counts then satInc c.stormCount else c.stormCount := by
  simp only
  rw [flashOver_fields]
  exact ⟨rfl, rfl, rfl, rfl, rfl, rfl, rfl⟩

/-- The flash that passes the limit of a channel with action DEMOTE and target ARMED demotes it (R21, R8). -/
theorem flashOver_demotes {c : Channel} {page : ChannelPage} (t : Nat) {counts : Bool} (start : Time) (d : Word)
    (h : counts = true ∧ c.Demotes page) :
    let c' := c.flashOver page t counts start d
    c'.demoted = true ∧ c'.quiet = 0 ∧ c'.state = if c.held = true then .held
      else if page.mode = .learned ∧ c.valid = false then .learn else .observe := by
  simp only
  rw [flashOver_state]
  refine ⟨?_, ?_, ?_⟩
  · rw [flashOver_fields, decide_eq_true h, Bool.true_or]
  · rw [flashOver_fields, if_pos h]
  · obtain ⟨rfl, hd⟩ := h
    rw [flashed_demotes t start d hd, recompute_state]
    exact stateOf_demoted hd.2.2.1 rfl

theorem flashOver_stays {c : Channel} {page : ChannelPage} (t : Nat) {counts : Bool} (start : Time) (d : Word)
    (h : ¬ (counts = true ∧ c.Demotes page)) :
    let c' := c.flashOver page t counts start d
    c'.demoted = c.demoted ∧ c'.quiet = c.quiet ∧ c'.state = c.state := by
  simp only
  rw [flashOver_state]
  refine ⟨?_, ?_, ?_⟩
  · rw [flashOver_fields, decide_eq_false h, Bool.false_or]
  · rw [flashOver_fields, if_neg h]
  · rw [flashed_stays t start d h]
    rfl

/-- The dropout in LEARN starts the window; after a disturbance it is a restart (R10, R12). -/
theorem flashOver_learns {c : Channel} {page : ChannelPage} (t : Nat) {counts : Bool} (start : Time) (d : Word)
    (hc : c.state = .learn) (hx : (c.flashOver page t counts start d).state = .learn) :
    let c' := c.flashOver page t counts start d
    c'.window = .running t ∧ c'.disturbance = false ∧
      (c.disturbance = true → c'.restarts = satInc c.restarts ∧ c'.candidate = 0) ∧
      (c.disturbance = false → c'.restarts = c.restarts ∧ c'.candidate = c.candidate) := by
  rw [flashOver_state] at hx
  obtain ⟨-, hcand, hrest, hdist⟩ := (flashed_learning c page t counts start d).1 (iff_of_true hx hc)
  unfold Channel.flashOver
  cases hd : c.disturbance
  · rw [dropout_first t hx (hdist.trans hd)]
    exact ⟨rfl, hdist.trans hd, fun e => absurd e Bool.false_ne_true, fun _ => ⟨hrest, hcand⟩⟩
  · rw [dropout_restart t hx (hdist.trans hd), hrest]
    exact ⟨rfl, rfl, fun _ => ⟨rfl, rfl⟩, fun e => absurd e.symm Bool.false_ne_true⟩

theorem flashOver_beside_learn {c : Channel} {page : ChannelPage} (t : Nat) {counts : Bool} (start : Time) (d : Word)
    (hc : c.state ≠ .learn) (hx : (c.flashOver page t counts start d).state ≠ .learn) :
    let c' := c.flashOver page t counts start d
    c'.window = c.window ∧ c'.disturbance = c.disturbance ∧ c'.restarts = c.restarts ∧ c'.candidate = c.candidate := by
  rw [flashOver_state] at hx
  obtain ⟨hw, hcand, hrest, hdist⟩ := (flashed_learning c page t counts start d).1 (iff_of_false hx hc)
  unfold Channel.flashOver
  rw [dropout_beside t hx]
  exact ⟨hw, hdist, hrest, hcand⟩

/-- The dropout is a third restart exactly in a channel that learns on after its third disturbance (R12). -/
theorem flashed_faults_iff (c : Channel) (page : ChannelPage) (t : Nat) (counts : Bool) (start : Time) (d : Word) :
    (c.flashed page t counts start d).Faults ↔
      c.state = .learn ∧ c.disturbance = true ∧ c.restarts = 2 ∧
        (c.flashOver page t counts start d).state = .learn := by
  rw [flashOver_state]
  obtain ⟨hkeep, henter⟩ := flashed_learning c page t counts start d
  constructor
  · rintro ⟨hx, hd, hr⟩
    have hc : c.state = .learn := by
      by_contra hc
      rw [henter hc hx] at hd
      exact Bool.false_ne_true hd
    obtain ⟨-, -, hrest, hdist⟩ := hkeep (iff_of_true hx hc)
    exact ⟨hc, hdist ▸ hd, hrest ▸ hr, hx⟩
  · rintro ⟨hc, hd, hr, hx⟩
    obtain ⟨-, -, hrest, hdist⟩ := hkeep (iff_of_true hx hc)
    exact ⟨hx, hdist.trans hd, hrest.trans hr⟩

/-! ### The sample -/

theorem pickupSample_above {s : State} {n : Chan} {v : LU} {f : Flash} (hf : s.lcu[n].flash = some f)
    (hv : s.lcu[n].dropLevel ≤ v) :
    s.pickupSample n v =
      s.modChan n fun c => { c with dropRun := 0, flash := some ⟨f.start, satInc f.index, none⟩ } := by
  unfold State.pickupSample
  simp only [hf, Option.getD_some, hv, if_true]

/-- Below D the drop run begins with this sample or goes on from where it began; `d` is its start. -/
theorem pickupSample_below {s : State} {n : Chan} {v : LU} {f : Flash} {d : Word} (hf : s.lcu[n].flash = some f)
    (h0 : s.lcu[n].dropRun = 0 → d = satInc f.index) (h1 : s.lcu[n].dropRun ≠ 0 → f.runStart = some d)
    (hv : v < s.lcu[n].dropLevel) :
    s.pickupSample n v =
      if (s.chanPage n).dropCount.val ≤ s.lcu[n].dropRun + 1 then s.endPickup n f.start d
      else s.modChan n fun c => { c with
        dropRun := c.dropRun + 1, flash := some ⟨f.start, satInc f.index, some d⟩ } := by
  have hd : (if s.lcu[n].dropRun = 0 then satInc f.index else f.runStart.getD (satInc f.index)) = d := by
    by_cases h : s.lcu[n].dropRun = 0
    · rw [if_pos h, h0 h]
    · rw [if_neg h, h1 h, Option.getD_some]
  unfold State.pickupSample
  simp only [hf, Option.getD_some, BitVec.not_le.2 hv, if_false, hd]

/-- A sample that leaves the channel in pickup changes its flash and the records only. -/
theorem exec_lightSample_flash {s : State} {n : Chan} {v : LU} {g : Channel → Channel} (hs : s.lcu[n].state ≠ .off)
    (hm : s.lcu[n].mask = false) (hp : s.lcu[n].pickup = true)
    (h : (s.offerPeak n v).pickupSample n v = (s.offerPeak n v).modChan n g)
    (hg : ∀ c, (g c).pickup = c.pickup ∧ (g c).state = c.state ∧ (g c).demoted = c.demoted) :
    exec (.lightSample n v) s = .next { s with
      trm.records := s.trm.records.map (s.peaked n v), lcu := modAt s.lcu n g } := by
  have hev : s.evaluated n v = (s.offerPeak n v).modChan n g := (evaluated_during v hp).trans h
  have hsame : (s.evaluated n v).lcu[n] = g s.lcu[n] := by rw [hev]; exact modAt_same _ _ _
  obtain ⟨g1, g2, g3⟩ := hg s.lcu[n]
  have hstatus : (s.evaluated n v).statusOf n = s.statusOf n :=
    statusOf_congr (by rw [hev]; rfl) (by rw [hsame, g1]) (by rw [hsame, g2]) (by rw [hsame, g3])
  rw [exec_lightSample_evaluated v hs hm, lcuEvent_of_same (f := fun s => s.evaluated n v) hstatus, hev, offerPeak_eq]
  rfl

/-- The end of a pickup by a sample, with its hand-over: the channel, the frame and the alerts of light. -/
theorem evaluated_ends {s : State} {n : Chan} {v : LU} {start : Time} {d : Word}
    (hev : s.evaluated n v = (s.offerPeak n v).endPickup n start d) :
    let x := s.lcu[n].flashed s.cfg.active.chans[n] s.tLearn (s.countsAgainstStorm n) start d
    let t := s.lcuEvent n fun s => s.evaluated n v
    t.lcu = modAt s.lcu n
      (fun c => c.flashOver s.cfg.active.chans[n] s.tLearn (s.countsAgainstStorm n) start d) ∧
    t.fsu = s.fsu ∧
    ((∀ z, s.zoneOf n = some z → 0 < s.cfg.active.zones[z].tzf.val) →
      t.trm.records = s.trm.records.map (s.peaked n v)) ∧
    (∀ p, t.alerted p .storm = (s.alerted p .storm ||
      (s.used p && (s.countsAgainstStorm n && stormPasses s.cfg.active.chans[n] s.lcu[n])))) ∧
    ∀ p, t.alerted p .learnFault = (s.alerted p .learnFault || (s.used p && decide x.Faults)) := by
  obtain ⟨hlcu, ⟨hfsu, htrm, hcfg, -⟩, hstorm, hfault⟩ := endPickup_spec (s.offerPeak n v) n start d
  rw [← hev] at hlcu hfsu htrm hcfg hstorm hfault
  have hz := lcuEvent_zstep s n fun s => s.evaluated n v
  refine ⟨hz.lcu.trans hlcu, hz.fsu.trans hfsu, fun h => ?_,
    fun p => (lcuEvent_lightAlerts s n _ p .storm rfl).trans (hstorm p),
    fun p => (lcuEvent_lightAlerts s n _ p .learnFault rfl).trans (hfault p)⟩
  rw [lcuEvent_trm (f := fun s => s.evaluated n v) (congrArg Cfg.active hcfg) h, htrm, offerPeak_eq]

/-- A flash that counts passes the storm limit (R21). -/
theorem flashPasses_iff (s : State) (n : Chan) :
    (s.countsAgainstStorm n && stormPasses s.cfg.active.chans[n] s.lcu[n]) = true ↔
      (∀ z, s.zoneOf n = some z → s.zev.zones[z].state ≠ .tripped ∧ s.zev.zones[z].drill = false) ∧
        s.cfg.active.chans[n].stormLimit.val ≠ 0 ∧
        s.lcu[n].stormCount.toNat = s.cfg.active.chans[n].stormLimit.val := by
  rw [Bool.and_eq_true, countsAgainstStorm_iff, stormPasses_iff]

/-- Settles O10: above the drop count the sample only moves the flash on; at the drop count the channel is `flashOver`
of what it was, with STORM and LEARN_FAULT as `evaluated_ends` has them. -/
theorem sampleDuringPickup : Obligations.SampleDuringPickup := by
  intro s n v f hs hm hp hf
  refine ⟨fun hv => exec_lightSample_flash hs hm hp (pickupSample_above (s := s.offerPeak n v) hf hv)
    fun c => ⟨rfl, rfl, rfl⟩, fun d h0 h1 hv => ?_⟩
  have hbelow := pickupSample_below (s := s.offerPeak n v) hf h0 h1 hv
  refine ⟨fun hl => exec_lightSample_flash hs hm hp (hbelow.trans (if_neg (Nat.not_le.2 hl))) fun c => ⟨rfl, rfl, rfl⟩,
    fun hl => ⟨_, exec_lightSample_evaluated v hs hm, ?_⟩⟩
  have hev : s.evaluated n v = (s.offerPeak n v).endPickup n f.start d :=
    (evaluated_during v hp).trans (hbelow.trans (if_pos hl))
  obtain ⟨hlcu, hfsu, hrec, hstorm, hfault⟩ := evaluated_ends hev
  generalize State.lcuEvent s n _ = t at hlcu hfsu hrec hstorm hfault ⊢
  have hcounts := countsAgainstStorm_iff s n
  have hpasses := flashPasses_iff s n
  have hdemotes := and_congr_left' hpasses (c := s.cfg.active.chans[n].stormAction = .demote ∧
    s.cfg.active.chans[n].target = .armed ∧ s.lcu[n].demoted = false)
  rw [Bool.and_eq_true, and_assoc] at hdemotes
  have hthird := flashed_faults_iff s.lcu[n] s.cfg.active.chans[n] s.tLearn (s.countsAgainstStorm n) f.start d
  have hsame : t.lcu[n] = _ := (congrArg (fun l : Vector Channel 16 => l[n]) hlcu).trans (modAt_same _ _ _)
  have hkept := flashOver_kept s.lcu[n] s.cfg.active.chans[n] s.tLearn (s.countsAgainstStorm n) f.start d
  obtain ⟨hp', hr', hf', hl', he', hh', hc'⟩ :=
    flashOver_flash s.lcu[n] s.cfg.active.chans[n] s.tLearn (s.countsAgainstStorm n) f.start d
  simp only [hsame]
  refine ⟨fun m hmn => ?others, hfsu, hrec, hkept, hp', hr', hf', hl', he', fun i => ?hist,
    fun h => hc'.trans (if_pos (hcounts.2 h)), fun h => hc'.trans (if_neg (mt hcounts.1 h)),
    fun h p hu => ?storm, fun h p => ?noStorm, fun h => flashOver_demotes _ _ _ (hdemotes.2 h),
    fun h => flashOver_stays _ _ _ (mt hdemotes.1 h), flashOver_learns _ _ _, flashOver_beside_learn _ _ _,
    fun hc hd hr hx p hu => ?fault, fun h p => ?noFault⟩
  case others =>
    exact (congrArg (fun l : Vector Channel 16 => l[m]) hlcu).trans (modAt_other _ _ hmn)
  case hist =>
    refine (congrArg (fun l : Vector Word 6 => l[i]) hh').trans ((modAt_get _ _ _ _).trans ?_)
    rw [← bucketOf_val]
    by_cases e : i = bucketOf d
    · rw [if_pos e, if_pos (congrArg Fin.val e), e]
    · rw [if_neg e, if_neg fun e' => e (Fin.ext e')]
  case storm => rw [hstorm, hpasses.2 h, hu, Bool.and_self, Bool.or_true]
  case noStorm => rw [hstorm, Bool.eq_false_iff.2 (mt hpasses.1 h), Bool.and_false, Bool.or_false]
  case fault => rw [hfault, decide_eq_true (hthird.2 ⟨hc, hd, hr, hx⟩), hu, Bool.and_self, Bool.or_true]
  case noFault =>
    have hno : ¬ (s.lcu[n].flashed s.cfg.active.chans[n] s.tLearn (s.countsAgainstStorm n) f.start d).Faults := by
      intro hx
      obtain ⟨-, hd, hr, hl⟩ := hthird.1 hx
      rcases h with h | h | h
      · rw [h] at hd
        exact Bool.false_ne_true hd
      · exact h hr
      · exact h hl
    rw [hfault, decide_eq_false hno, Bool.and_false, Bool.or_false]

end Sys2Proof.Machine
end

section
/-! PROOFS. A status event at a zone (R76 to R92): the zone after it in every state of the zone, and what the CFG is told. -/

namespace Sys2Proof.Machine

/-! ### Votes (R74, R77) -/

theorem toList_eq_map_finRange {α : Type} {n : Nat} (v : Vector α n) : v.toList = (List.finRange n).map fun i => v[i] := by
  refine List.ext_getElem (by simp) fun i h1 h2 => ?_
  simp

theorem count_eq_countP (v : Vector MemberStatus 6) (p : MemberStatus → Bool) :
    (v.toList.filter p).length = (List.finRange 6).countP fun i => p v[i] := by
  rw [toList_eq_map_finRange, ← List.countP_eq_length_filter, List.countP_map]
  rfl

theorem votingCount_eq (v : Vector MemberStatus 6) :
    votingCount v = (List.finRange 6).countP fun i => v[i].votes := count_eq_countP v _

theorem votingLit_eq (v : Vector MemberStatus 6) :
    votingLit v = (List.finRange 6).countP fun i => v[i].votes && v[i].pickup := count_eq_countP v _

theorem voteSatisfied_iff (page : ZonePage) (v : Vector MemberStatus 6) :
    voteSatisfied page v = true ↔ page.enabled = true ∧
      (if page.vote = .two ∧ votingCount v ≠ 1 then 2 ≤ votingLit v else 1 ≤ votingLit v) := by
  unfold voteSatisfied
  cases page.vote
  · simp
  · by_cases h : votingCount v = 1 <;> simp [h]

theorem voteDegraded_iff (page : ZonePage) (v : Vector MemberStatus 6) :
    voteDegraded page v = true ↔ page.enabled = true ∧ page.vote = .two ∧ votingCount v = 1 := by
  unfold voteDegraded
  simp only [Bool.and_eq_true, decide_eq_true_eq, and_assoc]

/-! ### The view and the trigger (R76, R78) -/

/-- The member view of a zone after a status event of a channel (R76). -/
def State.viewAfter (s : State) (z : Zone) (n : Chan) (st : MemberStatus) : Vector MemberStatus 6 :=
  Vector.ofFn fun i : Slot => if s.cfg.active.zones[z].slots[i].toNat = n.val then st else s.zev.zones[z].view[i]

/-- A status event takes the view and evaluates the vote anew (R76). -/
theorem statusEvent_eq (s : State) (z : Zone) (n : Chan) (st : MemberStatus) :
    s.statusEvent z n st =
      (s.modZone z fun r => { r with view := s.viewAfter z n st }).reevaluate z (some n) := by
  unfold State.statusEvent State.modZone State.viewAfter
  simp only
  congr 3
  refine modAt_congr _ _ ?_
  congr 2
  funext i
  exact if_congr (memberAt_eq_some_iff _ i n) rfl rfl

/-- The trigger at the start of a filter (R78). -/
theorem triggerOf_viewAfter (s : State) (z : Zone) (n : Chan) (st : MemberStatus) :
    triggerOf (s.zonePage z) (s.viewAfter z n st) (some n) =
      if ∃ i : Slot, s.cfg.active.zones[z].slots[i].toNat = n.val ∧ st.votes = true ∧ st.pickup = true then some n
      else firstLitMember (s.zonePage z) (s.viewAfter z n st) := by
  have hv (i : Slot) (h : s.cfg.active.zones[z].slots[i].toNat = n.val) : (s.viewAfter z n st)[i] = st :=
    (ofFn_get _ i).trans (if_pos h)
  refine if_congr ?_ rfl rfl
  rw [List.any_eq_true]
  constructor
  · rintro ⟨i, -, h⟩
    simp only [Bool.and_eq_true, decide_eq_true_eq, memberAt_eq_some_iff] at h
    obtain ⟨⟨hm, h1⟩, h2⟩ := h
    have e := hv i hm
    rw [e] at h1 h2
    exact ⟨i, hm, h1, h2⟩
  · rintro ⟨i, hm, h1, h2⟩
    refine ⟨i, List.mem_finRange i, ?_⟩
    have hmem : (s.zonePage z).memberAt i = some n := (memberAt_eq_some_iff _ i n).2 hm
    rw [hv i hm, h1, h2, decide_eq_true hmem]
    rfl

/-! ### Passages of a zone (R74, R97) -/

theorem zones_modZone (s : State) (z : Zone) (f : ZoneRec → ZoneRec) :
    (s.modZone z f).zev.zones[z] = f s.zev.zones[z] := modAt_same _ _ _

/-- The board has no zone lit but for this one, which takes another state. -/
theorem noZoneLit_after (s : State) (z : Zone) (r' : ZoneRec) (h : r'.state ≠ .lit ∧ r'.state ≠ .waiting) :
    (s.modZone z fun _ => r').noZoneLit = true ↔
      ∀ y : Zone, y ≠ z → s.zev.zones[y].state ≠ .lit ∧ s.zev.zones[y].state ≠ .waiting := by
  rw [noZoneLit_iff]
  constructor
  · intro hall y hy
    have := hall y
    rwa [show (s.modZone z fun _ => r').zev.zones[y] = s.zev.zones[y] from modAt_other _ _ hy] at this
  · intro hall y
    by_cases hy : y = z
    · rw [hy, zones_modZone]
      exact h
    · rw [show (s.modZone z fun _ => r').zev.zones[y] = s.zev.zones[y] from modAt_other _ _ hy]
      exact hall y hy

theorem modZone_modZone (s : State) (z : Zone) (f g : ZoneRec → ZoneRec) :
    (s.modZone z f).modZone z g = s.modZone z fun _ => g (f s.zev.zones[z]) := by
  unfold State.modZone
  simp only [modAt_modAt]
  rfl

/-- A zone leaves the lit states, or stays out of them, by a change of its record (R97, R178): what the CFG is told, and
the alert of an entry into BLOCKED. -/
def State.Moves (s : State) (z : Zone) (r' : ZoneRec) (blocks : Bool) (t : State) : Prop :=
  ∃ (al : Vector AlertRec 4) (quiet due : Bool),
    let t' : State := { s with
      alr.ports := al
      zev.zones := modAt s.zev.zones z fun _ => { r' with entryTime := s.alr.time }
      cfg.zonesQuiet := quiet
      cfg.transferDue := due }
    t = t' ∧ s.DueAfter t' ∧ AlertsRaised s.alr.ports al .zoneBlocked (fun p => blocks && s.used p) ∧
    (quiet = true ↔ ∀ y : Zone, y ≠ z → s.zev.zones[y].state ≠ .lit ∧ s.zev.zones[y].state ≠ .waiting)

theorem enterZone_moves (s : State) (z : Zone) (f : ZoneRec → ZoneRec) {st : ZoneState} (h : st ≠ .lit ∧ st ≠ .waiting) :
    s.Moves z { f s.zev.zones[z] with state := st } false ((s.modZone z f).enterZone z st) := by
  have e : (s.modZone z f).enterZone z st =
      (s.modZone z fun _ => { f s.zev.zones[z] with state := st, entryTime := s.alr.time }).noticeZones := by
    unfold State.enterZone
    rw [modZone_modZone]
    rfl
  rw [e]
  refine ⟨s.alr.ports, _, _, rfl, settleDue_dueAfter { s.modZone z _ with cfg.zonesQuiet := _ }, fun p => rfl, ?_⟩
  exact noZoneLit_after s z _ h

/-- An alert is raised on the ports in use (R199). -/
theorem raise_alertsRaised (s : State) (a : Alert) : AlertsRaised s.alr.ports (s.raise a).alr.ports a s.used :=
  fun p => ofFn_get _ p

theorem raise_moves {s t : State} {z : Zone} {r' : ZoneRec} (h : s.Moves z r' false t) :
    s.Moves z r' true (t.raise .zoneBlocked) := by
  obtain ⟨al, quiet, due, rfl, hdue, hal, hq⟩ := h
  refine ⟨_, quiet, due, rfl, hdue, fun p => ?_, hq⟩
  have e : al[p] = s.alr.ports[p] := hal p
  have h := raise_alertsRaised { s with
    alr.ports := al
    zev.zones := modAt s.zev.zones z fun _ => { r' with entryTime := s.alr.time }
    cfg.zonesQuiet := quiet
    cfg.transferDue := due } .zoneBlocked p
  simp only [e] at h
  exact h

/-- The record of a zone that returns to QUIET (R81, R85, R88). -/
theorem toQuiet_moves (s : State) (z : Zone) :
    s.Moves z { s.zev.zones[z] with
      lit := false, degraded := voteDegraded (s.zonePage z) s.zev.zones[z].view, filter := .stopped
      confirm := .stopped, state := .quiet } false (s.toQuiet z) :=
  enterZone_moves s z (fun r => { r with
    lit := false, degraded := voteDegraded (s.zonePage z) r.view, filter := .stopped, confirm := .stopped }) (by decide)

/-- The record of a zone that is BLOCKED (R89). -/
theorem toBlocked_moves (s : State) (z : Zone) :
    s.Moves z { s.zev.zones[z] with
      lit := false, degraded := false, filter := .stopped, confirm := .stopped, state := .blocked } true
      (s.toBlocked z) :=
  raise_moves (enterZone_moves s z (fun r => { r with
    lit := false, degraded := false, filter := .stopped, confirm := .stopped }) (by decide))

/-- A move of a zone whose record had changed before is one change of the record. -/
theorem State.Moves.of_modZone {s t : State} {z : Zone} {f : ZoneRec → ZoneRec} {r' : ZoneRec} {blocks : Bool}
    (h : (s.modZone z f).Moves z r' blocks t) : s.Moves z r' blocks t := by
  obtain ⟨al, quiet, due, rfl, hdue, hal, hq⟩ := h
  unfold State.modZone at hdue ⊢
  simp only [modAt_modAt] at hdue ⊢
  refine ⟨al, quiet, due, rfl, hdue, hal, hq.trans ?_⟩
  refine forall_congr' fun y => imp_congr_right fun hy => ?_
  rw [show (s.modZone z f).zev.zones[y] = s.zev.zones[y] from modAt_other _ _ hy]

/-- The record of a zone that is lit (R80). -/
def ZoneRec.lighted (r : ZoneRec) (page : ZonePage) (ev : Option Chan) (now : Time) : ZoneRec :=
  { r with
    lit := true, degraded := voteDegraded page r.view, trigger := triggerOf page r.view ev
    filter := .running .entry page.tzf.val, state := .lit, entryTime := now }

/-- The board with a zone just lit, before its filter expires; a pending commit waits (R80, R97, R178). -/
def State.lightedAt (s : State) (z : Zone) (ev : Option Chan) : State :=
  { s with
    zev.zones := modAt s.zev.zones z fun r => r.lighted (s.zonePage z) ev s.alr.time
    cfg.zonesQuiet := false
    cfg.transferDue := false }

theorem noticeZones_of_lit {s : State} (h : s.noZoneLit = false) :
    s.noticeZones = { s with cfg.zonesQuiet := false, cfg.transferDue := false } := by
  unfold State.noticeZones State.settleDue
  simp only [h, Bool.and_false, Bool.false_and]

theorem toLit_eq (s : State) (z : Zone) (ev : Option Chan) :
    s.toLit z ev = if (s.zonePage z).tzf.val = 0 then (s.lightedAt z ev).entryFilterExpiry z else s.lightedAt z ev := by
  have e : (s.modZone z fun r => { r with
      lit := true, degraded := voteDegraded (s.zonePage z) r.view, trigger := triggerOf (s.zonePage z) r.view ev
      filter := .running .entry (s.zonePage z).tzf.val }).enterZone z .lit = s.lightedAt z ev := by
    unfold State.enterZone
    rw [modZone_modZone, noticeZones_of_lit]
    · rfl
    · rw [← Bool.not_eq_true, noZoneLit_iff]
      intro h
      refine (h z).1 ?_
      rw [zones_modZone]
  unfold State.toLit
  simp only
  rw [e]

/-- The filter of a zone that is lit with a filter time of 0 expires in the same event (R80). -/
theorem filterExpiry_lightedAt (s : State) (z : Zone) (ev : Option Chan) :
    exec (.filterExpiry z) (s.lightedAt z ev) = .next ((s.lightedAt z ev).entryFilterExpiry z) := by
  have h : (s.lightedAt z ev).zev.zones[z] = s.zev.zones[z].lighted (s.zonePage z) ev s.alr.time := modAt_same _ _ _
  refine congrArg Host.Outcome.next (if_pos ?_)
  rw [h]
  rfl

/-! ### The zone in every state (R80, R81, R85, R88, R89, R92) -/

theorem reevaluate_disabled {s : State} {z : Zone} (ev : Option Chan) (h : s.zev.zones[z].state = .disabled) :
    s.reevaluate z ev = s := by
  unfold State.reevaluate
  simp only [h]

theorem reevaluate_blocked {s : State} {z : Zone} (ev : Option Chan) (h : s.zev.zones[z].state = .blocked) :
    s.reevaluate z ev = if votingCount s.zev.zones[z].view = 0 then s
      else if voteSatisfied (s.zonePage z) s.zev.zones[z].view then (s.toQuiet z).toLit z ev else s.toQuiet z := by
  unfold State.reevaluate
  simp only [h]

theorem reevaluate_quiet {s : State} {z : Zone} (ev : Option Chan) (h : s.zev.zones[z].state = .quiet) :
    s.reevaluate z ev = if votingCount s.zev.zones[z].view = 0 then s.toBlocked z
      else if voteSatisfied (s.zonePage z) s.zev.zones[z].view then s.toLit z ev
      else s.modZone z fun r => { r with degraded := voteDegraded (s.zonePage z) r.view } := by
  unfold State.reevaluate
  simp only [h]

theorem reevaluate_judging {s : State} {z : Zone} (ev : Option Chan)
    (h : s.zev.zones[z].state = .lit ∨ s.zev.zones[z].state = .waiting ∨ s.zev.zones[z].state = .suppressed) :
    s.reevaluate z ev = if votingCount s.zev.zones[z].view = 0 then s.toBlocked z
      else if voteSatisfied (s.zonePage z) s.zev.zones[z].view then
        s.modZone z fun r => { r with degraded := voteDegraded (s.zonePage z) r.view }
      else s.toQuiet z := by
  unfold State.reevaluate
  rcases h with h | h | h <;> simp only [h]

theorem reevaluate_tripped {s : State} {z : Zone} (ev : Option Chan) (h : s.zev.zones[z].state = .tripped) :
    s.reevaluate z ev = s.trippedVote z ev := by
  unfold State.reevaluate
  simp only [h]

end Sys2Proof.Machine
end

section
/-! PROOFS. A status event at a zone, clause by clause (R76 to R92). -/

namespace Sys2Proof.Machine

/-! ### A zone that keeps its state -/

/-- Nothing changes but the record of the zone. -/
def State.Stays (s : State) (z : Zone) (r' : ZoneRec) (t : State) : Prop := t = s.modZone z fun _ => r'

theorem stays_modZone (s : State) (z : Zone) (f : ZoneRec → ZoneRec) : s.Stays z (f s.zev.zones[z]) (s.modZone z f) := by
  unfold State.Stays State.modZone
  rw [modAt_congr (f := f) (g := fun _ => f s.zev.zones[z]) _ _ rfl]

theorem State.Stays.of_modZone {s t : State} {z : Zone} {f : ZoneRec → ZoneRec} {r' : ZoneRec}
    (h : (s.modZone z f).Stays z r' t) : s.Stays z r' t := h.trans (modZone_modZone s z f _)

/-- A change of the record of one zone is a change of what the record was. -/
theorem modZone_const (s : State) (z : Zone) (f : ZoneRec → ZoneRec) :
    (s.modZone z f) = s.modZone z fun _ => f s.zev.zones[z] := stays_modZone s z f

/-! ### A zone in TRIPPED (R92) -/

/-- The record of a zone in TRIPPED with its vote taken up. -/
def ZoneRec.voted (r : ZoneRec) (page : ZonePage) : ZoneRec :=
  { r with lit := voteSatisfied page r.view, degraded := voteDegraded page r.view }

section
variable {s : State} {z : Zone} {sat : Bool} (ev : Option Chan)
  (hsat : voteSatisfied (s.zonePage z) s.zev.zones[z].view = sat)
include hsat

theorem trippedVote_holding (hp : s.zev.zones[z].phase = some .holding) (hl : s.zev.zones[z].lit = true)
    (h : sat = false) :
    s.Stays z { s.zev.zones[z].voted (s.zonePage z) with phase := some .ready } (s.trippedVote z ev) := by
  subst h
  unfold State.trippedVote ZoneRec.voted
  simp only [hp, hl, hsat]
  exact modZone_modZone s z _ _

theorem trippedVote_filtering (hp : s.zev.zones[z].phase = some .filtering) (hl : s.zev.zones[z].lit = true)
    (h : sat = false) :
    s.Stays z { s.zev.zones[z].voted (s.zonePage z) with phase := some .ready, filter := .stopped }
      (s.trippedVote z ev) := by
  subst h
  unfold State.trippedVote ZoneRec.voted
  simp only [hp, hl, hsat]
  exact modZone_modZone s z _ _

theorem trippedVote_ready (hp : s.zev.zones[z].phase = some .ready) (hl : s.zev.zones[z].lit = false)
    (h : sat = true) :
    s.trippedVote z ev = (s.modZone z fun r => r.voted (s.zonePage z)).startRestrike z ev := by
  subst h
  unfold State.trippedVote
  simp only [hp, hl, hsat]
  rw [modZone_const, modZone_const s z fun r => r.voted _]
  unfold ZoneRec.voted
  rw [hsat]

theorem trippedVote_stays
    (h : s.zev.zones[z].lit = sat ∨ (s.zev.zones[z].phase = some .holding ∧ sat = true) ∨
      (s.zev.zones[z].phase = some .ready ∧ sat = false) ∨ (s.zev.zones[z].phase = some .filtering ∧ sat = true) ∨
      s.zev.zones[z].phase = none) :
    s.Stays z (s.zev.zones[z].voted (s.zonePage z)) (s.trippedVote z ev) := by
  have hvoted := stays_modZone s z fun r => { r with lit := sat, degraded := voteDegraded (s.zonePage z) r.view }
  unfold ZoneRec.voted State.trippedVote
  simp only [hsat]
  split
  case h_4 => exact hvoted
  all_goals
    rename_i hp hl
    rw [hp, hl] at h
    simp at h

end

/-- The board with a re-strike filter just started (R92). -/
def State.refilteredAt (s : State) (z : Zone) (ev : Option Chan) : State :=
  s.modZone z fun r => { r with
    trigger := triggerOf (s.zonePage z) r.view ev, filter := .running .restrike (s.zonePage z).tzf.val
    phase := some .filtering }

theorem startRestrike_eq (s : State) (z : Zone) (ev : Option Chan) :
    s.startRestrike z ev =
      if (s.zonePage z).tzf.val = 0 then (s.refilteredAt z ev).restrikeFilterExpiry z else s.refilteredAt z ev := rfl

/-- A re-strike filter started with a filter time of 0 expires in the same event (R92). -/
theorem filterExpiry_refilteredAt {s : State} {z : Zone} (ev : Option Chan) (htr : s.zev.zones[z].state = .tripped) :
    exec (.restrikeFilterExpiry z) (s.refilteredAt z ev) = .next ((s.refilteredAt z ev).restrikeFilterExpiry z) := by
  have h := zones_modZone s z fun r => { r with
    trigger := triggerOf (s.zonePage z) r.view ev, filter := .running .restrike (s.zonePage z).tzf.val
    phase := some .filtering }
  refine congrArg Host.Outcome.next (if_pos ?_)
  rw [State.refilteredAt, h]
  exact (Bool.and_true _).trans (decide_eq_true htr)

/-! ### A vote that leaves no voting member, breaks, or is satisfied (R80, R81, R85, R88, R89) -/

/-- The zone is lit and not TRIPPED (R80 to R88). -/
def ZoneState.Judging (st : ZoneState) : Prop := st = .lit ∨ st = .waiting ∨ st = .suppressed

section
variable {s : State} {z : Zone} (ev : Option Chan)

theorem reevaluate_blocks (h : s.zev.zones[z].state = .quiet ∨ s.zev.zones[z].state.Judging)
    (hv : votingCount s.zev.zones[z].view = 0) :
    s.Moves z { s.zev.zones[z] with
      lit := false, degraded := false, filter := .stopped, confirm := .stopped, state := .blocked } true
      (s.reevaluate z ev) := by
  rcases h with h | h
  · rw [reevaluate_quiet ev h, if_pos hv]
    exact toBlocked_moves s z
  · rw [reevaluate_judging ev h, if_pos hv]
    exact toBlocked_moves s z

theorem reevaluate_unlit (h : s.zev.zones[z].state = .quiet) (hv : votingCount s.zev.zones[z].view ≠ 0)
    (hsat : voteSatisfied (s.zonePage z) s.zev.zones[z].view = false) :
    s.Stays z { s.zev.zones[z] with degraded := voteDegraded (s.zonePage z) s.zev.zones[z].view }
      (s.reevaluate z ev) := by
  rw [reevaluate_quiet ev h, if_neg hv, hsat, if_neg Bool.false_ne_true]
  exact stays_modZone s z _

theorem reevaluate_still_lit (h : s.zev.zones[z].state.Judging) (hv : votingCount s.zev.zones[z].view ≠ 0)
    (hsat : voteSatisfied (s.zonePage z) s.zev.zones[z].view = true) :
    s.Stays z { s.zev.zones[z] with degraded := voteDegraded (s.zonePage z) s.zev.zones[z].view }
      (s.reevaluate z ev) := by
  rw [reevaluate_judging ev h, if_neg hv, if_pos hsat]
  exact stays_modZone s z _

theorem reevaluate_rests (h : s.zev.zones[z].state.Judging ∨ s.zev.zones[z].state = .blocked)
    (hv : votingCount s.zev.zones[z].view ≠ 0)
    (hsat : voteSatisfied (s.zonePage z) s.zev.zones[z].view = false) :
    s.Moves z { s.zev.zones[z] with
      lit := false, degraded := voteDegraded (s.zonePage z) s.zev.zones[z].view, filter := .stopped
      confirm := .stopped, state := .quiet } false (s.reevaluate z ev) := by
  rcases h with h | h
  · rw [reevaluate_judging ev h, if_neg hv, hsat, if_neg Bool.false_ne_true]
    exact toQuiet_moves s z
  · rw [reevaluate_blocked ev h, if_neg hv, hsat, if_neg Bool.false_ne_true]
    exact toQuiet_moves s z

/-- The board with a zone just lit out of QUIET or BLOCKED; a zone out of BLOCKED has no confirm window (R80, R89). -/
def State.lightsAt (s : State) (z : Zone) (ev : Option Chan) : State :=
  { s with
    zev.zones := modAt s.zev.zones z fun _ =>
      { s.zev.zones[z].lighted (s.zonePage z) ev s.alr.time with
        confirm := if s.zev.zones[z].state = .blocked then .stopped else s.zev.zones[z].confirm }
    cfg.zonesQuiet := false
    cfg.transferDue := false }

theorem toQuiet_zonePage (s : State) (z y : Zone) : (s.toQuiet z).zonePage y = s.zonePage y := rfl

theorem lightsAt_of_quiet (h : s.zev.zones[z].state = .quiet) : s.lightsAt z ev = s.lightedAt z ev := by
  have hb : s.zev.zones[z].state ≠ .blocked := by rw [h]; decide
  unfold State.lightsAt State.lightedAt
  rw [if_neg hb, modAt_congr (f := fun r => r.lighted (s.zonePage z) ev s.alr.time)
    (g := fun _ => s.zev.zones[z].lighted (s.zonePage z) ev s.alr.time) _ _ rfl]
  rfl

theorem lightsAt_of_blocked (h : s.zev.zones[z].state = .blocked) :
    s.lightsAt z ev = (s.toQuiet z).lightedAt z ev := by
  obtain ⟨al, quiet, due, ht, -, hal, -⟩ := toQuiet_moves s z
  have hal' : (s.toQuiet z).alr = s.alr := rfl
  have he : al = s.alr.ports := by rw [ht] at hal'; exact congrArg Alr.ports hal'
  subst he
  unfold State.lightsAt State.lightedAt
  rw [ht, if_pos h]
  simp only [modAt_modAt]
  rw [modAt_congr s.zev.zones z]
  rfl

theorem reevaluate_lights (h : s.zev.zones[z].state = .quiet ∨ s.zev.zones[z].state = .blocked)
    (hv : votingCount s.zev.zones[z].view ≠ 0)
    (hsat : voteSatisfied (s.zonePage z) s.zev.zones[z].view = true) :
    if (s.zonePage z).tzf.val = 0 then exec (.filterExpiry z) (s.lightsAt z ev) = .next (s.reevaluate z ev)
    else s.reevaluate z ev = s.lightsAt z ev := by
  rcases h with h | h
  · rw [reevaluate_quiet ev h, if_neg hv, if_pos hsat, toLit_eq, lightsAt_of_quiet ev h]
    split
    · exact filterExpiry_lightedAt s z ev
    · rfl
  · rw [reevaluate_blocked ev h, if_neg hv, if_pos hsat, toLit_eq, lightsAt_of_blocked ev h, toQuiet_zonePage]
    split
    · exact filterExpiry_lightedAt _ z ev
    · rfl

end

end Sys2Proof.Machine
end

section
/-! PROOFS. A test that completes (R38 to R47): what its outcome does to the channel, to the alerts of the sensors and
to the CFG's view. -/

namespace Sys2Proof.Machine

/-! ### An outcome taken up (R43, R44) -/

/-- The channel after a change of clarity state from `old` to `new` (R44). -/
def Channel.supervised (c : Channel) (page : ChannelPage) (tLearn : Nat) (old new : Clarity) : Channel :=
  if new = old ∨ old.holds = new.holds ∧ new ≠ .broken then c
  else c.hold page tLearn new.holds (decide (new = .broken))

theorem supervised_of_same (c : Channel) (page : ChannelPage) (tLearn : Nat) (x : Clarity) :
    c.supervised page tLearn x x = c := if_pos (.inl rfl)

/-- What a judged outcome does to channel `n` and to the alerts, by its clarity state before and after; the zones and the
image in force stay. -/
structure State.Supervised (s t : State) (n : Chan) : Prop where
  zev : t.zev = s.zev
  active : t.cfg.active = s.cfg.active
  test : t.fsu.test = s.fsu.test
  lcu : t.lcu = modAt s.lcu n fun c =>
    c.supervised (s.chanPage n) s.tLearn s.fsu.clarity[n].clarity t.fsu.clarity[n].clarity
  alerts : ∀ p a, t.alerted p a = (s.alerted p a || (s.used p &&
    decide (t.fsu.clarity[n].clarity ≠ s.fsu.clarity[n].clarity ∧ clarityAlert t.fsu.clarity[n].clarity = some a)))

/-- A change that leaves the clarity state, the channels and the alerts supervises nothing. -/
theorem supervised_of_still {s t : State} {n : Chan} (hz : t.zev = s.zev) (ha : t.cfg.active = s.cfg.active)
    (ht : t.fsu.test = s.fsu.test) (hl : t.lcu = s.lcu) (hr : t.alr = s.alr)
    (hc : t.fsu.clarity[n].clarity = s.fsu.clarity[n].clarity) :
    s.Supervised t n where
  zev := hz
  active := ha
  test := ht
  lcu := by
    rw [hc, hl]
    exact (modAt_id _ _ (supervised_of_same _ _ _ _)).symm
  alerts p a := by
    unfold State.alerted
    rw [hr, hc, decide_eq_false fun h => h.1 rfl, Bool.and_false, Bool.or_false]

theorem State.Supervised.then_still {s t u : State} {n : Chan} (h : s.Supervised t n) (hz : u.zev = t.zev)
    (ha : u.cfg.active = t.cfg.active) (ht : u.fsu.test = t.fsu.test) (hl : u.lcu = t.lcu) (hr : u.alr = t.alr)
    (hc : u.fsu.clarity[n].clarity = t.fsu.clarity[n].clarity) : s.Supervised u n where
  zev := hz.trans h.zev
  active := ha.trans h.active
  test := ht.trans h.test
  lcu := by rw [hl, hc, h.lcu]
  alerts p a := by
    have := h.alerts p a
    unfold State.alerted at this ⊢
    rw [hr, hc, this]

theorem modClarity_same (s : State) (n : Chan) (f : ClarityRec → ClarityRec) :
    (s.modClarity n f).fsu.clarity[n] = f s.fsu.clarity[n] := modAt_same _ _ _

/-- The alert of an entry into a clarity state is raised (R43). -/
def State.alertClarity (s : State) (new : Clarity) : State :=
  match clarityAlert new with
  | some a => s.raise a
  | none => s

theorem alertClarity_alerted (s : State) (new : Clarity) (p : Port) (a : Alert) :
    (s.alertClarity new).alerted p a = (s.alerted p a || (s.used p && decide (clarityAlert new = some a))) := by
  unfold State.alertClarity
  cases clarityAlert new with
  | none => simp
  | some b => simp [raise_alerted, eq_comm]

theorem alertClarity_still (s : State) (new : Clarity) :
    (s.alertClarity new).zev = s.zev ∧ (s.alertClarity new).cfg = s.cfg ∧ (s.alertClarity new).lcu = s.lcu ∧
      (s.alertClarity new).fsu = s.fsu := by
  unfold State.alertClarity
  cases clarityAlert new <;> exact ⟨rfl, rfl, rfl, rfl⟩

/-- A change of clarity state, with its alert, before the channel learns of it. -/
theorem alertClarity_supervised {s u : State} {n : Chan} {new : Clarity} {f : Channel → Channel}
    (hz : u.zev = s.zev) (ha : u.cfg = s.cfg) (ht : u.fsu.test = s.fsu.test) (hl : u.lcu = s.lcu) (hr : u.alr = s.alr)
    (hc : u.fsu.clarity[n].clarity = new) (hne : new ≠ s.fsu.clarity[n].clarity)
    (hf : ∀ c, f c = c.supervised (s.chanPage n) s.tLearn s.fsu.clarity[n].clarity new) :
    s.Supervised ((u.alertClarity new).modChan n f) n := by
  obtain ⟨gz, gc, gl, gf⟩ := alertClarity_still u new
  have hc' : ((u.alertClarity new).modChan n f).fsu.clarity[n].clarity = new := by
    unfold State.modChan
    rw [gf, hc]
  refine ⟨gz.trans hz, ?_, ?_, ?_, fun p a => ?_⟩
  · exact congrArg Cfg.active (gc.trans ha)
  · exact (congrArg Fsu.test gf).trans ht
  · rw [hc', ← funext hf, ← hl, ← gl]
    rfl
  · rw [hc']
    refine (alertClarity_alerted u new p a).trans ?_
    unfold State.alerted State.used
    rw [hr, ha]
    simp only [hne, ne_eq, not_false_eq_true, true_and]

theorem modChan_id (s : State) (n : Chan) : (s.modChan n fun c => c) = s := by
  unfold State.modChan
  rw [modAt_id _ _ rfl]

theorem classify_eq (s : State) (n : Chan) (o : TestOutcome) (c : Nat) :
    s.classify n o c =
      let u := s.modClarity n fun r => r.classify s.cfg.active.board o c
      let old := s.fsu.clarity[n].clarity
      let new := u.fsu.clarity[n].clarity
      let t := u.alertClarity new
      if new = old then u
      else if old.holds = new.holds ∧ decide (new = .broken) = false then t
      else t.modChan n fun ch => ch.hold (t.chanPage n) t.tLearn new.holds (decide (new = .broken)) := rfl

theorem classify_supervised (s : State) (n : Chan) (o : TestOutcome) (c : Nat) : s.Supervised (s.classify n o c) n := by
  rw [classify_eq]
  simp only
  generalize hu : (s.modClarity n fun r => r.classify s.cfg.active.board o c) = u
  obtain ⟨hz, ha, ht, hl, hr⟩ :
      u.zev = s.zev ∧ u.cfg = s.cfg ∧ u.fsu.test = s.fsu.test ∧ u.lcu = s.lcu ∧ u.alr = s.alr := by
    subst hu
    exact ⟨rfl, rfl, rfl, rfl, rfl⟩
  generalize hnew : u.fsu.clarity[n].clarity = new
  by_cases hs : new = s.fsu.clarity[n].clarity
  · rw [if_pos hs]
    exact supervised_of_still hz (congrArg Cfg.active ha) ht hl hr (hnew.trans hs)
  rw [if_neg hs]
  by_cases hstill : s.fsu.clarity[n].clarity.holds = new.holds ∧ decide (new = Clarity.broken) = false
  · rw [if_pos hstill, ← modChan_id (u.alertClarity new) n]
    refine alertClarity_supervised hz ha ht hl hr hnew hs fun x => ?_
    exact (if_pos (.inr ⟨hstill.1, of_decide_eq_false hstill.2⟩)).symm
  · rw [if_neg hstill]
    obtain ⟨-, gc, -, -⟩ := alertClarity_still u new
    refine alertClarity_supervised hz ha ht hl hr hnew hs fun x => ?_
    unfold State.chanPage State.tLearn Channel.supervised
    rw [gc, ha]
    refine (if_neg ?_).symm
    rintro (h | ⟨h, hb⟩)
    · exact hs h
    · exact hstill ⟨h, decide_eq_false hb⟩

/-- An outcome is judged, with a reference or without (R38, R45, R47). -/
theorem judge_supervised (s : State) (run : TestRun) : s.Supervised (s.judge run) run.chan := by
  unfold State.judge
  simp only
  split
  · refine supervised_of_still rfl rfl rfl rfl rfl ?_
    rw [modClarity_same]
  · exact classify_supervised s _ _ _

/-- A capture ends: its staging leaves channels, alerts and clarity state (R46). -/
theorem endCapture_supervised {s t : State} {n : Chan} (o : TestOutcome) (a : LU) (h : s.Supervised t n) :
    s.Supervised (t.endCapture n o a) n := by
  unfold State.endCapture
  split
  · refine h.then_still rfl rfl rfl rfl rfl ?_
    rw [modClarity_same]
  · refine h.then_still rfl rfl rfl rfl rfl ?_
    rw [modClarity_same]
    rfl

/-! ### The completion (R38) -/

/-- The board with a test out of flight, before its outcome is judged (R38). -/
def State.testOver (s : State) (run : TestRun) : State :=
  (({ s with fsu.test := none } : State).modChan run.chan fun c => { c with mask := false }).modClarity run.chan
    fun r => { r with testing := false }

/-- What the completion of a test does before a status is handed over (R38). -/
def State.completed (s : State) (run : TestRun) : State :=
  let u := s.testOver run
  let o := u.testOutcome run
  let u := u.judge run
  (if run.kind = .capture then u.endCapture run.chan o run.amplitude else u).noticeTest

theorem completeTest_eq {s : State} {run : TestRun} (h : s.fsu.test = some run) :
    s.completeTest = s.lcuEvent run.chan fun s => s.completed run := by
  unfold State.completeTest
  rw [h]
  rfl

theorem exec_testWindowExpiry {s : State} {run : TestRun} (h : s.fsu.test = some run) :
    exec .testWindowExpiry s = .next (s.lcuEvent run.chan fun s => s.completed run) :=
  congrArg Host.Outcome.next (completeTest_eq h)

/-- The notice to the CFG leaves channels, alerts and clarity state (R178). -/
theorem noticeTest_supervised {s t : State} {n : Chan} (h : s.Supervised t n) : s.Supervised t.noticeTest n :=
  h.then_still rfl rfl rfl rfl rfl rfl

theorem completed_supervised (s : State) (run : TestRun) : (s.testOver run).Supervised (s.completed run) run.chan := by
  have h := judge_supervised (s.testOver run) run
  unfold State.completed
  simp only
  split
  · exact noticeTest_supervised (endCapture_supervised _ _ h)
  · exact noticeTest_supervised h

/-- The CFG is told that no test is in flight, and re-evaluates a pending commit (R178, log 5). -/
theorem completed_due (s : State) (run : TestRun) : s.DueAfter (s.completed run) := by
  have htest := (completed_supervised s run).test
  have hdue : ∀ u : State, u.noticeTest.fsu.test = none → s.DueAfter u.noticeTest := fun u hu => by
    refine dueAfter_of_testQuiet s (dueInv_settleDue _) ?_
    have hq : u.noticeTest.cfg.testQuiet = u.fsu.test.isNone := rfl
    rw [hq, show u.fsu.test = none from hu]
    rfl
  exact hdue _ htest

end Sys2Proof.Machine
end

section
/-! PROOFS. A change of pickup or voting status is handed to the channel's zone once, and the zone acts on it by its
state; O14. -/

namespace Sys2Proof.Machine

/-! ### What an LCU event does before its hand-over (R7) -/

/-- The zones and the image in force stay, and the transfer stays as due as it was or is found due anew (R178). -/
structure State.Prepares (s u : State) : Prop where
  zev : u.zev = s.zev
  active : u.cfg.active = s.cfg.active
  due : u.cfg.transferDue ≠ s.cfg.transferDue → s.DueAfter u

theorem prepares_of_cfg {s u : State} (hz : u.zev = s.zev) (hc : u.cfg = s.cfg) : s.Prepares u :=
  ⟨hz, by rw [hc], fun h => absurd (by rw [hc]) h⟩

theorem pickupSample_beside (s : State) (n : Chan) (v : LU) : SameBesideChannels s (s.pickupSample n v) := by
  unfold State.pickupSample
  simp only
  split
  · exact ⟨rfl, rfl, rfl, rfl⟩
  · split
    · obtain ⟨-, h, -⟩ := endPickup_spec s n _ _
      exact h
    · exact ⟨rfl, rfl, rfl, rfl⟩

/-- An evaluated sample touches neither a zone nor the image in force; the abort of a test re-evaluates a pending
commit (R39, R178). -/
theorem evaluated_prepares (s : State) (n : Chan) (v : LU) : s.Prepares (s.evaluated n v) := by
  cases hp : s.lcu[n].pickup
  · by_cases hv : s.lcu[n].pickupLevel ≤ v
    · have hev : s.evaluated n v = (s.pickedUp n v).pickupAborts n := evaluated_starts hp hv
      by_cases hf : ∃ run, s.Fellow n run
      · obtain ⟨run, hrun⟩ := hf
        rw [hev, pickedUp_aborts v hrun]
        obtain ⟨-, -, -, hz, -, -, ha, hq, hdue⟩ := abortTest_fields (s := s.pickedUp n v) hrun.1
        exact ⟨hz, ha, fun _ => dueAfter_of_testQuiet s hdue hq⟩
      · rw [hev, pickedUp_goesOn v fun run h => hf ⟨run, h⟩]
        exact prepares_of_cfg rfl rfl
    · rw [evaluated_below hp (BitVec.not_le.1 hv)]
      exact prepares_of_cfg rfl rfl
  · rw [evaluated_during v hp]
    obtain ⟨-, -, hc, hz⟩ := pickupSample_beside (s.offerPeak n v) n v
    exact prepares_of_cfg hz hc

theorem completed_prepares (s : State) (run : TestRun) : s.Prepares (s.completed run) :=
  have h := completed_supervised s run
  ⟨h.zev, h.active, fun _ => completed_due s run⟩

/-! ### The hand-over (R7) -/

/-- The outcome of an event at the LCU: what it prepared, and the status handed over where it changed. -/
def State.HandsOver (s : State) (n : Chan) (t : State) : Prop :=
  ∃ u : State, s.Prepares u ∧ u.lcu = t.lcu ∧
    t = if u.statusOf n = s.statusOf n then u else
      match s.zoneOf n with
      | none => u
      | some z => u.statusEvent z n (u.statusOf n)

theorem handsOver_refl (s : State) (n : Chan) : s.HandsOver n s :=
  ⟨s, prepares_of_cfg rfl rfl, rfl, (if_pos rfl).symm⟩

theorem lcuEvent_handsOver {s : State} (n : Chan) {f : State → State} (h : s.Prepares (f s)) :
    s.HandsOver n (s.lcuEvent n f) := by
  refine ⟨f s, h, (lcuEvent_lcu s n f).symm, ?_⟩
  have hz : (f s).zoneOf n = s.zoneOf n := by
    unfold State.zoneOf State.isMember
    rw [h.active]
  have e : s.lcuEvent n f = if (f s).statusOf n = s.statusOf n then f s else
      match (f s).zoneOf n with
      | none => f s
      | some z => (f s).statusEvent z n ((f s).statusOf n) := rfl
  rw [e, hz]

theorem lightSample_handsOver (s : State) (n : Chan) (v : LU) (hm : s.lcu[n].mask = false) :
    ∃ t, exec (.lightSample n v) s = .next t ∧ s.HandsOver n t := by
  by_cases hs : s.lcu[n].state = .off
  · exact ⟨s, congrArg Host.Outcome.next (takeSample_off v hs), handsOver_refl s n⟩
  · exact ⟨_, exec_lightSample_evaluated v hs hm, lcuEvent_handsOver n (evaluated_prepares s n v)⟩

theorem learningWindowExpiry_handsOver (s : State) (n : Chan) :
    ∃ t, exec (.learningWindowExpiry n) s = .next t ∧ s.HandsOver n t := by
  refine ⟨_, rfl, ?_⟩
  unfold State.learningExpiry
  split
  · exact lcuEvent_handsOver n (prepares_of_cfg rfl rfl)
  · exact handsOver_refl s n

theorem stormWindowExpiry_handsOver (s : State) (n : Chan) :
    ∃ t, exec (.stormWindowExpiry n) s = .next t ∧ s.HandsOver n t := by
  refine ⟨_, rfl, ?_⟩
  unfold State.stormWindowExpiry
  split
  · exact lcuEvent_handsOver n (prepares_of_cfg rfl rfl)
  · exact handsOver_refl s n

theorem testWindowExpiry_handsOver {s : State} {run : TestRun} (h : s.fsu.test = some run) :
    ∃ t, exec .testWindowExpiry s = .next t ∧ s.HandsOver run.chan t :=
  ⟨_, exec_testWindowExpiry h, lcuEvent_handsOver run.chan (completed_prepares s run)⟩

/-- Every event at the LCU on one channel hands its status over once. -/
theorem channelEvent_handsOver (s : State) (n : Chan) (v : LU) (c : Instr)
    (hc : c ∈ [Instr.lightSample n v, .learningWindowExpiry n, .stormWindowExpiry n, .testWindowExpiry])
    (hm : c = .lightSample n v → s.lcu[n].mask = false)
    (ht : c = .testWindowExpiry → ∃ run, s.fsu.test = some run ∧ run.chan = n) :
    ∃ t, exec c s = .next t ∧ s.HandsOver n t := by
  simp only [List.mem_cons, List.not_mem_nil, or_false] at hc
  obtain rfl | rfl | rfl | rfl := hc
  · exact lightSample_handsOver s n v (hm rfl)
  · exact learningWindowExpiry_handsOver s n
  · exact stormWindowExpiry_handsOver s n
  · obtain ⟨run, hr, rfl⟩ := ht rfl
    exact testWindowExpiry_handsOver hr

/-! ### The zone -/

/-- The zone with the member view of a status event taken, before the vote (R76). -/
def State.viewed (s : State) (z : Zone) (n : Chan) (st : MemberStatus) : State :=
  s.modZone z fun r => { r with view := s.viewAfter z n st }

theorem viewed_zone (s : State) (z : Zone) (n : Chan) (st : MemberStatus) :
    (s.viewed z n st).zev.zones[z] = { s.zev.zones[z] with view := s.viewAfter z n st } := zones_modZone _ _ _

theorem statusEvent_viewed (s : State) (z : Zone) (n : Chan) (st : MemberStatus) :
    s.statusEvent z n st = (s.viewed z n st).reevaluate z (some n) := statusEvent_eq s z n st

/-- The zone just lit, from the board before the status event. -/
theorem viewed_lightsAt (s : State) (z : Zone) (n : Chan) (st : MemberStatus) (ev : Option Chan) :
    (s.viewed z n st).lightsAt z ev = { s with
      zev.zones := modAt s.zev.zones z fun _ =>
        { ({ s.zev.zones[z] with view := s.viewAfter z n st } : ZoneRec).lighted (s.zonePage z) ev s.alr.time with
          confirm := if s.zev.zones[z].state = .blocked then .stopped else s.zev.zones[z].confirm }
      cfg.zonesQuiet := false
      cfg.transferDue := false } := by
  have hr := viewed_zone s z n st
  unfold State.lightsAt
  rw [hr]
  unfold State.viewed State.modZone
  simp only [modAt_modAt]
  rfl

/-- The record of a TRIPPED zone with a status event taken and voted on (R92). -/
def State.votedAfter (s : State) (z : Zone) (n : Chan) (st : MemberStatus) : ZoneRec :=
  ({ s.zev.zones[z] with view := s.viewAfter z n st } : ZoneRec).voted (s.zonePage z)

/-- The re-strike filter just started, from the board before the status event. -/
theorem viewed_refilteredAt (s : State) (z : Zone) (n : Chan) (st : MemberStatus) (ev : Option Chan) :
    ((s.viewed z n st).modZone z fun r => r.voted (s.zonePage z)).refilteredAt z ev =
      s.modZone z fun _ => { s.votedAfter z n st with
        trigger := triggerOf (s.zonePage z) (s.viewAfter z n st) ev
        filter := .running .restrike (s.zonePage z).tzf.val
        phase := some .filtering } := by
  unfold State.refilteredAt State.viewed
  rw [modZone_modZone, modZone_modZone]
  simp only [zones_modZone]
  rfl

theorem statusEvent_starts {s : State} {z : Zone} {n : Chan} {st : MemberStatus}
    (h : s.zev.zones[z].state = .tripped) (hp : s.zev.zones[z].phase = some .ready) (hl : s.zev.zones[z].lit = false)
    (hsat : voteSatisfied (s.zonePage z) (s.viewAfter z n st) = true) :
    let started := ((s.viewed z n st).modZone z fun r => r.voted (s.zonePage z)).refilteredAt z (some n)
    if (s.zonePage z).tzf.val = 0 then exec (.restrikeFilterExpiry z) started = .next (s.statusEvent z n st)
    else s.statusEvent z n st = started := by
  have hr := viewed_zone s z n st
  have hready := trippedVote_ready (s := s.viewed z n st) (z := z) (sat := true) (some n)
  rw [hr] at hready
  have htripped := reevaluate_tripped (s := s.viewed z n st) (z := z) (some n) (by rw [hr]; exact h)
  have he : s.statusEvent z n st =
      if (s.zonePage z).tzf.val = 0 then
        (((s.viewed z n st).modZone z fun r => r.voted (s.zonePage z)).refilteredAt z (some n)).restrikeFilterExpiry z
      else ((s.viewed z n st).modZone z fun r => r.voted (s.zonePage z)).refilteredAt z (some n) :=
    (statusEvent_viewed s z n st).trans (htripped.trans ((hready hsat hp hl rfl).trans (startRestrike_eq _ z _)))
  simp only [he]
  split
  · refine filterExpiry_refilteredAt (some n) ?_
    rw [zones_modZone, hr]
    exact h
  · rfl

/-- Settles O14: an event at the LCU hands over what changed; the votes are counted as the rules say; and the zone with
its new view stays, moves, lights or goes through its re-strike phases by its state. -/
theorem voteMovesTheZone : Obligations.VoteMovesTheZone := by
  refine ⟨fun s n v c hc hm ht => ?_, fun page view => ?_, fun s z n st => ?_⟩
  · obtain ⟨t, hexec, u, hprep, hlcu, ht⟩ := channelEvent_handsOver s n v c hc hm ht
    exact ⟨u, t, hprep.zev, hprep.active, hlcu, hprep.due, hexec, ht⟩
  · exact ⟨votingCount_eq view, by rw [voteSatisfied_iff, votingCount_eq, votingLit_eq],
      by rw [voteDegraded_iff, votingCount_eq]⟩
  · have hr := viewed_zone s z n st
    have htr := triggerOf_viewAfter s z n st
    have hdisabled := reevaluate_disabled (s := s.viewed z n st) (z := z) (some n)
    have hblocked := reevaluate_blocked (s := s.viewed z n st) (z := z) (some n)
    have hblocks := reevaluate_blocks (s := s.viewed z n st) (z := z) (some n)
    have hunlit := reevaluate_unlit (s := s.viewed z n st) (z := z) (some n)
    have hstill := reevaluate_still_lit (s := s.viewed z n st) (z := z) (some n)
    have hrests := reevaluate_rests (s := s.viewed z n st) (z := z) (some n)
    have hlights := reevaluate_lights (s := s.viewed z n st) (z := z) (some n)
    have htripped := reevaluate_tripped (s := s.viewed z n st) (z := z) (some n)
    have hviewed : s.Stays z { s.zev.zones[z] with view := s.viewAfter z n st } (s.viewed z n st) := stays_modZone s z _
    rw [hr, ← statusEvent_viewed] at hdisabled hblocked hblocks hunlit hstill hrests hlights htripped
    refine ⟨fun h => (hdisabled h).trans hviewed, fun h hv => ?_, fun h hv => (hblocks h hv).of_modZone,
      fun h hv hs => (hunlit h hv hs).of_modZone, fun h hv hs => (hstill h hv hs).of_modZone,
      fun h hv hs => (hrests h hv hs).of_modZone, fun h hv hs => ?_, fun h => ?_⟩
    · exact ((hblocked h).trans (if_pos hv)).trans hviewed
    · have hl := hlights h hv hs
      rw [viewed_lightsAt] at hl
      unfold ZoneRec.lighted at hl
      simp only [htr] at hl
      exact hl
    · have hholding := trippedVote_holding (s := s.viewed z n st) (z := z) (some n) rfl
      have hfiltering := trippedVote_filtering (s := s.viewed z n st) (z := z) (some n) rfl
      have hstays := trippedVote_stays (s := s.viewed z n st) (z := z) (some n) rfl
      rw [hr, ← htripped h] at hholding hfiltering hstays
      refine ⟨fun hp hl hs => (hholding hp hl hs).of_modZone, fun hp hl hs => (hfiltering hp hl hs).of_modZone,
        fun hp hl hs => ?_, fun hcases => (hstays hcases).of_modZone⟩
      have hstarts := statusEvent_starts h hp hl hs
      rw [viewed_refilteredAt] at hstarts
      unfold State.votedAfter ZoneRec.voted at hstarts
      simp only [htr] at hstarts
      exact hstarts

end Sys2Proof.Machine
end

section
/-! PROOFS. What a change of clarity state does to its channel and to the alerts of the sensors; O18. -/

namespace Sys2Proof.Machine

/-! ### Holding a channel (R17, R44) -/

theorem holds_iff (x : Clarity) : x.holds = true ↔ x = .blind ∨ x = .broken := by
  cases x <;> decide

theorem clarityAlert_soiled_iff (x : Clarity) : clarityAlert x = some .sensorSoiled ↔ x = .soiled := by
  cases x <;> decide

theorem clarityAlert_lost_iff (x : Clarity) : clarityAlert x = some .sensorLost ↔ x = .blind ∨ x = .broken := by
  cases x <;> decide

/-- A channel is held or released without a change of its baseline. -/
theorem hold_beside_broken (c : Channel) (page : ChannelPage) (t : Nat) (held : Bool) :
    c.hold page t held false = { c with held := held }.recompute page t := rfl

theorem hold_held (c : Channel) (page : ChannelPage) (t : Nat) (held invalidate : Bool) :
    (c.hold page t held invalidate).held = held := congrArg Channel.held (recompute_fields _ page t)

theorem hold_valid (c : Channel) (page : ChannelPage) (t : Nat) (held invalidate : Bool) :
    (c.hold page t held invalidate).valid = (c.valid && !(invalidate && decide (page.mode = .learned))) := by
  refine (congrArg Channel.valid (recompute_fields _ page t)).trans ?_
  cases invalidate && decide (page.mode = .learned)
  · exact (Bool.and_true _).symm
  · exact (Bool.and_false _).symm

/-- A baseline that is marked not valid takes the pickup level to the floor (R4, R17). -/
theorem hold_pickupLevel (c : Channel) {page : ChannelPage} (t : Nat) (held : Bool) (h : page.mode = .learned) :
    (c.hold page t held true).pickupLevel.toNat = page.floor.val := by
  have hp := congrArg Channel.pickupLevel (recompute_fields
    { ({ c with valid := false } : Channel).withLevels page with held := held } page t)
  unfold Channel.hold
  simp only [h, decide_true, Bool.and_true, if_true]
  rw [hp]
  exact withLevels_pickupLevel { c with valid := false } page

theorem hold_state (c : Channel) {page : ChannelPage} (t : Nat) (invalidate : Bool) (h : page.target ≠ .off) :
    (c.hold page t true invalidate).state = .held := by
  refine (recompute_state _ page t).trans ?_
  unfold stateOf
  simp only [h, if_true, if_false]

/-! ### The channel after a change of clarity state (R44) -/

section
variable {c : Channel} {page : ChannelPage} {t : Nat} {old new : Clarity}

theorem supervised_hold (h : old.holds ≠ new.holds ∨ new = .broken ∧ old ≠ .broken) :
    c.supervised page t old new = c.hold page t new.holds (decide (new = .broken)) := by
  refine if_neg ?_
  rintro (rfl | ⟨he, hb⟩)
  · rcases h with h | ⟨h, h'⟩
    · exact h rfl
    · exact h' h
  · rcases h with h | ⟨h, -⟩
    · exact h he
    · exact hb h

theorem supervised_release (ho : old.holds = true) (hn : new.holds = false) :
    c.supervised page t old new = { c with held := false }.recompute page t := by
  have hb : new ≠ .broken := fun e => by rw [e] at hn; exact Bool.noConfusion hn
  rw [supervised_hold (.inl (by rw [ho, hn]; decide)), hn, decide_eq_false hb, hold_beside_broken]

theorem supervised_holds (ho : old.holds = false) (hn : new.holds = true) :
    (c.supervised page t old new).held = true ∧ (page.target ≠ .off → (c.supervised page t old new).state = .held) := by
  rw [supervised_hold (.inl (by rw [ho, hn]; decide)), hn]
  exact ⟨hold_held c page t true _, hold_state c t _⟩

theorem supervised_breaks (ho : old ≠ .broken) (hn : new = .broken) :
    (c.supervised page t old new).held = true ∧
      (page.mode = .learned → (c.supervised page t old new).valid = false ∧
        (c.supervised page t old new).pickupLevel.toNat = page.floor.val) ∧
      (page.mode = .fixed → (c.supervised page t old new).valid = c.valid) := by
  subst hn
  rw [supervised_hold (.inr ⟨rfl, ho⟩), decide_eq_true rfl]
  refine ⟨hold_held c page t true true, fun h => ⟨?_, hold_pickupLevel c t true h⟩, fun h => ?_⟩
  · rw [hold_valid, h]
    exact Bool.and_false _
  · rw [hold_valid, h]
    exact Bool.and_true _

theorem supervised_still (h : old.holds = new.holds) (hn : new ≠ .broken) : c.supervised page t old new = c :=
  if_pos (.inr ⟨h, hn⟩)

theorem supervised_valid (hn : new ≠ .broken) : (c.supervised page t old new).valid = c.valid := by
  by_cases h : old.holds = new.holds
  · rw [supervised_still h hn]
  · rw [supervised_hold (.inl h), hold_valid, decide_eq_false hn]
    exact Bool.and_true _

end

/-- A released channel enters LEARN anew, or takes its state with nothing beside it (R8, R10). -/
theorem release_cases (c : Channel) (page : ChannelPage) (t : Nat) :
    let x := ({ c with held := false } : Channel).recompute page t
    x.held = false ∧
      (x.state = if page.target = .off then .off
        else if page.mode = .learned ∧ c.valid = false then .learn else if c.demoted = true then .observe
        else if page.target = .armed then .armed else .observe) ∧
      (c.state ≠ .learn → x.state = .learn → x = { c with
        held := false, state := .learn, restarts := 0, candidate := 0, disturbance := false
        window := if c.pickup then .stopped else .running t }) ∧
      (c.state ≠ .learn → x.state ≠ .learn → x = { c with held := false, state := x.state }) := by
  simp only [recompute_state]
  refine ⟨congrArg Channel.held (recompute_fields _ page t), rfl, fun hc h => ?_, fun hc h => ?_⟩
  · exact recompute_to_learn t hc h
  · exact recompute_beside_learn t hc h

/-! ### The board after a test that completes -/

/-- The channel of a test and the alerts of the sensors after it completes (R43, R44). -/
theorem completed_spec {s : State} {run : TestRun} {t : State}
    (h : t = s.lcuEvent run.chan fun s => s.completed run) :
    t.lcu = modAt s.lcu run.chan (fun c => ({ c with mask := false } : Channel).supervised s.cfg.active.chans[run.chan]
        s.tLearn s.fsu.clarity[run.chan].clarity t.fsu.clarity[run.chan].clarity) ∧
      ∀ p a, a.ofLight = true → t.alerted p a = (s.alerted p a || (s.used p &&
        decide (t.fsu.clarity[run.chan].clarity ≠ s.fsu.clarity[run.chan].clarity ∧
          clarityAlert t.fsu.clarity[run.chan].clarity = some a))) := by
  have hsup := completed_supervised s run
  have hover : (s.testOver run).fsu.clarity[run.chan].clarity = s.fsu.clarity[run.chan].clarity :=
    by
    unfold State.testOver
    rw [modClarity_same]
    rfl
  have hf : t.fsu = (s.completed run).fsu := by rw [h]; exact lcuEvent_fsu _ _ _
  have hl : t.lcu = (s.completed run).lcu := by rw [h]; exact lcuEvent_lcu _ _ _
  refine ⟨?_, fun p a ha => ?_⟩
  · rw [hl, hf, hsup.lcu, hover]
    exact modAt_modAt s.lcu run.chan (fun c => { c with mask := false }) _
  · have hz : t.alerted p a = (s.completed run).alerted p a := by
      rw [h]
      exact lcuEvent_lightAlerts s run.chan (fun s => s.completed run) p a ha
    rw [hz, hsup.alerts, hf, hover]
    rfl

/-- Settles O18: the channel of the test is held, released or invalidated by the two clarity states alone, and the alert
of the state entered is raised. -/
theorem clarityHoldsTheChannel : Obligations.ClarityHoldsTheChannel := by
  intro s run hrun
  refine ⟨_, exec_testWindowExpiry hrun, ?_⟩
  obtain ⟨hlcu, halert⟩ := completed_spec (s := s) (run := run) rfl
  generalize State.lcuEvent s run.chan _ = t at hlcu halert ⊢
  generalize t.fsu.clarity[run.chan].clarity = new at hlcu halert ⊢
  have hother (m : Chan) (hm : m ≠ run.chan) : t.lcu[m] = s.lcu[m] := by rw [hlcu, modAt_other _ _ hm]
  have hchan := modAt_same s.lcu run.chan fun c => ({ c with mask := false } : Channel).supervised
    s.cfg.active.chans[run.chan] s.tLearn s.fsu.clarity[run.chan].clarity new
  rw [← hlcu] at hchan
  rw [hchan]
  simp only [← holds_iff, Bool.not_eq_true]
  refine ⟨fun h => ?_, fun p => ⟨?_, ?_⟩, fun ho hn => supervised_holds ho hn, fun ho hn => ?_, fun ho hn => ?_,
    fun ho hn => supervised_breaks ho hn, fun hn => supervised_valid hn, hother⟩
  · rw [h, supervised_of_same]
    exact ⟨rfl, rfl, rfl⟩
  · rw [halert p _ rfl]
    simp only [Bool.or_eq_true, Bool.and_eq_true, decide_eq_true_eq, clarityAlert_soiled_iff]
    tauto
  · rw [halert p _ rfl]
    simp only [Bool.or_eq_true, Bool.and_eq_true, decide_eq_true_eq, clarityAlert_lost_iff, ← holds_iff]
    tauto
  · rw [supervised_release ho hn]
    exact release_cases { s.lcu[run.chan] with mask := false } _ _
  · rw [ho, hn, supervised_still (old := .broken) (new := .blind) rfl (by decide)]
    exact ⟨rfl, rfl⟩

end Sys2Proof.Machine
end

section
/-! PROOFS. A channel and its clarity record take up a changed page (R23 to R25, R48). -/

namespace Sys2Proof.Machine

/-! ### The page (R23, R24, R25, R48) -/

/-- The channel passes to OFF with this change of its page. -/
abbrev GoesOff (o p : ChannelPage) : Prop := p.target = .off ∧ o.target ≠ .off

/-- The change of the page ends a demotion (R24). -/
abbrev Recovers (o p : ChannelPage) : Prop :=
  (p.target ≠ o.target ∧ p.target ≠ .armed) ∨ (o.stormAction = .demote ∧ p.stormAction ≠ .demote)

/-- The change of the page releases a held channel (R17, R48). -/
abbrev Releases (o p : ChannelPage) : Prop := GoesOff o p ∨ (o.aRef ≠ 0 ∧ p.aRef = 0)

/-- The channel takes the fixed baseline of its new page (R25). -/
abbrev Rebases (o p : ChannelPage) : Prop :=
  p.mode = .fixed ∧ (o.mode = .learned ∨ o.fixedBaseline ≠ p.fixedBaseline)

/-- The clarity record starts afresh with this change of the page (R48). -/
abbrev Unclears (o p : ChannelPage) : Prop := GoesOff o p ∨ (o.aRef = 0 ↔ p.aRef ≠ 0)

/-! ### The channel before its levels and its state -/

/-- The channel with what its new page sets directly: no levels and no state yet. -/
def Channel.rebased (c : Channel) (o p : ChannelPage) : Channel :=
  { c with
    baseline := if Rebases o p then BitVec.ofNat 12 p.fixedBaseline.val else c.baseline
    valid := if p.mode = .fixed then decide (Rebases o p) || c.valid else c.valid && decide (o.mode = .learned)
    pickup := c.pickup && !decide (GoesOff o p)
    flash := if GoesOff o p then none else c.flash
    dropRun := if GoesOff o p then 0 else c.dropRun
    held := c.held && !decide (Releases o p)
    demoted := c.demoted && !decide (Recovers o p)
    quiet := if Recovers o p then 0 else c.quiet }

/-! The four steps of a take-up, each as one change of the channel. -/

def Channel.stepOff (c : Channel) (b : Bool) : Channel :=
  if b then { c with pickup := false, flash := none, dropRun := 0 } else c

def Channel.stepDemoted (c : Channel) (b : Bool) : Channel :=
  if b then { c with demoted := false, quiet := 0 } else c

def Channel.stepHeld (c : Channel) (b : Bool) : Channel := if b then { c with held := false } else c

def Channel.stepBaseline (c : Channel) (o p : ChannelPage) : Channel :=
  if Rebases o p then { c with baseline := BitVec.ofNat 12 p.fixedBaseline.val, valid := true }
  else if p.mode = .learned ∧ o.mode = .fixed then { c with valid := false }
  else c

theorem stepOff_eq (c : Channel) (b : Bool) :
    c.stepOff b = { c with
      pickup := c.pickup && !b, flash := if b then none else c.flash, dropRun := if b then 0 else c.dropRun } := by
  unfold Channel.stepOff
  cases b <;> simp

theorem stepDemoted_eq (c : Channel) (b : Bool) :
    c.stepDemoted b = { c with demoted := c.demoted && !b, quiet := if b then 0 else c.quiet } := by
  unfold Channel.stepDemoted
  cases b <;> simp

theorem stepHeld_eq (c : Channel) (b : Bool) : c.stepHeld b = { c with held := c.held && !b } := by
  unfold Channel.stepHeld
  cases b <;> simp

theorem stepBaseline_eq (c : Channel) (o p : ChannelPage) :
    c.stepBaseline o p = { c with
      baseline := if Rebases o p then BitVec.ofNat 12 p.fixedBaseline.val else c.baseline
      valid := if p.mode = .fixed then decide (Rebases o p) || c.valid else c.valid && decide (o.mode = .learned) } := by
  unfold Channel.stepBaseline
  by_cases h : Rebases o p
  · rw [if_pos h, if_pos h, if_pos h.1, decide_eq_true h, Bool.true_or]
  · rw [if_neg h, if_neg h, decide_eq_false h, Bool.false_or]
    cases hp : p.mode <;> cases ho : o.mode <;> simp

theorem takeUp_eq (c : Channel) (o p : ChannelPage) (t : Nat) :
    c.takeUp o p t = ((c.rebased o p).withLevels p).recompute p t := by
  have hoff : (decide (p.target = .off) && decide (o.target ≠ .off)) = decide (GoesOff o p) :=
    (Bool.decide_and _ _).symm
  have hrec : ((decide (p.target ≠ o.target) && decide (p.target ≠ .armed)) ||
      (decide (o.stormAction = .demote) && decide (p.stormAction ≠ .demote))) = decide (Recovers o p) := by
    simp only [Bool.decide_and, Bool.decide_or]
  have hrel : (decide (GoesOff o p) || (decide (o.aRef ≠ 0) && decide (p.aRef = 0))) = decide (Releases o p) := by
    simp only [Bool.decide_and, Bool.decide_or]
  have hsteps : c.takeUp o p t =
      (((((c.stepOff (decide (GoesOff o p))).stepDemoted (decide (Recovers o p))).stepHeld
        (decide (Releases o p))).stepBaseline o p).withLevels p).recompute p t := by
    rw [← hrel, ← hrec, ← hoff]
    rfl
  rw [hsteps, stepBaseline_eq, stepHeld_eq, stepDemoted_eq, stepOff_eq]
  unfold Channel.rebased
  simp only [decide_eq_true_eq]

/-! ### The channel with its new page -/

/-- The state of R8 is that of the channel it is set in. -/
theorem stateOf_recompute (c : Channel) (page : ChannelPage) (t : Nat) :
    stateOf page (c.recompute page t) = stateOf page c := by
  rw [recompute_fields]
  rfl

section
variable (c : Channel) (o p : ChannelPage) (t : Nat)

theorem takeUp_baseline : (c.takeUp o p t).baseline =
    if Rebases o p then BitVec.ofNat 12 p.fixedBaseline.val else c.baseline := by
  rw [takeUp_eq]
  exact congrArg Channel.baseline (recompute_fields _ p t)

theorem takeUp_valid : (c.takeUp o p t).valid =
    if p.mode = .fixed then decide (Rebases o p) || c.valid else c.valid && decide (o.mode = .learned) := by
  rw [takeUp_eq]
  exact congrArg Channel.valid (recompute_fields _ p t)

theorem takeUp_pickupLevel :
    (c.takeUp o p t).pickupLevel.toNat = pickupLevelOf p (c.takeUp o p t).baseline (c.takeUp o p t).valid := by
  rw [takeUp_eq, congrArg Channel.pickupLevel (recompute_fields _ p t), congrArg Channel.baseline (recompute_fields _ p t),
    congrArg Channel.valid (recompute_fields _ p t)]
  exact withLevels_pickupLevel _ p

theorem takeUp_dropLevel :
    (c.takeUp o p t).dropLevel.toNat = (c.takeUp o p t).pickupLevel.toNat * p.dropRatio.val / 100 := by
  rw [takeUp_eq, congrArg Channel.pickupLevel (recompute_fields _ p t), congrArg Channel.dropLevel (recompute_fields _ p t)]
  exact withLevels_dropLevel _ p

theorem takeUp_state : (c.takeUp o p t).state = stateOf p (c.takeUp o p t) := by
  rw [takeUp_eq, recompute_state, stateOf_recompute]

theorem takeUp_state_rebased : (c.takeUp o p t).state = stateOf p ((c.rebased o p).withLevels p) := by
  rw [takeUp_eq, recompute_state]

/-- A take-up changes what the new page sets, the levels, the state and what learning uses. -/
theorem takeUp_fields : c.takeUp o p t = { (c.rebased o p).withLevels p with
    state := (c.takeUp o p t).state, window := (c.takeUp o p t).window, candidate := (c.takeUp o p t).candidate
    restarts := (c.takeUp o p t).restarts, disturbance := (c.takeUp o p t).disturbance } := by
  have h := recompute_fields ((c.rebased o p).withLevels p) p t
  rw [← recompute_state _ p t, ← takeUp_eq] at h
  exact h

theorem takeUp_leaves_learn (hc : c.state = .learn) (h : (c.takeUp o p t).state ≠ .learn) :
    (c.takeUp o p t).window = .stopped ∧ (c.takeUp o p t).candidate = 0 ∧ (c.takeUp o p t).disturbance = false ∧
      (c.takeUp o p t).restarts = c.restarts := by
  rw [takeUp_state_rebased] at h
  rw [takeUp_eq, recompute_from_learn (c := (c.rebased o p).withLevels p) t hc h]
  exact ⟨rfl, rfl, rfl, rfl⟩

theorem takeUp_enters_learn (hc : c.state ≠ .learn) (h : (c.takeUp o p t).state = .learn) :
    (c.takeUp o p t).candidate = 0 ∧ (c.takeUp o p t).disturbance = false ∧ (c.takeUp o p t).restarts = 0 ∧
      (c.takeUp o p t).window = if (c.takeUp o p t).pickup then .stopped else .running t := by
  rw [takeUp_state_rebased] at h
  rw [takeUp_eq, recompute_to_learn (c := (c.rebased o p).withLevels p) t hc h]
  exact ⟨rfl, rfl, rfl, rfl⟩

theorem takeUp_learning (h : c.state = .learn ↔ (c.takeUp o p t).state = .learn) :
    (c.takeUp o p t).window = c.window ∧ (c.takeUp o p t).candidate = c.candidate ∧
      (c.takeUp o p t).disturbance = c.disturbance ∧ (c.takeUp o p t).restarts = c.restarts := by
  rw [takeUp_eq] at h ⊢
  obtain ⟨hw, hcand, hr, hd⟩ := recompute_learning (c := (c.rebased o p).withLevels p) t h.symm
  exact ⟨hw, hcand, hd, hr⟩

/-- The fixed baseline of a new page fits the register (R25). -/
theorem takeUp_rebases (h : Rebases o p) :
    (c.takeUp o p t).valid = true ∧ (c.takeUp o p t).baseline.toNat = p.fixedBaseline.val := by
  rw [takeUp_valid, takeUp_baseline, if_pos h.1, if_pos h, decide_eq_true h]
  exact ⟨rfl, fixedBaseline_toNat p⟩

theorem takeUp_keeps_baseline (h : ¬ Rebases o p) : (c.takeUp o p t).baseline = c.baseline := by
  rw [takeUp_baseline, if_neg h]

end

/-! ### The clarity record (R48) -/

theorem decide_bne_decide (a b : Prop) [Decidable a] [Decidable b] : (decide a != decide b) = decide (a ↔ ¬ b) := by
  by_cases ha : a <;> by_cases hb : b <;> simp [ha, hb]

theorem clarityTakeUp_eq (k : ClarityRec) (o p : ChannelPage) :
    k.takeUp o p = { k with
      clarity := if Unclears o p then (if p.aRef = 0 then .unsupervised else .untested) else k.clarity
      darkRun := if Unclears o p then 0 else k.darkRun
      goodRun := if Unclears o p then 0 else k.goodRun } := by
  have h : ((decide (p.target = .off) && decide (o.target ≠ .off)) || (decide (o.aRef = 0) != decide (p.aRef = 0))) =
      decide (Unclears o p) := by
    rw [decide_bne_decide]
    simp only [Bool.decide_and, Bool.decide_or]
  unfold ClarityRec.takeUp
  simp only [h]
  by_cases hu : Unclears o p
  · rw [decide_eq_true hu, if_pos rfl, if_pos hu, if_pos hu, if_pos hu]
  · rw [decide_eq_false hu, if_neg Bool.false_ne_true, if_neg hu, if_neg hu, if_neg hu]

end Sys2Proof.Machine
end

section
/-! PROOFS. A transfer at the Light Channel Unit and the Fibre Supervision Unit: channels and clarity records take up
the new image, and what TOP, the ports, the records and the zones do afterwards leaves them alone; O42. -/

namespace Sys2Proof.Machine

/-! ### The test of a channel whose page changes (R39, R48) -/

/-- A test in flight of a channel whose page changes is aborted. -/
def State.pageAborted (s : State) (o : Image) : State :=
  match s.fsu.test with
  | some t => if pageChanged o s.cfg.active t.chan then s.abortTest else s
  | none => s

theorem takeUpChannels_eq (s : State) (o : Image) :
    s.takeUpChannels o =
      let u := s.pageAborted o
      { u with
        lcu := Vector.ofFn fun n => if pageChanged o s.cfg.active n then
          u.lcu[n].takeUp o.chans[n] s.cfg.active.chans[n] u.tLearn else u.lcu[n]
        fsu.clarity := Vector.ofFn fun n => if pageChanged o s.cfg.active n then
          u.fsu.clarity[n].takeUp o.chans[n] s.cfg.active.chans[n] else u.fsu.clarity[n] } := rfl

/-- The test in flight is of this channel. -/
def Fsu.tests (f : Fsu) (n : Chan) : Bool := f.test.any fun run => decide (run.chan = n)

/-- A capture in flight is of this channel. -/
def Fsu.captures (f : Fsu) (n : Chan) : Bool := f.test.any fun run => decide (run.chan = n ∧ run.kind = .capture)

/-- A channel whose page stays has its test go on; one whose page changes loses its test. -/
structure State.AbortedFor (s u : State) (changed : Chan → Bool) : Prop where
  same : ∀ n, changed n = false → u.lcu[n] = s.lcu[n] ∧ u.fsu.clarity[n] = s.fsu.clarity[n]
  lcu : ∀ n, changed n = true → u.lcu[n] = { s.lcu[n] with mask := s.lcu[n].mask && !s.fsu.tests n }
  clarity : ∀ n, changed n = true → u.fsu.clarity[n] = { s.fsu.clarity[n] with
    testing := s.fsu.clarity[n].testing && !s.fsu.tests n
    lastOutcome := if s.fsu.tests n then .aborted else s.fsu.clarity[n].lastOutcome
    capture := if s.fsu.captures n then .failed else s.fsu.clarity[n].capture }
  test : u.fsu.test = s.fsu.test.filter fun run => !changed run.chan
  queue : u.fsu.queue = s.fsu.queue
  pointer : u.fsu.pointer = s.fsu.pointer
  slotTimer : u.fsu.slotTimer = s.fsu.slotTimer
  alr : u.alr = s.alr
  active : u.cfg.active = s.cfg.active
  claim : u.cfg.claim = s.cfg.claim

/-- No channel whose page changes has a test in flight. -/
theorem abortedFor_refl {s : State} {changed : Chan → Bool}
    (h : ∀ run, s.fsu.test = some run → changed run.chan = false) : s.AbortedFor s changed := by
  have hno (n : Chan) (hn : changed n = true) : s.fsu.tests n = false ∧ s.fsu.captures n = false := by
    unfold Fsu.tests Fsu.captures
    cases ht : s.fsu.test with
    | none => exact ⟨rfl, rfl⟩
    | some run =>
      have hc : run.chan ≠ n := fun e => by rw [← e, h run ht] at hn; exact Bool.false_ne_true hn
      simp [hc]
  refine ⟨fun n _ => ⟨rfl, rfl⟩, fun n hn => ?_, fun n hn => ?_, ?_, rfl, rfl, rfl, rfl, rfl, rfl⟩
  · rw [(hno n hn).1, Bool.not_false, Bool.and_true]
  · rw [(hno n hn).1, (hno n hn).2, Bool.not_false, Bool.and_true]
    rfl
  · cases ht : s.fsu.test with
    | none => rfl
    | some run => exact (Option.filter_some_pos (by rw [h run ht]; rfl)).symm

theorem abortTest_abortedFor {s : State} {changed : Chan → Bool} {run : TestRun} (ht : s.fsu.test = some run)
    (h : changed run.chan = true) : s.AbortedFor s.abortTest changed := by
  obtain ⟨hl, hf, -, -, ha, -, hact, -, -⟩ := abortTest_fields ht
  have htests (n : Chan) : s.fsu.tests n = decide (run.chan = n) := by
    unfold Fsu.tests
    rw [ht]
    rfl
  have hcaptures (n : Chan) : s.fsu.captures n = decide (run.chan = n ∧ run.kind = .capture) := by
    unfold Fsu.captures
    rw [ht]
    rfl
  have hclarity : s.abortTest.fsu.clarity = _ := congrArg Fsu.clarity hf
  have hother (n : Chan) (hn : n ≠ run.chan) :
      s.abortTest.lcu[n] = s.lcu[n] ∧ s.abortTest.fsu.clarity[n] = s.fsu.clarity[n] := by
    rw [hl, hclarity]
    exact ⟨modAt_other _ _ hn, modAt_other _ _ hn⟩
  refine ⟨fun n hn => hother n fun e => ?_, fun n hn => ?_, fun n hn => ?_, ?_, by rw [hf], by rw [hf],
    by rw [hf], ha, hact, (abortTest_lstep s).claim⟩
  · rw [e, h] at hn
    cases hn
  · rw [htests]
    by_cases e : n = run.chan
    · subst e
      rw [hl, modAt_same, decide_eq_true rfl, Bool.not_true, Bool.and_false]
    · rw [(hother n e).1, decide_eq_false (Ne.symm e), Bool.not_false, Bool.and_true]
  · rw [htests, hcaptures]
    by_cases e : n = run.chan
    · subst e
      rw [hclarity, modAt_same]
      simp only [decide_true, true_and, Bool.not_true, Bool.and_false, if_true, decide_eq_true_eq]
    · have e' : run.chan ≠ n := Ne.symm e
      rw [(hother n e).2]
      simp only [e', false_and, decide_false, Bool.not_false, Bool.and_true, Bool.false_eq_true, if_false]
  · rw [congrArg Fsu.test hf, ht]
    exact (Option.filter_some_neg (by rw [h]; decide)).symm

theorem pageAborted_abortedFor (s : State) (o : Image) :
    s.AbortedFor (s.pageAborted o) fun n => pageChanged o s.cfg.active n := by
  unfold State.pageAborted
  cases ht : s.fsu.test with
  | none => exact abortedFor_refl fun run h => by rw [ht] at h; cases h
  | some run =>
    simp only
    split
    · rename_i hc
      exact abortTest_abortedFor ht hc
    · rename_i hc
      refine abortedFor_refl fun run' h => ?_
      rw [ht] at h
      rw [← Option.some.inj h]
      exact Bool.eq_false_iff.2 hc

/-! ### What the rest of a transfer leaves alone (R71, R98, R99, R197) -/

/-- Channels, supervision, the image in force, the claim and the alerts of light stay. -/
structure State.LightKept (s t : State) : Prop where
  lcu : t.lcu = s.lcu
  fsu : t.fsu = s.fsu
  active : t.cfg.active = s.cfg.active
  claim : t.cfg.claim = s.cfg.claim
  alerts : SameLightAlerts s.alr t.alr

theorem State.LightKept.trans {s t u : State} (h : s.LightKept t) (g : t.LightKept u) : s.LightKept u where
  lcu := g.lcu.trans h.lcu
  fsu := g.fsu.trans h.fsu
  active := g.active.trans h.active
  claim := g.claim.trans h.claim
  alerts := h.alerts.trans g.alerts

theorem ZStep.lightKept {s t : State} (h : ZStep s t) (ha : SameLightAlerts s.alr t.alr) : s.LightKept t :=
  ⟨h.lcu, h.fsu, h.active, h.claim, ha⟩

theorem foldl_lightAlerts {α : Type} (f : State → α → State) (h : ∀ t x, SameLightAlerts t.alr (f t x).alr)
    (xs : List α) (s : State) : SameLightAlerts s.alr (xs.foldl f s).alr := by
  induction xs generalizing s with
  | nil => exact .refl _
  | cons x xs ih => exact (h s x).trans (ih _)

theorem inFreeOrder_lightAlerts (s : State) (zs : List Zone) (f : Zone → State → State)
    (h : ∀ t z, SameLightAlerts t.alr (f z t).alr) : SameLightAlerts s.alr (s.inFreeOrder zs f).alr :=
  foldl_lightAlerts (fun t z => f z t) h _ _

theorem raiseTopology_lightAlerts (s : State) (x : Top) :
    SameLightAlerts s.alr (({ s with top := x } : State).raise .topology).alr :=
  raise_lightAlerts { s with top := x } (a := .topology) rfl

theorem topResolve_lightAlerts (s : State) (which : Coupler → Bool) :
    SameLightAlerts s.alr (s.topResolve which).alr := by
  unfold State.topResolve
  simp only
  split
  · exact .refl _
  · split
    · exact raiseTopology_lightAlerts s _
    · exact .refl _

theorem askConfirmation_lightAlerts (s : State) : SameLightAlerts s.alr s.askConfirmation.alr := by
  unfold State.askConfirmation
  simp only
  split
  · exact .refl _
  · exact inFreeOrder_lightAlerts s _ _ decideArc_lightAlerts

theorem openEvidence_lightAlerts (s : State) (t : Target) : SameLightAlerts s.alr (s.openEvidence t).alr := .refl _

theorem couplerEvidence_lightAlerts (s : State) (before : Vector CouplerRec 3) :
    SameLightAlerts s.alr (s.couplerEvidence before).alr := by
  unfold State.couplerEvidence
  exact foldl_lightAlerts _ (fun t j => openEvidence_lightAlerts t (.tc j)) _ s

theorem topHandOff_lightAlerts (s : State) (before : Vector CouplerRec 3) :
    SameLightAlerts s.alr (s.topHandOff before).alr := by
  have h := couplerEvidence_lightAlerts s before
  unfold State.topHandOff
  simp only
  split
  · exact h
  · exact h.trans (askConfirmation_lightAlerts _)

theorem takeUpBoard_lightKept (s : State) (o : Image) : s.LightKept (s.takeUpBoard o) := by
  have hset : s.LightKept (s.boardSet o) := ⟨rfl, rfl, rfl, rfl, .refl _⟩
  obtain ⟨hr, -, -⟩ := topResolve_spec (s.boardSet o) fun _ => true
  have hresolve : (s.boardSet o).LightKept ((s.boardSet o).topResolve fun _ => true) :=
    ⟨hr.lcu, hr.fsu, hr.active, hr.claim, topResolve_lightAlerts _ _⟩
  rw [takeUpBoard_eq]
  exact (hset.trans hresolve).trans ((topHandOff_zstep _ _).lightKept (topHandOff_lightAlerts _ _))

theorem noteLeavers_lightKept (s : State) (ps : List Port) : s.LightKept (s.noteLeavers ps) :=
  (noteLeavers_zstep s ps).lightKept (foldl_lightAlerts _ (fun _ _ => raiseOn_lightAlerts _ _ rfl) ps s)

theorem startPlaced_lightAlerts (s : State) (z : Zone) : SameLightAlerts s.alr (s.startPlaced z).alr := by
  unfold State.startPlaced
  simp only
  split
  · exact .refl _
  · split
    · exact toLit_lightAlerts s z none
    · exact startRestrike_lightAlerts s z none
    · exact .refl _

theorem placeAll_lightAlerts (s : State) : SameLightAlerts s.alr s.placeAll.alr := by
  unfold State.placeAll
  simp only
  split
  · exact raise_lightAlerts { s with zev.zones := _ } rfl
  · exact .refl _

theorem placeZones_lightKept (s : State) : s.LightKept s.placeZones := by
  have hstart (u : State) : SameLightAlerts u.alr u.startAllPlaced.alr := by
    have h := foldl_lightAlerts (fun t z => t.startPlaced z) startPlaced_lightAlerts
      ((List.finRange 8).filter fun z => !u.instant z) u
    unfold State.startAllPlaced
    simp only
    split
    · exact h
    · exact h.trans (inFreeOrder_lightAlerts _ _ _ startPlaced_lightAlerts)
  exact (placeZones_zstep s).lightKept ((placeAll_lightAlerts s).trans (hstart _))

/-- The transfer after the channels have taken up the image, up to the lapse of the claim. -/
theorem afterTakeUp_lightKept (s : State) (o : Image) (ps : List Port) :
    s.LightKept (((s.takeUpBoard o).noteLeavers ps).endDrill .transfer).placeZones := by
  have h1 := takeUpBoard_lightKept s o
  generalize s.takeUpBoard o = t at h1 ⊢
  have h2 := h1.trans (noteLeavers_lightKept t ps)
  generalize t.noteLeavers ps = u at h2 ⊢
  have h3 := h2.trans ((endDrill_zstep u .transfer).lightKept (endDrill_lightAlerts _ _))
  exact h3.trans (placeZones_lightKept _)

/-! ### The claim (R32, R173) -/

theorem capturing_iff (s : State) (n : Chan) : s.capturing n = true ↔
    ⟨n, .capture⟩ ∈ s.fsu.queue ∨ (s.fsu.test.any fun run => decide (run.chan = n ∧ run.kind = .capture)) = true := by
  unfold State.capturing
  cases s.fsu.test <;> simp

theorem capturesLoseClaim_eq (s : State) : s.capturesLoseClaim = { s with fsu := s.fsu.claimLost } := by
  unfold State.capturesLoseClaim Fsu.claimLost
  have hclarity : (Vector.ofFn fun n =>
      if s.capturing n then { s.fsu.clarity[n] with capture := .failed } else s.fsu.clarity[n]) = _ :=
    congrArg Vector.ofFn (funext fun n => show _ = { s.fsu.clarity[n] with
      capture := if ⟨n, .capture⟩ ∈ s.fsu.queue ∨
          (s.fsu.test.any fun run => decide (run.chan = n ∧ run.kind = .capture)) = true
        then .failed else s.fsu.clarity[n].capture } by
      rw [if_congr (capturing_iff s n) rfl rfl]
      split <;> rfl)
  rw [hclarity]
  rfl

theorem releaseClaim_fields (s : State) :
    s.releaseClaim.fsu = s.fsu.claimLost ∧ s.releaseClaim.lcu = s.lcu ∧ s.releaseClaim.alr = s.alr ∧
      s.releaseClaim.cfg.active = s.cfg.active := by
  unfold State.releaseClaim
  simp only [capturesLoseClaim_eq]
  split <;> exact ⟨rfl, rfl, rfl, rfl⟩

/-- A claim of a port that is not used lapses, and takes the captures with it. -/
theorem lapseUnused_fields (s : State) :
    s.lapseUnused.fsu = (if s.cfg.claim.any (fun p => !s.used p) then s.fsu.claimLost else s.fsu) ∧
      s.lapseUnused.lcu = s.lcu ∧ s.lapseUnused.alr = s.alr ∧ s.lapseUnused.cfg.active = s.cfg.active := by
  unfold State.lapseUnused
  cases hc : s.cfg.claim with
  | none => exact ⟨rfl, rfl, rfl, rfl⟩
  | some p =>
    cases hu : s.used p
    · simp only [Option.any_some, hu, Bool.not_false, if_true, Bool.false_eq_true, if_false]
      exact releaseClaim_fields s
    · simp only [Option.any_some, hu, Bool.not_true, if_true, Bool.false_eq_true, if_false, and_self]

/-! ### The channels after a transfer (R23 to R25, R48) -/

/-- The board with the staged image in force, before a block has taken it up. -/
def State.activated (s : State) : State := { s with cfg.active := s.cfg.staged }

/-- The board whose channels have taken up the staged image (R179). -/
def State.channelsTaken (s : State) : State := s.activated.takeUpChannels s.cfg.active

theorem channelsTaken_lightKept (s : State) : s.channelsTaken.LightKept s.transferred :=
  afterTakeUp_lightKept _ _ _

/-- The test of the transfer, after its abort where its page changes. -/
theorem activated_abortedFor (s : State) :
    s.activated.AbortedFor (s.activated.pageAborted s.cfg.active) fun n =>
      decide (s.cfg.active.chans[n] ≠ s.cfg.staged.chans[n]) := pageAborted_abortedFor s.activated s.cfg.active

theorem channelsTaken_unchanged {s : State} {n : Chan} (h : s.cfg.active.chans[n] = s.cfg.staged.chans[n]) :
    s.channelsTaken.lcu[n] = s.lcu[n] ∧ s.channelsTaken.fsu.clarity[n] = s.fsu.clarity[n] := by
  obtain ⟨hsame, -, -, -, -, -, -, -, -, -⟩ := activated_abortedFor s
  obtain ⟨hl, hk⟩ := hsame n (decide_eq_false fun e => e h)
  have hc : pageChanged s.cfg.active s.activated.cfg.active n = false := decide_eq_false fun e => e h
  unfold State.channelsTaken
  rw [takeUpChannels_eq]
  simp only [ofFn_get, hc, Bool.false_eq_true, if_false]
  exact ⟨hl, hk⟩

theorem channelsTaken_changed {s : State} {n : Chan} (h : s.cfg.active.chans[n] ≠ s.cfg.staged.chans[n]) :
    s.channelsTaken.lcu[n] = ({ s.lcu[n] with mask := s.lcu[n].mask && !s.fsu.tests n } : Channel).takeUp
        s.cfg.active.chans[n] s.cfg.staged.chans[n] (s.cfg.staged.board.tLearn.val * 1000) ∧
      s.channelsTaken.fsu.clarity[n] = ({ s.fsu.clarity[n] with
        testing := s.fsu.clarity[n].testing && !s.fsu.tests n
        lastOutcome := if s.fsu.tests n then .aborted else s.fsu.clarity[n].lastOutcome
        capture := if s.fsu.captures n then .failed else s.fsu.clarity[n].capture } : ClarityRec).takeUp
        s.cfg.active.chans[n] s.cfg.staged.chans[n] := by
  obtain ⟨-, hlcu, hclarity, -, -, -, -, -, hact, -⟩ := activated_abortedFor s
  have hl := hlcu n (decide_eq_true h)
  have hk := hclarity n (decide_eq_true h)
  have hc : pageChanged s.cfg.active s.activated.cfg.active n = true := decide_eq_true h
  have ht : (s.activated.pageAborted s.cfg.active).tLearn = s.cfg.staged.board.tLearn.val * 1000 := by
    unfold State.tLearn
    rw [hact]
    rfl
  unfold State.channelsTaken
  rw [takeUpChannels_eq]
  simp only [ofFn_get, hc, if_true, ht, hl, hk]
  exact ⟨rfl, rfl⟩

/-- Nothing else of supervision changes but the test. -/
theorem channelsTaken_fsu (s : State) :
    s.channelsTaken.fsu.queue = s.fsu.queue ∧ s.channelsTaken.fsu.pointer = s.fsu.pointer ∧
      s.channelsTaken.fsu.slotTimer = s.fsu.slotTimer ∧
      (s.channelsTaken.fsu.test = s.fsu.test.filter fun run =>
        decide (s.cfg.active.chans[run.chan] = s.cfg.staged.chans[run.chan])) ∧
      s.channelsTaken.alr = s.alr ∧ s.channelsTaken.cfg.claim = s.cfg.claim := by
  obtain ⟨-, -, -, htest, hq, hp, ht, ha, -, hc⟩ := activated_abortedFor s
  simp only [ne_eq, decide_not, Bool.not_not] at htest
  unfold State.channelsTaken
  rw [takeUpChannels_eq]
  exact ⟨hq, hp, ht, htest, ha, hc⟩

/-- The last step of a transfer sets flags of the CFG and raises CONFIG_APPLIED (R179). -/
theorem makeTransfer_fields (s : State) :
    s.makeTransfer.lcu = s.transferred.lapseUnused.lcu ∧ s.makeTransfer.fsu = s.transferred.lapseUnused.fsu ∧
      s.makeTransfer.cfg.active = s.transferred.lapseUnused.cfg.active ∧
      SameLightAlerts s.transferred.lapseUnused.alr s.makeTransfer.alr := by
  unfold State.makeTransfer
  generalize s.transferred.lapseUnused = t
  exact ⟨rfl, rfl, rfl, raise_lightAlerts _ (a := .configApplied) rfl⟩

/-- The board after the whole transfer: channels and supervision as they were taken up, with the claim lapsed or not. -/
theorem makeTransfer_light (s : State) :
    s.makeTransfer.lcu = s.channelsTaken.lcu ∧
      s.makeTransfer.fsu = (if s.cfg.claim.any (fun p => !s.makeTransfer.used p) then s.channelsTaken.fsu.claimLost
        else s.channelsTaken.fsu) ∧
      SameLightAlerts s.alr s.makeTransfer.alr := by
  have hk := channelsTaken_lightKept s
  obtain ⟨-, -, -, -, halr, hclaim⟩ := channelsTaken_fsu s
  obtain ⟨hf, hl, ha, hact⟩ := lapseUnused_fields s.transferred
  obtain ⟨ml, mf, mact, malr⟩ := makeTransfer_fields s
  have hused : s.makeTransfer.used = s.transferred.used := by
    unfold State.used
    rw [mact, hact]
  refine ⟨ml.trans (hl.trans hk.lcu), ?_, ?_⟩
  · rw [mf, hf, hused, hk.fsu, hk.claim, hclaim]
  · have h := hk.alerts
    rw [halr, ← ha] at h
    exact h.trans malr

end Sys2Proof.Machine
end

section
/-! PROOFS. The settlement of O42. -/

namespace Sys2Proof.Machine

/-- The channel after its page has changed, with its test aborted or not: every field from the channel before. -/
theorem takeUp_shape (c : Channel) (o p : ChannelPage) (t : Nat) (tested : Bool) :
    let c' := ({ c with mask := c.mask && !tested } : Channel).takeUp o p t
    ∃ (b : LU) (w : Timer) (candidate : LU) (restarts : Byte) (disturbance : Bool) (P D : LU) (st : ChanState),
      c' = { c with
        state := st, baseline := b, pickupLevel := P, dropLevel := D
        valid := if p.mode = .fixed then c'.valid else c.valid && decide (o.mode = .learned)
        pickup := c.pickup && !decide (GoesOff o p)
        flash := if GoesOff o p then none else c.flash
        dropRun := if GoesOff o p then 0 else c.dropRun
        mask := c.mask && !tested
        held := c.held && !decide (Releases o p)
        demoted := c.demoted && !decide (Recovers o p)
        quiet := if Recovers o p then 0 else c.quiet
        window := w, candidate := candidate, restarts := restarts, disturbance := disturbance } := by
  intro c'
  have hv : (if p.mode = .fixed then c'.valid else c.valid && decide (o.mode = .learned)) =
      if p.mode = .fixed then decide (Rebases o p) || c.valid else c.valid && decide (o.mode = .learned) := by
    rw [takeUp_valid]
    split <;> rfl
  rw [hv]
  exact ⟨_, _, _, _, _, _, _, _, takeUp_fields { c with mask := c.mask && !tested } o p t⟩

/-- A page that was FIXED already and keeps its fixed baseline sets none anew (R25). -/
theorem not_rebases_fixed {o p : ChannelPage} (ho : o.mode = .fixed) (h : o.fixedBaseline = p.fixedBaseline) :
    ¬ Rebases o p := by
  rintro ⟨-, hl | hne⟩
  · rw [ho] at hl
    cases hl
  · exact hne h

theorem not_rebases_learned {o p : ChannelPage} (h : p.mode = .learned) : ¬ Rebases o p := by
  rintro ⟨hf, -⟩
  rw [h] at hf
  cases hf

/-- Settles O42: with channels and supervision known after the take-up, and the rest of the transfer leaving them alone,
each clause is one about the take-up of a page. -/
theorem transferTakesUpTheChannels : Obligations.TransferTakesUpTheChannels := by
  intro s hp hd
  have hexec : exec .transfer s = .next s.makeTransfer :=
    congrArg Host.Outcome.next (if_pos (by rw [hp, hd]; rfl))
  obtain ⟨hlcu, hfsu, halr⟩ := makeTransfer_light s
  obtain ⟨hqueue, hpointer, htimer, htest, -, -⟩ := channelsTaken_fsu s
  refine ⟨_, hexec, s.channelsTaken.fsu, hfsu, hqueue, hpointer, htimer,
    fun p => ⟨halr p .sensorSoiled rfl, halr p .sensorLost rfl⟩, htest, fun n => ?_⟩
  rw [hlcu]
  refine ⟨channelsTaken_unchanged, fun hne => ?_⟩
  obtain ⟨hc, hk⟩ := channelsTaken_changed hne
  have hshape := takeUp_shape s.lcu[n] s.cfg.active.chans[n] s.cfg.staged.chans[n]
    (s.cfg.staged.board.tLearn.val * 1000) (s.fsu.tests n)
  rw [hc, hk, clarityTakeUp_eq]
  generalize hx : ({ s.lcu[n] with mask := s.lcu[n].mask && !s.fsu.tests n } : Channel) = x at hshape ⊢
  obtain ⟨hstate, hvalid, hbase, hwindow, hcand, hdist, hrest⟩ :
      s.lcu[n].state = x.state ∧ s.lcu[n].valid = x.valid ∧ s.lcu[n].baseline = x.baseline ∧
        s.lcu[n].window = x.window ∧ s.lcu[n].candidate = x.candidate ∧ s.lcu[n].disturbance = x.disturbance ∧
        s.lcu[n].restarts = x.restarts := by
    subst hx
    exact ⟨rfl, rfl, rfl, rfl, rfl, rfl, rfl⟩
  rw [hvalid] at hshape
  simp only [hstate, hvalid, hbase, hwindow, hcand, hdist, hrest]
  refine ⟨hshape, fun hf hor => takeUp_rebases x _ _ _ ⟨hf, hor⟩, fun hf hof heq => ⟨?_, ?_⟩, fun hl => ?_,
    takeUp_pickupLevel x _ _ _, takeUp_dropLevel x _ _ _, takeUp_state x _ _ _, takeUp_leaves_learn x _ _ _,
    takeUp_enters_learn x _ _ _, takeUp_learning x _ _ _, rfl⟩
  · rw [takeUp_valid, if_pos hf, decide_eq_false (not_rebases_fixed hof heq), Bool.false_or]
  · exact takeUp_keeps_baseline x _ _ _ (not_rebases_fixed hof heq)
  · exact takeUp_keeps_baseline x _ _ _ (not_rebases_learned hl)

end Sys2Proof.Machine
end

section
/-! PROOFS. RELEARN by the lines of its table; O49. -/

namespace Sys2Proof.Machine

/-! ### The operand and the frame (R157, R187) -/

theorem chanOperand_of_eq {v : Word} {n : Chan} (h : v.toNat = n.val) : chanOperand v = some n := by
  have hlt : v.toNat < 16 := by omega
  exact (dif_pos hlt).trans (congrArg some (Fin.ext h))

theorem chanOperand_none {v : Word} (h : 15 < v.toNat) : chanOperand v = none := dif_neg (by omega)

/-- An accepted CONTROL of a LIVE port runs its body on the board with the frame taken (R192). -/
theorem control_ready {s : State} {p : Port} (sub : Byte) (page : BitVec 4) (v : Word) (body : State → State)
    (h : s.liveReady p = true) :
    ∃ l, s.control p sub page v body = body { s with lnk := l } ∧ TookFrame s.lnk l p s.lnk[p] s.lnk[p].slot := by
  obtain ⟨hready, hlive⟩ := liveReady_ready h
  exact function_permitted s p .control _ body hready (by rw [hlive]; rfl)

theorem exec_relearn (s : State) (p : Port) (page : BitVec 4) (v : Word) :
    exec (.relearn p page v) s = .next (s.control p 1 page v fun s => s.relearnBody p v) := rfl

/-- A RELEARN that does nothing but answer. -/
theorem relearn_answers {s : State} {p : Port} {page : BitVec 4} {v : Word} {rep : Reply} (h : s.liveReady p = true)
    (hb : ∀ l : Vector PortRec 4,
      State.relearnBody { s with lnk := l } p v = State.setSlot { s with lnk := l } p rep) :
    AnswersOnly (.relearn p page v) s p rep := by
  obtain ⟨l, he, ht⟩ := control_ready 1 page v (fun s => s.relearnBody p v) h
  obtain ⟨l', hs, ht'⟩ := ht.setSlot rep
  refine ⟨l', ?_, ht'⟩
  rw [exec_relearn, he, hb, hs]

/-! ### The ports (R150, R152, R154) -/

/-- What an accepted frame leaves does not speak of windows that records took with them. -/
theorem TookFrame.noWindow {b a : Vector PortRec 4} {p : Port} {q : PortRec} {r : Reply} (h : TookFrame b a p q r) :
    TookFrame (modAll b PortRec.noWindow) (modAll a PortRec.noWindow) p q.noWindow r := by
  obtain ⟨ho, hf, hs, he, hr, h1, h2, h3, h4, -, -⟩ := h
  unfold TookFrame
  simp only [modAll_get]
  exact ⟨fun o hne => by rw [ho o hne], hf, hs, he, hr, h1, h2, h3, h4, rfl, rfl⟩

/-- Ports that differ in their windows only are the same ports without them. -/
theorem noWindow_congr {a b : Vector PortRec 4} (h : ∀ p : Port, a[p].dropSelection = b[p].dropSelection) :
    modAll a PortRec.noWindow = modAll b PortRec.noWindow := by
  refine vec_ext fun p => ?_
  rw [modAll_get, modAll_get]
  exact h p

/-- A reply takes the slot of the port; its windows are beside it. -/
theorem TookFrame.replied {b a : Vector PortRec 4} {p : Port} {q : PortRec} {r : Reply} (h : TookFrame b a p q r)
    (r' : Reply) : TookFrame b (modAt a p fun x => { x with slot := r' }) p q r' := by
  obtain ⟨ho, hf, hs, he, -, hsame⟩ := h
  unfold TookFrame
  rw [modAt_same]
  exact ⟨fun o hne => (modAt_other a _ hne).trans (ho o hne), hf, hs, he, rfl, hsame⟩

theorem noWindow_replied (a : Vector PortRec 4) (p : Port) (r : Reply) :
    modAll (modAt a p fun x => { x with slot := r }) PortRec.noWindow =
      modAt (modAll a PortRec.noWindow) p fun x => { x with slot := r } := by
  refine vec_ext fun o => ?_
  simp only [modAll_get, modAt_get]
  split <;> rfl

/-! ### The channel (R15) -/

section
variable (c : Channel) (page : ChannelPage) (t : Nat)

/-- A RELEARN changes the baseline's validity, the levels, the state and what learning uses. -/
theorem relearn_fields : c.relearn page t = { ({ c with valid := false } : Channel).withLevels page with
    state := (c.relearn page t).state, window := (c.relearn page t).window, candidate := (c.relearn page t).candidate
    restarts := (c.relearn page t).restarts, disturbance := (c.relearn page t).disturbance } := by
  unfold Channel.relearn
  simp only
  split
  · rfl
  · rw [recompute_state]
    exact recompute_fields _ _ _

theorem relearn_levels :
    (c.relearn page t).valid = false ∧ (c.relearn page t).pickupLevel.toNat = page.floor.val ∧
      (c.relearn page t).dropLevel.toNat = page.floor.val * page.dropRatio.val / 100 := by
  rw [relearn_fields]
  have hp := withLevels_pickupLevel { c with valid := false } page
  have hd := withLevels_dropLevel { c with valid := false } page
  rw [hp] at hd
  exact ⟨rfl, hp, hd⟩

theorem relearn_kept : (c.relearn page t).pickup = c.pickup ∧ (c.relearn page t).flash = c.flash ∧
    (c.relearn page t).held = c.held := by
  rw [relearn_fields]
  exact ⟨rfl, rfl, rfl⟩

/-- A held channel stays held; its learning begins at its release (R8). -/
theorem relearn_held (ht : page.target ≠ .off) (hh : c.held = true) (hs : c.state = .held) :
    (c.relearn page t).state = .held := by
  have hne : c.state ≠ .learn := by rw [hs]; decide
  unfold Channel.relearn
  simp only [hne, if_false]
  rw [recompute_state]
  exact (if_neg ht).trans (if_pos hh)

/-- A channel that is not held learns afresh (R10). -/
theorem relearn_learns (ht : page.target ≠ .off) (hm : page.mode = .learned) (hh : c.held = false) :
    (c.relearn page t).state = .learn ∧ (c.relearn page t).restarts = 0 ∧ (c.relearn page t).candidate = 0 ∧
      (c.relearn page t).disturbance = false ∧
      (c.relearn page t).window = if c.pickup then .stopped else .running t := by
  unfold Channel.relearn
  by_cases hc : c.state = .learn
  · simp only [hc, if_true]
    exact ⟨rfl, rfl, rfl, rfl, rfl⟩
  · have hs : stateOf page (({ c with valid := false } : Channel).withLevels page) = .learn := by
      refine (if_neg ht).trans ((if_neg ?_).trans (if_pos ⟨hm, rfl⟩))
      exact fun h => Bool.false_ne_true (hh.symm.trans h)
    simp only [hc, if_false]
    rw [recompute_to_learn (c := ({ c with valid := false } : Channel).withLevels page) t hc hs]
    exact ⟨rfl, rfl, rfl, rfl, rfl⟩

end

/-! ### The accepted RELEARN -/

/-- The board after the channel relearns, before the reply. -/
def State.relearned (s : State) (n : Chan) : State :=
  s.lcuEvent n fun s => s.modChan n fun c => c.relearn (s.chanPage n) s.tLearn

theorem relearnBody_accepted {s : State} {p : Port} {v : Word} {n : Chan} (hn : chanOperand v = some n)
    (ht : s.cfg.active.chans[n].target ≠ .off) (hm : s.cfg.active.chans[n].mode = .learned) :
    s.relearnBody p v = (s.relearned n).setSlot p ⟨.accepted, 0⟩ := by
  have hf : ¬ (s.chanPage n).mode = .fixed := fun e => by
    rw [show (s.chanPage n).mode = .learned from hm] at e
    cases e
  unfold State.relearnBody
  rw [hn]
  exact (if_neg ht).trans (if_neg hf)

/-- The ports after the reply of an accepted RELEARN. -/
theorem relearned_ports {s : State} {l : Vector PortRec 4} {p : Port} {n : Chan}
    (h : TookFrame s.lnk l p s.lnk[p] s.lnk[p].slot) :
    let u := State.relearned { s with lnk := l } n
    let t := u.setSlot p ⟨.accepted, 0⟩
    TookFrame (modAll s.lnk PortRec.noWindow) (modAll t.lnk PortRec.noWindow) p s.lnk[p].noWindow ⟨.accepted, 0⟩ ∧
      (s.trm.records.length < 12 ∨ t.statusOf n = s.statusOf n →
        TookFrame s.lnk t.lnk p s.lnk[p] ⟨.accepted, 0⟩) := by
  intro u t
  have hz : ZStep _ u :=
    lcuEvent_zstep { s with lnk := l } n fun s => s.modChan n fun c => c.relearn (s.chanPage n) s.tLearn
  have hlnk : t.lnk = modAt u.lnk p fun x => { x with slot := ⟨.accepted, 0⟩ } := rfl
  refine ⟨?_, fun hkept => ?_⟩
  · rw [hlnk, noWindow_replied, noWindow_congr hz.ports]
    exact h.noWindow.replied _
  · have hul : u.lnk = l := by
      rcases hkept with hroom | hstatus
      · exact lcuEvent_lnk n hroom
      · refine congrArg State.lnk (lcuEvent_of_same ?_)
        refine Eq.trans ?_ hstatus
        exact statusOf_congr hz.active.symm (by rw [← hz.lcu]; rfl) (by rw [← hz.lcu]; rfl) (by rw [← hz.lcu]; rfl)
    rw [hlnk, hul]
    exact h.replied _

/-- Settles O49: the refusals answer only; an accepted RELEARN changes the channel at its LCU event and then answers. -/
theorem relearnDecides : Obligations.RelearnDecides := by
  intro s p page v h
  refine ⟨fun hv => relearn_answers h fun l => ?_, fun n hn => ⟨fun ht => relearn_answers h fun l => ?_,
    fun ht hf => relearn_answers h fun l => ?_, fun ht hm => ?_⟩⟩
  · unfold State.relearnBody
    rw [chanOperand_none hv]
  · unfold State.relearnBody
    rw [chanOperand_of_eq hn]
    exact if_pos ht
  · unfold State.relearnBody
    rw [chanOperand_of_eq hn]
    exact (if_neg ht).trans (if_pos hf)
  · obtain ⟨l, he, htook⟩ := control_ready 1 page v (fun s => s.relearnBody p v) h
    obtain ⟨hports, hwindows⟩ := relearned_ports (n := n) htook
    have hbody : State.relearnBody { s with lnk := l } p v = _ :=
      relearnBody_accepted (chanOperand_of_eq hn) ht hm
    refine ⟨_, (exec_relearn s p page v).trans (congrArg _ (he.trans hbody)), hports, hwindows, ?_⟩
    have hlcu : ∀ r, ((State.relearned { s with lnk := l } n).setSlot p r).lcu =
        modAt s.lcu n fun c => c.relearn s.cfg.active.chans[n] (s.cfg.active.board.tLearn.val * 1000) :=
      fun r => lcuEvent_lcu { s with lnk := l } n _
    rw [hlcu, modAt_same]
    obtain ⟨hvalid, hpick, hdrop⟩ := relearn_levels s.lcu[n] s.cfg.active.chans[n] (s.cfg.active.board.tLearn.val * 1000)
    obtain ⟨hp, hf, hh⟩ := relearn_kept s.lcu[n] s.cfg.active.chans[n] (s.cfg.active.board.tLearn.val * 1000)
    exact ⟨hvalid, hpick, hdrop, hp, hf, hh, relearn_held _ _ _ ht, relearn_learns _ _ _ ht hm,
      fun m hne => modAt_other _ _ hne⟩

end Sys2Proof.Machine
end

section
/-! PROOFS. The slot timer's expiry: removals at the head of the queue, the head that is started or waits, and the
round-robin scan; O15 and O16. -/

namespace Sys2Proof.Machine

/-! ### What may be tested (R34) -/

theorem mayTest_congr {s u : State} (hl : u.lcu = s.lcu) (hc : u.cfg = s.cfg) : u.mayTest = s.mayTest := by
  funext n k
  unfold State.mayTest State.chanPage
  rw [hl, hc]

theorem lightBars_congr {s u : State} (hl : u.lcu = s.lcu) (hc : u.cfg = s.cfg) (hz : u.zev = s.zev) :
    u.lightBars = s.lightBars := by
  funext n
  unfold State.lightBars State.zoneAtRest State.zoneOf State.isMember
  rw [hl, hc, hz]

theorem eligible_congr {s u : State} (hl : u.lcu = s.lcu) (hc : u.cfg = s.cfg) (hz : u.zev = s.zev) :
    u.eligible = s.eligible := by
  funext n k
  unfold State.eligible
  rw [mayTest_congr hl hc, lightBars_congr hl hc hz]

/-! ### The removals of a slot (R33) -/

theorem removes_eq (s : State) : s.removes = s.dropsRequest := by
  funext r
  unfold State.removes State.dropsRequest State.chanPage
  rw [Bool.decide_or, Bool.decide_and]

/-- The clarity record of a channel after these requests have been skipped (R33). -/
def ClarityRec.skippedBy (k : ClarityRec) (rs : List Request) (n : Chan) : ClarityRec :=
  { k with
    lastOutcome := if n ∈ rs.map (·.chan) then .skipped else k.lastOutcome
    capture := if ⟨n, .capture⟩ ∈ rs then .failed else k.capture }

/-- What one skipped request does to a clarity record, and the later ones after it. -/
theorem skippedBy_skipRequest (s : State) (r : Request) (rs : List Request) (n : Chan) :
    (s.skipRequest r).fsu.clarity[n].skippedBy rs n = s.fsu.clarity[n].skippedBy (r :: rs) n := by
  obtain ⟨c, kind⟩ := r
  unfold State.skipRequest State.modClarity ClarityRec.skippedBy
  rw [modAt_get]
  by_cases hn : n = c
  · subst hn
    cases kind <;> simp
  · simp [hn]

theorem foldl_skipRequest (s : State) (rs : List Request) :
    rs.foldl State.skipRequest s =
      { s with fsu.clarity := Vector.ofFn fun n => s.fsu.clarity[n].skippedBy rs n } := by
  induction rs generalizing s with
  | nil =>
    have h : (Vector.ofFn fun n : Chan => s.fsu.clarity[n].skippedBy [] n) = s.fsu.clarity :=
      vec_ext fun n => ofFn_get _ n
    rw [h]
    rfl
  | cons r rs ih =>
    rw [List.foldl_cons, ih]
    simp only [skippedBy_skipRequest]
    rfl

/-- The clarity records after the removals of a slot (R33). It does not unfold by itself: a comparison of two boards is
not to go through sixteen records. -/
@[irreducible] def State.skippedRecords (s : State) : Vector ClarityRec 16 := Vector.ofFn s.skipped

theorem skippedRecords_get (s : State) (n : Chan) : s.skippedRecords[n] = s.skipped n := by
  unfold State.skippedRecords
  exact ofFn_get _ n

/-- The board of a slot with its timer started again and its removals made (R29, R33). -/
def State.cleared (s : State) : State :=
  { s with
    fsu.slotTimer := .running s.cfg.active.board.slotPeriod.val
    fsu.queue := s.queueLeft
    fsu.clarity := s.skippedRecords }

theorem cleared_clarity (s : State) (n : Chan) : s.cleared.fsu.clarity[n] = s.skipped n := skippedRecords_get s n

/-- The slot timer is started again with the period in force (R29). -/
def State.slotRestarted (s : State) : State :=
  { s with fsu.slotTimer := .running s.cfg.active.board.slotPeriod.val }

theorem slotRestarted_skips (s : State) :
    s.removed.foldl State.skipRequest s.slotRestarted =
      { s.slotRestarted with fsu.clarity := s.skippedRecords } := by
  have h : (fun n : Chan => s.slotRestarted.fsu.clarity[n].skippedBy s.removed n) = s.skipped := rfl
  unfold State.skippedRecords
  rw [foldl_skipRequest, h]

/-- The queue of a slot is served: the removals, then the head that is left where it is eligible (R33). -/
theorem slotRestarted_serveQueue (s : State) :
    s.slotRestarted.serveQueue s.fsu.queue = match s.queueLeft with
      | [] => s.cleared
      | r :: rest =>
        if s.eligible r.chan r.kind.testKind then
          ({ s.cleared with fsu.queue := rest } : State).startTest r.chan r.kind.testKind
        else s.cleared := by
  have hdrop : s.slotRestarted.dropsRequest = s.removes := (removes_eq s).symm
  have hskip := slotRestarted_skips s
  unfold State.removed at hskip
  rw [serveQueue_eq, hdrop, hskip]
  unfold State.cleared
  cases hq : s.queueLeft with
  | nil =>
    unfold State.queueLeft at hq
    rw [hq]
    rfl
  | cons r rest =>
    unfold State.queueLeft at hq
    rw [hq]
    simp only
    rw [eligible_congr (s := s) (u := { s.slotRestarted with fsu.clarity := s.skippedRecords }) rfl rfl rfl]
    rfl

/-! ### The start of a test (R36) -/

theorem startTest_spec (s : State) (n : Chan) (k : TestKind) :
    let t := s.startTest n k
    t.fsu.test = some ⟨n, k, 0, 40⟩ ∧ t.lcu = modAt s.lcu n (fun c => { c with mask := true }) ∧
      (∀ m : Chan, t.fsu.clarity[m] = if m = n then { s.fsu.clarity[m] with
        testing := true, capture := if k = .capture then .testing else s.fsu.clarity[m].capture }
        else s.fsu.clarity[m]) ∧
      t.cfg.testQuiet = false ∧ s.DueAfter t := by
  refine ⟨rfl, rfl, fun m => (modAt_get s.fsu.clarity n m _).trans ?_, rfl, settleDue_dueAfter _⟩
  split
  · rename_i h
    subst h
    rfl
  · rfl

theorem testKind_capture_iff (k : ReqKind) : k.testKind = .capture ↔ k = .capture := by
  cases k <;> decide

/-! ### The slot (R29) -/

section
variable {s : State} (hrun : s.fsu.slotTimer.isRunning = true)
include hrun

theorem slotExpiry_idle {run : TestRun} (h : s.fsu.test = some run) :
    s.slotExpiry = { s with fsu.slotTimer := .running s.cfg.active.board.slotPeriod.val } := by
  unfold State.slotExpiry
  rw [if_pos hrun]
  exact if_pos (by simp [h])

variable (htest : s.fsu.test = none)
include htest

/-- With no test in flight the queue is served, and the scan follows where that starts no test (R29). -/
theorem slotExpiry_serves :
    s.slotExpiry =
      let t := s.slotRestarted.serveQueue s.fsu.queue
      if t.fsu.test.isSome then t else t.scan (scanOrder t.fsu.pointer) := by
  unfold State.slotExpiry
  rw [if_pos hrun]
  exact if_neg (by rw [htest]; decide)

/-- A head that can be tested once the removals are made is started (R33). -/
theorem slotExpiry_starts {r : Request} {rest : List Request} (hq : s.queueLeft = r :: rest)
    (he : s.eligible r.chan r.kind.testKind = true) :
    s.slotExpiry = ({ s.cleared with fsu.queue := rest } : State).startTest r.chan r.kind.testKind := by
  rw [slotExpiry_serves hrun htest, slotRestarted_serveQueue, hq]
  simp only [he, if_true]
  exact if_pos rfl

/-- Where no request is left, or the head waits, the scan follows (R29, R33). -/
theorem slotExpiry_scans (hw : ∀ r rest, s.queueLeft = r :: rest → s.eligible r.chan r.kind.testKind = false) :
    s.slotExpiry = s.cleared.scan (scanOrder s.fsu.pointer) := by
  have hserved : s.slotRestarted.serveQueue s.fsu.queue = s.cleared := by
    rw [slotRestarted_serveQueue]
    cases hq : s.queueLeft with
    | nil => rfl
    | cons r rest => exact if_neg (Bool.eq_false_iff.1 (hw r rest hq))
  have hnone : ¬ s.cleared.fsu.test.isSome = true := by
    rw [show s.cleared.fsu.test = none from htest]
    decide
  rw [slotExpiry_serves hrun htest, hserved]
  exact if_neg hnone

end

theorem exec_slotTimerExpiry (s : State) : exec .slotTimerExpiry s = .next s.slotExpiry := rfl

/-! ### The round-robin scan (R35) -/

/-- A channel that a scan passes over for light (R35). -/
def State.passesOver (s : State) (n : Chan) : Bool := s.mayTest n .roundRobin && s.lightBars n

theorem passesOver_congr {s u : State} (hl : u.lcu = s.lcu) (hc : u.cfg = s.cfg) (hz : u.zev = s.zev) :
    u.passesOver = s.passesOver := by
  funext n
  unfold State.passesOver
  rw [mayTest_congr hl hc, lightBars_congr hl hc hz]

/-- A clarity record whose defer count is raised where its channel is passed over (R35). -/
def ClarityRec.deferredIf (k : ClarityRec) (b : Bool) : ClarityRec :=
  { k with deferCount := if b = true then satInc k.deferCount else k.deferCount }

theorem deferChan_eq (s : State) (n : Chan) : s.deferChan n = s.modClarity n fun k => k.deferredIf (s.passesOver n) := by
  unfold State.deferChan
  cases h : s.passesOver n
  · refine (if_neg (Bool.eq_false_iff.1 h)).trans ?_
    unfold State.modClarity
    rw [modAt_id _ _ rfl]
  · exact if_pos h

theorem deferChan_eligible (s : State) (n : Chan) : (s.deferChan n).eligible = s.eligible := by
  rw [deferChan_eq]
  exact eligible_congr rfl rfl rfl

theorem deferChan_passesOver (s : State) (n : Chan) : (s.deferChan n).passesOver = s.passesOver := by
  rw [deferChan_eq]
  exact passesOver_congr rfl rfl rfl

/-- The board after a scan has passed over these channels. -/
def State.deferred (s : State) (ns : List Chan) : State := ns.foldl State.deferChan s

theorem scan_of_none {s : State} {ns : List Chan} (h : ∀ n ∈ ns, s.eligible n .roundRobin = false) :
    s.scan ns = s.deferred ns := by
  induction ns generalizing s with
  | nil => rfl
  | cons n rest ih =>
    obtain ⟨hn, hrest⟩ := List.forall_mem_cons.1 h
    rw [State.scan, if_neg (Bool.eq_false_iff.1 hn)]
    exact ih fun m hm => by rw [deferChan_eligible]; exact hrest m hm

/-- The first eligible channel is tested, and the pointer is set after it (R35). -/
theorem scan_of_first {s : State} {before after : List Chan} {n : Chan}
    (h : ∀ m ∈ before, s.eligible m .roundRobin = false) (hn : s.eligible n .roundRobin = true) :
    s.scan (before ++ n :: after) =
      ({ s.deferred before with fsu.pointer := nextChan n } : State).startTest n .roundRobin := by
  induction before generalizing s with
  | nil =>
    rw [List.nil_append, State.scan, if_pos hn]
    rfl
  | cons m rest ih =>
    obtain ⟨hm, hrest⟩ := List.forall_mem_cons.1 h
    rw [List.cons_append, State.scan, if_neg (Bool.eq_false_iff.1 hm)]
    refine ih (fun x hx => ?_) ?_
    · rw [deferChan_eligible]
      exact hrest x hx
    · rw [deferChan_eligible]
      exact hn

/-- Passing channels over changes clarity records only. -/
theorem deferred_frame (s : State) (ns : List Chan) :
    ∃ records, s.deferred ns = { s with fsu.clarity := records } := by
  induction ns generalizing s with
  | nil => exact ⟨_, rfl⟩
  | cons m rest ih =>
    obtain ⟨records, h⟩ := ih (s.deferChan m)
    rw [deferChan_eq] at h
    exact ⟨records, (congrArg (State.deferred · rest) (deferChan_eq s m)).trans h⟩

/-- Each of the channels passed over has its defer count raised once (R35). -/
theorem deferred_clarity {ns : List Chan} (hnd : ns.Nodup) (s : State) (n : Chan) :
    (s.deferred ns).fsu.clarity[n] = s.fsu.clarity[n].deferredIf (decide (n ∈ ns) && s.passesOver n) := by
  induction ns generalizing s with
  | nil => rfl
  | cons m rest ih =>
    obtain ⟨hm, hrest⟩ := List.nodup_cons.1 hnd
    refine (ih hrest (s.deferChan m)).trans ?_
    rw [deferChan_passesOver, deferChan_eq]
    unfold State.modClarity
    rw [modAt_get]
    by_cases hn : n = m
    · subst hn
      simp [hm, ClarityRec.deferredIf]
    · simp [hn]

/-- A scan leaves the slot timer and the queue, and last outcomes too. -/
theorem scan_kept (s : State) (ns : List Chan) :
    (s.scan ns).fsu.slotTimer = s.fsu.slotTimer ∧ (s.scan ns).fsu.queue = s.fsu.queue ∧
      ∀ n : Chan, (s.scan ns).fsu.clarity[n].lastOutcome = s.fsu.clarity[n].lastOutcome := by
  induction ns generalizing s with
  | nil => exact ⟨rfl, rfl, fun _ => rfl⟩
  | cons m rest ih =>
    rw [State.scan]
    split
    · obtain ⟨-, -, hc, -, -⟩ := startTest_spec { s with fsu.pointer := nextChan m } m .roundRobin
      refine ⟨rfl, rfl, fun n => ?_⟩
      rw [hc]
      split <;> rfl
    · obtain ⟨ht, hq, ho⟩ := ih (s.deferChan m)
      rw [deferChan_eq] at ht hq ho ⊢
      refine ⟨ht, hq, fun n => (ho n).trans ?_⟩
      unfold State.modClarity
      rw [modAt_get]
      split
      · rename_i h
        subst h
        rfl
      · rfl

/-! ### The order of a scan (R35) -/

theorem chanAfter_injective (p : Chan) : Function.Injective (chanAfter p) := by
  intro i j h
  have := congrArg Fin.val h
  unfold chanAfter at this
  simp only at this
  omega

theorem scanOrder_nodup (p : Chan) : (scanOrder p).Nodup :=
  (List.nodup_finRange 16).map (chanAfter_injective p)

/-- The channels before the place `k` of a scan. -/
def scanBefore (p : Chan) (k : Fin 16) : List Chan := ((List.finRange 16).take k.val).map (chanAfter p)

theorem scanOrder_split (p : Chan) (k : Fin 16) :
    scanOrder p = scanBefore p k ++ chanAfter p k :: ((List.finRange 16).drop (k.val + 1)).map (chanAfter p) := by
  have h : (List.finRange 16).drop k.val = k :: (List.finRange 16).drop (k.val + 1) := by
    rw [List.drop_eq_getElem_cons (by simp), List.getElem_finRange]
    rfl
  unfold scanOrder scanBefore
  conv_lhs => rw [← List.take_append_drop k.val (List.finRange 16), h, List.map_append, List.map_cons]

theorem chanAfter_mem_scanBefore (p : Chan) (k i : Fin 16) : chanAfter p i ∈ scanBefore p k ↔ i < k := by
  have hmem : i ∈ (List.finRange 16).take k.val ↔ i < k := by
    rw [List.mem_take_iff_getElem]
    constructor
    · rintro ⟨j, hj, rfl⟩
      rw [List.getElem_finRange]
      exact Fin.lt_def.2 (by simp at hj ⊢; omega)
    · intro h
      have := Fin.lt_def.1 h
      exact ⟨i.val, by simp; omega, by simp⟩
  unfold scanBefore
  rw [List.mem_map_of_injective (chanAfter_injective p), hmem]

theorem scanBefore_nodup (p : Chan) (k : Fin 16) : (scanBefore p k).Nodup :=
  ((List.nodup_finRange 16).sublist (List.take_sublist _ _)).map (chanAfter_injective p)

theorem chanAfter_surjective (p : Chan) : Function.Surjective (chanAfter p) :=
  Finite.injective_iff_surjective.1 (chanAfter_injective p)

theorem mem_scanOrder (p n : Chan) : n ∈ scanOrder p := by
  obtain ⟨i, hi⟩ := chanAfter_surjective p n
  exact hi ▸ List.mem_map_of_mem (List.mem_finRange i)

/-! ### The slot served -/

/-- Settles O15: with the removals made, a head that can be tested is started; otherwise the scan, which leaves the
queue, the timer and the last outcomes, follows. -/
theorem slotServesTheQueue : Obligations.SlotServesTheQueue := by
  intro s hrun
  refine ⟨fun run h => congrArg _ (slotExpiry_idle hrun h), fun htest => ⟨_, exec_slotTimerExpiry s, ?_⟩⟩
  by_cases hstart : ∃ r rest, s.queueLeft = r :: rest ∧ s.eligible r.chan r.kind.testKind = true
  · obtain ⟨r, rest, hq, he⟩ := hstart
    rw [slotExpiry_starts hrun htest hq he]
    obtain ⟨ht, hl, hc, hquiet, hdue⟩ := startTest_spec { s.cleared with fsu.queue := rest } r.chan r.kind.testKind
    simp only [testKind_capture_iff] at hc
    have hrec (n : Chan) : ({ s.cleared with fsu.queue := rest } : State).fsu.clarity[n] = s.skipped n :=
      cleared_clarity s n
    simp only [hrec] at hc
    refine ⟨rfl, ?_, fun n hn => ?_, fun r' rest' hq' => ?_⟩
    · rw [hq]
      exact List.suffix_cons r rest
    · have hskip : (s.skipped n).lastOutcome = .skipped := if_pos hn
      rw [hc]
      split <;> exact hskip
    · obtain ⟨rfl, rfl⟩ := List.cons.inj (hq.symm.trans hq')
      exact ⟨fun h => absurd (he.symm.trans h) (by decide), fun _ => ⟨ht, rfl, rfl, hl, hc, hquiet, hdue⟩⟩
  · have hw : ∀ r rest, s.queueLeft = r :: rest → s.eligible r.chan r.kind.testKind = false := fun r rest hq =>
      Bool.eq_false_iff.2 fun he => hstart ⟨r, rest, hq, he⟩
    rw [slotExpiry_scans hrun htest hw]
    obtain ⟨htimer, hqueue, hout⟩ := scan_kept s.cleared (scanOrder s.fsu.pointer)
    refine ⟨htimer, ?_, fun n hn => ?_, fun r rest hq =>
      ⟨fun _ => hqueue, fun he => absurd (he.symm.trans (hw r rest hq)) (by decide)⟩⟩
    · rw [hqueue]
      exact List.suffix_refl _
    · rw [hout, cleared_clarity]
      exact if_pos hn

/-- The defer counts after a scan behind the removals, from the records before the slot (R33, R35). -/
theorem cleared_deferred_clarity (s : State) {ns : List Chan} (hnd : ns.Nodup) (n : Chan) :
    (s.cleared.deferred ns).fsu.clarity[n] = { s.skipped n with
      deferCount := if n ∈ ns ∧ s.mayTest n .roundRobin = true ∧ s.lightBars n = true then
        satInc s.fsu.clarity[n].deferCount else s.fsu.clarity[n].deferCount } := by
  have hp : s.cleared.passesOver = s.passesOver := passesOver_congr rfl rfl rfl
  rw [deferred_clarity hnd, cleared_clarity, hp]
  unfold ClarityRec.deferredIf State.passesOver
  simp only [Bool.and_eq_true, decide_eq_true_eq]
  rfl

section
variable {s : State} (hrun : s.fsu.slotTimer.isRunning = true) (htest : s.fsu.test = none)
  (hw : ∀ r rest, s.queueLeft = r :: rest → s.eligible r.chan r.kind.testKind = false)
include hrun htest hw

/-- A scan with an eligible channel tests the first of them, behind those it passes over (R35). -/
theorem slotExpiry_tests {k : Fin 16}
    (hbefore : ∀ i, i < k → s.eligible (chanAfter s.fsu.pointer i) .roundRobin = false)
    (hk : s.eligible (chanAfter s.fsu.pointer k) .roundRobin = true) :
    s.slotExpiry = ({ s.cleared.deferred (scanBefore s.fsu.pointer k) with
      fsu.pointer := nextChan (chanAfter s.fsu.pointer k) } : State).startTest (chanAfter s.fsu.pointer k)
        .roundRobin := by
  have helig : s.cleared.eligible = s.eligible := eligible_congr rfl rfl rfl
  rw [slotExpiry_scans hrun htest hw, scanOrder_split s.fsu.pointer k]
  refine scan_of_first (fun m hm => ?_) (by rw [helig]; exact hk)
  obtain ⟨i, rfl⟩ := chanAfter_surjective s.fsu.pointer m
  rw [helig]
  exact hbefore i ((chanAfter_mem_scanBefore _ _ _).1 hm)

/-- A scan with no eligible channel passes over all of them (R35). -/
theorem slotExpiry_defers (hnone : ∀ i, s.eligible (chanAfter s.fsu.pointer i) .roundRobin = false) :
    s.slotExpiry = s.cleared.deferred (scanOrder s.fsu.pointer) := by
  have helig : s.cleared.eligible = s.eligible := eligible_congr rfl rfl rfl
  rw [slotExpiry_scans hrun htest hw]
  refine scan_of_none fun n hn => ?_
  obtain ⟨i, rfl⟩ := chanAfter_surjective s.fsu.pointer n
  rw [helig]
  exact hnone i

end

/-- Settles O16: the scan order is split at the first eligible channel, whose test starts behind those passed over; with
none eligible all sixteen are passed over. -/
theorem roundRobinScan : Obligations.RoundRobinScan := by
  intro s hrun htest hw
  refine ⟨fun k hbefore hk => ⟨_, exec_slotTimerExpiry s, ?_⟩, fun hnone => ⟨_, exec_slotTimerExpiry s, ?_⟩⟩
  · rw [slotExpiry_tests hrun htest hw hbefore hk]
    have hrec := cleared_deferred_clarity s (scanBefore_nodup s.fsu.pointer k)
    obtain ⟨records, hframe⟩ := deferred_frame s.cleared (scanBefore s.fsu.pointer k)
    rw [hframe] at hrec ⊢
    obtain ⟨ht, hl, hc, hquiet, hdue⟩ := startTest_spec
      { s.cleared with fsu.clarity := records, fsu.pointer := nextChan (chanAfter s.fsu.pointer k) }
      (chanAfter s.fsu.pointer k) .roundRobin
    refine ⟨rfl, rfl, ht, rfl, hl, fun i => ?_, hquiet, hdue⟩
    have hi := hrec (chanAfter s.fsu.pointer i)
    simp only [chanAfter_mem_scanBefore] at hi
    refine (hc _).trans ?_
    simp only [(chanAfter_injective s.fsu.pointer).eq_iff]
    by_cases hik : i = k
    · subst hik
      rw [if_pos rfl, if_pos rfl]
      simp [hi]
    · rw [if_neg hik, if_neg hik]
      exact hi
  · rw [slotExpiry_defers hrun htest hw hnone]
    have hrec := cleared_deferred_clarity s (scanOrder_nodup s.fsu.pointer)
    obtain ⟨records, hframe⟩ := deferred_frame s.cleared (scanOrder s.fsu.pointer)
    rw [hframe] at hrec ⊢
    refine ⟨rfl, rfl, htest, rfl, rfl, rfl, fun n => ?_⟩
    simpa only [mem_scanOrder, true_and] using hrec n

end Sys2Proof.Machine
end

section
/-! PROOFS. A test that completes: its outcome in the clarity record, the capture it ends, and the clarity state by the
tables; O17. -/

namespace Sys2Proof.Machine

/-! ### The clarity record of a completed test (R38 to R47) -/

/-- A clarity record with an outcome taken up: classified, or only noted (R38, R45, R47). -/
def State.judgedRec (s : State) (run : TestRun) (k : ClarityRec) : ClarityRec :=
  let ref := s.cfg.active.chans[run.chan].aRef
  let o := s.testOutcome run
  if ref = 0 ∨ o = .overlaid then { k with lastOutcome := o }
  else k.classify s.cfg.active.board o (clarityOf run.amplitude ref)

/-- A capture fails at its end (R45, R46). -/
abbrev State.captureFails (s : State) (run : TestRun) : Prop :=
  s.testOutcome run = .overlaid ∨ s.cfg.pendingCommit = true

theorem classify_fsu_cfg (s : State) (n : Chan) (o : TestOutcome) (c : Nat) :
    (s.classify n o c).fsu = (s.modClarity n fun r => r.classify s.cfg.active.board o c).fsu ∧
      (s.classify n o c).cfg = s.cfg := by
  rw [classify_eq]
  simp only
  generalize hu : (s.modClarity n fun r => r.classify s.cfg.active.board o c) = u
  have hc : u.cfg = s.cfg := by
    subst hu
    rfl
  obtain ⟨-, gc, -, gf⟩ := alertClarity_still u u.fsu.clarity[n].clarity
  split
  · exact ⟨rfl, hc⟩
  · split
    · exact ⟨gf, gc.trans hc⟩
    · exact ⟨gf, gc.trans hc⟩

theorem judge_fsu_cfg (s : State) (run : TestRun) :
    (s.judge run).fsu = (s.modClarity run.chan (s.judgedRec run)).fsu ∧ (s.judge run).cfg = s.cfg := by
  by_cases h : (s.chanPage run.chan).aRef = 0 ∨ s.testOutcome run = .overlaid
  · have hj : s.judge run = _ := if_pos h
    have hr : s.judgedRec run = fun k => { k with lastOutcome := s.testOutcome run } := funext fun k => if_pos h
    rw [hj, hr]
    exact ⟨rfl, rfl⟩
  · have hj : s.judge run = _ := if_neg h
    have hr : s.judgedRec run = fun k => k.classify s.cfg.active.board (s.testOutcome run)
        (clarityOf run.amplitude s.cfg.active.chans[run.chan].aRef) := funext fun k => if_neg h
    rw [hj, hr]
    exact classify_fsu_cfg s _ _ _

/-- A clarity record whose capture has ended (R46). -/
def ClarityRec.captureEnded (k : ClarityRec) (fails : Bool) (a : LU) : ClarityRec :=
  if fails = true then { k with capture := .failed } else { k with capture := .done, captured := some a }

theorem endCapture_fsu_staged (s : State) (n : Chan) (o : TestOutcome) (a : LU) :
    let fails := decide (o = .overlaid ∨ s.cfg.pendingCommit = true)
    (s.endCapture n o a).fsu = (s.modClarity n fun k => k.captureEnded fails a).fsu ∧
      (s.endCapture n o a).cfg.staged = if fails = true then s.cfg.staged else
        { s.cfg.staged with chans := modAt s.cfg.staged.chans n fun p => { p with aRef := a } } := by
  intro fails
  unfold State.endCapture
  by_cases h : o = .overlaid ∨ s.cfg.pendingCommit = true
  · have hf : fails = true := decide_eq_true h
    rw [if_pos h, hf]
    exact ⟨rfl, rfl⟩
  · have hf : fails = false := decide_eq_false h
    rw [if_neg h, hf]
    exact ⟨rfl, rfl⟩

/-- The clarity record of the tested channel after its test (R38 to R47). -/
def State.completedRec (s : State) (run : TestRun) (k : ClarityRec) : ClarityRec :=
  let r := s.judgedRec run { k with testing := false }
  if run.kind = .capture then r.captureEnded (decide (s.captureFails run)) run.amplitude else r

/-- The board after the outcome of a test has been judged, before its capture ends. -/
theorem testOver_judge (s : State) (run : TestRun) :
    ((s.testOver run).judge run).fsu = { s.fsu with
      test := none
      clarity := modAt s.fsu.clarity run.chan fun k => s.judgedRec run { k with testing := false } } ∧
      ((s.testOver run).judge run).cfg = s.cfg := by
  obtain ⟨hf, hc⟩ := judge_fsu_cfg (s.testOver run) run
  refine ⟨hf.trans ?_, hc⟩
  unfold State.testOver State.modClarity
  simp only [modAt_modAt]
  rfl

theorem noticeTest_staged (s : State) : s.noticeTest.cfg.staged = s.cfg.staged := rfl

theorem completed_eq (s : State) (run : TestRun) :
    s.completed run = (if run.kind = .capture then
      ((s.testOver run).judge run).endCapture run.chan (s.testOutcome run) run.amplitude
      else (s.testOver run).judge run).noticeTest := rfl

theorem completed_fsu_staged (s : State) (run : TestRun) :
    (s.completed run).fsu = { s.fsu with
      test := none, clarity := modAt s.fsu.clarity run.chan (s.completedRec run) } ∧
      (s.completed run).cfg.staged = if run.kind = .capture ∧ ¬ s.captureFails run then
        { s.cfg.staged with chans := modAt s.cfg.staged.chans run.chan fun p => { p with aRef := run.amplitude } }
        else s.cfg.staged := by
  obtain ⟨hf, hc⟩ := testOver_judge s run
  rw [completed_eq]
  generalize (s.testOver run).judge run = u at hf hc
  rw [noticeTest_fsu, noticeTest_staged]
  by_cases hk : run.kind = .capture
  · obtain ⟨he, hs⟩ := endCapture_fsu_staged u run.chan (s.testOutcome run) run.amplitude
    have hrec : s.completedRec run = fun k =>
        (s.judgedRec run { k with testing := false }).captureEnded (decide (s.captureFails run)) run.amplitude :=
      funext fun k => if_pos hk
    rw [hc] at he hs
    rw [if_pos hk, he, hs, hrec]
    unfold State.modClarity
    rw [hf]
    simp only [modAt_modAt, hk, true_and, decide_eq_true_eq, ite_not]
  · have hrec : s.completedRec run = fun k => s.judgedRec run { k with testing := false } :=
      funext fun k => if_neg hk
    rw [if_neg hk, hrec, if_neg fun h => hk h.1, hc]
    exact ⟨hf, rfl⟩

/-! ### Its fields -/

theorem testOutcome_eq (s : State) (run : TestRun) :
    let ref := s.cfg.active.chans[run.chan].aRef
    let b := s.cfg.active.board
    let ratio := min 255 (run.amplitude.toNat * 100 / ref.toNat)
    s.testOutcome run = if ref = 0 then (if run.amplitude = 0 then .dark else .good)
      else if 150 < ratio then .overlaid else if ratio < 5 then .dark
      else if ratio < b.blindB.val then .lowBlind else if ratio < b.soiledW.val then .lowSoiled else .good := rfl

section
variable (s : State) (run : TestRun) (k : ClarityRec)

/-- An outcome touches neither the testing flag nor the defer count, nor what a capture has left (R38). -/
theorem judgedRec_kept : (s.judgedRec run k).testing = k.testing ∧ (s.judgedRec run k).deferCount = k.deferCount ∧
    (s.judgedRec run k).capture = k.capture ∧ (s.judgedRec run k).captured = k.captured ∧
    (s.judgedRec run k).lastOutcome = s.testOutcome run := by
  unfold State.judgedRec ClarityRec.classify
  simp only
  split <;> exact ⟨rfl, rfl, rfl, rfl, rfl⟩

theorem captureEnded_eq (fails : Bool) (a : LU) :
    k.captureEnded fails a = { k with
      capture := if fails = true then .failed else .done
      captured := if fails = true then k.captured else some a } := by
  unfold ClarityRec.captureEnded
  cases fails <;> rfl

/-- The end of a test changes a record as its outcome does, but for what a capture leaves (R38, R46). -/
theorem completedRec_eq :
    s.completedRec run k = { s.judgedRec run { k with testing := false } with
      capture := if run.kind = .capture then (if s.captureFails run then .failed else .done) else k.capture
      captured := if run.kind = .capture ∧ ¬ s.captureFails run then some run.amplitude else k.captured } := by
  obtain ⟨-, -, hcapture, hcaptured, -⟩ := judgedRec_kept s run { k with testing := false }
  change _ = k.capture at hcapture
  change _ = k.captured at hcaptured
  unfold State.completedRec
  generalize s.judgedRec run { k with testing := false } = r at hcapture hcaptured ⊢
  by_cases hk : run.kind = .capture
  · by_cases hf : s.captureFails run <;> simp [hk, hf, captureEnded_eq, hcaptured]
  · simp only [hk, if_false, false_and, ← hcapture, ← hcaptured]

/-- Without a classified outcome only the last outcome is noted (R45, R47). -/
theorem judgedRec_noted (h : ¬ (s.cfg.active.chans[run.chan].aRef ≠ 0 ∧ s.testOutcome run ≠ .overlaid)) :
    s.judgedRec run k = { k with lastOutcome := s.testOutcome run } := by
  refine if_pos ?_
  by_contra hn
  exact h (not_or.1 hn)

theorem judgedRec_classified (h : s.cfg.active.chans[run.chan].aRef ≠ 0 ∧ s.testOutcome run ≠ .overlaid) :
    s.judgedRec run k = k.classify s.cfg.active.board (s.testOutcome run)
      (clarityOf run.amplitude s.cfg.active.chans[run.chan].aRef) := if_neg (not_or.2 h)

end

theorem clarityOf_toNat (a ref : LU) : (BitVec.ofNat 8 (clarityOf a ref)).toNat = clarityOf a ref := by
  have h : clarityOf a ref ≤ 255 := Nat.min_le_left _ _
  rw [BitVec.toNat_ofNat]
  omega

/-! ### The clarity state (R41, R42) -/

theorem clarityAfter_tables (b : BoardPage) (old : Clarity) (dark good : Byte) (c : Nat) :
    let w := b.soiledW.val
    let low := b.blindB.val
    let h := b.hystH.val
    let level : Clarity := if c < low then .blind else if c < w then .soiled else .clean
    (old = .broken → clarityAfter b old dark good c = if b.kc.val ≤ good.toNat then level else .broken) ∧
    (old ≠ .broken → b.ka.val ≤ dark.toNat → clarityAfter b old dark good c = .broken) ∧
    (dark.toNat < b.ka.val →
      (old = .untested ∨ old = .clean → clarityAfter b old dark good c = level) ∧
      (old = .soiled → clarityAfter b old dark good c =
        if c < low then .blind else if c < w then .soiled else if w + h ≤ c then .clean else .soiled) ∧
      (old = .blind → low < w → clarityAfter b old dark good c =
        if c < low + h then .blind else if c < w then .soiled else .clean)) := by
  intro w low h level
  refine ⟨?_, fun hne hd => ?_, fun hd => ⟨?_, ?_, ?_⟩⟩
  · rintro rfl
    rfl
  · cases old with
    | broken => exact absurd rfl hne
    | _ => exact if_pos hd
  · rintro (rfl | rfl) <;> exact if_neg (Nat.not_le.2 hd)
  · rintro rfl
    refine (if_neg (Nat.not_le.2 hd)).trans ?_
    refine if_congr Iff.rfl rfl ?_
    by_cases hw : c < w
    · rw [if_pos hw]
      exact if_neg (by omega)
    · exact (if_neg hw).symm
  · rintro rfl -
    exact if_neg (Nat.not_le.2 hd)

/-! ### The completion -/

theorem supervised_mask (c : Channel) (page : ChannelPage) (t : Nat) (old new : Clarity) :
    (c.supervised page t old new).mask = c.mask := by
  unfold Channel.supervised
  split
  · rfl
  · exact hold_mask c page t _ _

/-- Supervision and the Configuration Store after a test completes (R38, R178). -/
theorem completion_spec {s : State} {run : TestRun} {t : State} (h : t = s.lcuEvent run.chan fun s => s.completed run) :
    t.fsu = { s.fsu with test := none, clarity := modAt s.fsu.clarity run.chan (s.completedRec run) } ∧
      (t.cfg.staged = if run.kind = .capture ∧ ¬ s.captureFails run then
        { s.cfg.staged with chans := modAt s.cfg.staged.chans run.chan fun p => { p with aRef := run.amplitude } }
        else s.cfg.staged) ∧
      t.cfg.testQuiet = true ∧ s.DueAfter t := by
  have hz : ZStep (s.completed run) t := by
    rw [h]
    exact lcuEvent_zstep s run.chan fun s => s.completed run
  obtain ⟨hf, hs⟩ := completed_fsu_staged s run
  have hstaged : t.cfg.staged = (s.completed run).cfg.staged := by
    have e := congrArg Cfg.staged hz.cfg
    exact e
  have hquiet : t.cfg.testQuiet = true := by
    rw [hz.testQuiet]
    show (s.completed run).fsu.test.isNone = true
    rw [hf]
    rfl
  exact ⟨hz.fsu.trans hf, hstaged.trans hs, hquiet, dueAfter_of_testQuiet s (hz.due (completed_due s run).dueInv) hquiet⟩

/-- Settles O17: the record of the tested channel is the one of `completedRec`, and its fields are read off it. -/
theorem testCompletes : Obligations.TestCompletes := by
  refine ⟨fun s => ⟨fun h => ?_, fun run hrun => ?_⟩, clarityAfter_tables⟩
  · refine congrArg Host.Outcome.next ?_
    unfold State.completeTest
    rw [h]
  intro n ref b ratio o classified k fails
  refine ⟨_, exec_testWindowExpiry hrun, ?_⟩
  obtain ⟨hfsu, hstaged, hquiet, hdue⟩ := completion_spec (s := s) (run := run) rfl
  obtain ⟨hlcu, -⟩ := completed_spec (s := s) (run := run) rfl
  generalize State.lcuEvent s run.chan _ = t at hfsu hstaged hquiet hdue hlcu ⊢
  have hmask : t.lcu[n].mask = false := by
    rw [hlcu, modAt_same, supervised_mask]
  have hrec : t.fsu.clarity[n] = s.completedRec run k := by
    rw [hfsu]
    exact modAt_same _ _ _
  have hother (m : Chan) (hm : m ≠ n) : t.fsu.clarity[m] = s.fsu.clarity[m] := by
    rw [hfsu]
    exact modAt_other _ _ hm
  have ho : s.testOutcome run = o := testOutcome_eq s run
  obtain ⟨htesting, hdefer, -, -, hout⟩ := judgedRec_kept s run { k with testing := false }
  have hnoted := judgedRec_noted s run { k with testing := false }
  have hclassified := judgedRec_classified s run { k with testing := false }
  have hlastC : (BitVec.ofNat 8 ratio).toNat = ratio := clarityOf_toNat run.amplitude ref
  rw [completedRec_eq] at hrec
  generalize s.judgedRec run _ = r at htesting hdefer hout hnoted hclassified hrec
  have hfails : s.captureFails run ↔ fails := by rw [State.captureFails, ho]
  rw [ho] at hnoted hclassified hout
  rw [hrec]
  refine ⟨by rw [hfsu], fun m => ?_, hmask, hquiet, hdue, by rw [hfsu], by rw [hfsu], by rw [hfsu], hother, hdefer,
    fun h => if_neg ?_, htesting, hout, fun h => ?_, fun h => ?_, fun hk => ⟨if_neg hk, ?_⟩, fun hk hf => ⟨?_, ?_⟩,
    fun hk hf => ⟨?_, ?_, ?_⟩⟩
  · unfold State.emitter
    rw [hfsu]
  · rintro ⟨hk, hf⟩
    exact h.elim (fun hne => hne hk) fun h => hf (hfails.2 h)
  · rw [hnoted h]
    exact ⟨rfl, rfl, rfl, rfl⟩
  · rw [hclassified h]
    exact ⟨hlastC, rfl, rfl, rfl⟩
  · rw [hstaged, if_neg fun h => hk h.1]
  · exact (if_pos hk).trans (if_pos (hfails.2 hf))
  · rw [hstaged, if_neg fun h => h.2 (hfails.2 hf)]
  · exact (if_pos hk).trans (if_neg fun h => hf (hfails.1 h))
  · exact if_pos ⟨hk, fun h => hf (hfails.1 h)⟩
  · rw [hstaged, if_pos ⟨hk, fun h => hf (hfails.1 h)⟩]

end Sys2Proof.Machine
end

section
/-! PROOFS. TEST and CAPTURE by the lines of their tables; O50. -/

namespace Sys2Proof.Machine

/-! ### The place of a request (R30) -/

theorem placeOf_none {q : List Request} {n : Chan} (h : n ∉ q.map (·.chan)) : placeOf q n = none := by
  unfold placeOf
  rw [List.findIdx?_eq_none_iff]
  intro r hr
  exact decide_eq_false fun e => h (e ▸ List.mem_map_of_mem hr)

/-- Behind the head of a queue of distinct channels stand requests for other channels (R28). -/
theorem chan_ne_head {x r : Request} {xs : List Request} (hx : x.chan ∉ xs.map (·.chan)) (hr : r ∈ xs) :
    r.chan ≠ x.chan := fun e => hx (List.mem_map.2 ⟨r, hr, e⟩)

/-- In a queue of distinct channels a request is found in its own place (R28). -/
theorem placeOf_some {q : List Request} {i : Nat} {r : Request} (hnd : (q.map (·.chan)).Nodup) (h : q[i]? = some r) :
    placeOf q r.chan = some i := by
  induction q generalizing i with
  | nil => cases h
  | cons x xs ih =>
    obtain ⟨hx, hxs⟩ := List.nodup_cons.1 hnd
    unfold placeOf
    rw [List.findIdx?_cons]
    cases i with
    | zero =>
      obtain rfl : x = r := Option.some.inj h
      exact if_pos (decide_eq_true rfl)
    | succ i =>
      have hne : x.chan ≠ r.chan := (chan_ne_head hx (List.mem_of_getElem? h)).symm
      refine (if_neg (by simp [hne])).trans ?_
      rw [show xs.findIdx? _ = some i from ih hxs h]
      rfl

/-- A TEST request that becomes the CAPTURE request of its channel does so in its place (R31). -/
theorem capture_in_place {q : List Request} {i : Nat} {n : Chan} {k : ReqKind} (hnd : (q.map (·.chan)).Nodup)
    (h : q[i]? = some ⟨n, k⟩) :
    (q.map fun r => if r.chan = n then ⟨n, .capture⟩ else r) = q.set i ⟨n, .capture⟩ := by
  induction q generalizing i with
  | nil => cases h
  | cons x xs ih =>
    obtain ⟨hx, hxs⟩ := List.nodup_cons.1 hnd
    cases i with
    | zero =>
      obtain rfl : x = ⟨n, k⟩ := Option.some.inj h
      have hrest : (xs.map fun r => if r.chan = n then ⟨n, .capture⟩ else r) = xs :=
        (List.map_congr_left fun r hr => if_neg (chan_ne_head hx hr)).trans (List.map_id xs)
      rw [List.map_cons, hrest, if_pos rfl]
      rfl
    | succ i =>
      have hne : x.chan ≠ n := (chan_ne_head hx (List.mem_of_getElem? h)).symm
      rw [List.map_cons, ih hxs h, if_neg hne]
      rfl

/-- A channel's request is of one kind (R28). -/
theorem capture_not_queued {q : List Request} {i : Nat} {n : Chan} (hnd : (q.map (·.chan)).Nodup)
    (h : q[i]? = some ⟨n, .test⟩) : q.contains ⟨n, .capture⟩ = false := by
  rw [← Bool.not_eq_true, List.contains_iff_mem]
  intro hmem
  have := List.inj_on_of_nodup_map hnd (List.mem_of_getElem? h) hmem rfl
  cases this

/-! ### Answers -/

/-- A CONTROL request that does nothing but answer. -/
theorem control_answers {c : Instr} {s : State} {p : Port} {sub : Byte} {page : BitVec 4} {v : Word} {rep : Reply}
    {body : State → State} (hexec : exec c s = .next (s.control p sub page v body)) (h : s.liveReady p = true)
    (hb : ∀ l : Vector PortRec 4, body { s with lnk := l } = State.setSlot { s with lnk := l } p rep) :
    AnswersOnly c s p rep := by
  obtain ⟨l, he, ht⟩ := control_ready sub page v body h
  obtain ⟨l', hs, ht'⟩ := ht.setSlot rep
  refine ⟨l', ?_, ht'⟩
  rw [hexec, he, hb, hs]

/-- A CONTROL request that changes supervision and answers. -/
theorem control_supervises {c : Instr} {s : State} {p : Port} {sub : Byte} {page : BitVec 4} {v : Word} {rep : Reply}
    {body : State → State} (x : Fsu) (hexec : exec c s = .next (s.control p sub page v body))
    (h : s.liveReady p = true)
    (hb : ∀ l : Vector PortRec 4, body { s with lnk := l } = State.setSlot { s with fsu := x, lnk := l } p rep) :
    ∃ l, exec c s = .next { s with fsu := x, lnk := l } ∧ TookFrame s.lnk l p s.lnk[p] rep := by
  obtain ⟨l, he, ht⟩ := control_ready sub page v body h
  refine ⟨_, ?_, ht.replied rep⟩
  rw [hexec, he, hb]
  rfl

/-! ### TEST (R30) -/

section
variable {s : State} {p : Port} {v : Word} {n : Chan}

theorem testBody_badValue (h : 15 < v.toNat) : s.testBody p v = s.setSlot p ⟨.badValue, 0⟩ := by
  unfold State.testBody
  rw [chanOperand_none h]

variable (hn : v.toNat = n.val)
include hn

theorem testBody_refused (h : s.cfg.active.chans[n].target = .off ∨ s.cfg.active.chans[n].aRef = 0) :
    s.testBody p v = s.setSlot p ⟨.refusedState, 0⟩ := by
  unfold State.testBody
  rw [chanOperand_of_eq hn]
  exact if_pos h

variable (ht : s.cfg.active.chans[n].target ≠ .off) (ha : s.cfg.active.chans[n].aRef ≠ 0)
include ht ha

/-- A channel that can have a test: a request already queued gives its place, and otherwise one is queued where there is
room. -/
theorem testBody_permitted : s.testBody p v = match placeOf s.fsu.queue n with
    | some i => s.setSlot p (placeReply i)
    | none =>
      if 4 ≤ s.fsu.queue.length then s.setSlot p ⟨.busy, 0⟩
      else ({ s with fsu.queue := s.fsu.queue ++ [⟨n, .test⟩] } : State).setSlot p
        (placeReply s.fsu.queue.length) := by
  unfold State.testBody
  rw [chanOperand_of_eq hn]
  exact if_neg (not_or.2 ⟨ht, ha⟩)

theorem testBody_queued {i : Nat} {r : Request} (hnd : (s.fsu.queue.map (·.chan)).Nodup)
    (hi : s.fsu.queue[i]? = some r) (hr : r.chan = n) : s.testBody p v = s.setSlot p (placeReply i) := by
  subst hr
  rw [testBody_permitted hn ht ha, placeOf_some hnd hi]

theorem testBody_full (hq : n ∉ s.fsu.queue.map (·.chan)) (hl : 4 ≤ s.fsu.queue.length) :
    s.testBody p v = s.setSlot p ⟨.busy, 0⟩ := by
  rw [testBody_permitted hn ht ha, placeOf_none hq]
  exact if_pos hl

theorem testBody_appends (hq : n ∉ s.fsu.queue.map (·.chan)) (hl : s.fsu.queue.length < 4) :
    s.testBody p v = State.setSlot { s with fsu.queue := s.fsu.queue ++ [⟨n, .test⟩] } p
      (placeReply s.fsu.queue.length) := by
  rw [testBody_permitted hn ht ha, placeOf_none hq]
  exact if_neg (Nat.not_le.2 hl)

end

theorem exec_test (s : State) (p : Port) (page : BitVec 4) (v : Word) :
    exec (.test p page v) s = .next (s.control p 2 page v fun s => s.testBody p v) := rfl

/-! ### CAPTURE (R31) -/

section
variable {s : State} {p : Port} {v : Word} {n : Chan}

theorem captureBody_badValue (h : 15 < v.toNat) : s.captureBody p v = s.setSlot p ⟨.badValue, 0⟩ := by
  unfold State.captureBody
  rw [chanOperand_none h]

theorem captureBody_eq (hn : v.toNat = n.val) : s.captureBody p v =
    if s.cfg.claim ≠ some p then s.setSlot p ⟨.noClaim, 0⟩
    else if s.cfg.pendingCommit then s.setSlot p ⟨.pending, 0⟩
    else if s.cfg.active.chans[n].target = .off then s.setSlot p ⟨.refusedState, 0⟩
    else if s.fsu.clarity[n].capture = .testing then s.setSlot p ⟨.busy, 0⟩
    else s.queueCapture p n := by
  unfold State.captureBody
  rw [chanOperand_of_eq hn]
  rfl

theorem captureBody_permitted (hn : v.toNat = n.val) (hc : s.cfg.claim = some p) (hp : s.cfg.pendingCommit = false)
    (ht : s.cfg.active.chans[n].target ≠ .off) (hk : s.fsu.clarity[n].capture ≠ .testing) :
    s.captureBody p v = s.queueCapture p n := by
  rw [captureBody_eq hn, if_neg (not_not.2 hc), hp, if_neg Bool.false_ne_true, if_neg ht, if_neg hk]

/-- The capture of a channel noted in its clarity record (R31). -/
def Fsu.captureNoted (f : Fsu) (n : Chan) (q : List Request) : Fsu :=
  { f with queue := q, clarity := modAt f.clarity n fun k => { k with capture := .queued, captured := none } }

theorem queueCapture_queued {i : Nat} (hnd : (s.fsu.queue.map (·.chan)).Nodup)
    (h : s.fsu.queue[i]? = some ⟨n, .capture⟩) : s.queueCapture p n = s.setSlot p (placeReply i) := by
  have hmem : s.fsu.queue.contains ⟨n, .capture⟩ = true := List.contains_iff_mem.2 (List.mem_of_getElem? h)
  unfold State.queueCapture
  rw [placeOf_some hnd h]
  exact if_pos hmem

theorem queueCapture_replaces {i : Nat} (hnd : (s.fsu.queue.map (·.chan)).Nodup)
    (h : s.fsu.queue[i]? = some ⟨n, .test⟩) :
    s.queueCapture p n =
      State.setSlot { s with fsu := s.fsu.captureNoted n (s.fsu.queue.set i ⟨n, .capture⟩) } p (placeReply i) := by
  unfold State.queueCapture
  rw [placeOf_some hnd h, ← capture_in_place hnd h]
  exact if_neg (Bool.eq_false_iff.1 (capture_not_queued hnd h))

theorem queueCapture_full (h : n ∉ s.fsu.queue.map (·.chan)) (hl : 4 ≤ s.fsu.queue.length) :
    s.queueCapture p n = s.setSlot p ⟨.busy, 0⟩ := by
  unfold State.queueCapture
  rw [placeOf_none h]
  exact if_pos hl

theorem queueCapture_appends (h : n ∉ s.fsu.queue.map (·.chan)) (hl : s.fsu.queue.length < 4) :
    s.queueCapture p n =
      State.setSlot { s with fsu := s.fsu.captureNoted n (s.fsu.queue ++ [⟨n, .capture⟩]) } p
        (placeReply s.fsu.queue.length) := by
  unfold State.queueCapture
  rw [placeOf_none h]
  exact if_neg (Nat.not_le.2 hl)

end

theorem exec_capture (s : State) (p : Port) (page : BitVec 4) (v : Word) :
    exec (.capture p page v) s = .next (s.control p 3 page v fun s => s.captureBody p v) := rfl

/-- Settles O50: each line of the tables is a line of the body that a frame of a LIVE port runs. -/
theorem testAndCaptureAreQueued : Obligations.TestAndCaptureAreQueued := by
  intro s p page v h
  have tests := fun rep => control_answers (rep := rep) (exec_test s p page v) h
  have captures := fun rep => control_answers (rep := rep) (exec_capture s p page v) h
  refine ⟨fun hv => tests _ fun l => testBody_badValue hv, fun n hn => ⟨fun hr => ?_, fun ht ha => ⟨?_, ?_, ?_⟩⟩,
    fun hv => captures _ fun l => captureBody_badValue hv, fun n hn => ⟨fun hc => captures _ fun l => ?_,
      fun hc hp => captures _ fun l => ?_, fun hc hp => ⟨fun ht => captures _ fun l => ?_,
        fun ht hk => captures _ fun l => ?_, fun ht hk => ?_⟩⟩⟩
  · exact tests _ fun l => testBody_refused (s := { s with lnk := l }) hn hr
  · exact fun i r hnd hi hr => tests _ fun l => testBody_queued (s := { s with lnk := l }) hn ht ha hnd hi hr
  · exact fun hq hl => tests _ fun l => testBody_full (s := { s with lnk := l }) hn ht ha hq hl
  · exact fun hq hl => control_supervises { s.fsu with queue := s.fsu.queue ++ [⟨n, .test⟩] } (exec_test s p page v) h
      fun l => testBody_appends (s := { s with lnk := l }) hn ht ha hq hl
  · exact (captureBody_eq hn).trans (if_pos hc)
  · exact (captureBody_eq hn).trans ((if_neg (not_not.2 hc)).trans (if_pos hp))
  · exact (captureBody_eq hn).trans ((if_neg (not_not.2 hc)).trans ((if_neg (Bool.eq_false_iff.1 hp)).trans
      (if_pos ht)))
  · exact (captureBody_eq hn).trans ((if_neg (not_not.2 hc)).trans ((if_neg (Bool.eq_false_iff.1 hp)).trans
      ((if_neg ht).trans (if_pos hk))))
  · have hbody (l : Vector PortRec 4) :
        State.captureBody { s with lnk := l } p v = State.queueCapture { s with lnk := l } p n :=
      captureBody_permitted hn hc hp ht hk
    have queues := fun rep q => control_supervises (rep := rep) (s.fsu.captureNoted n q) (exec_capture s p page v) h
    exact ⟨fun i hnd hi => captures _ fun l => (hbody l).trans (queueCapture_queued hnd hi),
      fun i hnd hi => queues _ _ fun l => (hbody l).trans (queueCapture_replaces (s := { s with lnk := l }) hnd hi),
      fun hq hl => captures _ fun l => (hbody l).trans (queueCapture_full hq hl),
      fun hq hl => queues _ _ fun l => (hbody l).trans (queueCapture_appends (s := { s with lnk := l }) hq hl)⟩

end Sys2Proof.Machine
end

section
/-! PROOFS. The invariants of islands and views; how couplers resolve and join; islands, feed sets and the answers of TOP
as statements about the state; O55, O44 and O45. -/

namespace Sys2Proof.Machine

/-- Settles O55: RESET meets the three invariants, and every other command keeps each. -/
theorem stepKeepsIslandsAndViews : Obligations.StepKeepsIslandsAndViews := by
  intro s t h
  obtain rfl | ⟨rest, rfl⟩ | ⟨rest, k⟩ := step_cases h
  · exact ⟨id, id, id⟩
  · obtain ⟨hi, -, -, -, -, hv, hd⟩ := powerOn_inv { s with pending := rest }
    exact ⟨fun _ => hi, fun _ => hv, fun _ => hd⟩
  · exact ⟨k.islands, k.views, k.due⟩

/-! ### Couplers (R51, R57, R58) -/

theorem leftCoupler_iff : ∀ (p : Port) (j : Coupler), leftCoupler p = some j ↔ p.val = j.val + 1 := by decide

theorem rightCoupler_iff : ∀ (p : Port) (j : Coupler), rightCoupler p = some j ↔ p.val = j.val := by decide

theorem adjacent_iff : ∀ (p : Port) (j : Coupler),
    adjacent p j = true ↔ leftCoupler p = some j ∨ rightCoupler p = some j := by decide

theorem resolve_transit {l r : Position} (h : l = .transit ∨ r = .transit) : resolve true l r = .transit := if_pos h

theorem joins_iff (x : Resolved) :
    x.joins = true ↔ x = .closed ∨ x = .transit ∨ x = .disputed ∨ x = .unknown := by
  cases x <;> simp [Resolved.joins]

/-- Settles O44, line by line of R57 and R58. -/
theorem couplersResolveAndJoin : Obligations.CouplersResolveAndJoin := by
  refine ⟨fun _ _ => rfl, fun _ _ => resolve_transit, rfl, ?_, rfl, rfl, rfl, rfl, joins_iff,
    fun p j => ⟨leftCoupler_iff p j, rightCoupler_iff p j, adjacent_iff p j⟩, fun s j => ⟨rfl, ?_⟩⟩
  · rintro v (rfl | rfl) <;> exact ⟨rfl, rfl⟩
  · intro p q hp hq
    have hl : p = leftSect j := Fin.ext hp
    have hr : q = rightSect j := Fin.ext hq
    subst hl hr
    rfl

/-! ### Islands and feed sets (R59, R63, R64) -/

/-- The name of an island is a section of it, and none of its sections is lower (R59). -/
theorem islandNames_lowest : ∀ (joins : Coupler → Bool) (a : Sect),
    (islandNames joins)[a] = (islandNames joins)[(islandNames joins)[a]] ∧
      ∀ b : Sect, (islandNames joins)[a] = (islandNames joins)[b] → (islandNames joins)[a] ≤ b := by decide

section
variable (s : State)

theorem sameIsland_iff (a b : Sect) : s.sameIsland a b = true ↔ s.top.islandName[a] = s.top.islandName[b] :=
  decide_eq_true_iff

theorem mem_islandsMeeting (r : SectSet) (k : Sect) :
    mem (s.islandsMeeting r) k = true ↔ ∃ m : Sect, mem r m = true ∧ s.sameIsland k m = true := by
  unfold State.islandsMeeting
  simp [mem_setOf]

/-- The islands that meet a set of sections meet no further island. -/
theorem islandsMeeting_twice (r : SectSet) : s.islandsMeeting (s.islandsMeeting r) = s.islandsMeeting r := by
  refine set_ext fun k => Bool.eq_iff_iff.2 ?_
  simp only [mem_islandsMeeting, sameIsland_iff]
  constructor
  · rintro ⟨m, ⟨n, hn, hmn⟩, hkm⟩
    exact ⟨n, hn, hkm.trans hmn⟩
  · rintro ⟨m, hm, hkm⟩
    exact ⟨m, ⟨m, hm, rfl⟩, hkm⟩

theorem mem_feedSet (r : SectSet) (i : Incomer) : mem (s.feedSet r) i = true ↔
    s.cfg.active.board.incomer[i] = true ∧ ∃ m : Sect, mem r m = true ∧ s.sameIsland i m = true := by
  unfold State.feedSet State.incomerPresent
  rw [mem_setOf, Bool.and_eq_true, mem_islandsMeeting, and_comm]

theorem live_iff (f : IncomerSet) : s.live f = true ↔ ∃ i : Incomer, mem f i = true ∧ s.cp[i] = true := by
  simp [State.live]

/-! ### Breakers and trip lines (R65, R66, R106) -/

theorem tripLineOf_incomer : ∀ i : Incomer, tripLineOf (breakerOfIncomer i) = .ti i := by decide

theorem tripLineOf_coupler : ∀ j : Coupler, tripLineOf (breakerOfCoupler j) = .tc j := by decide

/-- A breaker is that of an incomer or of a coupler. -/
theorem breaker_cases : ∀ b : Fin 7, (∃ i, b = breakerOfIncomer i) ∨ ∃ j, b = breakerOfCoupler j := by decide

theorem tripLineOf_injective : Function.Injective tripLineOf := by
  intro a b
  revert a b
  decide

theorem breaker?_tripLineOf : ∀ b : Fin 7, (tripLineOf b).breaker? = some b := by decide

theorem mem_targetsOf (b : BreakerSet) (i : Fin 7) : tripLineOf i ∈ targetsOf b ↔ mem b i = true := by
  unfold targetsOf
  rw [List.mem_map_of_injective tripLineOf_injective]
  simp

theorem targetsOf_nodup (b : BreakerSet) : (targetsOf b).Nodup :=
  ((List.nodup_finRange 7).filter _).map tripLineOf_injective

theorem ut_notMem_targetsOf (b : BreakerSet) (i : Incomer) : .ut i ∉ targetsOf b := by
  intro h
  obtain ⟨x, -, hx⟩ := List.mem_map.1 h
  have hb := breaker?_tripLineOf x
  rw [hx] at hb
  cases hb

theorem mem_breakersOf (ts : List Target) (b : Fin 7) : mem (breakersOf ts) b = true ↔ tripLineOf b ∈ ts := by
  have key (t : Target) : t.breaker? = some b ↔ t = tripLineOf b := by
    constructor
    · intro h
      cases t with
      | ti k => rw [← Option.some.inj h]; exact (tripLineOf_incomer k).symm
      | tc j => rw [← Option.some.inj h]; exact (tripLineOf_coupler j).symm
      | ut k => cases h
    · rintro rfl
      exact breaker?_tripLineOf b
  unfold breakersOf
  simp [mem_setOf, key]

theorem mem_sideSet_incomer (k : Sect) (x : Option Coupler) (i : Incomer) :
    mem (s.sideSet k x) (breakerOfIncomer i) = true ↔ i = k ∧ s.cfg.active.board.incomer[i] = true := by
  unfold State.sideSet
  rw [mem_setOf, tripLineOf_incomer]
  exact (Bool.and_eq_true _ _).to_iff.trans (and_congr decide_eq_true_iff Iff.rfl)

theorem mem_sideSet_coupler (k : Sect) (x : Option Coupler) (j : Coupler) :
    mem (s.sideSet k x) (breakerOfCoupler j) = true ↔
      (k.val = j.val ∨ k.val = j.val + 1) ∧ s.joined j = true ∧ x ≠ some j := by
  unfold State.sideSet
  rw [mem_setOf, tripLineOf_coupler]
  simp only [Bool.and_eq_true, decide_eq_true_eq, adjacent_iff, leftCoupler_iff, rightCoupler_iff, and_assoc,
    or_comm (a := k.val = j.val)]

theorem mem_boundarySet_incomer (r : SectSet) (i : Incomer) :
    mem (s.boundarySet r) (breakerOfIncomer i) = true ↔ mem r i = true ∧ s.cfg.active.board.incomer[i] = true := by
  unfold State.boundarySet
  rw [mem_setOf, tripLineOf_incomer]
  exact (Bool.and_eq_true _ _).to_iff

theorem mem_boundarySet_coupler (r : SectSet) (j : Coupler) :
    mem (s.boundarySet r) (breakerOfCoupler j) = true ↔
      s.joined j = true ∧ ((mem r (leftSect j) = true ∧ mem r (rightSect j) = false) ∨
        (mem r (leftSect j) = false ∧ mem r (rightSect j) = true)) := by
  unfold State.boundarySet
  rw [mem_setOf, tripLineOf_coupler]
  refine (Bool.and_eq_true _ _).to_iff.trans (and_congr_right fun _ => ?_)
  cases mem r (leftSect j) <;> cases mem r (rightSect j) <;> simp

/-! ### The answers of TOP (R67 to R70) -/

theorem farSide_right {r : SectSet} {j : Coupler} (hl : mem r (leftSect j) = true) (hr : mem r (rightSect j) = false) :
    s.farSide r j = some (rightSect j, s.sideSet (rightSect j) (some j)) := by
  unfold State.farSide
  rw [hl, hr]

theorem farSide_left {r : SectSet} {j : Coupler} (hl : mem r (leftSect j) = false) (hr : mem r (rightSect j) = true) :
    s.farSide r j = some (leftSect j, s.sideSet (leftSect j) (some j)) := by
  unfold State.farSide
  rw [hl, hr]

theorem farSide_none {r : SectSet} {j : Coupler} (h : mem r (leftSect j) = mem r (rightSect j)) :
    s.farSide r j = none := by
  unfold State.farSide
  rw [h]
  cases mem r (rightSect j) <;> rfl

theorem mem_locationRegion_sect (a m : Sect) : mem (locationRegion (.sect a)) m = true ↔ m = a :=
  (mem_single a m).symm ▸ decide_eq_true_iff

theorem mem_locationRegion_coupler (j : Coupler) (m : Sect) :
    mem (locationRegion (.coupler j)) m = true ↔ m = leftSect j ∨ m = rightSect j := by
  unfold locationRegion
  rw [mem_or, mem_single, mem_single, Bool.or_eq_true, decide_eq_true_iff, decide_eq_true_iff]

theorem mem_allOnes {n : Nat} (i : Fin n) : mem (BitVec.allOnes n) i = true := by simp [mem]

theorem mem_incomersIn (r : SectSet) (b : Fin 7) : mem (s.incomersIn r) b = true ↔
    ∃ i : Incomer, b = breakerOfIncomer i ∧ s.cfg.active.board.incomer[i] = true ∧ mem r i = true := by
  unfold State.incomersIn State.incomerPresent
  rw [mem_setOf]
  obtain ⟨i, rfl⟩ | ⟨j, rfl⟩ := breaker_cases b
  · have hi : (breakerOfIncomer i).val < 4 := i.isLt
    rw [dif_pos hi]
    constructor
    · intro h
      obtain ⟨hm, hp⟩ := Bool.and_eq_true_iff.1 h
      exact ⟨i, rfl, hp, hm⟩
    · rintro ⟨k, hk, hp, hm⟩
      obtain rfl : i = k := Fin.ext (Fin.mk.inj_iff.1 hk)
      exact Bool.and_eq_true_iff.2 ⟨hm, hp⟩
  · have hj : ¬ (breakerOfCoupler j).val < 4 := by simp [breakerOfCoupler]
    rw [dif_neg hj]
    refine iff_of_false Bool.false_ne_true ?_
    rintro ⟨k, hk, -⟩
    exact hj (hk ▸ k.isLt)

theorem mem_regionTrips (sc : Scope) (r : SectSet) (b : Fin 7) : mem (s.regionTrips sc r) b = true ↔
    if sc = .sectional then mem (s.boundarySet r) b = true
    else ∃ i : Incomer, b = breakerOfIncomer i ∧ s.cfg.active.board.incomer[i] = true ∧ mem r i = true := by
  cases sc
  · exact (if_pos rfl).symm.to_iff
  · rw [if_neg (by decide)]; exact mem_incomersIn s r b
  · rw [if_neg (by decide)]; exact mem_incomersIn s r b

theorem tripAnswer_region (sc : Scope) (r : SectSet) : (s.tripAnswer sc r).region = r := by
  unfold State.tripAnswer
  simp only
  split <;> rfl

/-- Every answer has the trip set, the snapshot and the FALLBACK flag that go with its region (R67 to R69). -/
theorem tripAnswer_answersFor (sc : Scope) (r : SectSet) : s.AnswersFor sc (s.tripAnswer sc r) := by
  have hown := mem_regionTrips s sc r
  have hempty : s.regionTrips sc r = 0 ↔ ∀ b, ¬ mem (s.regionTrips sc r) b = true := by
    rw [← not_exists, ← ne_zero_iff_mem, not_not]
  unfold State.AnswersFor
  simp only [tripAnswer_region, ← hown]
  unfold State.tripAnswer
  simp only
  by_cases h0 : s.regionTrips sc r = 0
  · rw [if_pos h0]
    refine ⟨iff_of_true rfl (hempty.1 h0), fun b => ?_, mem_islandsMeeting s r⟩
    rw [if_pos rfl, mem_incomersIn]
    simp only [mem_allOnes]
  · rw [if_neg h0]
    refine ⟨iff_of_false Bool.false_ne_true fun h => h0 (hempty.2 h), fun b => ?_, mem_islandsMeeting s r⟩
    rw [if_neg Bool.false_ne_true]

theorem initialAnswer_region (loc : Location) (sc : Scope) (m : Sect) :
    mem (s.initialAnswer loc sc).region m = true ↔
      match sc, loc with
      | .sectional, .sect a => m = a
      | .sectional, .coupler j => m.val = j.val ∨ m.val = j.val + 1
      | .island, .sect a => s.sameIsland m a = true
      | .island, .coupler j => s.sameIsland m (leftSect j) = true ∨ s.sameIsland m (rightSect j) = true
      | .board, _ => True := by
  unfold State.initialAnswer
  rw [tripAnswer_region]
  cases sc with
  | sectional =>
    cases loc with
    | sect a => exact mem_locationRegion_sect a m
    | coupler j => exact (mem_locationRegion_coupler j m).trans (or_congr Fin.ext_iff Fin.ext_iff)
  | island =>
    refine (mem_islandsMeeting s _ m).trans ?_
    cases loc with
    | sect a => simp only [mem_locationRegion_sect, exists_eq_left]
    | coupler j => simp only [mem_locationRegion_coupler, or_and_right, exists_or, exists_eq_left]
  | board => exact iff_of_true (mem_allOnes m) trivial

theorem restrikeAnswer_region (sc : Scope) (r : SectSet) (m : Sect) :
    mem (s.restrikeAnswer sc r).region m = true ↔
      match sc with
      | .sectional => mem r m = true
      | .island => mem r m = true ∨ ∃ a : Sect, mem r a = true ∧ s.sameIsland m a = true
      | .board => True := by
  unfold State.restrikeAnswer
  rw [tripAnswer_region]
  cases sc with
  | sectional => exact Iff.rfl
  | island => rw [State.restrikeRegion, mem_or, Bool.or_eq_true, mem_islandsMeeting]
  | board => exact iff_of_true (mem_allOnes m) trivial

/-! ### Confirmation and re-strikes (R82, R93) -/

theorem currentConfirms_iff (z : Zone) : s.currentConfirms z = true ↔ ∃ i : Incomer,
    s.cfg.active.board.incomer[i] = true ∧ s.cp[i] = true ∧
      match s.cfg.active.zones[z].scope, s.cfg.active.zones[z].location with
      | .board, _ => True
      | _, .sect a => s.sameIsland i a = true
      | _, .coupler j => s.sameIsland i (leftSect j) = true ∨ s.sameIsland i (rightSect j) = true := by
  have place (loc : Location) (i : Incomer) :
      (∃ m : Sect, mem (locationRegion loc) m = true ∧ s.sameIsland i m = true) ↔
        match loc with
        | .sect a => s.sameIsland i a = true
        | .coupler j => s.sameIsland i (leftSect j) = true ∨ s.sameIsland i (rightSect j) = true := by
    cases loc with
    | sect a => simp only [mem_locationRegion_sect, exists_eq_left]
    | coupler j => simp only [mem_locationRegion_coupler, or_and_right, exists_or, exists_eq_left]
  have feeds (r : SectSet) : s.live (s.feedSet r) = true ↔ ∃ i : Incomer, s.cfg.active.board.incomer[i] = true ∧
      s.cp[i] = true ∧ ∃ m : Sect, mem r m = true ∧ s.sameIsland i m = true := by
    rw [live_iff]
    refine exists_congr fun i => ?_
    rw [mem_feedSet]
    tauto
  have meets (r : SectSet) : s.feedSet (s.islandsMeeting r) = s.feedSet r := by
    unfold State.feedSet
    rw [islandsMeeting_twice]
  unfold State.currentConfirms State.confirmingSet State.zonePage
  generalize s.cfg.active.zones[z].location = loc
  cases s.cfg.active.zones[z].scope with
  | sectional =>
    refine (feeds _).trans (exists_congr fun i => and_congr_right fun _ => and_congr_right fun _ => ?_)
    refine (place loc i).trans ?_
    cases loc <;> exact Iff.rfl
  | island =>
    rw [State.faultedRegion, meets]
    refine (feeds _).trans (exists_congr fun i => and_congr_right fun _ => and_congr_right fun _ => ?_)
    refine (place loc i).trans ?_
    cases loc <;> exact Iff.rfl
  | board =>
    refine (feeds _).trans (exists_congr fun i => and_congr_right fun _ => and_congr_right fun _ => ?_)
    exact iff_of_true ⟨i, mem_allOnes i, (sameIsland_iff s i i).2 rfl⟩ trivial

end

theorem isArcOf_iff (r : TripRec) (z : Zone) : r.isArcOf z = true ↔ r.ArcOf z := by
  unfold TripRec.isArcOf TripRec.isOpen TripRec.ArcOf
  simp only [Bool.and_eq_true, decide_eq_true_eq]
  tauto

theorem isArcOf_eq (r : TripRec) (z : Zone) : r.isArcOf z = decide (r.ArcOf z) :=
  Bool.eq_iff_iff.2 ((isArcOf_iff r z).trans decide_eq_true_iff.symm)

theorem recordRegion_eq (s : State) (z : Zone) :
    s.recordRegion z = match s.trm.records.find? fun r => decide (r.ArcOf z) with
      | some r => r.region
      | none => 0 :=
  congrArg (fun p : TripRec → Bool => match s.trm.records.find? p with
    | some r => r.region
    | none => 0) (funext fun r => isArcOf_eq r z)

/-- Settles O45, line by line of the statement. -/
theorem islandsFeedsAndTripSets : Obligations.IslandsFeedsAndTripSets := by
  intro s r f k x loc sc
  refine ⟨fun hi => ⟨fun a b => ?_, fun a => ?_⟩, mem_feedSet s r, live_iff s f,
    fun i => ⟨mem_sideSet_incomer s k x i, mem_boundarySet_incomer s r i⟩,
    fun j => ⟨mem_sideSet_coupler s k x j, mem_boundarySet_coupler s r j, farSide_right s, farSide_left s,
      farSide_none s⟩,
    currentConfirms_iff s, recordRegion_eq s,
    fun b => ⟨targetsOf_nodup b, fun i => ?_, fun j => ?_, ut_notMem_targetsOf b⟩, fun ts => ⟨fun i => ?_, fun j => ?_⟩,
    ⟨tripAnswer_answersFor s sc _, initialAnswer_region s loc sc⟩,
    ⟨tripAnswer_answersFor s sc _, restrikeAnswer_region s sc r⟩⟩
  · rw [sameIsland_iff, hi]
    exact islandNames_eq_iff s.joined a b
  · simp only [sameIsland_iff]
    rw [hi]
    exact islandNames_lowest s.joined a
  · rw [← tripLineOf_incomer, mem_targetsOf]
  · rw [← tripLineOf_coupler, mem_targetsOf]
  · rw [mem_breakersOf, tripLineOf_incomer]
  · rw [mem_breakersOf, tripLineOf_coupler]

end Sys2Proof.Machine
end

section
/-! PROOFS. A zone is under drill exactly while it is the zone of the drill in progress, through the operations of the
Trip Record Manager, the Zone Evaluator and the channels (R158, R164). -/

namespace Sys2Proof.Machine

/-- An operation keeps `DrillInv`. -/
structure KeepsDrill (s t : State) : Prop where
  keeps : DrillInv s → DrillInv t

theorem KeepsDrill.refl (s : State) : KeepsDrill s s := ⟨id⟩

theorem KeepsDrill.trans {s t u : State} (h : KeepsDrill s t) (g : KeepsDrill t u) : KeepsDrill s u :=
  ⟨fun i => g.keeps (h.keeps i)⟩

/-- The invariant reads the drill flags of the zones, whether a drill is in progress, and its zone. -/
theorem keepsDrill_of_same {s t : State} (hz : ∀ z : Zone, t.zev.zones[z].drill = s.zev.zones[z].drill)
    (ha : t.zev.drill.active = s.zev.drill.active) (hd : t.zev.drill.zone = s.zev.drill.zone) : KeepsDrill s t := by
  refine ⟨fun i z => ?_⟩
  rw [hz, ha, hd]
  exact i z

theorem keepsDrill_of_zev {s t : State} (h : t.zev = s.zev) : KeepsDrill s t :=
  keepsDrill_of_same (fun _ => by rw [h]) (by rw [h]) (by rw [h])

theorem raise_keepsDrill (s : State) (a : Alert) : KeepsDrill s (s.raise a) := keepsDrill_of_zev rfl

/-! ### The Trip Record Manager does not touch the zones -/

theorem requestWord_zev (s : State) (b : BreakerSet) : (s.requestWord b).zev = s.zev := by
  rw [requestWord_eq]
  split <;> rfl

theorem trmEvent_zev (s : State) (f : State → State) : (s.trmEvent f).zev = (f s).zev := by
  unfold State.trmEvent
  simp only
  split
  · rfl
  · exact requestWord_zev _ _

theorem makeRoom_zev (s : State) : s.makeRoom.zev = s.zev := by
  unfold State.makeRoom
  split
  · rfl
  · split <;> rfl

theorem openArc_zev (s : State) (z : Zone) (trigger : Option Chan) (degraded : Bool) :
    (s.openArc z trigger degraded).zev = s.zev := (trmEvent_zev s _).trans (makeRoom_zev s)

theorem appendDrill_zev (s : State) (z : Zone) (trigger : Option Chan) (degraded : Bool) :
    (s.appendDrill z trigger degraded).zev = s.zev := (trmEvent_zev s _).trans (makeRoom_zev s)

theorem restrike_zev (s : State) (z : Zone) : (s.restrike z).zev = s.zev := by
  unfold State.restrike
  split
  · exact trmEvent_zev s _
  · rfl

/-! ### Zones and the drill register -/

theorem modZone_keepsDrill (s : State) (z : Zone) (f : ZoneRec → ZoneRec) (hf : ∀ r, (f r).drill = r.drill) :
    KeepsDrill s (s.modZone z f) := by
  refine keepsDrill_of_same (fun y => ?_) rfl rfl
  show (modAt s.zev.zones z f)[y].drill = _
  rw [modAt_get]
  split
  · rename_i h
    rw [hf, h]
  · rfl

theorem enterZone_keepsDrill (s : State) (z : Zone) (st : ZoneState) : KeepsDrill s (s.enterZone z st) :=
  (modZone_keepsDrill s z _ (by intro; rfl)).trans (keepsDrill_of_zev rfl)

/-- The end of a drill takes the flag of its zone (R164). -/
theorem endDrill_keepsDrill (s : State) (why : EndReason) : KeepsDrill s (s.endDrill why) := by
  refine ⟨fun i => ?_⟩
  unfold State.endDrill
  simp only
  split
  · exact i
  · intro z
    refine iff_of_false ?_ fun h => Bool.false_ne_true h.1
    cases hd : s.zev.drill.zone with
    | none =>
      intro h
      have hz := ((i z).1 h).2
      rw [hd] at hz
      cases hz
    | some y =>
      intro h
      have h : (modAt s.zev.zones y fun r => { r with drill := false })[z].drill = true := h
      rw [modAt_get] at h
      split at h
      · exact Bool.false_ne_true h
      · rename_i hy
        have hz := ((i z).1 h).2
        rw [hd] at hz
        exact hy (Option.some.inj hz).symm

theorem endOwnedDrill_keepsDrill (s : State) (p : Port) : KeepsDrill s (s.endOwnedDrill p) := by
  unfold State.endOwnedDrill
  split
  · exact endDrill_keepsDrill s _
  · exact .refl s

theorem toWaiting_keepsDrill (s : State) (z : Zone) : KeepsDrill s (s.toWaiting z) :=
  (modZone_keepsDrill s z _ (by intro; rfl)).trans (enterZone_keepsDrill _ z _)

theorem toQuiet_keepsDrill (s : State) (z : Zone) : KeepsDrill s (s.toQuiet z) :=
  (modZone_keepsDrill s z _ (by intro; rfl)).trans (enterZone_keepsDrill _ z _)

theorem toBlocked_keepsDrill (s : State) (z : Zone) : KeepsDrill s (s.toBlocked z) :=
  ((modZone_keepsDrill s z _ (by intro; rfl)).trans (enterZone_keepsDrill _ z _)).trans (raise_keepsDrill _ _)

theorem toSuppressed_keepsDrill (s : State) (z : Zone) : KeepsDrill s (s.toSuppressed z) := by
  unfold State.toSuppressed
  simp only
  split
  · exact (modZone_keepsDrill s z _ (by intro; rfl)).trans (enterZone_keepsDrill _ z _)
  · exact ((modZone_keepsDrill s z _ (by intro; rfl)).trans (enterZone_keepsDrill _ z _)).trans (raise_keepsDrill _ _)

theorem decideArc_keepsDrill (s : State) (z : Zone) : KeepsDrill s (s.decideArc z) := by
  have h := ((keepsDrill_of_zev (openArc_zev s z s.zev.zones[z].trigger s.zev.zones[z].degraded)).trans
    (modZone_keepsDrill _ z (fun r => { r with filter := .stopped, confirm := .stopped, phase := some .holding })
      (by intro; rfl))).trans (enterZone_keepsDrill _ z .tripped)
  unfold State.decideArc
  simp only
  split
  · exact h.trans (endDrill_keepsDrill _ _)
  · exact h

theorem entryFilterExpiry_keepsDrill (s : State) (z : Zone) : KeepsDrill s (s.entryFilterExpiry z) := by
  have h := appendDrill_zev s z s.zev.zones[z].trigger s.zev.zones[z].degraded
  unfold State.entryFilterExpiry
  simp only
  split
  · split
    · exact decideArc_keepsDrill s z
    · refine (keepsDrill_of_zev h).trans (KeepsDrill.trans ?_ (toWaiting_keepsDrill _ z))
      exact keepsDrill_of_same (fun _ => rfl) rfl rfl
  · split
    · exact decideArc_keepsDrill s z
    · exact toWaiting_keepsDrill s z

theorem toLit_keepsDrill (s : State) (z : Zone) (ev : Option Chan) : KeepsDrill s (s.toLit z ev) := by
  have h := (modZone_keepsDrill s z (fun r => { r with
    lit := true, degraded := voteDegraded (s.zonePage z) r.view, trigger := triggerOf (s.zonePage z) r.view ev
    filter := .running .entry (s.zonePage z).tzf.val }) (by intro; rfl)).trans (enterZone_keepsDrill _ z .lit)
  unfold State.toLit
  simp only
  split
  · exact h.trans (entryFilterExpiry_keepsDrill _ z)
  · exact h

theorem restrikeFilterExpiry_keepsDrill (s : State) (z : Zone) : KeepsDrill s (s.restrikeFilterExpiry z) := by
  unfold State.restrikeFilterExpiry
  simp only
  split
  · exact (keepsDrill_of_zev (restrike_zev s z)).trans (modZone_keepsDrill _ z _ (by intro; rfl))
  · exact modZone_keepsDrill s z _ (by intro; rfl)

theorem startRestrike_keepsDrill (s : State) (z : Zone) (ev : Option Chan) : KeepsDrill s (s.startRestrike z ev) := by
  have h := modZone_keepsDrill s z (fun r => { r with
    trigger := triggerOf (s.zonePage z) r.view ev, filter := .running .restrike (s.zonePage z).tzf.val
    phase := some .filtering }) (by intro; rfl)
  unfold State.startRestrike
  simp only
  split
  · exact h.trans (restrikeFilterExpiry_keepsDrill _ z)
  · exact h

theorem trippedVote_keepsDrill (s : State) (z : Zone) (ev : Option Chan) : KeepsDrill s (s.trippedVote z ev) := by
  unfold State.trippedVote
  simp only
  refine KeepsDrill.trans (modZone_keepsDrill s z (fun r => { r with
    lit := voteSatisfied (s.zonePage z) s.zev.zones[z].view
    degraded := voteDegraded (s.zonePage z) s.zev.zones[z].view }) (by intro; rfl)) ?_
  split
  · exact modZone_keepsDrill _ z _ (by intro; rfl)
  · exact startRestrike_keepsDrill _ z ev
  · exact modZone_keepsDrill _ z _ (by intro; rfl)
  · exact .refl _

theorem leaveTripped_keepsDrill (s : State) (z : Zone) : KeepsDrill s (s.leaveTripped z) := by
  have h := modZone_keepsDrill s z (fun r => { r with filter := .stopped, phase := none }) (by intro; rfl)
  unfold State.leaveTripped
  simp only
  split
  · exact (h.trans (modZone_keepsDrill _ z _ (by intro; rfl))).trans (enterZone_keepsDrill _ z _)
  · split
    · exact h.trans (toBlocked_keepsDrill _ z)
    · split
      · exact (h.trans (toQuiet_keepsDrill _ z)).trans (toLit_keepsDrill _ z none)
      · exact h.trans (toQuiet_keepsDrill _ z)

/-! ### Status events (R7, R76) -/

/-- A zone acts on its view in each of its states (R80, R81, R85, R88, R89, R92). -/
theorem reevaluate_keepsDrill (s : State) (z : Zone) (ev : Option Chan) : KeepsDrill s (s.reevaluate z ev) := by
  have keep := modZone_keepsDrill s z (fun r => { r with degraded := voteDegraded (s.zonePage z) r.view })
    (by intro; rfl)
  have judging (h : s.zev.zones[z].state = .lit ∨ s.zev.zones[z].state = .waiting ∨
      s.zev.zones[z].state = .suppressed) : KeepsDrill s (s.reevaluate z ev) := by
    rw [reevaluate_judging ev h]
    split
    · exact toBlocked_keepsDrill s z
    · split
      · exact keep
      · exact toQuiet_keepsDrill s z
  cases h : s.zev.zones[z].state with
  | disabled => rw [reevaluate_disabled ev h]; exact .refl s
  | tripped => rw [reevaluate_tripped ev h]; exact trippedVote_keepsDrill s z ev
  | blocked =>
    rw [reevaluate_blocked ev h]
    split
    · exact .refl s
    · split
      · exact (toQuiet_keepsDrill s z).trans (toLit_keepsDrill _ z ev)
      · exact toQuiet_keepsDrill s z
  | quiet =>
    rw [reevaluate_quiet ev h]
    split
    · exact toBlocked_keepsDrill s z
    · split
      · exact toLit_keepsDrill s z ev
      · exact keep
  | lit => exact judging (.inl h)
  | waiting => exact judging (.inr (.inl h))
  | suppressed => exact judging (.inr (.inr h))

/-- An event at the LCU that leaves the zones reaches them by its status event only. -/
theorem lcuEvent_keepsDrill (s : State) (n : Chan) {f : State → State} (h : (f s).zev = s.zev) :
    KeepsDrill s (s.lcuEvent n f) := by
  refine (keepsDrill_of_zev h).trans ?_
  unfold State.lcuEvent
  simp only
  split
  · exact .refl _
  · split
    · exact .refl _
    · exact (modZone_keepsDrill (f s) _ _ (by intro; rfl)).trans (reevaluate_keepsDrill _ _ _)

theorem takeSample_keepsDrill (s : State) (n : Chan) (v : LU) : KeepsDrill s (s.takeSample n v) := by
  unfold State.takeSample
  split
  · exact .refl s
  · split
    · exact testSample_keepsDrill s n v
    · exact lcuEvent_keepsDrill s n (f := fun s => s.evaluated n v) (evaluated_prepares s n v).zev
where
  testSample_keepsDrill (s : State) (n : Chan) (v : LU) : KeepsDrill s (s.testSample n v) := by
    unfold State.testSample
    split
    · exact .refl s
    · split
      · exact .refl s
      · simp only
        split
        · refine KeepsDrill.trans ?_ (completeTest_keepsDrill _)
          exact keepsDrill_of_zev rfl
        · exact keepsDrill_of_zev rfl
  completeTest_keepsDrill (s : State) : KeepsDrill s s.completeTest := by
    cases h : s.fsu.test with
    | none => unfold State.completeTest; rw [h]; exact .refl s
    | some run =>
      rw [completeTest_eq h]
      exact lcuEvent_keepsDrill s _ (completed_prepares s run).zev

end Sys2Proof.Machine
end

section
/-! PROOFS. `DrillInv` through what each command does; O57. -/

namespace Sys2Proof.Machine

/-! ### Decisions and transfers at the zones (R84, R98, R99) -/

theorem foldl_keepsDrill {α : Type} (f : State → α → State) (hf : ∀ s a, KeepsDrill s (f s a)) (as : List α)
    (s : State) : KeepsDrill s (as.foldl f s) := by
  induction as generalizing s with
  | nil => exact .refl s
  | cons a as ih => exact (hf s a).trans (ih _)

theorem inFreeOrder_keepsDrill (s : State) (zs : List Zone) (f : Zone → State → State)
    (hf : ∀ z t, KeepsDrill t (f z t)) : KeepsDrill s (s.inFreeOrder zs f) := by
  unfold State.inFreeOrder
  refine KeepsDrill.trans ?_ (foldl_keepsDrill _ (fun t z => hf z t) _ _)
  exact keepsDrill_of_zev rfl

theorem askConfirmation_keepsDrill (s : State) : KeepsDrill s s.askConfirmation := by
  unfold State.askConfirmation
  simp only
  split
  · exact .refl s
  · exact inFreeOrder_keepsDrill s _ _ fun z t => decideArc_keepsDrill t z

theorem askConfirmationWith_keepsDrill (s : State) (evidence : State → State) (h : ∀ t, KeepsDrill t (evidence t)) :
    KeepsDrill s (s.askConfirmationWith evidence) := by
  have decides := fun zs t => foldl_keepsDrill (fun t z => State.decideArc t z) (fun t z => decideArc_keepsDrill t z) zs t
  unfold State.askConfirmationWith
  simp only
  split
  · exact h s
  · refine KeepsDrill.trans ?_ ((decides _ _).trans ((h _).trans (decides _ _)))
    exact keepsDrill_of_zev rfl

theorem openEvidence_keepsDrill (s : State) (t : Target) : KeepsDrill s (s.openEvidence t) := keepsDrill_of_zev rfl

theorem couplerEvidence_keepsDrill (s : State) (before : Vector CouplerRec 3) :
    KeepsDrill s (s.couplerEvidence before) := by
  unfold State.couplerEvidence
  exact foldl_keepsDrill _ (fun t j => openEvidence_keepsDrill t (.tc j)) _ s

theorem topHandOff_keepsDrill (s : State) (before : Vector CouplerRec 3) : KeepsDrill s (s.topHandOff before) := by
  have h := couplerEvidence_keepsDrill s before
  unfold State.topHandOff
  simp only
  split
  · exact h
  · exact h.trans (askConfirmation_keepsDrill _)

theorem topResolve_zev (s : State) (which : Coupler → Bool) : (s.topResolve which).zev = s.zev := by
  unfold State.topResolve
  simp only
  split
  · rfl
  · split <;> rfl

theorem takeReport_keepsDrill (s : State) (p : Port) (v : ReportRec) : KeepsDrill s (s.takeReport p v) := by
  have h0 : KeepsDrill s ((s.setReport p (takenReport s.cfg.active p v)).topResolve (adjacent p)) :=
    keepsDrill_of_zev (topResolve_zev _ _)
  have inc (t : State) : KeepsDrill t (t.incomerPosition p v.incomer) := by
    unfold State.incomerPosition
    split
    · exact openEvidence_keepsDrill t _
    · exact .refl t
  unfold State.takeReport
  simp only
  split
  · exact h0.trans ((couplerEvidence_keepsDrill _ _).trans (askConfirmationWith_keepsDrill _ _ inc))
  · exact h0.trans ((topHandOff_keepsDrill _ _).trans (inc _))

theorem placed_drill (r : ZoneRec) (page : ZonePage) (v : Vector MemberStatus 6) (now : Time) :
    (r.placed page v now).drill = r.drill := by
  unfold ZoneRec.placed
  simp only
  split <;> rfl

theorem placeAll_keepsDrill (s : State) : KeepsDrill s s.placeAll := by
  have h (z : Zone) : (Vector.ofFn fun z : Zone =>
      s.zev.zones[z].placed (s.zonePage z) (s.viewOf z) s.alr.time)[z].drill = s.zev.zones[z].drill :=
    (congrArg ZoneRec.drill (ofFn_get _ z)).trans (placed_drill _ _ _ _)
  unfold State.placeAll
  simp only
  split
  · exact keepsDrill_of_same h rfl rfl
  · exact keepsDrill_of_same h rfl rfl

theorem startPlaced_keepsDrill (s : State) (z : Zone) : KeepsDrill s (s.startPlaced z) := by
  unfold State.startPlaced
  simp only
  split
  · exact .refl s
  · split
    · exact toLit_keepsDrill s z none
    · exact startRestrike_keepsDrill s z none
    · exact .refl s

theorem placeZones_keepsDrill (s : State) : KeepsDrill s s.placeZones := by
  have hstart (u : State) : KeepsDrill u u.startAllPlaced := by
    have h := foldl_keepsDrill (fun t z => State.startPlaced t z) startPlaced_keepsDrill
      ((List.finRange 8).filter fun z => !u.instant z) u
    unfold State.startAllPlaced
    simp only
    split
    · exact h
    · exact h.trans (inFreeOrder_keepsDrill _ _ _ fun z t => startPlaced_keepsDrill t z)
  exact (placeAll_keepsDrill s).trans (hstart _)

/-! ### The claim and the transfer (R173, R179) -/

theorem releaseClaim_zev (s : State) : s.releaseClaim.zev = s.zev := by
  unfold State.releaseClaim State.capturesLoseClaim
  simp only
  split <;> rfl

theorem lapseUnused_zev (s : State) : s.lapseUnused.zev = s.zev := by
  obtain ⟨-, -, -, -, hz, -⟩ := lapseUnused_spec s
  exact hz

theorem abortTest_zev (s : State) : s.abortTest.zev = s.zev := by
  unfold State.abortTest
  split <;> rfl

theorem takeUpChannels_zev (s : State) (o : Image) : (s.takeUpChannels o).zev = s.zev := by
  have h : (s.pageAborted o).zev = s.zev := by
    unfold State.pageAborted
    split
    · split
      · exact abortTest_zev s
      · rfl
    · rfl
  rw [takeUpChannels_eq]
  exact h

theorem takeUpStaged_keepsDrill (s : State) : KeepsDrill s s.takeUpStaged := by
  have h1 : KeepsDrill s (s.channelsTaken.boardSet s.cfg.active) :=
    keepsDrill_of_zev (takeUpChannels_zev s.activated s.cfg.active)
  have h2 : KeepsDrill s ((s.channelsTaken.boardSet s.cfg.active).topResolve fun _ => true) :=
    h1.trans (keepsDrill_of_zev (topResolve_zev _ _))
  exact h2.trans (topHandOff_keepsDrill _ _)

theorem raiseOthers_keepsDrill (s : State) (a : Alert) (p : Port) : KeepsDrill s (s.raiseOthers a p) :=
  keepsDrill_of_zev rfl

theorem noteLeavers_keepsDrill (s : State) (ps : List Port) : KeepsDrill s (s.noteLeavers ps) :=
  foldl_keepsDrill _ (fun t p => raiseOthers_keepsDrill t .peerStale p) ps s

theorem makeTransfer_keepsDrill (s : State) : KeepsDrill s s.makeTransfer := by
  have h : KeepsDrill s s.transferred := (((takeUpStaged_keepsDrill s).trans (noteLeavers_keepsDrill _ _)).trans
    (endDrill_keepsDrill _ _)).trans (placeZones_keepsDrill _)
  have last : KeepsDrill s.transferred.lapseUnused s.makeTransfer := by
    unfold State.makeTransfer
    generalize s.transferred.lapseUnused = t
    exact keepsDrill_of_zev rfl
  exact (h.trans (keepsDrill_of_zev (lapseUnused_zev _))).trans last

theorem transferIfDue_keepsDrill (s : State) : KeepsDrill s s.transferIfDue := by
  unfold State.transferIfDue
  split
  · exact makeTransfer_keepsDrill s
  · exact .refl s

/-! ### Reset, time and the channels -/

theorem powerOn_drillInv (s : State) : DrillInv s.powerOn := by
  have h0 : DrillInv s.placedAtReset := fun z =>
    iff_of_false (fun h => Bool.false_ne_true ((congrArg ZoneRec.drill (ofFn_get _ z)).symm.trans h))
      fun h => Bool.false_ne_true h.1
  have hz : s.powerOn.zev = s.placedAtReset.zev := by
    unfold State.powerOn
    simp only
    split <;> split <;> simp [requestWord_zev]
  exact (keepsDrill_of_zev hz).keeps h0

/-- A change of every zone record alike that leaves the drill flags. -/
theorem modAllZones_keepsDrill {s t : State} (f : ZoneRec → ZoneRec) (hz : t.zev.zones = modAll s.zev.zones f)
    (hf : ∀ r, (f r).drill = r.drill) (ha : t.zev.drill.active = s.zev.drill.active)
    (hd : t.zev.drill.zone = s.zev.drill.zone) : KeepsDrill s t :=
  keepsDrill_of_same (fun z => by rw [hz, modAll_get, hf]) ha hd

theorem tick_keepsDrill (s : State) : KeepsDrill s s.tick := modAllZones_keepsDrill ZoneRec.tick rfl (fun _ => rfl) rfl rfl

theorem modChanEvent_keepsDrill (s : State) (n : Chan) (f : State → Channel → Channel) :
    KeepsDrill s (s.lcuEvent n fun s => s.modChan n (f s)) := lcuEvent_keepsDrill s n rfl

theorem serveQueue_zev (q : List Request) (s : State) : (s.serveQueue q).zev = s.zev := by
  induction q generalizing s with
  | nil => rfl
  | cons r rest ih =>
    unfold State.serveQueue
    split
    · exact ih _
    · split <;> rfl

theorem deferChan_zev (s : State) (n : Chan) : (s.deferChan n).zev = s.zev := by
  unfold State.deferChan
  split <;> rfl

theorem scan_zev (ns : List Chan) (s : State) : (s.scan ns).zev = s.zev := by
  induction ns generalizing s with
  | nil => rfl
  | cons n ns ih =>
    unfold State.scan
    split
    · rfl
    · exact (ih _).trans (deferChan_zev s n)

theorem slotExpiry_zev (s : State) : s.slotExpiry.zev = s.zev := by
  have serve (t : State) : t.serveSlot.zev = t.zev := by
    unfold State.serveSlot
    simp only
    split
    · exact serveQueue_zev _ t
    · exact (scan_zev _ _).trans (serveQueue_zev _ t)
  unfold State.slotExpiry
  split
  · simp only
    split
    · rfl
    · exact serve _
  · rfl

theorem cpChange_keepsDrill (s : State) (k : Incomer) (active : Bool) : KeepsDrill s (s.cpChange k active) := by
  have h0 : KeepsDrill s (s.setCp k active) := keepsDrill_of_zev rfl
  unfold State.cpChange
  split
  · exact .refl s
  · simp only
    split
    · exact h0.trans (askConfirmation_keepsDrill _)
    · exact (h0.trans (openEvidence_keepsDrill _ _)).trans (askConfirmation_keepsDrill _)

/-! ### Zones, entries and the write engine -/

/-- An operation that only one condition lets act. -/
theorem ite_keepsDrill {s t : State} (c : Prop) [Decidable c] (h : KeepsDrill s t) :
    KeepsDrill s (if c then t else s) := by
  split
  · exact h
  · exact .refl s

theorem closeNotice_keepsDrill (s : State) (z : Zone) : KeepsDrill s (s.closeNotice z) := by
  have h : KeepsDrill s { s with zev.notices := s.zev.notices.erase z } := keepsDrill_of_same (fun _ => rfl) rfl rfl
  unfold State.closeNotice
  refine ite_keepsDrill _ ?_
  simp only
  split
  · exact h.trans (leaveTripped_keepsDrill _ z)
  · exact h

theorem breakerFailExpiry_keepsDrill (s : State) (seq : Byte) (t : Target) :
    KeepsDrill s (s.breakerFailExpiry seq t) := by
  refine ite_keepsDrill _ (KeepsDrill.trans ?_ (raise_keepsDrill _ _))
  exact keepsDrill_of_zev (trmEvent_zev s _)

theorem engineNext_zev (s : State) : s.engineNext.zev = s.zev := by
  unfold State.engineNext
  split
  · split
    · rfl
    · split <;> rfl
  · rfl
  · rfl

theorem wordWriteEnd_keepsDrill (s : State) (rb : ReadBack LockWord) : KeepsDrill s (s.wordWriteEnd rb) :=
  ite_keepsDrill _ (keepsDrill_of_zev (engineNext_zev _))

theorem saveWriteEnd_keepsDrill (s : State) (rb : ReadBack NvCopy) : KeepsDrill s (s.saveWriteEnd rb) := by
  unfold State.saveWriteEnd
  split
  · exact keepsDrill_of_zev (engineNext_zev _)
  · exact .refl s

/-! ### Frames and port timers -/

theorem modPort_keepsDrill (s : State) (p : Port) (f : PortRec → PortRec) : KeepsDrill s (s.modPort p f) :=
  keepsDrill_of_zev rfl

theorem setSlot_keepsDrill (s : State) (p : Port) (r : Reply) : KeepsDrill s (s.setSlot p r) := keepsDrill_of_zev rfl

theorem openFrame_keepsDrill (s : State) (p : Port) (b : Bool) : KeepsDrill s (s.openFrame p b) :=
  ite_keepsDrill _ (modPort_keepsDrill s p _)

theorem receive_keepsDrill (s : State) (p : Port) (n : Nat) (b : Bool) (w : BitVec 40) :
    KeepsDrill s (s.receive p n b w) := (openFrame_keepsDrill s p false).trans (modPort_keepsDrill _ p _)

theorem riseSelect_keepsDrill (s : State) (p : Port) (k : State → State) (hk : ∀ t, KeepsDrill t (k t)) :
    KeepsDrill s (s.riseSelect p k) := by
  have h := modPort_keepsDrill s p PortRec.closeFrame
  unfold State.riseSelect
  simp only
  split
  · exact h
  · exact h.trans (modPort_keepsDrill _ p _)
  · exact (h.trans (modPort_keepsDrill _ p fun q => { q with frameErr := false })).trans (hk _)

theorem goodFrame_keepsDrill (s : State) (p : Port) (c : BitVec 4) (f : Fields) (k : State → State)
    (hk : ∀ t, KeepsDrill t (k t)) : KeepsDrill s (s.goodFrame p c f k) :=
  ite_keepsDrill _ ((receive_keepsDrill s p _ _ _).trans (riseSelect_keepsDrill _ p k hk))

theorem function_keepsDrill (s : State) (p : Port) (fn : Fn) (f : Fields) (body : State → State)
    (hb : ∀ t, KeepsDrill t (body t)) : KeepsDrill s (s.function p fn f body) := by
  refine goodFrame_keepsDrill s p _ _ _ fun t => ?_
  split
  · exact hb t
  · split <;> exact setSlot_keepsDrill t p _

theorem emptyPulse_keepsDrill (s : State) (p : Port) : KeepsDrill s (s.emptyPulse p) :=
  ite_keepsDrill _ ((openFrame_keepsDrill s p false).trans (riseSelect_keepsDrill _ p id .refl))

theorem rejectFrame_keepsDrill (s : State) (p : Port) (n : Byte) (b : Bool) (w : BitVec 40) :
    KeepsDrill s (s.rejectFrame p n b w) := by
  refine ite_keepsDrill _ ?_
  split
  · exact (receive_keepsDrill s p _ _ _).trans (riseSelect_keepsDrill _ p id .refl)
  · exact .refl s
  · exact .refl s

theorem fallSelect_keepsDrill (s : State) (p : Port) (sck : ClockLine) : KeepsDrill s (s.fallSelect p sck) :=
  ite_keepsDrill _ (keepsDrill_of_zev rfl)

theorem dropReport_keepsDrill (s : State) (p : Port) : KeepsDrill s (s.dropReport p) := by
  refine KeepsDrill.trans ?_ (topHandOff_keepsDrill _ _)
  exact keepsDrill_of_zev (topResolve_zev _ _)

theorem lapseClaim_zev (s : State) (p : Port) : (s.lapseClaim p).zev = s.zev := by
  unfold State.lapseClaim
  split
  · exact releaseClaim_zev s
  · rfl

theorem leaveLive_keepsDrill (s : State) (p : Port) : KeepsDrill s (s.leaveLive p) := by
  have drillFirst (t : State) : KeepsDrill t ((t.endOwnedDrill p).dropReport p) :=
    (endOwnedDrill_keepsDrill t p).trans (dropReport_keepsDrill _ p)
  have reportFirst (t : State) : KeepsDrill t ((t.dropReport p).endOwnedDrill p) :=
    (dropReport_keepsDrill t p).trans (endOwnedDrill_keepsDrill _ p)
  have last (t : State) : KeepsDrill t ((t.lapseClaim p).raiseOthers .peerStale p) := keepsDrill_of_zev (lapseClaim_zev t p)
  have port := modPort_keepsDrill s p fun r => r.enter .stale .stopped .stopped
  have drawn (t : State) : KeepsDrill t t.draw.2 := keepsDrill_of_zev rfl
  unfold State.leaveLive
  simp only
  refine KeepsDrill.trans ?_ (last _)
  split
  · split
    · exact (port.trans (drawn _)).trans (drillFirst _)
    · exact (port.trans (drawn _)).trans (reportFirst _)
  · exact port.trans (reportFirst _)

/-! ### Requests and CONTROL subfunctions -/

/-- A drill starts where none is in progress (R157, R158). -/
theorem startDrill_keepsDrill (s : State) (p : Port) (z : Zone) (h : s.zev.drill.active = false) :
    KeepsDrill s (s.startDrill p z) := by
  refine ⟨fun i y => ?_⟩
  have hoff (y : Zone) : ¬ s.zev.zones[y].drill = true := fun e => by
    have ha := ((i y).1 e).1
    rw [h] at ha
    cases ha
  show (modAt s.zev.zones z fun r => { r with drill := true })[y].drill = true ↔ true = true ∧ some z = some y
  rw [modAt_get]
  split
  · rename_i hy
    exact iff_of_true rfl ⟨rfl, by rw [hy]⟩
  · rename_i hy
    exact iff_of_false (hoff y) fun e => hy (Option.some.inj e.2).symm

theorem drillStartBody_keepsDrill (s : State) (p : Port) (v : Word) : KeepsDrill s (s.drillStartBody p v) := by
  unfold State.drillStartBody
  split
  · exact setSlot_keepsDrill s p _
  · split
    · exact setSlot_keepsDrill s p _
    · rename_i ha
      split
      · exact setSlot_keepsDrill s p _
      · exact (startDrill_keepsDrill s p _ (Bool.eq_false_iff.2 ha)).trans (setSlot_keepsDrill _ p _)

theorem drillEndBody_keepsDrill (s : State) (p : Port) : KeepsDrill s (s.drillEndBody p) := by
  unfold State.drillEndBody
  split
  · exact setSlot_keepsDrill s p _
  · split
    · exact setSlot_keepsDrill s p _
    · exact (endDrill_keepsDrill s _).trans (setSlot_keepsDrill _ p _)

theorem writeBody_keepsDrill (s : State) (p : Port) (f : Fields) : KeepsDrill s (s.writeBody p f) := by
  unfold State.writeBody
  split
  · exact setSlot_keepsDrill s p _
  · split
    · exact setSlot_keepsDrill s p _
    · split <;> exact keepsDrill_of_zev rfl

theorem claimBody_keepsDrill (s : State) (p : Port) : KeepsDrill s (s.claimBody p) := by
  unfold State.claimBody
  split
  · exact keepsDrill_of_zev rfl
  · split <;> exact setSlot_keepsDrill s p _

theorem yieldBody_keepsDrill (s : State) (p : Port) : KeepsDrill s (s.yieldBody p) := by
  unfold State.yieldBody
  split
  · exact keepsDrill_of_zev (releaseClaim_zev s)
  · exact setSlot_keepsDrill s p _

theorem acceptCommit_keepsDrill (s : State) (p : Port) : KeepsDrill s (s.acceptCommit p) := by
  unfold State.acceptCommit
  simp only
  split
  · refine KeepsDrill.trans ?_ (setSlot_keepsDrill _ p _)
    refine KeepsDrill.trans ?_ (transferIfDue_keepsDrill _)
    exact keepsDrill_of_zev rfl
  · exact keepsDrill_of_zev rfl

theorem commitBody_keepsDrill (s : State) (p : Port) : KeepsDrill s (s.commitBody p) := by
  unfold State.commitBody
  split
  · exact setSlot_keepsDrill s p _
  · split
    · exact setSlot_keepsDrill s p _
    · split
      · exact keepsDrill_of_zev rfl
      · exact acceptCommit_keepsDrill s p

theorem reportBody_keepsDrill (s : State) (p : Port) (f : Fields) : KeepsDrill s (s.reportBody p f) := by
  unfold State.reportBody
  split
  · exact setSlot_keepsDrill s p _
  · exact ((modPort_keepsDrill s p _).trans (takeReport_keepsDrill _ p _)).trans (setSlot_keepsDrill _ p _)

theorem releaseBreaker_keepsDrill (s : State) (b : Fin 7) : KeepsDrill s (s.releaseBreaker b) := by
  unfold State.releaseBreaker
  have h := trmEvent_zev s fun s =>
    let closing := s.trm.records.filter (s.closesAt b)
    let t : State :=
      { s with
        trm.records := s.trm.records.map fun r =>
          if s.releaseAt b r = some .taken then r.take b s.alr.time else r
        zev.notices := s.zev.notices ++ (closing.filter fun r => decide (r.kind = .arc)).filterMap (·.origin) }
    if closing.isEmpty then t else t.raise .recordClosed
  refine KeepsDrill.trans ?_ (keepsDrill_of_zev h)
  simp only
  split <;> exact keepsDrill_of_same (fun _ => rfl) rfl rfl

theorem releaseBody_keepsDrill (s : State) (p : Port) (f : Fields) : KeepsDrill s (s.releaseBody p f) := by
  unfold State.releaseBody
  split
  · simp only
    split
    · exact (releaseBreaker_keepsDrill s _).trans (setSlot_keepsDrill _ p _)
    · exact setSlot_keepsDrill s p _
  · exact setSlot_keepsDrill s p _

theorem recordBody_keepsDrill (s : State) (p : Port) (f : Fields) : KeepsDrill s (s.recordBody p f) := by
  unfold State.recordBody
  split
  · exact setSlot_keepsDrill s p _
  · split <;> exact keepsDrill_of_zev rfl

theorem seenBody_keepsDrill (s : State) (p : Port) (f : Fields) : KeepsDrill s (s.seenBody p f) := by
  unfold State.seenBody
  split
  · exact setSlot_keepsDrill s p _
  · split <;> exact keepsDrill_of_zev rfl

theorem relearnBody_keepsDrill (s : State) (p : Port) (v : Word) : KeepsDrill s (s.relearnBody p v) := by
  unfold State.relearnBody
  split
  · exact setSlot_keepsDrill s p _
  · split
    · exact setSlot_keepsDrill s p _
    · split
      · exact setSlot_keepsDrill s p _
      · exact (modChanEvent_keepsDrill s _ fun s c => c.relearn (s.chanPage _) s.tLearn).trans (setSlot_keepsDrill _ p _)

theorem testBody_keepsDrill (s : State) (p : Port) (v : Word) : KeepsDrill s (s.testBody p v) := by
  unfold State.testBody
  split
  · exact setSlot_keepsDrill s p _
  · split
    · exact setSlot_keepsDrill s p _
    · split
      · exact setSlot_keepsDrill s p _
      · split <;> exact keepsDrill_of_zev rfl

theorem captureBody_keepsDrill (s : State) (p : Port) (v : Word) : KeepsDrill s (s.captureBody p v) := by
  have queued (n : Chan) : KeepsDrill s (s.queueCapture p n) := by
    unfold State.queueCapture
    split
    · split <;> exact keepsDrill_of_zev rfl
    · split <;> exact keepsDrill_of_zev rfl
  unfold State.captureBody
  split
  · exact setSlot_keepsDrill s p _
  · repeat'
      split
      · exact setSlot_keepsDrill s p _
    exact queued _

theorem saveBody_keepsDrill (s : State) (p : Port) : KeepsDrill s (s.saveBody p) := by
  unfold State.saveBody
  split
  · exact setSlot_keepsDrill s p _
  · refine KeepsDrill.trans ?_ (setSlot_keepsDrill _ p _)
    exact keepsDrill_of_zev (engineNext_zev _)

theorem zeroCounters_keepsDrill (s : State) : KeepsDrill s s.zeroCounters :=
  modAllZones_keepsDrill (fun r => { r with nuisance := 0 }) rfl (fun _ => rfl) rfl rfl

theorem defaultStagedBody_keepsDrill (s : State) (p : Port) : KeepsDrill s (s.defaultStagedBody p) := by
  unfold State.defaultStagedBody
  split
  · exact setSlot_keepsDrill s p _
  · split <;> exact keepsDrill_of_zev rfl

/-! ### Every command -/

theorem KeepsDrill.of_next {s t u : State} (h : (Host.Outcome.next u : Host.Outcome State Fault Refusal) = .next t)
    (k : KeepsDrill s u) : KeepsDrill s t := Host.Outcome.next.inj h ▸ k

/-- Every command keeps `DrillInv`; RESET meets it. -/
theorem exec_keepsDrill {c : Instr} {s t : State} (h : exec c s = .next t) : KeepsDrill s t := by
  have frame := function_keepsDrill s
  cases c with
  | reset => exact .of_next h ⟨fun _ => powerOn_drillInv s⟩
  | millisecondTick => exact .of_next h (tick_keepsDrill s)
  | lightSample n v => exact .of_next h (takeSample_keepsDrill s n v)
  | learningWindowExpiry n =>
    exact .of_next h (ite_keepsDrill _ (modChanEvent_keepsDrill s n fun s c => c.learned (s.chanPage n)))
  | stormWindowExpiry n =>
    exact .of_next h (ite_keepsDrill _ (modChanEvent_keepsDrill s n fun s c => c.stormExpiry (s.chanPage n) s.tLearn))
  | slotTimerExpiry => exact .of_next h (keepsDrill_of_zev (slotExpiry_zev s))
  | testWindowExpiry => exact .of_next h (takeSample_keepsDrill.completeTest_keepsDrill s)
  | cpLineChange k active => exact .of_next h (cpChange_keepsDrill s k active)
  | filterExpiry z => exact .of_next h (ite_keepsDrill _ (entryFilterExpiry_keepsDrill s z))
  | confirmWindowExpiry z => exact .of_next h (ite_keepsDrill _ (toSuppressed_keepsDrill s z))
  | restrikeFilterExpiry z => exact .of_next h (ite_keepsDrill _ (restrikeFilterExpiry_keepsDrill s z))
  | closeNotice z => exact .of_next h (closeNotice_keepsDrill s z)
  | minPulseExpiry seq tg => exact .of_next h (ite_keepsDrill _ (keepsDrill_of_zev rfl))
  | breakerFailExpiry seq tg => exact .of_next h (breakerFailExpiry_keepsDrill s seq tg)
  | coilExpiry seq tg => exact .of_next h (ite_keepsDrill _ (keepsDrill_of_zev rfl))
  | pulseExpiry seq k => exact .of_next h (ite_keepsDrill _ (keepsDrill_of_zev rfl))
  | lockoutWordWriteEnd rb => exact .of_next h (wordWriteEnd_keepsDrill s rb)
  | saveWriteEnd rb => exact .of_next h (saveWriteEnd_keepsDrill s rb)
  | selectTimeout p => exact .of_next h (ite_keepsDrill _ (modPort_keepsDrill s p _))
  | frameRejected p edges sckHigh bits => exact .of_next h (rejectFrame_keepsDrill s p edges sckHigh bits)
  | unknownFunction p code f =>
    exact .of_next h (ite_keepsDrill _ (goodFrame_keepsDrill s p code f _ fun u => setSlot_keepsDrill u p _))
  | fetch p f => exact .of_next h (frame p _ _ _ .refl)
  | read p f => exact .of_next h (frame p _ _ _ fun _ => keepsDrill_of_zev rfl)
  | readStaged p f => exact .of_next h (frame p _ _ _ fun u => setSlot_keepsDrill u p _)
  | write p f => exact .of_next h (frame p _ _ _ fun u => writeBody_keepsDrill u p f)
  | report p f => exact .of_next h (frame p _ _ _ fun u => reportBody_keepsDrill u p f)
  | claim p f => exact .of_next h (frame p _ _ _ fun u => claimBody_keepsDrill u p)
  | yield p f => exact .of_next h (frame p _ _ _ fun u => yieldBody_keepsDrill u p)
  | commit p f => exact .of_next h (frame p _ _ _ fun u => commitBody_keepsDrill u p)
  | release p f => exact .of_next h (frame p _ _ _ fun u => releaseBody_keepsDrill u p f)
  | record p f => exact .of_next h (frame p _ _ _ fun u => recordBody_keepsDrill u p f)
  | seen p f => exact .of_next h (frame p _ _ _ fun u => seenBody_keepsDrill u p f)
  | clearAlerts p f => exact .of_next h (frame p _ _ _ fun _ => keepsDrill_of_zev rfl)
  | setMask p f => exact .of_next h (frame p _ _ _ fun _ => keepsDrill_of_zev rfl)
  | relearn p page v => exact .of_next h (frame p _ _ _ fun u => relearnBody_keepsDrill u p v)
  | test p page v => exact .of_next h (frame p _ _ _ fun u => testBody_keepsDrill u p v)
  | capture p page v => exact .of_next h (frame p _ _ _ fun u => captureBody_keepsDrill u p v)
  | drillStart p page v => exact .of_next h (frame p _ _ _ fun u => drillStartBody_keepsDrill u p v)
  | drillEnd p page v => exact .of_next h (frame p _ _ _ fun u => drillEndBody_keepsDrill u p)
  | save p page v => exact .of_next h (frame p _ _ _ fun u => saveBody_keepsDrill u p)
  | clearCounters p page v =>
    exact .of_next h (frame p _ _ _ fun u => (zeroCounters_keepsDrill u).trans (setSlot_keepsDrill _ p _))
  | defaultStaged p page v => exact .of_next h (frame p _ _ _ fun u => defaultStagedBody_keepsDrill u p)
  | drillWindowExpiry => exact .of_next h (ite_keepsDrill _ (endDrill_keepsDrill s _))
  | heartbeatExpiry p => exact .of_next h (ite_keepsDrill _ (leaveLive_keepsDrill s p))
  | silentTimerExpiry p => exact .of_next h (ite_keepsDrill _ (keepsDrill_of_zev rfl))
  | transfer => exact .of_next h (transferIfDue_keepsDrill s)
  | selectFall p sck => exact .of_next h (fallSelect_keepsDrill s p sck)
  | timedOutSelectRise p => exact .of_next h (ite_keepsDrill _ (modPort_keepsDrill s p _))
  | selectPulseIgnored p => exact .of_next h (emptyPulse_keepsDrill s p)
  | controlBadSubfunction p f =>
    exact .of_next h (ite_keepsDrill _ (frame p _ _ _ fun u => setSlot_keepsDrill u p _))

/-- A step idles or runs the front command; neither taking it from the queue nor running it breaks `DrillInv`. -/
theorem step_keepsDrill {s t : State} (h : step s = .next t) : KeepsDrill s t := by
  unfold step at h
  split at h
  · exact .of_next h (.refl s)
  · refine KeepsDrill.trans ?_ (exec_keepsDrill h)
    exact keepsDrill_of_zev rfl

/-- Settles O57: the links by the invariants that every command keeps, the drill by its own. -/
theorem stepKeepsLinks : Obligations.StepKeepsLinks := by
  intro s t h
  refine ⟨fun i => ?_, (step_keepsDrill h).keeps⟩
  obtain rfl | ⟨rest, rfl⟩ | ⟨rest, k⟩ := step_cases h
  · exact i
  · obtain ⟨-, -, hl, -, -, -, -⟩ := powerOn_inv { s with pending := rest }
    exact hl
  · exact k.links i

end Sys2Proof.Machine
end

section
/-! PROOFS. An arc decision, and decisions one after another, in the words of the statements: zones and drill, records,
lines and the lockout word (R90, R91, R106, R130, R132, R142, R164). -/

namespace Sys2Proof.Machine

/-- What TOP, the CP lines, the time and the image in force tell the Trip Record Manager. -/
structure State.SameBoard (s t : State) : Prop where
  time : t.alr.time = s.alr.time
  cp : t.cp = s.cp
  top : t.top = s.top
  active : t.cfg.active = s.cfg.active

theorem State.SameBoard.trans {s t u : State} (h : s.SameBoard t) (g : t.SameBoard u) : s.SameBoard u :=
  ⟨g.time.trans h.time, g.cp.trans h.cp, g.top.trans h.top, g.active.trans h.active⟩

theorem ZStep.sameBoard {s t : State} (h : ZStep s t) : s.SameBoard t := ⟨h.time, h.cp, h.top, h.active⟩

theorem TStep.sameBoard {s t : State} (h : TStep s t) : s.SameBoard t :=
  ⟨h.time, h.cp, h.top, by have := congrArg Cfg.active h.cfg; exact this⟩

section
variable {s t : State}

theorem State.SameBoard.used (h : s.SameBoard t) : t.used = s.used := by
  unfold State.used
  rw [h.active]

theorem State.SameBoard.initialAnswer (h : s.SameBoard t) (loc : Location) (sc : Scope) :
    t.initialAnswer loc sc = s.initialAnswer loc sc := by
  have e : t.initialAnswer loc sc =
      State.initialAnswer { s with top := t.top, cfg.active := t.cfg.active } loc sc := rfl
  rw [e, h.top, h.active]

theorem State.SameBoard.feedSet (h : s.SameBoard t) (r : SectSet) : t.feedSet r = s.feedSet r := by
  obtain ⟨-, -, htop, hact⟩ := h
  unfold State.feedSet State.islandsMeeting State.sameIsland State.incomerPresent
  rw [htop, hact]

theorem State.SameBoard.live (h : s.SameBoard t) (f : IncomerSet) : t.live f = s.live f := by
  unfold State.live
  rw [h.cp]

theorem State.SameBoard.currentConfirms (h : s.SameBoard t) (z : Zone) : t.currentConfirms z = s.currentConfirms z := by
  have hr (loc : Location) (sc : Scope) : t.faultedRegion loc sc = s.faultedRegion loc sc := by
    unfold State.faultedRegion State.islandsMeeting State.sameIsland
    rw [h.top]
  unfold State.currentConfirms State.confirmingSet State.zonePage
  rw [h.live, h.feedSet, hr, h.active]

theorem State.SameBoard.freshEntry (h : s.SameBoard t) (tg : Target) (why : Reason) :
    t.freshEntry tg why = s.freshEntry tg why := by
  obtain ⟨htime, hcp, htop, hact⟩ := h
  unfold State.freshEntry
  rw [htime, hact]
  cases tg
  · simp only [hcp]
  · simp only [htop]
  · rfl

/-- The record of a decision hangs on the board and on what the zone has lit it (R106). -/
theorem State.SameBoard.arcOf (h : s.SameBoard t) {z : Zone} (ht : t.zev.zones[z].trigger = s.zev.zones[z].trigger)
    (hd : t.zev.zones[z].degraded = s.zev.zones[z].degraded) (n : Byte) : t.arcOf z n = s.arcOf z n := by
  unfold State.arcOf
  simp only [h.active, h.initialAnswer, h.time, ht, hd]
  congr 1
  exact List.map_congr_left fun tg _ => h.freshEntry tg _

end

/-! ### Alerts stay (R199) -/

theorem AlertFrame.alerted {s t : State} (h : AlertFrame s t) {p : Port} {a : Alert} (ha : s.alerted p a = true) :
    t.alerted p a = true := (h p).2.2 _ ha

theorem raise_alerts {s : State} (a : Alert) {p : Port} (hp : s.used p = true) : (s.raise a).alerted p a = true := by
  rw [raise_alerted, hp, decide_eq_true rfl]
  simp

/-! ### Events at the Trip Record Manager (R132, R142) -/

theorem requestWord_kept (s : State) (b : BreakerSet) :
    (s.requestWord b).trm.records = s.trm.records ∧ (s.requestWord b).trm.seqCounter = s.trm.seqCounter ∧
      (s.requestWord b).cfg.recordsQuiet = s.cfg.recordsQuiet ∧
      (s.requestWord b).cfg.transferDue = s.cfg.transferDue := by
  rw [requestWord_eq]
  split <;> exact ⟨rfl, rfl, rfl, rfl⟩

theorem trmEvent_kept (s : State) (f : State → State) :
    (s.trmEvent f).trm.records = (f s).trm.records ∧ (s.trmEvent f).trm.seqCounter = (f s).trm.seqCounter ∧
      (s.trmEvent f).cfg.recordsQuiet = (f s).cfg.recordsQuiet ∧
      (s.trmEvent f).cfg.transferDue = (f s).cfg.transferDue ∧ (s.trmEvent f).alr = (f s).alr := by
  obtain ⟨h1, h2, h3, h4⟩ := requestWord_kept (f s) (f s).closeInhibit
  unfold State.trmEvent
  simp only
  split
  · exact ⟨rfl, rfl, rfl, rfl, rfl⟩
  · exact ⟨h1, h2, h3, h4, requestWord_alr _ _⟩

/-! ### Room and numbers (R105, R107) -/

/-- What a list keeps when a record is to be appended: a full list gives up its oldest closed record (R107). -/
def keptRecords (rs : List TripRec) : List TripRec :=
  if rs.length < 12 then rs else rs.eraseP fun r => decide (r.stage = .closed)

theorem erase_of_find? {α : Type} [DecidableEq α] {p : α → Bool} {a : α} {l : List α} (h : l.find? p = some a) :
    l.erase a = l.eraseP p := by
  induction l with
  | nil => rfl
  | cons x xs ih =>
    by_cases hx : p x = true
    · obtain rfl : x = a := Option.some.inj ((List.find?_cons_of_pos hx).symm.trans h)
      rw [List.erase_cons_head, List.eraseP_cons_of_pos hx]
    · rw [List.find?_cons_of_neg hx] at h
      have hne : x ≠ a := fun e => hx (e ▸ List.find?_some h)
      rw [List.erase_cons_tail (by simpa using hne), List.eraseP_cons_of_neg hx, ih h]

theorem makeRoom_trm (s : State) :
    s.makeRoom.trm.records = keptRecords s.trm.records ∧ s.makeRoom.trm.seqCounter = s.trm.seqCounter := by
  unfold State.makeRoom keptRecords
  split
  · exact ⟨rfl, rfl⟩
  · cases h : oldestClosed s.trm.records with
    | none => exact ⟨(List.eraseP_of_forall_not fun r hr => by
        have := List.find?_eq_none.1 h r hr
        simpa using this).symm, rfl⟩
    | some old => exact ⟨erase_of_find? h, rfl⟩

/-- A record that is not closed is kept. -/
theorem mem_keptRecords {rs : List TripRec} {r : TripRec} (hr : r ∈ rs) (ho : r.stage ≠ .closed) :
    r ∈ keptRecords rs := by
  unfold keptRecords
  split
  · exact hr
  · exact (List.mem_eraseP_of_neg (by simpa using ho)).2 hr

theorem keptRecords_subset (rs : List TripRec) : keptRecords rs ⊆ rs := by
  unfold keptRecords
  split
  · exact List.Subset.refl rs
  · exact List.eraseP_subset

/-- The records that are open. -/
def openCount (rs : List TripRec) : Nat := (rs.filter fun r => decide (r.stage ≠ .closed)).length

theorem openCount_append (rs ss : List TripRec) : openCount (rs ++ ss) = openCount rs + openCount ss := by
  unfold openCount
  rw [List.filter_append, List.length_append]

theorem openCount_keptRecords (rs : List TripRec) : openCount (keptRecords rs) = openCount rs := by
  have erased : openCount (rs.eraseP fun r => decide (r.stage = .closed)) = openCount rs := by
    induction rs with
    | nil => rfl
    | cons r rs ih =>
      by_cases hc : r.stage = .closed
      · rw [List.eraseP_cons_of_pos (by simpa using hc)]
        simp [openCount, hc]
      · rw [List.eraseP_cons_of_neg (by simpa using hc)]
        unfold openCount at ih ⊢
        rw [List.filter_cons_of_pos (by simpa using hc), List.filter_cons_of_pos (by simpa using hc), List.length_cons,
          List.length_cons, ih]
  unfold keptRecords
  split
  · rfl
  · exact erased

theorem length_keptRecords_le (rs : List TripRec) : (keptRecords rs).length ≤ rs.length := by
  unfold keptRecords
  split
  · exact le_refl _
  · exact List.length_eraseP_le

/-- Where a closed record can give way, a list of twelve has room after it (R107). -/
theorem length_keptRecords_lt {rs : List TripRec} (hl : rs.length ≤ 12) (ho : openCount rs < 12) :
    (keptRecords rs).length < 12 := by
  unfold keptRecords
  split
  · assumption
  · rename_i h
    have hc : ∃ r ∈ rs, r.stage = .closed := by
      by_contra hn
      push Not at hn
      have : rs.filter (fun r => decide (r.stage ≠ .closed)) = rs :=
        List.filter_eq_self.2 fun r hr => decide_eq_true (hn r hr)
      unfold openCount at ho
      rw [this] at ho
      exact h ho
    obtain ⟨r, hr, hrc⟩ := hc
    rw [List.length_eraseP_of_mem hr (decide_eq_true hrc)]
    omega

/-! ### One decision -/

/-- The zone records and the drill register after the end of a drill (R164). -/
def Zev.drillEnded (v : Zev) (why : EndReason) : Zev :=
  { v with
    zones := match v.drill.zone with
      | some y => modAt v.zones y fun r => { r with drill := false }
      | none => v.zones
    drill := v.drill.ended why }

/-- The zone records and the drill register after a decision of a zone (R90, R164). -/
def Zev.decided (v : Zev) (z : Zone) (now : Time) : Zev :=
  let w : Zev := { v with
    zones := modAt v.zones z fun r => { r with
      filter := .stopped, confirm := .stopped, phase := some .holding, state := .tripped, entryTime := now } }
  if v.zones[z].drill && v.drill.active then w.drillEnded .decision else w

theorem endDrill_idle {s : State} (why : EndReason) (h : s.zev.drill.active = false) : s.endDrill why = s := by
  unfold State.endDrill
  simp only [h, Bool.not_false, if_true]

theorem endDrill_active {s : State} (why : EndReason) (h : s.zev.drill.active = true) :
    s.endDrill why = ({ s with zev := s.zev.drillEnded why } : State).raise .drill := by
  unfold State.endDrill Zev.drillEnded DrillReg.ended
  simp only [h, Bool.not_true, Bool.false_eq_true, if_false]
  cases s.zev.drill.zone <;> rfl

theorem endDrill_zev (s : State) (why : EndReason) :
    (s.endDrill why).zev = if s.zev.drill.active then s.zev.drillEnded why else s.zev := by
  cases ha : s.zev.drill.active
  · rw [endDrill_idle why ha]
    rfl
  · rw [endDrill_active why ha]
    rfl

/-- The end of a drill raises DRILL (R164). -/
theorem endDrill_alerted {s : State} (why : EndReason) (ha : s.zev.drill.active = true) {p : Port}
    (hp : s.used p = true) : (s.endDrill why).alerted p .drill = true := by
  rw [endDrill_active why ha]
  exact raise_alerts (s := { s with zev := _ }) .drill hp

theorem endDrill_kept (s : State) (why : EndReason) :
    (s.endDrill why).trm = s.trm ∧ (s.endDrill why).cfg = s.cfg := by
  cases ha : s.zev.drill.active
  · rw [endDrill_idle why ha]
    exact ⟨rfl, rfl⟩
  · rw [endDrill_active why ha]
    exact ⟨rfl, rfl⟩

/-- What a decision does to the records and the alerts, before the write engine is asked (R106). -/
def State.arcTaken (s : State) (z : Zone) (trigger : Option Chan) (degraded : Bool) : State :=
  ((s.makeRoom.appendRecord (s.makeRoom.arcRecord z trigger degraded)).noticeRecords).raise .arcOpened

theorem openArc_eq (s : State) (z : Zone) (trigger : Option Chan) (degraded : Bool) :
    s.openArc z trigger degraded = s.trmEvent fun s => s.arcTaken z trigger degraded := rfl

/-- The number of the next record, once the list has room for it (R105). -/
def State.decisionNumber (s : State) : Byte :=
  nextSeq ((keptRecords s.trm.records).map (·.seq)) 12 s.trm.seqCounter

theorem arcTaken_fields (s : State) (z : Zone) (trigger : Option Chan) (degraded : Bool) :
    (s.arcTaken z trigger degraded).trm.records =
        s.makeRoom.trm.records ++ [{ s.makeRoom.arcRecord z trigger degraded with seq := s.decisionNumber }] ∧
      (s.arcTaken z trigger degraded).trm.seqCounter = s.decisionNumber ∧
      (s.arcTaken z trigger degraded).trm.lock = s.trm.lock ∧
      (s.arcTaken z trigger degraded).cfg.engine = s.cfg.engine := by
  obtain ⟨hr, hc⟩ := makeRoom_trm s
  have hm := makeRoom_tstep s
  have hn : nextSeq (s.makeRoom.trm.records.map (·.seq)) 12 s.makeRoom.trm.seqCounter = s.decisionNumber := by
    rw [hr, hc]
    rfl
  rw [← hn, ← hm.lock, ← hm.engine.1]
  unfold State.arcTaken
  generalize s.makeRoom = u
  exact ⟨rfl, rfl, rfl, rfl⟩

theorem arcTaken_quiet (s : State) (z : Zone) (trigger : Option Chan) (degraded : Bool) :
    (s.arcTaken z trigger degraded).cfg.recordsQuiet = false := by
  unfold State.arcTaken
  generalize s.makeRoom = u
  refine Bool.eq_false_iff.2 fun h => ?_
  exact (noRecordFiring_iff (u.appendRecord _)).1 h _ (List.mem_append_right _ (List.mem_singleton_self _)) rfl

theorem arcTaken_alerted (s : State) (z : Zone) (trigger : Option Chan) (degraded : Bool) {p : Port}
    (hp : s.used p = true) : (s.arcTaken z trigger degraded).alerted p .arcOpened = true := by
  have hu : s.makeRoom.used p = true := (congrFun (makeRoom_tstep s).sameBoard.used p).trans hp
  unfold State.arcTaken
  generalize s.makeRoom = u at hu ⊢
  exact raise_alerts (s := State.noticeRecords _) .arcOpened hu

section
variable (s : State) (z : Zone)

/-- The record of a decision at the Trip Record Manager. -/
def State.arcOpenedAt (s : State) (z : Zone) : State := s.openArc z s.zev.zones[z].trigger s.zev.zones[z].degraded

/-- A decision but for the end of a drill. -/
def State.decidedAt (s : State) (z : Zone) : State :=
  ((s.arcOpenedAt z).modZone z fun r =>
    { r with filter := .stopped, confirm := .stopped, phase := some .holding }).enterZone z .tripped

theorem decideArc_eq : s.decideArc z =
    if s.zev.zones[z].drill then (s.decidedAt z).endDrill .decision else s.decidedAt z := rfl

theorem arcOpenedAt_zstep : ZStep s (s.arcOpenedAt z) := openArc_zstep s z _ _

theorem arcOpenedAt_zev : (s.arcOpenedAt z).zev = s.zev := openArc_zev s z _ _

theorem decidedAt_zev : (s.decidedAt z).zev = { s.zev with
    zones := modAt s.zev.zones z fun r => { r with
      filter := .stopped, confirm := .stopped, phase := some .holding, state := .tripped, entryTime := s.alr.time } } := by
  have ho := arcOpenedAt_zev s z
  have ht := (arcOpenedAt_zstep s z).time
  unfold State.decidedAt State.enterZone
  generalize s.arcOpenedAt z = u at ho ht ⊢
  rw [modZone_modZone]
  unfold State.modZone
  simp only [noticeZones_zev, ho, ht]
  rfl

theorem decidedAt_kept : (s.decidedAt z).trm = (s.arcOpenedAt z).trm ∧ (s.decidedAt z).alr = (s.arcOpenedAt z).alr ∧
    (s.decidedAt z).lnk = (s.arcOpenedAt z).lnk ∧
    (s.decidedAt z).cfg.engine = (s.arcOpenedAt z).cfg.engine ∧
    (s.decidedAt z).cfg.recordsQuiet = (s.arcOpenedAt z).cfg.recordsQuiet ∧
    ((s.arcOpenedAt z).cfg.recordsQuiet = false → (s.decidedAt z).cfg.transferDue = false) := by
  unfold State.decidedAt
  generalize s.arcOpenedAt z = u
  refine ⟨rfl, rfl, rfl, rfl, rfl, fun h => ?_⟩
  show (_ && _ && u.cfg.recordsQuiet && _) = false
  rw [h, Bool.and_false, Bool.false_and]

theorem decideArc_zev : (s.decideArc z).zev = s.zev.decided z s.alr.time := by
  have hz := decidedAt_zev s z
  rw [decideArc_eq]
  unfold Zev.decided
  cases hd : s.zev.zones[z].drill
  · exact hz
  · simp only [if_true, Bool.true_and]
    rw [endDrill_zev, hz]

theorem decideArc_kept : (s.decideArc z).trm = (s.arcOpenedAt z).trm ∧ (s.decideArc z).cfg = (s.decidedAt z).cfg := by
  obtain ⟨ht, hc⟩ := endDrill_kept (s.decidedAt z) .decision
  obtain ⟨hk, -⟩ := decidedAt_kept s z
  rw [decideArc_eq]
  split
  · exact ⟨ht.trans hk, hc⟩
  · exact ⟨hk, rfl⟩

/-- A decision appends its record behind those the list keeps, under the next number (R105, R106, R107). -/
theorem decideArc_records :
    (s.decideArc z).trm.records = keptRecords s.trm.records ++ [s.arcOf z s.decisionNumber] ∧
      (s.decideArc z).trm.seqCounter = s.decisionNumber := by
  have hb := (makeRoom_tstep s).sameBoard
  have harc (n : Byte) : { s.makeRoom.arcRecord z s.zev.zones[z].trigger s.zev.zones[z].degraded with seq := n } =
      s.arcOf z n := by
    unfold State.arcRecord State.arcOf
    simp only [hb.active, hb.initialAnswer, hb.time]
    congr 1
    refine List.map_congr_left fun tg ht => ?_
    rw [newEntry_targetsOf _ _ _ ht, hb.freshEntry]
  obtain ⟨h1, h2, -⟩ := trmEvent_kept s fun t => t.arcTaken z s.zev.zones[z].trigger s.zev.zones[z].degraded
  obtain ⟨h3, h4, -⟩ := arcTaken_fields s z s.zev.zones[z].trigger s.zev.zones[z].degraded
  rw [(decideArc_kept s z).1, ← harc, ← (makeRoom_trm s).1]
  exact ⟨h1.trans h3, h2.trans h4⟩

/-- A pending commit waits for the record of a decision (R178, log 5). -/
theorem decideArc_quiet : (s.decideArc z).cfg.recordsQuiet = false ∧ (s.decideArc z).cfg.transferDue = false := by
  obtain ⟨-, -, h, -⟩ := trmEvent_kept s fun t => t.arcTaken z s.zev.zones[z].trigger s.zev.zones[z].degraded
  have hq : (s.arcOpenedAt z).cfg.recordsQuiet = false := h.trans (arcTaken_quiet s z _ _)
  obtain ⟨-, -, -, -, hr, hd⟩ := decidedAt_kept s z
  rw [(decideArc_kept s z).2]
  exact ⟨hr.trans hq, hd hq⟩

theorem decideArc_arcOpened {p : Port} (hp : s.used p = true) : (s.decideArc z).alerted p .arcOpened = true := by
  obtain ⟨-, -, -, -, h⟩ := trmEvent_kept s fun t => t.arcTaken z s.zev.zones[z].trigger s.zev.zones[z].degraded
  obtain ⟨-, ha, -⟩ := decidedAt_kept s z
  have ho : (s.decidedAt z).alerted p .arcOpened = true := by
    unfold State.alerted
    rw [ha.trans h]
    exact arcTaken_alerted s z _ _ hp
  rw [decideArc_eq]
  split
  · exact (endDrill_zstep _ _).masks.alerted ho
  · exact ho

theorem decidedAt_zstep : ZStep s (s.decidedAt z) :=
  ((arcOpenedAt_zstep s z).trans (modZone_zstep _ z _ (by intro; rfl))).trans (enterZone_zstep _ z _)

theorem decideArc_drillEnds (hd : s.zev.zones[z].drill = true) (ha : s.zev.drill.active = true) {p : Port}
    (hp : s.used p = true) : (s.decideArc z).alerted p .drill = true := by
  have hz := decidedAt_zev s z
  rw [decideArc_eq, if_pos hd]
  refine endDrill_alerted _ (by rw [hz]; exact ha) ?_
  rw [(decidedAt_zstep s z).sameBoard.used]
  exact hp

end

/-! ### The lockout word through several events (R132, R142) -/

/-- The lines that are on stay on, and the write engine is asked for what changed. -/
structure State.Asks (s t : State) (once : Prop) : Prop where
  grows : ∀ b, mem s.closeInhibit b = true → mem t.closeInhibit b = true
  asks : s.AsksForWord t once

theorem asksForWord_refl {s t : State} (once : Prop) (hr : t.closeInhibit = s.closeInhibit)
    (hl : t.trm.lock = s.trm.lock) (he : t.cfg.engine = s.cfg.engine) : s.AsksForWord t once :=
  ⟨fun _ => ⟨hl, he⟩, fun h => absurd hr h, fun h => absurd hr h⟩

theorem State.Asks.of_same {s t : State} (once : Prop) (hr : t.closeInhibit = s.closeInhibit)
    (hl : t.trm.lock = s.trm.lock) (he : t.cfg.engine = s.cfg.engine) : s.Asks t once :=
  ⟨fun b h => by rw [hr]; exact h, asksForWord_refl once hr hl he⟩

theorem State.Asks.congr {s s' t t' : State} {once : Prop} (h : s.Asks t once) (hr : s'.closeInhibit = s.closeInhibit)
    (hl : s'.trm.lock = s.trm.lock) (he : s'.cfg.engine = s.cfg.engine) (hr' : t'.closeInhibit = t.closeInhibit)
    (hl' : t'.trm.lock = t.trm.lock) (he' : t'.cfg.engine = t.cfg.engine) : s'.Asks t' once := by
  obtain ⟨g, a⟩ := h
  refine ⟨fun b hb => ?_, ?_⟩
  · rw [hr']
    exact g b (hr ▸ hb)
  · unfold State.AsksForWord at a ⊢
    rw [hr, hl, he, hr', hl', he']
    exact a

/-- One request and then more of them are what an event of several requests asks. -/
theorem State.Asks.cons {s t u : State} {rest all : Prop} (h : s.Asks t True) (g : t.Asks u rest)
    (hrest : all → rest) (hall : all → u.closeInhibit = t.closeInhibit) : s.Asks u all := by
  obtain ⟨grow1, same1, busy1, idle1⟩ := h
  obtain ⟨grow2, same2, busy2, idle2⟩ := g
  refine ⟨fun b hb => grow2 b (grow1 b hb), ?_⟩
  have between (e : u.closeInhibit = s.closeInhibit) : t.closeInhibit = s.closeInhibit :=
    set_ext fun b => Bool.eq_iff_iff.2 ⟨fun hb => e ▸ grow2 b hb, grow1 b⟩
  by_cases h1 : t.closeInhibit = s.closeInhibit
  · obtain ⟨hl, he⟩ := same1 h1
    rw [h1, hl, he] at same2
    rw [h1, he] at busy2 idle2
    rw [hl] at busy2 idle2
    refine ⟨same2, busy2, fun hn hi => ?_⟩
    obtain ⟨e, begun, hb, hlock⟩ := idle2 hn hi
    exact ⟨e, begun, fun ha => hb (hrest ha), hlock⟩
  · refine ⟨fun e => absurd (between e) h1, fun _ hi => ?_, fun hn hi => ?_⟩
    · obtain ⟨he, hl⟩ := busy1 h1 hi
      by_cases h2 : u.closeInhibit = t.closeInhibit
      · obtain ⟨hl2, he2⟩ := same2 h2
        rw [hl2, he2, hl, he, h2]
        exact ⟨rfl, rfl⟩
      · obtain ⟨he2, hl2⟩ := busy2 h2 (by rw [he]; exact hi)
        rw [he2, he, hl2, hl]
        refine ⟨rfl, ?_⟩
        by_cases hw : s.trm.lock.status = .writing <;> simp [hw]
    · obtain ⟨he, begun, hb, hl⟩ := idle1 h1 hi
      obtain rfl := hb trivial
      by_cases h2 : u.closeInhibit = t.closeInhibit
      · obtain ⟨hl2, he2⟩ := same2 h2
        rw [hl2, he2, hl, he, h2]
        exact ⟨rfl, _, fun _ => rfl, rfl⟩
      · obtain ⟨he2, hl2⟩ := busy2 h2 (by rw [he]; decide)
        rw [he2, he, hl2, hl]
        refine ⟨rfl, t.closeInhibit, fun ha => (hall ha).symm, ?_⟩
        rw [if_neg (Ne.symm h2)]
        rfl

theorem decideArc_asks (s : State) (z : Zone) : s.Asks (s.decideArc z) True := by
  obtain ⟨-, -, hl, he⟩ := arcTaken_fields s z s.zev.zones[z].trigger s.zev.zones[z].degraded
  have ha := trmEvent_asksForWord s (fun t => t.arcTaken z s.zev.zones[z].trigger s.zev.zones[z].degraded) hl he
  rw [← openArc_eq] at ha
  obtain ⟨htrm, hcfg⟩ := decideArc_kept s z
  obtain ⟨-, -, -, heng, -⟩ := decidedAt_kept s z
  refine ⟨fun b hb => ?_, ?_⟩
  · rw [closeInhibit_eq, mem_linesOf] at hb ⊢
    obtain ⟨r, hr, ho, hrest⟩ := hb
    rw [(decideArc_records s z).1]
    exact ⟨r, List.mem_append_left _ (mem_keptRecords hr ho), ho, hrest⟩
  · unfold State.AsksForWord at ha ⊢
    rw [closeInhibit_eq (s.decideArc z), htrm, hcfg, heng]
    exact ha

/-! ### Breakers under command -/

/-- A FIRING record holds the breaker, with its entry under command and the minimum pulse running: the trip line and the
close-inhibit line are on, and no evidence turns them off yet (R115, R131, R132). -/
def Commands (rs : List TripRec) (b : Fin 7) : Prop :=
  ∃ r ∈ rs, r.stage = .firing ∧ mem r.lockout b = true ∧ mem r.released b = false ∧
    ∃ e ∈ r.entries, e.target = tripLineOf b ∧ e.state = .commanded ∧ e.minPulse.isRunning = true

theorem Commands.lines {s : State} {b : Fin 7} (h : Commands s.trm.records b) :
    s.tripLine (tripLineOf b) = true ∧ mem s.closeInhibit b = true := by
  obtain ⟨r, hr, hs, hl, hf, e, he, ht, hc, -⟩ := h
  refine ⟨(tripLine_iff s _).2 ⟨r, hr, e, he, ht, .inl hc⟩, ?_⟩
  rw [closeInhibit_eq, mem_linesOf]
  exact ⟨r, hr, by rw [hs]; decide, hl, hf⟩

theorem Commands.notQuiet {s : State} {b : Fin 7} (h : Commands s.trm.records b) : s.noRecordFiring = false := by
  obtain ⟨r, hr, hs, -⟩ := h
  exact Bool.eq_false_iff.2 fun hn => (noRecordFiring_iff s).1 hn r hr hs

/-- A decision commands the trip set of its zone, and leaves every breaker under command. -/
theorem decideArc_commands (s : State) (z : Zone) (b : Fin 7) :
    (Commands s.trm.records b → Commands (s.decideArc z).trm.records b) ∧
      (mem (s.initialAnswer s.cfg.active.zones[z].location s.cfg.active.zones[z].scope).trips b = true →
        Commands (s.decideArc z).trm.records b) := by
  rw [(decideArc_records s z).1]
  constructor
  · rintro ⟨r, hr, hs, hrest⟩
    exact ⟨r, List.mem_append_left _ (mem_keptRecords hr (by rw [hs]; decide)), hs, hrest⟩
  · intro hb
    refine ⟨_, List.mem_append_right _ (List.mem_singleton_self _), rfl, hb, ?_, _,
      List.mem_map_of_mem ((mem_targetsOf _ b).2 hb), rfl, rfl, rfl⟩
    simp [State.arcOf, mem]

end Sys2Proof.Machine
end

section
/-! PROOFS. Open evidence, and arc decisions one after another, with evidence before them or between them (R91, R112 to
R116, R130). -/

namespace Sys2Proof.Machine

/-! ### Open evidence (R112 to R116, R122, R127) -/

theorem takesEvidence_iff (e : Entry) (tg : Target) : e.takesEvidence tg = true ↔
    e.target = tg ∧ (e.state = .commanded ∨ e.state = .failing ∨ e.state = .gaveUp) ∧ e.evidence = none := by
  simp [Entry.takesEvidence, and_assoc]

/-- An entry that can take evidence, in the words of the statements. -/
theorem evidenceAt_eq {e : Entry} (now : Time) (h : e.state = .commanded ∨ e.state = .failing ∨ e.state = .gaveUp) :
    e.evidenceAt now =
      if e.state = .commanded then
        (if e.minPulse.isRunning = true then { e with evidence := some now }
         else { e with evidence := some now, state := .confirmed, breakerFail := .stopped, coil := .stopped })
      else { e with evidence := some now, state := .confirmed, late := true, coil := .stopped } := by
  unfold Entry.evidenceAt
  rcases h with h | h | h <;> simp [h]

theorem settle_eq (r : TripRec) : r.settle = r.withEntries r.entries := by
  have hdrive : (r.entries.any fun e => e.state.drives) = false ↔ ∀ e ∈ r.entries, e.state.drives = false := by
    simp
  unfold TripRec.settle TripRec.withEntries
  by_cases h : r.stage = .firing ∧ ∀ e ∈ r.entries, e.state.drives = false
  · rw [if_pos ⟨h.1, hdrive.2 h.2⟩, if_pos h]
  · rw [if_neg fun g => h ⟨g.1, hdrive.1 g.2⟩, if_neg h]

theorem evidence_eq (r : TripRec) (tg : Target) (now : Time) : r.evidence tg now = r.tookEvidence tg now := by
  have hentry (e : Entry) : (if e.takesEvidence tg then e.evidenceAt now else e) =
      if e.target = tg ∧ (e.state = .commanded ∨ e.state = .failing ∨ e.state = .gaveUp) ∧ e.evidence = none then
        (if e.state = .commanded then
          (if e.minPulse.isRunning = true then { e with evidence := some now }
           else { e with evidence := some now, state := .confirmed, breakerFail := .stopped, coil := .stopped })
         else { e with evidence := some now, state := .confirmed, late := true, coil := .stopped })
      else e := by
    refine if_ctx_congr (takesEvidence_iff e tg) (fun h => evidenceAt_eq now h.2.1) fun _ => rfl
  have hlate (e : Entry) : (e.takesEvidence tg && decide (e.state = .failing ∨ e.state = .gaveUp)) =
      decide ((e.target = tg ∧ (e.state = .commanded ∨ e.state = .failing ∨ e.state = .gaveUp) ∧ e.evidence = none) ∧
        e.state ≠ .commanded) := by
    rw [Bool.eq_iff_iff, Bool.and_eq_true, takesEvidence_iff, decide_eq_true_iff, decide_eq_true_iff]
    refine and_congr_right fun h => ?_
    rcases h.2.1 with h | h | h <;> simp [h]
  unfold TripRec.evidence TripRec.tookEvidence TripRec.isOpen
  simp only [settle_eq, hentry, hlate]
  by_cases hc : r.stage = .closed
  · simp [hc]
  · simp only [hc, ne_eq, not_false_eq_true, decide_true, if_true, if_false]
    rfl

/-- Open evidence of several targets reaches the open records, one after another. -/
def State.evidenceAll (s : State) (tgs : List Target) : State := tgs.foldl State.openEvidence s

theorem withEvidence_nil (rs : List TripRec) (now : Time) : withEvidence rs [] now = rs := List.map_id rs

theorem withEvidence_cons (rs : List TripRec) (tg : Target) (tgs : List Target) (now : Time) :
    withEvidence rs (tg :: tgs) now = withEvidence (rs.map fun r => r.evidence tg now) tgs now := by
  unfold withEvidence
  rw [List.map_map]
  refine List.map_congr_left fun r _ => ?_
  simp only [List.foldl_cons, Function.comp_apply, evidence_eq]

/-- Evidence changes the records and the CFG's view of them only. -/
theorem evidenceAll_kept (tgs : List Target) (s : State) :
    (s.evidenceAll tgs).trm = { s.trm with records := withEvidence s.trm.records tgs s.alr.time } ∧
      (s.evidenceAll tgs).zev = s.zev ∧ (s.evidenceAll tgs).lnk = s.lnk ∧ (s.evidenceAll tgs).alr = s.alr ∧
      (s.evidenceAll tgs).cfg.engine = s.cfg.engine := by
  induction tgs generalizing s with
  | nil => exact ⟨by rw [withEvidence_nil]; rfl, rfl, rfl, rfl, rfl⟩
  | cons tg tgs ih =>
    obtain ⟨h1, h2, h3, h4, h5⟩ := ih (s.openEvidence tg)
    refine ⟨?_, h2, h3, h4, h5⟩
    rw [withEvidence_cons]
    exact h1

theorem evidenceAll_lnk (s : State) (tgs : List Target) : (s.evidenceAll tgs).lnk = s.lnk := by
  obtain ⟨-, -, hl, -⟩ := evidenceAll_kept tgs s
  exact hl

theorem evidenceAll_zstep (s : State) (tgs : List Target) : ZStep s (s.evidenceAll tgs) :=
  foldl_zstep _ openEvidence_zstep tgs s

theorem evidenceAll_closeInhibit (s : State) (tgs : List Target) :
    (s.evidenceAll tgs).closeInhibit = s.closeInhibit := by
  induction tgs generalizing s with
  | nil => rfl
  | cons tg tgs ih =>
    refine (ih (s.openEvidence tg)).trans ?_
    exact linesOf_map (f := fun r => r.evidence tg s.alr.time) s.trm.records fun r _ =>
      ⟨evidence_isOpen r tg _, evidence_holding r tg _⟩

theorem evidence_closed_iff (r : TripRec) (tg : Target) (now : Time) :
    (r.evidence tg now).stage ≠ .closed ↔ r.stage ≠ .closed := by
  have h := evidence_isOpen r tg now
  unfold TripRec.isOpen at h
  exact decide_eq_decide.1 h

/-- Evidence leaves how many records there are and how many of them are open. -/
theorem withEvidence_counts (rs : List TripRec) (tgs : List Target) (now : Time) :
    (withEvidence rs tgs now).length = rs.length ∧ openCount (withEvidence rs tgs now) = openCount rs := by
  induction tgs generalizing rs with
  | nil => rw [withEvidence_nil]; exact ⟨rfl, rfl⟩
  | cons tg tgs ih =>
    obtain ⟨h1, h2⟩ := ih (rs.map fun r => r.evidence tg now)
    rw [withEvidence_cons, h1, h2, List.length_map]
    refine ⟨rfl, ?_⟩
    unfold openCount
    rw [List.filter_map, List.length_map]
    congr 2
    funext r
    exact decide_eq_decide.2 (evidence_closed_iff r tg now)

/-- An entry under command whose minimum pulse runs stays so (R115). -/
theorem Commands.evidence {rs : List TripRec} {b : Fin 7} (h : Commands rs b) (tg : Target) (now : Time) :
    Commands (rs.map fun r => r.evidence tg now) b := by
  obtain ⟨r, hr, hs, hl, hf, e, he, ht, hc, hm⟩ := h
  have hopen : r.isOpen = true := by simp [TripRec.isOpen, hs]
  have hent : (r.evidence tg now).entries = r.entries.map fun e => if e.takesEvidence tg then e.evidenceAt now else e := by
    unfold TripRec.evidence
    rw [if_pos hopen]
    obtain ⟨-, -, -, -, he, -⟩ := settle_fields ({ r with
      entries := r.entries.map fun e => if e.takesEvidence tg then e.evidenceAt now else e
      late := r.late || r.entries.any fun e => e.takesEvidence tg && decide (e.state = .failing ∨ e.state = .gaveUp) })
    exact he
  have he' : ∃ e' ∈ (r.evidence tg now).entries, e'.target = tripLineOf b ∧ e'.state = .commanded ∧
      e'.minPulse.isRunning = true := by
    rw [hent]
    refine ⟨_, List.mem_map_of_mem he, ?_⟩
    split
    · rw [evidenceAt_eq now (.inl hc), if_pos hc, if_pos hm]
      exact ⟨ht, hc, hm⟩
    · exact ⟨ht, hc, hm⟩
  have hstage : (r.evidence tg now).stage = .firing := by
    obtain ⟨e', he', -, hc', -⟩ := he'
    rw [hent] at he'
    unfold TripRec.evidence
    rw [if_pos hopen]
    unfold TripRec.settle
    refine (congrArg TripRec.stage (if_neg fun hq => ?_)).trans hs
    have := List.any_eq_false.1 hq.2 e' he'
    simp [hc', EntryState.drives] at this
  have hfields : (r.evidence tg now).lockout = r.lockout ∧ (r.evidence tg now).released = r.released := by
    unfold TripRec.evidence
    rw [if_pos hopen]
    obtain ⟨-, h1, h2, -⟩ := settle_fields ({ r with
      entries := r.entries.map fun e => if e.takesEvidence tg then e.evidenceAt now else e
      late := r.late || r.entries.any fun e => e.takesEvidence tg && decide (e.state = .failing ∨ e.state = .gaveUp) })
    exact ⟨h1, h2⟩
  exact ⟨_, List.mem_map_of_mem hr, hstage, by rw [hfields.1]; exact hl, by rw [hfields.2]; exact hf, he'⟩

theorem evidenceAll_commands {s : State} {b : Fin 7} (tgs : List Target) (h : Commands s.trm.records b) :
    Commands (s.evidenceAll tgs).trm.records b := by
  induction tgs generalizing s with
  | nil => exact h
  | cons tg tgs ih => exact ih (s := s.openEvidence tg) (h.evidence tg s.alr.time)

/-- A pending commit goes on waiting for a record that is under command. -/
theorem evidenceAll_quiet {s : State} {b : Fin 7} (tgs : List Target) (h : Commands s.trm.records b)
    (hq : s.cfg.recordsQuiet = false ∧ s.cfg.transferDue = false) :
    (s.evidenceAll tgs).cfg.recordsQuiet = false ∧ (s.evidenceAll tgs).cfg.transferDue = false := by
  induction tgs generalizing s with
  | nil => exact hq
  | cons tg tgs ih =>
    have hc : Commands (s.openEvidence tg).trm.records b := h.evidence tg s.alr.time
    have hr : (s.openEvidence tg).cfg.recordsQuiet = false := hc.notQuiet
    refine ih (s := s.openEvidence tg) hc ⟨hr, ?_⟩
    show (_ && _ && (s.openEvidence tg).cfg.recordsQuiet && _) = false
    rw [hr, Bool.and_false, Bool.false_and]

/-! ### Decisions one after another -/

/-- The zones of a list decide one after another (R91). -/
def State.decideAll (s : State) (zs : List Zone) : State := zs.foldl (fun t z => t.decideArc z) s

theorem decideAll_zstep (s : State) (zs : List Zone) : ZStep s (s.decideAll zs) :=
  foldl_zstep _ (fun t z => decideArc_zstep t z) zs s

/-- The zones and the drill register after several decisions. -/
def Zev.decidedAll (v : Zev) (zs : List Zone) (now : Time) : Zev := zs.foldl (fun v z => v.decided z now) v

theorem decideAll_zev (s : State) (zs : List Zone) : (s.decideAll zs).zev = s.zev.decidedAll zs s.alr.time := by
  induction zs generalizing s with
  | nil => rfl
  | cons z zs ih =>
    refine (ih (s.decideArc z)).trans ?_
    rw [decideArc_zev, (decideArc_zstep s z).time]
    rfl

/-- A zone record that has decided, but for its drill flag (R90). -/
def ZoneRec.struck (r : ZoneRec) (now : Time) : ZoneRec :=
  { r with filter := .stopped, confirm := .stopped, phase := some .holding, state := .tripped, entryTime := now }

theorem drillEnded_zones (v : Zev) (why : EndReason) (y : Zone) : (v.drillEnded why).zones[y] =
    { v.zones[y] with drill := v.zones[y].drill && decide (v.drill.zone ≠ some y) } := by
  unfold Zev.drillEnded
  cases hz : v.drill.zone with
  | none => simp
  | some x =>
    simp only [modAt_get]
    split
    · rename_i h
      subst h
      simp
    · rename_i h
      have : x ≠ y := Ne.symm h
      simp [this]

theorem decided_zones (v : Zev) (z : Zone) (now : Time) (y : Zone) : (v.decided z now).zones[y] =
    { (if y = z then v.zones[y].struck now else v.zones[y]) with drill := (v.decided z now).zones[y].drill } := by
  have hm : (modAt v.zones z fun r => r.struck now)[y] = if y = z then v.zones[y].struck now else v.zones[y] := by
    rw [modAt_get]
    split
    · rename_i h
      rw [h]
    · rfl
  have hall (w : Zev) (r : ZoneRec) (d : Bool) (h : w.zones[y] = { r with drill := d }) :
      w.zones[y] = { r with drill := w.zones[y].drill } := by
    rw [h]
  rw [← hm]
  unfold Zev.decided
  simp only
  split
  · exact hall _ _ _ (drillEnded_zones _ _ y)
  · exact hall _ (modAt v.zones z fun r => r.struck now)[y] _ rfl

/-- Whether a decision ends the drill, and the flags and the register after it (R164). -/
theorem decided_drill (v : Zev) (z : Zone) (now : Time) :
    (v.zones[z].drill = true ∧ v.drill.active = true → (v.decided z now).drill = v.drill.ended .decision ∧
      ∀ y : Zone, (v.decided z now).zones[y].drill = (v.zones[y].drill && decide (v.drill.zone ≠ some y))) ∧
    (¬ (v.zones[z].drill = true ∧ v.drill.active = true) → (v.decided z now).drill = v.drill ∧
      ∀ y : Zone, (v.decided z now).zones[y].drill = v.zones[y].drill) := by
  have hm (y : Zone) : (modAt v.zones z fun r => r.struck now)[y].drill = v.zones[y].drill := by
    rw [modAt_get]
    split
    · rename_i h
      rw [h]
      rfl
    · rfl
  unfold Zev.decided
  simp only
  constructor
  · intro h
    rw [if_pos (Bool.and_eq_true_iff.2 h)]
    refine ⟨rfl, fun y => ?_⟩
    rw [drillEnded_zones]
    exact congrArg (fun b => b && decide (v.drill.zone ≠ some y)) (hm y)
  · intro h
    rw [if_neg fun e => h (Bool.and_eq_true_iff.1 e)]
    exact ⟨rfl, hm⟩

theorem decidedAll_zones (zs : List Zone) (v : Zev) (now : Time) (y : Zone) : (v.decidedAll zs now).zones[y] =
    { (if y ∈ zs then v.zones[y].struck now else v.zones[y]) with drill := (v.decidedAll zs now).zones[y].drill } := by
  induction zs generalizing v with
  | nil => simp [Zev.decidedAll]
  | cons z zs ih =>
    have h := ih (v.decided z now)
    have hone := decided_zones v z now y
    refine h.trans ?_
    rw [hone]
    by_cases hz : y = z <;> by_cases hs : y ∈ zs <;> simp [hz, hs, Zev.decidedAll, ZoneRec.struck]

theorem decidedAll_drill (zs : List Zone) (v : Zev) (now : Time) :
    ((v.drill.active = true ∧ ∃ z ∈ zs, v.zones[z].drill = true) →
      (v.decidedAll zs now).drill = v.drill.ended .decision ∧
      ∀ y : Zone, (v.decidedAll zs now).zones[y].drill = (v.zones[y].drill && decide (v.drill.zone ≠ some y))) ∧
    (¬ (v.drill.active = true ∧ ∃ z ∈ zs, v.zones[z].drill = true) → (v.decidedAll zs now).drill = v.drill ∧
      ∀ y : Zone, (v.decidedAll zs now).zones[y].drill = v.zones[y].drill) := by
  induction zs generalizing v with
  | nil => exact ⟨fun h => absurd h (by simp), fun _ => ⟨rfl, fun _ => rfl⟩⟩
  | cons z zs ih =>
    obtain ⟨hends, hgoes⟩ := ih (v.decided z now)
    obtain ⟨e1, g1⟩ := decided_drill v z now
    show (_ → (Zev.decidedAll (v.decided z now) zs now).drill = _ ∧ _) ∧ _
    by_cases h1 : v.zones[z].drill = true ∧ v.drill.active = true
    · obtain ⟨hd, hf⟩ := e1 h1
      have hover : ¬ ((v.decided z now).drill.active = true ∧ ∃ x ∈ zs, (v.decided z now).zones[x].drill = true) := by
        rw [hd]
        exact fun h => Bool.false_ne_true h.1
      obtain ⟨hd2, hf2⟩ := hgoes hover
      exact ⟨fun _ => ⟨hd2.trans hd, fun y => (hf2 y).trans (hf y)⟩,
        fun h => absurd ⟨h1.2, z, List.mem_cons_self, h1.1⟩ h⟩
    · obtain ⟨hd, hf⟩ := g1 h1
      have hiff : (v.drill.active = true ∧ ∃ x ∈ z :: zs, v.zones[x].drill = true) ↔
          ((v.decided z now).drill.active = true ∧ ∃ x ∈ zs, (v.decided z now).zones[x].drill = true) := by
        rw [hd]
        simp only [hf, List.exists_mem_cons_iff]
        tauto
      rw [hiff]
      simp only [hd, hf] at hends hgoes ⊢
      exact ⟨hends, hgoes⟩

/-! ### What several decisions do -/

section
variable {s : State}

theorem decideAll_drillEnds (zs : List Zone) (ha : s.zev.drill.active = true) (hz : ∃ z ∈ zs, s.zev.zones[z].drill = true)
    {p : Port} (hp : s.used p = true) : (s.decideAll zs).alerted p .drill = true := by
  induction zs generalizing s with
  | nil => simp at hz
  | cons z zs ih =>
    by_cases h1 : s.zev.zones[z].drill = true
    · exact (decideAll_zstep (s.decideArc z) zs).masks.alerted (decideArc_drillEnds s z h1 ha hp)
    · obtain ⟨hd, hf⟩ := (decided_drill s.zev z s.alr.time).2 fun h => h1 h.1
      rw [← decideArc_zev] at hd hf
      have hrest : ∃ x ∈ zs, s.zev.zones[x].drill = true := by
        rcases (List.exists_mem_cons_iff _ _ _).1 hz with h | h
        · exact absurd h h1
        · exact h
      refine ih (s := s.decideArc z) (by rw [hd]; exact ha) (by simpa only [hf] using hrest) ?_
      rw [(decideArc_zstep s z).sameBoard.used]
      exact hp

theorem decideAll_arcOpened {zs : List Zone} (hz : zs ≠ []) {p : Port} (hp : s.used p = true) :
    (s.decideAll zs).alerted p .arcOpened = true := by
  cases zs with
  | nil => exact absurd rfl hz
  | cons z zs => exact (decideAll_zstep (s.decideArc z) zs).masks.alerted (decideArc_arcOpened s z hp)

theorem decideAll_quiet {zs : List Zone} (hz : zs ≠ []) :
    (s.decideAll zs).cfg.recordsQuiet = false ∧ (s.decideAll zs).cfg.transferDue = false := by
  induction zs generalizing s with
  | nil => exact absurd rfl hz
  | cons z zs ih =>
    cases zs with
    | nil => exact decideArc_quiet s z
    | cons y ys => exact ih (s := s.decideArc z) (by simp)

theorem decideAll_commands (zs : List Zone) (b : Fin 7) :
    (Commands s.trm.records b → Commands (s.decideAll zs).trm.records b) ∧
      (∀ z ∈ zs, mem (s.initialAnswer s.cfg.active.zones[z].location s.cfg.active.zones[z].scope).trips b = true →
        Commands (s.decideAll zs).trm.records b) := by
  induction zs generalizing s with
  | nil => exact ⟨id, by simp⟩
  | cons z zs ih =>
    obtain ⟨hkeeps, hnew⟩ := ih (s := s.decideArc z)
    obtain ⟨h1, h2⟩ := decideArc_commands s z b
    have hb := (decideArc_zstep s z).sameBoard
    refine ⟨fun h => hkeeps (h1 h), fun x hx hm => ?_⟩
    rcases List.mem_cons.1 hx with rfl | hx
    · exact hkeeps (h2 hm)
    · refine hnew x hx ?_
      rw [hb.initialAnswer, hb.active]
      exact hm

theorem decideAll_asks (zs : List Zone) : s.Asks (s.decideAll zs) (zs.length ≤ 1) := by
  induction zs generalizing s with
  | nil => exact .of_same _ rfl rfl rfl
  | cons z zs ih =>
    refine (decideArc_asks s z).cons (ih (s := s.decideArc z)) (fun h => ?_) fun h => ?_
    · rw [List.length_cons] at h
      omega
    · have : zs = [] := List.length_eq_zero_iff.1 (by rw [List.length_cons] at h; omega)
      rw [this]
      rfl

theorem RoomFor_cons {z : Zone} {zs : List Zone} (h : s.RoomFor (z :: zs)) :
    (keptRecords s.trm.records).length < 12 ∧ (s.decideArc z).RoomFor zs := by
  obtain ⟨hl, ho⟩ := h
  change openCount s.trm.records + (zs.length + 1) ≤ 12 at ho
  have hk := length_keptRecords_lt hl (by omega)
  refine ⟨hk, ?_⟩
  unfold State.RoomFor
  rw [(decideArc_records s z).1]
  change _ ∧ openCount (keptRecords s.trm.records ++ [s.arcOf z s.decisionNumber]) + zs.length ≤ 12
  have h1 : openCount [s.arcOf z s.decisionNumber] = 1 := rfl
  rw [openCount_append, openCount_keptRecords, h1, List.length_append, List.length_singleton]
  omega

theorem RoomFor_append {xs ys : List Zone} (h : s.RoomFor (xs ++ ys)) : s.RoomFor xs ∧ (s.decideAll xs).RoomFor ys := by
  induction xs generalizing s with
  | nil =>
    refine ⟨⟨h.1, ?_⟩, h⟩
    have := h.2
    simp only [List.nil_append, List.length_nil] at this ⊢
    omega
  | cons x xs ih =>
    obtain ⟨h1, h2⟩ := RoomFor_cons (s := s) (z := x) (zs := xs ++ ys) h
    obtain ⟨h3, h4⟩ := ih (s := s.decideArc x) h2
    refine ⟨⟨h.1, ?_⟩, h4⟩
    have := h.2
    rw [List.length_append] at this
    omega

/-- The records of several decisions, one after another (R91, R105, R106, R107). -/
theorem decideAll_arcsOpened {u : State} (zs : List Zone) (hb : u.SameBoard s)
    (hz : ∀ z : Zone, s.zev.zones[z].trigger = u.zev.zones[z].trigger ∧ s.zev.zones[z].degraded = u.zev.zones[z].degraded)
    (hroom : zs = [] ∨ s.RoomFor zs) :
    u.ArcsOpened zs s.trm.seqCounter s.trm.records (s.decideAll zs).trm.seqCounter (s.decideAll zs).trm.records := by
  induction zs generalizing s with
  | nil => exact ⟨rfl, rfl⟩
  | cons z zs ih =>
    obtain ⟨hk, hr⟩ := RoomFor_cons (hroom.resolve_left (by simp))
    obtain ⟨hrec, hnum⟩ := decideArc_records s z
    have hrest := ih (s := s.decideArc z) (hb.trans (decideArc_zstep s z).sameBoard) (fun y => ?_) (.inr hr)
    · refine ⟨s.decisionNumber, nextSeq_nextNumber _ _ (le_trans (le_of_eq (List.length_map _)) hk.le), ?_⟩
      rw [hnum, hrec, hb.arcOf (hz z).1 (hz z).2] at hrest
      exact hrest
    · rw [decideArc_zev, decided_zones]
      split <;> exact hz y

/-- With room for every record no window is dropped. -/
theorem decideAll_lnk (zs : List Zone) (h : zs = [] ∨ s.trm.records.length + zs.length ≤ 12) :
    (s.decideAll zs).lnk = s.lnk ∧
      (s.decideAll zs).trm.records.length ≤ s.trm.records.length + zs.length := by
  induction zs generalizing s with
  | nil => exact ⟨rfl, le_refl _⟩
  | cons z zs ih =>
    have hl := h.resolve_left (by simp)
    rw [List.length_cons] at hl ⊢
    have hlen : (s.decideArc z).trm.records.length ≤ s.trm.records.length + 1 := by
      rw [(decideArc_records s z).1, List.length_append, List.length_singleton]
      have := length_keptRecords_le s.trm.records
      omega
    obtain ⟨h1, h2⟩ := ih (s := s.decideArc z) (.inr (by omega))
    exact ⟨h1.trans (decideArc_lnk z (by omega)), by
      change (State.decideAll (s.decideArc z) zs).trm.records.length ≤ _
      omega⟩

end

/-- A port without a record window. -/
def PortRec.Windowless (r : PortRec) : Prop := r.selection = none ∧ r.latch = none

theorem windowless_of_lnk {s t : State} {p : Port} (h : t.lnk = s.lnk) (hs : s.lnk[p].Windowless) :
    t.lnk[p].Windowless := by
  simp only [h]
  exact hs

theorem trmEvent_windowless {s : State} {f : State → State} {p : Port} (h : (f s).lnk[p].Windowless) :
    (s.trmEvent f).lnk[p].Windowless := by
  unfold State.trmEvent
  simp only
  split
  · exact h
  · exact windowless_of_lnk (requestWord_lnk _ _) h

theorem makeRoom_windowless {s : State} {p : Port} (h : s.lnk[p].Windowless) : s.makeRoom.lnk[p].Windowless := by
  unfold State.makeRoom
  split
  · exact h
  · split
    · exact h
    · rename_i old _
      have e : (modAll s.lnk fun r => if r.selection = some old.seq then r.dropSelection else r.dropLatchOf old.seq)[p] =
          s.lnk[p].dropLatchOf old.seq := (modAll_get _ _ _).trans (if_neg (by rw [h.1]; simp))
      show PortRec.Windowless (modAll s.lnk _)[p]
      rw [e]
      unfold PortRec.dropLatchOf
      rw [h.2]
      exact h

theorem decideArc_windowless {s : State} {p : Port} (z : Zone) (h : s.lnk[p].Windowless) :
    (s.decideArc z).lnk[p].Windowless := by
  have ho : (s.arcOpenedAt z).lnk[p].Windowless :=
    trmEvent_windowless (f := fun t => t.arcTaken z _ _) (makeRoom_windowless h)
  obtain ⟨-, -, hl, -⟩ := decidedAt_kept s z
  rw [decideArc_eq]
  split
  · exact windowless_of_lnk ((endDrill_lnk _ _).trans hl) ho
  · exact windowless_of_lnk hl ho

theorem decideAll_windowless {s : State} {p : Port} (zs : List Zone) (h : s.lnk[p].Windowless) :
    (s.decideAll zs).lnk[p].Windowless := by
  induction zs generalizing s with
  | nil => exact h
  | cons z zs ih => exact ih (s := s.decideArc z) (decideArc_windowless z h)

end Sys2Proof.Machine
end

section
/-! PROOFS. A REPORT that is taken (R53, R55, R62, R194): the decisions with the evidence of the incomer among them
(R130, log 13), the couplers, the port and the answer. -/

namespace Sys2Proof.Machine

/-! ### Decisions with evidence among them (R91, R130) -/

/-- The zones of `before` decide, evidence arrives at the Trip Record Manager, and the zones of `after` decide. -/
def State.decideAround (s : State) (before : List Zone) (mid : List Target) (after : List Zone) : State :=
  ((s.decideAll before).evidenceAll mid).decideAll after

section
variable (s : State) (before : List Zone) (mid : List Target) (after : List Zone)

theorem decideAround_zstep : ZStep s (s.decideAround before mid after) :=
  ((decideAll_zstep s before).trans (evidenceAll_zstep _ mid)).trans (decideAll_zstep _ after)

theorem decideAround_zev : (s.decideAround before mid after).zev = s.zev.decidedAll (before ++ after) s.alr.time := by
  obtain ⟨-, hz, -⟩ := evidenceAll_kept mid (s.decideAll before)
  unfold State.decideAround
  rw [decideAll_zev, hz, (evidenceAll_zstep _ mid).time, (decideAll_zstep s before).time, decideAll_zev]
  exact List.foldl_append.symm

theorem decideAround_asks :
    s.Asks (s.decideAround before mid after) ((before ++ after).length ≤ 1) := by
  induction before generalizing s with
  | nil =>
    obtain ⟨ht, -, -, -, he⟩ := evidenceAll_kept mid s
    exact (decideAll_asks (s := s.evidenceAll mid) after).congr (evidenceAll_closeInhibit s mid).symm
      (congrArg (·.lock) ht).symm he.symm rfl rfl rfl
  | cons z before ih =>
    refine (decideArc_asks s z).cons (ih (s.decideArc z)) (fun h => ?_) fun h => ?_
    · rw [List.cons_append, List.length_cons] at h
      omega
    · have : before ++ after = [] := List.length_eq_zero_iff.1 (by rw [List.cons_append, List.length_cons] at h; omega)
      obtain ⟨rfl, rfl⟩ := List.append_eq_nil_iff.1 this
      exact evidenceAll_closeInhibit _ mid

/-- The breakers of the trip sets of the zones that decide are under command at the end. -/
theorem decideAround_commands {z : Zone} (hz : z ∈ before ++ after) {b : Fin 7}
    (hb : mem (s.initialAnswer s.cfg.active.zones[z].location s.cfg.active.zones[z].scope).trips b = true) :
    Commands (s.decideAround before mid after).trm.records b := by
  have h := ((decideAll_zstep s before).trans (evidenceAll_zstep _ mid)).sameBoard
  rcases List.mem_append.1 hz with hz | hz
  · exact (decideAll_commands after b).1 (evidenceAll_commands mid ((decideAll_commands before b).2 z hz hb))
  · refine (decideAll_commands (s := (s.decideAll before).evidenceAll mid) after b).2 z hz ?_
    rw [h.initialAnswer, h.active]
    exact hb

theorem incomersIn_allOnes_nonempty {i : Incomer} (hi : s.cfg.active.board.incomer[i] = true) :
    mem (s.incomersIn (BitVec.allOnes 4)) (breakerOfIncomer i) = true :=
  (mem_incomersIn s _ _).2 ⟨i, rfl, hi, mem_allOnes i⟩

/-- Where an incomer is present, a decision trips something (R68). -/
theorem initialAnswer_trips_nonempty {i : Incomer} (hi : s.cfg.active.board.incomer[i] = true) (loc : Location)
    (sc : Scope) : ∃ b, mem (s.initialAnswer loc sc).trips b = true := by
  unfold State.initialAnswer State.tripAnswer
  simp only
  split
  · exact ⟨_, incomersIn_allOnes_nonempty s hi⟩
  · rename_i h
    exact (ne_zero_iff_mem _).1 h

theorem confirmed_trips {z : Zone} (h : s.currentConfirms z = true) :
    ∃ b, mem (s.initialAnswer s.cfg.active.zones[z].location s.cfg.active.zones[z].scope).trips b = true := by
  obtain ⟨i, hi, -⟩ := (currentConfirms_iff s z).1 h
  exact initialAnswer_trips_nonempty s hi _ _

/-- A pending commit waits for the records of zones that current confirms. -/
theorem decideAround_quiet (hc : ∀ z ∈ before ++ after, s.currentConfirms z = true) (hz : before ++ after ≠ []) :
    (s.decideAround before mid after).cfg.recordsQuiet = false ∧
      (s.decideAround before mid after).cfg.transferDue = false := by
  unfold State.decideAround
  by_cases ha : after = []
  · subst ha
    rw [List.append_nil] at hc hz
    obtain ⟨z, hm⟩ := List.exists_mem_of_ne_nil _ hz
    obtain ⟨b, hb⟩ := confirmed_trips s (hc z hm)
    exact evidenceAll_quiet mid ((decideAll_commands before b).2 z hm hb) (decideAll_quiet hz)
  · exact decideAll_quiet ha

theorem decideAround_arcOpened (hz : before ++ after ≠ []) {p : Port} (hp : s.used p = true) :
    (s.decideAround before mid after).alerted p .arcOpened = true := by
  have h := (decideAll_zstep s before).trans (evidenceAll_zstep _ mid)
  unfold State.decideAround
  by_cases ha : after = []
  · subst ha
    rw [List.append_nil] at hz
    exact (evidenceAll_zstep _ mid).masks.alerted (decideAll_arcOpened hz hp)
  · exact decideAll_arcOpened ha (by rw [h.sameBoard.used]; exact hp)

theorem decideAround_drillEnds (ha : s.zev.drill.active = true)
    (hz : ∃ z ∈ before ++ after, s.zev.zones[z].drill = true) {p : Port} (hp : s.used p = true) :
    (s.decideAround before mid after).alerted p .drill = true := by
  have hstep := (decideAll_zstep s before).trans (evidenceAll_zstep _ mid)
  obtain ⟨-, hzev, -⟩ := evidenceAll_kept mid (s.decideAll before)
  unfold State.decideAround
  by_cases hb : ∃ z ∈ before, s.zev.zones[z].drill = true
  · exact ((evidenceAll_zstep _ mid).trans (decideAll_zstep _ after)).masks.alerted (decideAll_drillEnds before ha hb hp)
  · obtain ⟨hd, hf⟩ := (decidedAll_drill before s.zev s.alr.time).2 fun h => hb h.2
    rw [← decideAll_zev, ← hzev] at hd hf
    refine decideAll_drillEnds after (by rw [hd]; exact ha) ?_ (by rw [hstep.sameBoard.used]; exact hp)
    obtain ⟨z, hm, hdr⟩ := hz
    rcases List.mem_append.1 hm with hm | hm
    · exact absurd ⟨z, hm, hdr⟩ hb
    · exact ⟨z, hm, (hf z).trans hdr⟩

theorem decideAround_lnk (h : before ++ after = [] ∨ s.trm.records.length + (before ++ after).length ≤ 12) :
    (s.decideAround before mid after).lnk = s.lnk := by
  rw [List.length_append, List.append_eq_nil_iff] at h
  obtain ⟨h1, hlen⟩ := decideAll_lnk before (s := s) (by rcases h with h | h <;> [exact .inl h.1; exact .inr (by omega)])
  obtain ⟨ht, -, hl, -⟩ := evidenceAll_kept mid (s.decideAll before)
  have hrs : ((s.decideAll before).evidenceAll mid).trm.records.length = (s.decideAll before).trm.records.length := by
    rw [ht]
    exact (withEvidence_counts _ _ _).1
  obtain ⟨h2, -⟩ := decideAll_lnk after (s := (s.decideAll before).evidenceAll mid)
    (by rw [hrs]; rcases h with h | h <;> [exact .inl h.2; exact .inr (by omega)])
  exact h2.trans (hl.trans h1)

theorem decideAround_windowless {p : Port} (h : s.lnk[p].Windowless) :
    (s.decideAround before mid after).lnk[p].Windowless := by
  obtain ⟨-, -, hl, -⟩ := evidenceAll_kept mid (s.decideAll before)
  exact decideAll_windowless after (windowless_of_lnk hl (decideAll_windowless before h))

end

section
variable {u s : State} {before after : List Zone} (mid : List Target)

/-- Decisions with evidence among them make of zones, lines, alerts and the lockout word what decisions do. -/
theorem decideAround_decided (hb : u.SameBoard s) (hz : s.zev = u.zev) (hl : s.trm.lock = u.trm.lock)
    (he : s.cfg.engine = u.cfg.engine) (hr : s.closeInhibit = u.closeInhibit)
    (hc : ∀ z ∈ before ++ after, u.currentConfirms z = true) :
    u.Decided (s.decideAround before mid after) (before ++ after) := by
  refine ⟨fun z => ?_, fun z hm b hbr => ?_, ?_, fun hne => ?_⟩
  · rw [decideAround_zev, hz, hb.time]
    refine (decidedAll_zones _ _ _ z).trans ?_
    split <;> rfl
  · rw [← hb.initialAnswer, ← hb.active] at hbr
    exact (decideAround_commands s before mid after hm hbr).lines
  · exact ((decideAround_asks s before mid after).congr hr.symm hl.symm he.symm rfl rfl rfl).asks
  · obtain ⟨h1, h2⟩ := decideAround_quiet s before mid after (fun z hm => (hb.currentConfirms z).trans (hc z hm)) hne
    exact ⟨h1, h2, fun p hp => decideAround_arcOpened s before mid after hne (by rw [hb.used]; exact hp)⟩

theorem decideAround_drillDecided (hb : u.SameBoard s) (hz : s.zev = u.zev) :
    u.DrillDecided (s.decideAround before mid after) (before ++ after) := by
  obtain ⟨hends, hgoes⟩ := decidedAll_drill (before ++ after) s.zev s.alr.time
  rw [← decideAround_zev s before mid after] at hends hgoes
  unfold State.DrillDecided
  rw [← hz]
  refine ⟨fun h => ?_, hgoes⟩
  obtain ⟨h1, h2⟩ := hends h
  exact ⟨h1, fun p hp => decideAround_drillEnds s before mid after h.1 h.2 (by rw [hb.used]; exact hp), h2⟩

/-- The records of decisions with evidence among them: those before it take it too (R130, log 13). -/
theorem decideAround_arcsOpened (hb : u.SameBoard s) (hz : s.zev = u.zev)
    (hroom : before ++ after = [] ∨ s.RoomFor (before ++ after)) : ∃ (c : Byte) (rs : List TripRec),
      u.ArcsOpened before s.trm.seqCounter s.trm.records c rs ∧
      u.ArcsOpened after c (withEvidence rs mid s.alr.time) (s.decideAround before mid after).trm.seqCounter
        (s.decideAround before mid after).trm.records := by
  have hsplit : (before = [] ∨ s.RoomFor before) ∧ (after = [] ∨ (s.decideAll before).RoomFor after) := by
    rcases hroom with h | h
    · rw [List.append_eq_nil_iff] at h
      exact ⟨.inl h.1, .inl h.2⟩
    · obtain ⟨h1, h2⟩ := RoomFor_append h
      exact ⟨.inr h1, .inr h2⟩
  obtain ⟨hbefore, hafter⟩ := hsplit
  obtain ⟨ht, hzev, -⟩ := evidenceAll_kept mid (s.decideAll before)
  have htime := (decideAll_zstep s before).time
  have hrec : ((s.decideAll before).evidenceAll mid).trm.records =
      withEvidence (s.decideAll before).trm.records mid s.alr.time := by rw [ht, htime]
  have hnum : ((s.decideAll before).evidenceAll mid).trm.seqCounter = (s.decideAll before).trm.seqCounter := by rw [ht]
  have hroom' : after = [] ∨ ((s.decideAll before).evidenceAll mid).RoomFor after := by
    refine hafter.imp id fun h => ?_
    obtain ⟨h1, h2⟩ := h
    obtain ⟨e1, e2⟩ := withEvidence_counts (s.decideAll before).trm.records mid s.alr.time
    unfold State.RoomFor
    rw [hrec]
    exact ⟨e1.trans_le h1, (Nat.add_le_add_right e2.le _).trans h2⟩
  have hlast := decideAll_arcsOpened (s := (s.decideAll before).evidenceAll mid) after
    (hb.trans ((decideAll_zstep s before).trans (evidenceAll_zstep _ mid)).sameBoard) (fun z => ?_) hroom'
  · rw [hrec, hnum] at hlast
    exact ⟨_, _, decideAll_arcsOpened before hb (fun z => by rw [hz]; exact ⟨rfl, rfl⟩) hbefore, hlast⟩
  · rw [hzev, decideAll_zev, hz, decidedAll_zones]
    split <;> exact ⟨rfl, rfl⟩

end

/-! ### The transfer that is due after evidence (R178, log 5) -/

theorem openEvidence_dueAfter (s : State) (tg : Target) : s.DueAfter (s.openEvidence tg) :=
  settleDue_dueAfter { s.openEvidence tg with cfg.transferDue := s.cfg.transferDue }

theorem settle_firing {r : TripRec} (h : r.settle.stage = .firing) : r.stage = .firing := by
  unfold TripRec.settle at h
  split at h
  · cases h
  · exact h

theorem evidence_firing {r : TripRec} {tg : Target} {now : Time} (h : (r.evidence tg now).stage = .firing) :
    r.stage = .firing := by
  unfold TripRec.evidence at h
  split at h
  · have := settle_firing h
    exact this
  · exact h

/-- Evidence makes no record FIRING. -/
theorem openEvidence_quiet {s : State} (tg : Target) (h : s.noRecordFiring = true) :
    (s.openEvidence tg).noRecordFiring = true := by
  rw [noRecordFiring_iff] at h ⊢
  intro r' hr'
  obtain ⟨r, hr, rfl⟩ := List.mem_map.1 hr'
  exact fun hf => h r hr (evidence_firing hf)

theorem evidenceAll_cfg (s : State) (tgs : List Target) :
    (s.evidenceAll tgs).cfg = { s.cfg with
      recordsQuiet := (s.evidenceAll tgs).cfg.recordsQuiet, transferDue := (s.evidenceAll tgs).cfg.transferDue } := by
  induction tgs generalizing s with
  | nil => rfl
  | cons tg tgs ih => exact ih (s.openEvidence tg)

theorem evidenceAll_freeTick (s : State) (tgs : List Target) (n : Nat) :
    State.evidenceAll { s with freeTick := n } tgs = { s.evidenceAll tgs with freeTick := n } := by
  induction tgs generalizing s with
  | nil => rfl
  | cons tg tgs ih => exact ih (s.openEvidence tg)

/-- One event of several pieces of evidence leaves the transfer due as one notice does. -/
theorem evidenceAll_dueAfter {s : State} (hv : ViewsInv s) (hd : DueInv s) {tgs : List Target} (hne : tgs ≠ []) :
    s.DueAfter (s.evidenceAll tgs) := by
  induction tgs generalizing s with
  | nil => exact absurd rfl hne
  | cons tg tgs ih =>
    have hone := openEvidence_dueAfter s tg
    by_cases hlast : tgs = []
    · rw [hlast]
      exact hone
    · have hk := (openEvidence_zstep s tg).keeps
      have hrest := ih (s := s.openEvidence tg) (hk.views hv) (hk.due hd) hlast
      have hq : s.cfg.recordsQuiet = true → (s.openEvidence tg).cfg.recordsQuiet = true := fun h =>
        openEvidence_quiet tg (hv.2.1 ▸ h)
      have hcfg := evidenceAll_cfg (s.openEvidence tg) tgs
      have hfsu := (evidenceAll_zstep (s.openEvidence tg) tgs).fsu
      change s.DueAfter ((s.openEvidence tg).evidenceAll tgs)
      generalize (s.openEvidence tg).evidenceAll tgs = w at hrest hcfg hfsu ⊢
      have hp : w.cfg.pendingCommit = s.cfg.pendingCommit := by rw [hcfg]; rfl
      have hz : w.cfg.zonesQuiet = s.cfg.zonesQuiet := by rw [hcfg]; rfl
      have ht : w.cfg.testQuiet = s.cfg.testQuiet := by rw [hcfg]; rfl
      have hf : w.fsu = s.fsu := hfsu
      unfold DueInv at hd
      unfold State.DueAfter at hd hone hrest ⊢
      change (s.openEvidence tg).cfg.transferDue = true ↔ s.cfg.pendingCommit = true ∧ s.cfg.zonesQuiet = true ∧ _ ∧
        (s.cfg.testQuiet = true ∨ s.cfg.transferDue = true ∧ ∀ run ∈ s.fsu.test, run.samplesLeft = 40) at hone
      rw [hp, hz, ht, hf] at hrest ⊢
      have hstays : (s.cfg.testQuiet = true ∨ (s.openEvidence tg).cfg.transferDue = true ∧
            ∀ run ∈ s.fsu.test, run.samplesLeft = 40) ↔
          (s.cfg.testQuiet = true ∨ s.cfg.transferDue = true ∧ ∀ run ∈ s.fsu.test, run.samplesLeft = 40) := by
        refine ⟨?_, ?_⟩
        · rintro (h | ⟨h, -⟩)
          · exact .inl h
          · obtain ⟨-, -, -, hquiet⟩ := hone.1 h
            exact hquiet
        · rintro (h | ⟨h, hfresh⟩)
          · exact .inl h
          · obtain ⟨hp, hz, hr, -⟩ := hd.1 h
            exact .inr ⟨hone.2 ⟨hp, hz, hq hr, .inr ⟨h, hfresh⟩⟩, hfresh⟩
      rw [hstays] at hrest
      exact hrest

/-! ### Order of decisions (R91, log 12) -/

theorem insertZone_perm (rank : Zone → Nat) (z : Zone) (zs : List Zone) : (insertZone rank z zs).Perm (z :: zs) := by
  induction zs with
  | nil => exact .refl _
  | cons y ys ih =>
    unfold insertZone
    split
    · exact .refl _
    · exact (ih.cons y).trans (.swap z y ys)

/-- A free order takes every zone once. -/
theorem orderZones_perm (rank : Zone → Nat) (zs : List Zone) : (orderZones rank zs).Perm zs := by
  induction zs with
  | nil => exact .refl _
  | cons z zs ih => exact (insertZone_perm rank z _).trans (ih.cons z)

theorem deciders_nodup (s : State) : s.deciders.Nodup := (List.nodup_finRange 8).filter _

theorem mem_deciders (s : State) (z : Zone) :
    z ∈ s.deciders ↔ s.zev.zones[z].state = .waiting ∧ s.currentConfirms z = true := by
  unfold State.deciders
  simp

/-- The zones that current confirms decide, each once. -/
theorem askConfirmation_eq (s : State) : ∃ (zs : List Zone) (n : Nat),
    s.askConfirmation = State.decideAll { s with freeTick := n } zs ∧ zs.Perm s.deciders := by
  unfold State.askConfirmation
  simp only
  split
  · rename_i h
    rw [List.isEmpty_iff] at h
    exact ⟨[], s.freeTick, rfl, by rw [h]⟩
  · exact ⟨_, _, rfl, orderZones_perm _ _⟩

/-- The zones that current confirms decide, each once, with the evidence somewhere among them (log 13). -/
theorem askConfirmationWith_eq (s : State) (mid : List Target) : ∃ (before after : List Zone) (n : Nat),
    s.askConfirmationWith (fun t => t.evidenceAll mid) = State.decideAround { s with freeTick := n } before mid after ∧
      (before ++ after).Perm s.deciders := by
  unfold State.askConfirmationWith
  simp only
  split
  · rename_i h
    rw [List.isEmpty_iff] at h
    exact ⟨[], [], s.freeTick, rfl, by rw [h]; exact .refl _⟩
  · refine ⟨_, _, _, rfl, ?_⟩
    rw [List.take_append_drop]
    exact orderZones_perm _ _

/-! ### One event at the Topology Unit (R53, R62) -/

theorem changedCouplers_empty (a b : Vector CouplerRec 3) :
    (changedCouplers a b).isEmpty = false ↔ ∃ j : Coupler, b[j].resolved ≠ a[j].resolved := by
  rw [List.isEmpty_eq_false_iff_exists_mem]
  simp only [changedCouplers, List.mem_filter, List.mem_finRange, true_and, decide_eq_true_iff]
  exact exists_congr fun j => ne_comm

theorem newlyOpened_targets (s t : State) :
    (newlyOpened s.top.couplers t.top.couplers).map Target.tc = openedTargets s t := by
  unfold newlyOpened changedCouplers openedTargets
  rw [List.filter_filter]
  refine congrArg _ (List.filter_congr fun j _ => ?_)
  rw [← Bool.decide_and, decide_eq_decide]
  refine and_congr_right fun h => ?_
  rw [h]

theorem couplerEvidence_eq (s t : State) :
    t.couplerEvidence s.top.couplers = t.evidenceAll (openedTargets s t) := by
  rw [← newlyOpened_targets]
  unfold State.couplerEvidence State.evidenceAll
  rw [List.foldl_map]

/-- What TOP hands on: evidence, and then decisions with further evidence among them. -/
def State.handedOn (w : State) (tgs : List Target) (before : List Zone) (mid : List Target) (after : List Zone) : State :=
  (w.evidenceAll tgs).decideAround before mid after

theorem handedOn_zstep (w : State) (tgs : List Target) (before : List Zone) (mid : List Target) (after : List Zone) :
    ZStep w (w.handedOn tgs before mid after) := (evidenceAll_zstep _ _).trans (decideAround_zstep _ _ _ _)

theorem handedOn_windowless {w : State} (tgs : List Target) (before : List Zone) (mid : List Target) (after : List Zone)
    {p : Port} (h : w.lnk[p].Windowless) : (w.handedOn tgs before mid after).lnk[p].Windowless :=
  decideAround_windowless _ before mid after (windowless_of_lnk (evidenceAll_lnk w tgs) h)

/-- The incomer of a report whose position is OPEN, as target of its evidence (R113). -/
def incomerTargets (p : Port) (v : Position) : List Target := if v = .opened then [.ti p] else []

theorem incomerPosition_eq (s : State) (p : Port) (v : Position) :
    s.incomerPosition p v = s.evidenceAll (incomerTargets p v) := by
  unfold State.incomerPosition incomerTargets
  split <;> rfl

/-- The Topology Unit after a report was taken, before it hands anything on (R53). -/
def State.reported (s : State) (p : Port) (v : ReportRec) : State :=
  (s.setReport p (takenReport s.cfg.active p v)).topResolve (adjacent p)

/-- A taken report: the evidence of couplers that opened, then the decisions with the incomer's evidence among them. -/
theorem takeReport_eq (s : State) (p : Port) (v : ReportRec) :
    ∃ (before after : List Zone) (n : Nat), s.takeReport p v =
        State.handedOn { s.reported p v with freeTick := n } (openedTargets s (s.reported p v))
          before (incomerTargets p v.incomer) after ∧
      (before ++ after).Nodup ∧
      ∀ z, z ∈ before ++ after ↔ s.zev.zones[z].state = .waiting ∧ (s.reported p v).currentConfirms z = true ∧
        ∃ j : Coupler, (s.reported p v).top.couplers[j].resolved ≠ s.top.couplers[j].resolved := by
  have hzev : (s.reported p v).zev = s.zev := topResolve_zev _ _
  unfold State.takeReport State.handedOn
  simp only [incomerPosition_eq]
  change ∃ before after n, (if v.incomer = .opened ∧ (changedCouplers s.top.couplers
    (s.reported p v).top.couplers).isEmpty = false then ((s.reported p v).couplerEvidence s.top.couplers).askConfirmationWith _
      else ((s.reported p v).topHandOff s.top.couplers).evidenceAll _) = _ ∧ _
  unfold State.topHandOff
  rw [couplerEvidence_eq]
  simp only [evidenceAll_freeTick]
  generalize s.reported p v = w at hzev ⊢
  have hdec (z : Zone) : z ∈ (w.evidenceAll (openedTargets s w)).deciders ↔
      s.zev.zones[z].state = .waiting ∧ w.currentConfirms z = true := by
    rw [mem_deciders, (evidenceAll_kept _ w).2.1, hzev, (evidenceAll_zstep w _).sameBoard.currentConfirms]
  generalize w.evidenceAll (openedTargets s w) = e at hdec ⊢
  by_cases hch : (changedCouplers s.top.couplers w.top.couplers).isEmpty = false
  · have hfin {l : List Zone} (h : l.Perm e.deciders) : l.Nodup ∧ ∀ z, z ∈ l ↔ s.zev.zones[z].state = .waiting ∧
        w.currentConfirms z = true ∧ ∃ j : Coupler, w.top.couplers[j].resolved ≠ s.top.couplers[j].resolved := by
      refine ⟨h.nodup_iff.2 (deciders_nodup e), fun z => ?_⟩
      rw [h.mem_iff, hdec]
      have := (changedCouplers_empty _ _).1 hch
      tauto
    by_cases hv : v.incomer = .opened
    · obtain ⟨before, after, n, h, hp⟩ := askConfirmationWith_eq e (incomerTargets p v.incomer)
      rw [if_pos ⟨hv, hch⟩]
      exact ⟨before, after, n, h, hfin hp⟩
    · obtain ⟨zs, n, h, hp⟩ := askConfirmation_eq e
      rw [if_neg fun h => hv h.1, if_neg (by rw [hch]; decide), h]
      exact ⟨zs, [], n, rfl, by rw [List.append_nil]; exact hfin hp⟩
  · have hsame := mt (changedCouplers_empty s.top.couplers w.top.couplers).2 hch
    rw [if_neg fun h => hch h.2, if_pos (by simpa using hch)]
    exact ⟨[], [], e.freeTick, rfl, List.nodup_nil, fun z => iff_of_false (List.not_mem_nil) fun h => hsame h.2.2⟩

end Sys2Proof.Machine
end

section
/-! PROOFS. A REPORT that is taken, settled (R53, R55, R57, R62, R194, R195). -/

namespace Sys2Proof.Machine

/-! ### The couplers resolved again (R57, R60, R61) -/

theorem topResolve_eq (s : State) (which : Coupler → Bool) : s.topResolve which =
    { s with top := (s.topResolve which).top, alr := (s.topResolve which).alr } := by
  unfold State.topResolve
  simp only
  split
  · rfl
  · split <;> rfl

theorem topResolve_time (s : State) (which : Coupler → Bool) : (s.topResolve which).alr.time = s.alr.time :=
  (topResolve_spec s which).1.time

theorem topResolve_coupler (s : State) (which : Coupler → Bool) (j : Coupler) : (s.topResolve which).top.couplers[j] =
    if which j = true ∧ s.resolvedNow j ≠ s.top.couplers[j].resolved then ⟨s.resolvedNow j, s.alr.time⟩
    else s.top.couplers[j] := by
  have hafter : (s.couplersAfter which)[j] =
      if which j = true ∧ s.resolvedNow j ≠ s.top.couplers[j].resolved then ⟨s.resolvedNow j, s.alr.time⟩
      else s.top.couplers[j] := by
    unfold State.couplersAfter
    rw [ofFn_get]
    simp only [Bool.and_eq_true, decide_eq_true_eq]
  unfold State.topResolve
  simp only
  split
  · rename_i h
    refine (if_neg fun hc => ?_).symm
    refine Bool.false_ne_true (((changedCouplers_empty _ _).2 ⟨j, ?_⟩).symm.trans h)
    rw [hafter, if_pos hc]
    exact hc.2
  · split <;> exact hafter

/-- TOPOLOGY is raised where a coupler comes into DISPUTED or the islands change (R61). -/
theorem topResolve_alerts (s : State) (which : Coupler → Bool)
    (h : (∃ j : Coupler, (s.topResolve which).top.couplers[j].resolved = .disputed ∧
        s.top.couplers[j].resolved ≠ .disputed) ∨ (s.topResolve which).top.islandName ≠ s.top.islandName)
    {p : Port} (hp : s.used p = true) : (s.topResolve which).alerted p .topology = true := by
  unfold State.topResolve at h ⊢
  simp only at h ⊢
  split at h
  · rcases h with ⟨j, h1, h2⟩ | h
    · exact absurd h1 h2
    · exact absurd rfl h
  · rename_i hch
    rw [if_neg hch]
    split at h
    · rename_i hal
      rw [if_pos hal]
      exact raise_alerts (s := { s with top := _ }) .topology hp
    · rename_i hal
      refine absurd ?_ hal
      rw [Bool.or_eq_true, decide_eq_true_iff, List.any_eq_true]
      refine h.imp (fun ⟨j, h1, h2⟩ => ⟨j, ?_, decide_eq_true h1⟩) id
      unfold changedCouplers
      rw [List.mem_filter]
      exact ⟨List.mem_finRange j, decide_eq_true fun e => h2 (e.trans h1)⟩

theorem State.SameBoard.resolvedNow {s t : State} (h : s.SameBoard t) (j : Coupler) :
    t.resolvedNow j = s.resolvedNow j := by
  unfold State.resolvedNow
  rw [h.active, h.top]

/-! ### The port and its answer (R53, R55, R194, R195, R207) -/

theorem positionOf_eq : ∀ b : BitVec 2, positionOf b =
    if b = 0 then .none else if b = 1 then .opened else if b = 2 then .closed else .transit := by decide

theorem set_get {α : Type} {n : Nat} (v : Vector α n) (i j : Fin n) (a : α) :
    (v.set i a)[j] = if j = i then a else v[j] := by
  simp [Vector.getElem_set, Fin.ext_iff, eq_comm (a := i.val)]

theorem resolvedCode_le (x : Resolved) : resolvedCode x ≤ 5 := by cases x <;> decide

theorem reportValue_toNat (s : State) (p : Port) : (s.reportValue p).toNat =
    16 * (match rightCoupler p with | some j => resolvedCode s.top.couplers[j].resolved | none => 0) +
      (match leftCoupler p with | some j => resolvedCode s.top.couplers[j].resolved | none => 0) := by
  have fits {a b : Nat} (ha : a ≤ 5) (hb : b ≤ 5) : (BitVec.ofNat 16 (16 * a + b)).toNat = 16 * a + b := by
    rw [BitVec.toNat_ofNat]
    omega
  unfold State.reportValue
  cases rightCoupler p with
  | none =>
    cases leftCoupler p with
    | none => rfl
    | some j => exact fits (Nat.zero_le 5) (resolvedCode_le _)
  | some i =>
    cases leftCoupler p with
    | none => exact fits (resolvedCode_le _) (Nat.zero_le 5)
    | some j => exact fits (resolvedCode_le _) (resolvedCode_le _)

/-- The port of a taken REPORT, in the words of the statement. -/
theorem TookFrame.report {b l : Vector PortRec 4} {p : Port} {q : PortRec} {r : Reply} (h : TookFrame b l p q r)
    (tHb : Nat) : TookFrame b (modAt l p fun r => r.report tHb) p
      (if q.state = .live then { q with heartbeat := .running tHb }
       else { q with
         state := .live, silentTimer := .stopped, heartbeat := .running tHb, selection := none, latch := none }) r := by
  obtain ⟨ho, hf, hs, he, hr, h1, h2, h3, h4, h5, h6⟩ := h
  unfold TookFrame
  rw [modAt_same]
  unfold PortRec.report
  rw [h1]
  refine ⟨fun o hne => (modAt_other l _ hne).trans (ho o hne), ?_⟩
  split
  · exact ⟨hf, hs, he, hr, rfl, h2, rfl, h4, h5, h6⟩
  · exact ⟨hf, hs, he, hr, rfl, rfl, rfl, h4, rfl, rfl⟩

theorem report_windowless {r : PortRec} (tHb : Nat) (h : r.state ≠ .live) : (r.report tHb).Windowless := by
  unfold PortRec.report
  rw [if_neg h]
  exact ⟨rfl, rfl⟩

theorem TookFrame.answered {b a a' : Vector PortRec 4} {p : Port} {q : PortRec} {r : Reply} (h : TookFrame b a p q r)
    (hd : ∀ o : Port, a'[o].dropSelection = a[o].dropSelection) (r' : Reply) :
    TookFrame (modAll b PortRec.noWindow) (modAll (modAt a' p fun x => { x with slot := r' }) PortRec.noWindow) p
      q.noWindow r' := by
  rw [noWindow_replied, noWindow_congr hd]
  exact h.noWindow.replied r'

/-! ### An event that TOP hands on (R62, R84, R91, R112 to R114) -/

/-- A state that has the records, the zones, the Configuration Store and the sensors of another. -/
def State.Beside (s w : State) : Prop := ∃ l top alr n,
  w = { s with lnk := l, top := top, alr := alr, freeTick := n } ∧ alr.time = s.alr.time

theorem State.Beside.sameBoard {s w : State} (h : s.Beside w) : ({ s with top := w.top } : State).SameBoard w := by
  obtain ⟨l, top, alr, n, rfl, htime⟩ := h
  exact ⟨htime, rfl, rfl, rfl⟩

section
variable {s w : State} (hw : s.Beside w) (tgs mid : List Target) {before after : List Zone}

include hw

/-- What evidence and decisions after a change at TOP make of the unit. -/
theorem handedOn_decided (hc : ∀ z ∈ before ++ after, w.currentConfirms z = true) :
    let t := w.handedOn tgs before mid after
    let u : State := { s with top := w.top }
    u.Decided t (before ++ after) ∧ u.DrillDecided t (before ++ after) ∧
      (before ++ after = [] ∨ s.RoomFor (before ++ after) → ∃ (c : Byte) (rs : List TripRec),
        u.ArcsOpened before s.trm.seqCounter (withEvidence s.trm.records tgs s.alr.time) c rs ∧
        u.ArcsOpened after c (withEvidence rs mid s.alr.time) t.trm.seqCounter t.trm.records) := by
  obtain ⟨l, top, alr, n, rfl, htime⟩ := hw
  intro t u
  have hu : u.SameBoard { s with lnk := l, top := top, alr := alr, freeTick := n } := ⟨htime, rfl, rfl, rfl⟩
  obtain ⟨ht, hz, -, -, he⟩ := evidenceAll_kept tgs { s with lnk := l, top := top, alr := alr, freeTick := n }
  have hb := hu.trans (evidenceAll_zstep _ tgs).sameBoard
  have hl := congrArg (·.lock) ht
  have hn := congrArg (·.seqCounter) ht
  have hr := congrArg (·.records) ht
  have hlines := evidenceAll_closeInhibit { s with lnk := l, top := top, alr := alr, freeTick := n } tgs
  have htime' := hb.time
  simp only [htime] at hr
  refine ⟨decideAround_decided mid hb hz hl he hlines fun z hm => ?_, decideAround_drillDecided mid hb hz, fun hroom => ?_⟩
  · rw [← hu.currentConfirms]
    exact hc z hm
  · have hroom' : before ++ after = [] ∨ (State.evidenceAll { s with
        lnk := l, top := top, alr := alr, freeTick := n } tgs).RoomFor (before ++ after) := by
      refine hroom.imp id fun h => ?_
      obtain ⟨e1, e2⟩ := withEvidence_counts s.trm.records tgs s.alr.time
      unfold State.RoomFor
      rw [hr]
      exact ⟨e1.trans_le h.1, (Nat.add_le_add_right e2.le _).trans h.2⟩
    obtain ⟨c, rs, h1, h2⟩ := decideAround_arcsOpened mid hb hz hroom'
    rw [hn, hr] at h1
    rw [htime'] at h2
    exact ⟨c, rs, h1, h2⟩

/-- Where no zone decides, evidence is all that TOP hands on. -/
theorem handedOn_noneDecides (hnil : before ++ after = []) :
    (w.handedOn tgs before mid after).trm =
        { s.trm with records := withEvidence s.trm.records (tgs ++ mid) s.alr.time } ∧
      (w.handedOn tgs before mid after).zev = s.zev := by
  obtain ⟨rfl, rfl⟩ := List.append_eq_nil_iff.1 hnil
  obtain ⟨l, top, alr, n, rfl, htime⟩ := hw
  obtain ⟨h1, h2, -⟩ := evidenceAll_kept (tgs ++ mid) { s with lnk := l, top := top, alr := alr, freeTick := n }
  unfold State.evidenceAll at h1 h2
  rw [List.foldl_append] at h1 h2
  rw [← htime]
  exact ⟨h1, h2⟩

/-- With room for every record, what TOP hands on leaves the ports alone. -/
theorem handedOn_lnk (h : before ++ after = [] ∨ s.trm.records.length + (before ++ after).length ≤ 12) :
    (w.handedOn tgs before mid after).lnk = w.lnk := by
  obtain ⟨l, top, alr, n, rfl, htime⟩ := hw
  obtain ⟨h1, -, h3, -⟩ := evidenceAll_kept tgs { s with lnk := l, top := top, alr := alr, freeTick := n }
  refine (decideAround_lnk _ before mid after ?_).trans h3
  rw [h1]
  simp only [(withEvidence_counts _ _ _).1]
  exact h

/-- The due transfer after evidence and decisions (R178, log 5). -/
theorem handedOn_due (hc : ∀ z ∈ before ++ after, w.currentConfirms z = true) (hv : ViewsInv s) (hd : DueInv s)
    (hne : tgs ++ mid ≠ []) : s.DueAfter (w.handedOn tgs before mid after) := by
  by_cases hz : before ++ after = []
  · obtain ⟨rfl, rfl⟩ := List.append_eq_nil_iff.1 hz
    obtain ⟨l, top, alr, n, rfl, -⟩ := hw
    have h := evidenceAll_dueAfter (s := { s with lnk := l, top := top, alr := alr, freeTick := n }) hv hd hne
    unfold State.evidenceAll at h
    rw [List.foldl_append] at h
    exact h
  · have hb := (evidenceAll_zstep w tgs).sameBoard
    obtain ⟨h1, h2⟩ := decideAround_quiet (w.evidenceAll tgs) before mid after
      (fun z hm => (hb.currentConfirms z).trans (hc z hm)) hz
    change s.DueAfter ((w.evidenceAll tgs).decideAround before mid after)
    unfold State.DueAfter
    rw [h1, h2]
    simp

end

/-! ### A taken report (R53, R55, R194, R195) -/

/-- What a report `v` that is taken at port `p` makes of the unit, whose ports are `l` once the frame is over; `before` and
`after` are the zones that decide before and after the incomer's evidence `mid`. -/
structure ReportOutcome (s : State) (l : Vector PortRec 4) (p : Port) (v : ReportRec) (mid : List Target)
    (before after : List Zone) (t : State) : Prop where
  windows : ∀ o : Port, t.lnk[o].dropSelection = l[o].dropSelection
  bare : l[p].Windowless → t.lnk[p].Windowless
  ports : before ++ after = [] ∨ s.trm.records.length + (before ++ after).length ≤ 12 → t.lnk = l
  reports : t.top.reports = s.top.reports.set p (takenReport s.cfg.active p v)
  couplers : ∀ j : Coupler, t.top.couplers[j] =
    if adjacent p j = true ∧ t.resolvedNow j ≠ s.top.couplers[j].resolved then ⟨t.resolvedNow j, s.alr.time⟩
    else s.top.couplers[j]
  topology : (∃ j : Coupler, t.top.couplers[j].resolved = .disputed ∧ s.top.couplers[j].resolved ≠ .disputed) ∨
    t.top.islandName ≠ s.top.islandName → ∀ q, s.used q = true → t.alerted q .topology = true
  noneDecides : before ++ after = [] →
    t.trm = { s.trm with records := withEvidence s.trm.records (openedTargets s t ++ mid) s.alr.time } ∧ t.zev = s.zev
  due : ViewsInv s → DueInv s → openedTargets s t ++ mid ≠ [] → s.DueAfter t
  nodup : (before ++ after).Nodup
  decides : ∀ z, z ∈ before ++ after ↔ s.zev.zones[z].state = .waiting ∧
    State.currentConfirms { s with top := t.top } z = true ∧
      ∃ j : Coupler, t.top.couplers[j].resolved ≠ s.top.couplers[j].resolved
  decided : State.Decided { s with top := t.top } t (before ++ after)
  drill : State.DrillDecided { s with top := t.top } t (before ++ after)
  records : before ++ after = [] ∨ s.RoomFor (before ++ after) → ∃ (c : Byte) (rs : List TripRec),
    State.ArcsOpened { s with top := t.top } before s.trm.seqCounter
      (withEvidence s.trm.records (openedTargets s t) s.alr.time) c rs ∧
    State.ArcsOpened { s with top := t.top } after c (withEvidence rs mid s.alr.time) t.trm.seqCounter t.trm.records

/-- A report that is taken at a port whose record the frame has set. -/
def State.reportTaken (s : State) (l : Vector PortRec 4) (p : Port) (f : Fields) : State :=
  State.takeReport { s with lnk := modAt l p fun r => r.report s.cfg.active.board.tHb.val } p (reportOf f.value)

theorem exec_report {s : State} {p : Port} (f : Fields) (hready : s.frameReady p = true)
    (hused : s.lnk[p].state ≠ .unused) : ∃ l, TookFrame s.lnk l p s.lnk[p] s.lnk[p].slot ∧
      (f.value.extractLsb' 6 10 ≠ 0 →
        exec (.report p f) s = .next (State.setSlot { s with lnk := l } p ⟨.badValue, 0⟩)) ∧
      (f.value.extractLsb' 6 10 = 0 →
        exec (.report p f) s = .next ((s.reportTaken l p f).setSlot p ⟨.accepted, (s.reportTaken l p f).reportValue p⟩)) := by
  obtain ⟨l, he, ht⟩ := function_permitted s p .report f (fun s => s.reportBody p f) hready (decide_eq_true hused)
  have hexec : exec (.report p f) s = .next (State.reportBody { s with lnk := l } p f) := congrArg _ he
  refine ⟨l, ht, fun h => ?_, fun h => ?_⟩ <;> rw [hexec] <;> unfold State.reportBody reportRestZero
  · rw [decide_eq_false h]
    rfl
  · rw [decide_eq_true h]
    rfl

/-- What TOP makes of a report that is taken (R53, R57, R60, R61). -/
theorem reported_spec (s : State) (p : Port) (v : ReportRec) :
    let w := s.reported p v
    w.top.reports = s.top.reports.set p (takenReport s.cfg.active p v) ∧
      (∀ j : Coupler, w.top.couplers[j] =
        if adjacent p j = true ∧ w.resolvedNow j ≠ s.top.couplers[j].resolved then ⟨w.resolvedNow j, s.alr.time⟩
        else s.top.couplers[j]) ∧
      ((∃ j : Coupler, w.top.couplers[j].resolved = .disputed ∧ s.top.couplers[j].resolved ≠ .disputed) ∨
        w.top.islandName ≠ s.top.islandName → ∀ q, s.used q = true → w.alerted q .topology = true) := by
  intro w
  have heq : w = { s.setReport p (takenReport s.cfg.active p v) with top := w.top, alr := w.alr } := topResolve_eq _ _
  have hrep : w.top.reports = s.top.reports.set p (takenReport s.cfg.active p v) :=
    (topResolve_spec (s.setReport p (takenReport s.cfg.active p v)) _).2.1
  have hnow (j : Coupler) : w.resolvedNow j = (s.setReport p (takenReport s.cfg.active p v)).resolvedNow j := by
    have hcfg : w.cfg = s.cfg := by
      rw [heq]
      rfl
    unfold State.resolvedNow
    rw [hcfg, hrep]
    rfl
  refine ⟨hrep, fun j => ?_, fun h q hq => topResolve_alerts _ _ h hq⟩
  rw [hnow]
  exact topResolve_coupler _ _ j

theorem reported_beside (s : State) (p : Port) (v : ReportRec) (n : Nat) (l : Vector PortRec 4) :
    s.Beside { State.reported { s with lnk := l } p v with freeTick := n } := by
  refine ⟨l, (State.reported { s with lnk := l } p v).top, (State.reported { s with lnk := l } p v).alr, n, ?_,
    topResolve_time _ _⟩
  have h := topResolve_eq (State.setReport { s with lnk := l } p (takenReport s.cfg.active p v)) (adjacent p)
  exact congrArg (fun x : State => { x with freeTick := n }) h

theorem openedTargets_congr {s t u : State} (h : u.top = t.top) : openedTargets s u = openedTargets s t := by
  unfold openedTargets
  rw [h]

theorem takeReport_outcome (s : State) (l : Vector PortRec 4) (p : Port) (v : ReportRec) :
    ∃ before after, ReportOutcome s l p v (incomerTargets p v.incomer) before after
      (State.takeReport { s with lnk := l } p v) := by
  obtain ⟨before, after, n, htake, hnodup, hmem⟩ := takeReport_eq { s with lnk := l } p v
  obtain ⟨hrep, hcoup, htop⟩ := reported_spec { s with lnk := l } p v
  have hbeside := reported_beside s p v n l
  have hlnk : (State.reported { s with lnk := l } p v).lnk = l :=
    congrArg State.lnk (topResolve_eq (State.setReport { s with lnk := l } p _) _)
  rw [htake]
  generalize State.reported { s with lnk := l } p v = x at *
  generalize incomerTargets p v.incomer = mid
  have hconf : ∀ z ∈ before ++ after, State.currentConfirms { x with freeTick := n } z = true :=
    fun z hm => ((hmem z).1 hm).2.1
  have hboard := hbeside.sameBoard
  change State.SameBoard { s with top := x.top } { x with freeTick := n } at hboard
  generalize htgs : openedTargets { s with lnk := l } x = tgs
  obtain ⟨hdec, hdrill, hrecs⟩ := handedOn_decided hbeside tgs mid hconf
  have hdue := handedOn_due hbeside tgs mid hconf
  have hnone := fun h => handedOn_noneDecides hbeside tgs mid (before := before) (after := after) h
  have hroomy := fun h => (handedOn_lnk hbeside tgs mid (before := before) (after := after) h).trans hlnk
  have hstep := handedOn_zstep { x with freeTick := n } tgs before mid after
  have hbare := fun h : l[p].Windowless => handedOn_windowless (w := { x with freeTick := n }) tgs before mid after
    (windowless_of_lnk (s := { s with lnk := l }) hlnk h)
  generalize State.handedOn { x with freeTick := n } tgs before mid after = y at *
  have hytop : y.top = x.top := hstep.top
  have hnow (j : Coupler) : y.resolvedNow j = x.resolvedNow j := hstep.sameBoard.resolvedNow j
  obtain rfl : openedTargets s y = tgs := (openedTargets_congr hytop).trans htgs
  rw [← hytop] at hrep hdec hdrill hrecs
  refine ⟨before, after, fun o => (hstep.ports o).trans (by simp only [hlnk]), hbare, hroomy, hrep, fun j => ?_,
    fun h q hq => hstep.masks.alerted (htop (by rw [← hytop]; exact h) q hq), hnone, hdue, hnodup, fun z => ?_, hdec,
    hdrill, hrecs⟩
  · have hj := hcoup j
    rw [← hytop, ← hnow] at hj
    exact hj
  · rw [hmem, hytop]
    exact and_congr_right fun _ => and_congr_left fun _ => Bool.eq_iff_iff.1 (hboard.currentConfirms z)

/-- Settles O43: the port takes the frame, TOP takes the report, and what TOP hands on reaches records and zones. -/
theorem reportIsTaken : Obligations.ReportIsTaken := by
  intro s p f hready hused v at2
  obtain ⟨l, hl, hbad, hgood⟩ := exec_report f hready hused
  refine ⟨fun h => ?_, fun h => ?_⟩
  · obtain ⟨l', he, ht⟩ := hl.setSlot ⟨.badValue, 0⟩
    exact ⟨l', (hbad h).trans (congrArg _ he), ht⟩
  · have h0 : at2 0 = (reportOf v).incomer := (positionOf_eq _).symm
    have h2 : at2 2 = (reportOf v).left := (positionOf_eq _).symm
    have h4 : at2 4 = (reportOf v).right := (positionOf_eq _).symm
    have hexec := hgood h
    unfold State.reportTaken at hexec
    have hport := hl.report s.cfg.active.board.tHb.val
    have hbare (hq : s.lnk[p].state ≠ .live) :
        (modAt l p fun r => r.report s.cfg.active.board.tHb.val)[p].Windowless := by
      unfold PortRec.Windowless
      rw [modAt_same]
      exact report_windowless _ (by rw [hl.state]; exact hq)
    generalize modAt l p (fun r => r.report s.cfg.active.board.tHb.val) = l1 at hexec hport hbare
    obtain ⟨before, after, hout⟩ := takeReport_outcome s l1 p (reportOf v)
    have hmid : incomerTargets p (reportOf v).incomer = if at2 0 = .opened then [.ti p] else [] := by
      rw [h0]
      rfl
    rw [hmid] at hout
    change exec _ s = .next (State.setSlot (State.takeReport { s with lnk := l1 } p (reportOf v)) p _) at hexec
    generalize State.takeReport { s with lnk := l1 } p (reportOf v) = y at hexec hout
    have hmine : y.top.reports[p] = takenReport s.cfg.active p (reportOf v) := by
      rw [hout.reports]
      exact (set_get _ p p _).trans (if_pos rfl)
    have hslot : (modAt y.lnk p fun x => { x with slot := ⟨.accepted, y.reportValue p⟩ })[p].slot =
        ⟨.accepted, y.reportValue p⟩ := by
      rw [modAt_same]
    refine ⟨_, hexec, ?_, fun hq => ?_, ?_, ?_, ?_, fun q hq => ?_, hout.couplers, hout.topology, congrArg Reply.code hslot,
      (congrArg (·.value.toNat) hslot).trans (reportValue_toNat y p), fun hw => hout.noneDecides ?_, hout.due,
      before, after, hout.nodup, hout.decides, hout.decided, hout.drill, hout.records, fun hroom => ?_⟩
    · show TookFrame _ (modAll (modAt y.lnk p _) _) p _ (modAt y.lnk p _)[p].slot
      rw [hslot]
      exact hport.answered hout.windows _
    · show (modAt y.lnk p _)[p].Windowless
      unfold PortRec.Windowless
      rw [modAt_same]
      exact hout.bare (hbare hq)
    · show y.top.reports[p].incomer = _
      rw [hmine, h0]
      rfl
    · show y.top.reports[p].left = _
      rw [hmine, h2]
      unfold takenReport ReportRec.takeUp
      cases leftCoupler p with
      | none => rfl
      | some j => rfl
    · show y.top.reports[p].right = _
      rw [hmine, h4]
      unfold takenReport ReportRec.takeUp
      cases rightCoupler p with
      | none => rfl
      | some j => rfl
    · show y.top.reports[q] = _
      rw [hout.reports]
      exact (set_get _ p q _).trans (if_neg hq)
    · exact List.eq_nil_iff_forall_not_mem.2 fun z hm => hw z ((hout.decides z).1 hm).1
    · show TookFrame _ (modAt y.lnk p _) p _ (modAt y.lnk p _)[p].slot
      rw [hout.ports hroom, modAt_same]
      exact hport.replied _

end Sys2Proof.Machine
end

section
/-! PROOFS. A zone that a transfer has placed and that takes the passage to LIT, or starts its re-strike filter: what one
such start does to the zones, the records, the lines and the ports (R80, R83, R92, R93, R98, R99). -/

namespace Sys2Proof.Machine

/-! ### Events that may ask for the lockout word (R132) -/

/-- What changes the zones only, and what the CFG sees of them. -/
structure State.SameTrips (s t : State) : Prop where
  trm : t.trm = s.trm
  lnk : t.lnk = s.lnk
  alr : t.alr = s.alr
  engine : t.cfg.engine = s.cfg.engine
  job : t.cfg.job = s.cfg.job

theorem State.SameTrips.refl (s : State) : s.SameTrips s := ⟨rfl, rfl, rfl, rfl, rfl⟩

theorem State.SameTrips.trans {s t u : State} (h : s.SameTrips t) (g : t.SameTrips u) : s.SameTrips u :=
  ⟨g.trm.trans h.trm, g.lnk.trans h.lnk, g.alr.trans h.alr, g.engine.trans h.engine, g.job.trans h.job⟩

/-- A step that asks for the lockout word at most once, and only where it acts on records. -/
structure State.TripStep (s t : State) (acts : Prop) : Prop where
  asks : s.Asks t True
  silent : ¬ acts → t.closeInhibit = s.closeInhibit ∧ t.trm.lock = s.trm.lock ∧ t.cfg.engine = s.cfg.engine
  job : t.cfg.job = s.cfg.job
  bare : ∀ p : Port, s.lnk[p].Windowless → t.lnk[p].Windowless

theorem State.TripStep.of_same {s t : State} {acts : Prop} (h : s.SameTrips t) : s.TripStep t acts := by
  have hlines : t.closeInhibit = s.closeInhibit := congrArg (fun x : Trm => linesOf x.records) h.trm
  have hlock := congrArg (·.lock) h.trm
  exact ⟨.of_same _ hlines hlock h.engine, fun _ => ⟨hlines, hlock, h.engine⟩, h.job,
    fun p hp => windowless_of_lnk h.lnk hp⟩

/-- Steps that change the zones only, before and after. -/
theorem State.TripStep.between {s v w t : State} {acts : Prop} (h : s.SameTrips v) (g : v.TripStep w acts)
    (k : w.SameTrips t) : s.TripStep t acts := by
  have h1 : v.closeInhibit = s.closeInhibit := congrArg (fun x : Trm => linesOf x.records) h.trm
  have h2 : t.closeInhibit = w.closeInhibit := congrArg (fun x : Trm => linesOf x.records) k.trm
  have l1 := congrArg (·.lock) h.trm
  have l2 := congrArg (·.lock) k.trm
  refine ⟨g.asks.congr h1.symm l1.symm h.engine.symm h2 l2 k.engine, fun hn => ?_, k.job.trans (g.job.trans h.job),
    fun p hp => windowless_of_lnk k.lnk (g.bare p (windowless_of_lnk h.lnk hp))⟩
  obtain ⟨e1, e2, e3⟩ := g.silent hn
  exact ⟨h2.trans (e1.trans h1), l2.trans (e2.trans l1), k.engine.trans (e3.trans h.engine)⟩

theorem requestWord_job (s : State) (b : BreakerSet) : (s.requestWord b).cfg.job = s.cfg.job := by
  rw [requestWord_eq]
  split <;> rfl

theorem trmEvent_job (s : State) (f : State → State) : (s.trmEvent f).cfg.job = (f s).cfg.job := by
  unfold State.trmEvent
  simp only
  split
  · rfl
  · exact requestWord_job _ _

theorem makeRoom_job (s : State) : s.makeRoom.cfg.job = s.cfg.job := by
  unfold State.makeRoom
  split
  · rfl
  · split <;> rfl

theorem decideArc_job (s : State) (z : Zone) : (s.decideArc z).cfg.job = s.cfg.job := by
  have ho : (s.arcOpenedAt z).cfg.job = s.cfg.job :=
    (trmEvent_job s fun t => t.arcTaken z _ _).trans (makeRoom_job s)
  rw [(decideArc_kept s z).2]
  exact ho

/-- A decision asks for the lockout word once (R132). -/
theorem decideArc_tripStep (s : State) (z : Zone) {acts : Prop} (h : acts) : s.TripStep (s.decideArc z) acts :=
  ⟨decideArc_asks s z, fun hn => absurd h hn, decideArc_job s z, fun _ hp => decideArc_windowless z hp⟩

/-! ### A re-strike (R124 to R126) -/

/-- The records with those of a zone struck anew. -/
def State.restruckOf (s : State) (z : Zone) (rs : List TripRec) : List TripRec :=
  rs.map fun r => if r.isArcOf z then s.restruck r else r

/-- What a re-strike does to the records and the alerts, before the write engine is asked. -/
def State.strikeTaken (s : State) (z : Zone) : State :=
  State.raise (State.noticeRecords { s with trm.records := s.restruckOf z s.trm.records }) .arcOpened

theorem restrike_eq (s : State) (z : Zone) : s.restrike z =
    if s.trm.records.any (·.isArcOf z) then s.trmEvent fun s => s.strikeTaken z else s := by
  unfold State.restrike State.strikeTaken State.restruckOf
  simp only [restrikeRecord_eq]

theorem restrike_records (s : State) (z : Zone) :
    (s.restrike z).trm.records = s.restruckOf z s.trm.records ∧
      (s.restrike z).trm.seqCounter = s.trm.seqCounter := by
  rw [restrike_eq]
  split
  · obtain ⟨h1, h2, -⟩ := trmEvent_kept s fun s => s.strikeTaken z
    exact ⟨h1, h2⟩
  · rename_i h
    rw [List.any_eq_true, not_exists] at h
    refine ⟨?_, rfl⟩
    conv_lhs => rw [← List.map_id s.trm.records]
    exact List.map_congr_left fun r hr => (if_neg fun e => h r ⟨hr, e⟩).symm

/-- A record that is struck anew stays the open record of its zone, and its lines stay on (R125). -/
theorem restruck_holds (s : State) (r : TripRec) {b : Fin 7} (hl : mem r.lockout b = true) (hf : mem r.released b = false) :
    (s.restruck r).stage ≠ .closed ∧ mem (s.restruck r).lockout b = true ∧ mem (s.restruck r).released b = false := by
  unfold State.restruck
  refine ⟨by simp, ?_, ?_⟩
  · show mem (r.lockout ||| _) b = true
    rw [mem_or, hl, Bool.true_or]
  · show mem (r.released &&& _) b = false
    rw [mem_and, hf, Bool.false_and]

theorem restrike_tripStep (s : State) (z : Zone) :
    s.TripStep (s.restrike z) (s.trm.records.any (·.isArcOf z) = true) := by
  obtain ⟨hrec, -⟩ := restrike_records s z
  have hlnk := restrike_lnk s z
  rw [restrike_eq] at hrec hlnk ⊢
  split
  · rename_i h
    rw [if_pos h] at hrec hlnk
    refine ⟨⟨fun b hb => ?_, trmEvent_asksForWord _ _ rfl rfl⟩, fun hn => absurd h hn, trmEvent_job s _,
      fun p hp => windowless_of_lnk hlnk hp⟩
    rw [closeInhibit_eq, mem_linesOf] at hb ⊢
    obtain ⟨r, hr, ho, hl, hf⟩ := hb
    rw [hrec]
    refine ⟨_, List.mem_map_of_mem hr, ?_⟩
    split
    · exact restruck_holds s r hl hf
    · exact ⟨ho, hl, hf⟩
  · exact .of_same (.refl s)

theorem restrike_arcOpened {s : State} {z : Zone} (h : s.trm.records.any (·.isArcOf z) = true) {p : Port}
    (hp : s.used p = true) : (s.restrike z).alerted p .arcOpened = true := by
  obtain ⟨-, -, -, -, ha⟩ := trmEvent_kept s fun s => s.strikeTaken z
  rw [restrike_eq, if_pos h]
  unfold State.alerted
  rw [ha]
  exact raise_alerts (s := State.noticeRecords _) .arcOpened hp

/-! ### A DRILL record (R161) -/

/-- What an unconfirmed expiry under drill does to the records, before the write engine is asked. -/
def State.drillTaken (s : State) (z : Zone) (trigger : Option Chan) (degraded : Bool) : State :=
  s.makeRoom.appendRecord (s.makeRoom.drillRecord z trigger degraded)

theorem appendDrill_records (s : State) (z : Zone) (trigger : Option Chan) (degraded : Bool) :
    ∃ r : TripRec, r.stage = .closed ∧
      (s.appendDrill z trigger degraded).trm.records = keptRecords s.trm.records ++ [r] := by
  obtain ⟨h1, -⟩ := trmEvent_kept s fun t => t.drillTaken z trigger degraded
  have h2 : (s.drillTaken z trigger degraded).trm.records = s.makeRoom.trm.records ++ [_] := rfl
  rw [(makeRoom_trm s).1] at h2
  exact ⟨_, rfl, h1.trans h2⟩

/-- A closed record that comes in, and one that gives way to it, turn no line on or off. -/
theorem linesOf_kept_closed (rs : List TripRec) {r : TripRec} (h : r.stage = .closed) :
    linesOf (keptRecords rs ++ [r]) = linesOf rs := by
  refine set_ext fun b => Bool.eq_iff_iff.2 ?_
  rw [mem_linesOf, mem_linesOf]
  constructor
  · rintro ⟨x, hx, ho, hrest⟩
    rcases List.mem_append.1 hx with hx | hx
    · exact ⟨x, keptRecords_subset rs hx, ho, hrest⟩
    · rw [List.mem_singleton.1 hx] at ho
      exact absurd h ho
  · rintro ⟨x, hx, ho, hrest⟩
    exact ⟨x, List.mem_append_left _ (mem_keptRecords hx ho), ho, hrest⟩

theorem appendDrill_tripStep (s : State) (z : Zone) (trigger : Option Chan) (degraded : Bool) {acts : Prop} :
    s.TripStep (s.appendDrill z trigger degraded) acts := by
  obtain ⟨r, hr, hrec⟩ := appendDrill_records s z trigger degraded
  have hlines : (s.appendDrill z trigger degraded).closeInhibit = s.closeInhibit := by
    rw [closeInhibit_eq, hrec]
    exact linesOf_kept_closed _ hr
  have hm := makeRoom_tstep s
  have hask : s.AsksForWord (s.appendDrill z trigger degraded) True :=
    trmEvent_asksForWord s (fun t => t.drillTaken z trigger degraded) hm.lock hm.engine.1
  obtain ⟨hl, he⟩ := hask.1 hlines
  exact ⟨⟨fun b hb => by rw [hlines]; exact hb, hask⟩, fun _ => ⟨hlines, hl, he⟩,
    (trmEvent_job s fun t => t.drillTaken z trigger degraded).trans (makeRoom_job s),
    fun p hp => trmEvent_windowless (f := fun t => t.drillTaken z trigger degraded) (makeRoom_windowless hp)⟩

/-! ### What a placed zone does at once (R80, R83, R92, R93) -/

section
variable (s : State) (z : Zone)

/-- The zone is confirmed at the expiry of an ENTRY filter (R83, R160). -/
def State.confirmsLit : Bool :=
  s.currentConfirms z || (decide ((s.zonePage z).confirm = .lightOnly) && !s.zev.zones[z].drill)

/-- The start of the zone ends in an arc decision. -/
@[reducible] def State.DecidesAtOnce : Prop :=
  s.instant z = true ∧ s.zev.zones[z].lit = true ∧ s.zev.zones[z].state = .quiet ∧ s.confirmsLit z = true

/-- The start of the zone ends in a re-strike request. -/
def State.StrikesAtOnce : Prop :=
  s.instant z = true ∧ s.zev.zones[z].lit = true ∧ s.zev.zones[z].state = .tripped ∧
    s.zev.zones[z].phase = some .ready ∧ s.RestrikeConfirmed z

/-- The start of the zone may show a DRILL record: a filter of it under drill expires. -/
def State.ShowsAtOnce : Prop :=
  s.instant z = true ∧ s.zev.zones[z].lit = true ∧ s.zev.zones[z].state = .quiet ∧ s.zev.zones[z].drill = true

end

section
variable {s : State} {z : Zone}

theorem State.DecidesAtOnce.quiet (h : s.DecidesAtOnce z) : s.zev.zones[z].state = .quiet := by
  obtain ⟨-, -, hq, -⟩ := h
  exact hq

theorem State.StrikesAtOnce.tripped (h : s.StrikesAtOnce z) : s.zev.zones[z].state = .tripped := by
  obtain ⟨-, -, ht, -⟩ := h
  exact ht

theorem State.StrikesAtOnce.ready (h : s.StrikesAtOnce z) : s.zev.zones[z].phase = some .ready := by
  obtain ⟨-, -, -, hp, -⟩ := h
  exact hp

theorem State.StrikesAtOnce.confirmed (h : s.StrikesAtOnce z) : s.RestrikeConfirmed z := by
  obtain ⟨-, -, -, -, hc⟩ := h
  exact hc

/-- A zone that decides is not TRIPPED, and one that strikes is. -/
theorem not_strikes_of_decides (h : s.DecidesAtOnce z) : ¬ s.StrikesAtOnce z := fun hs => by
  have := h.quiet.symm.trans hs.tripped
  exact absurd this (by decide)

end

/-- The record of a placed zone that has started (R80, R83, R92, R93). -/
def ZoneRec.started (r : ZoneRec) (page : ZonePage) (confirmed : Bool) (now : Time) : ZoneRec :=
  if r.lit = false then r
  else if r.state = .quiet then
    let l := r.lighted page none now
    if page.tzf.val ≠ 0 then l
    else if confirmed then l.struck now
    else { l with filter := .stopped, confirm := .running page.tcw.val, state := .waiting }
  else if r.state = .tripped ∧ r.phase = some .ready then
    { r with
      trigger := triggerOf page r.view none
      filter := if page.tzf.val = 0 then .stopped else .running .restrike page.tzf.val
      phase := if page.tzf.val = 0 then some .holding else some .filtering }
  else r

theorem lightedAt_sameTrips (s : State) (z : Zone) (ev : Option Chan) : s.SameTrips (s.lightedAt z ev) :=
  ⟨rfl, rfl, rfl, rfl, rfl⟩

theorem lightedAt_sameBoard (s : State) (z : Zone) (ev : Option Chan) : s.SameBoard (s.lightedAt z ev) :=
  ⟨rfl, rfl, rfl, rfl⟩

theorem toWaiting_sameTrips (s : State) (z : Zone) : s.SameTrips (s.toWaiting z) := ⟨rfl, rfl, rfl, rfl, rfl⟩

theorem refilteredAt_sameTrips (s : State) (z : Zone) (ev : Option Chan) : s.SameTrips (s.refilteredAt z ev) :=
  ⟨rfl, rfl, rfl, rfl, rfl⟩

theorem refilteredAt_sameBoard (s : State) (z : Zone) (ev : Option Chan) : s.SameBoard (s.refilteredAt z ev) :=
  ⟨rfl, rfl, rfl, rfl⟩

theorem State.SameBoard.confirmsLit {s t : State} {z : Zone} (h : s.SameBoard t)
    (hd : t.zev.zones[z].drill = s.zev.zones[z].drill) : t.confirmsLit z = s.confirmsLit z := by
  unfold State.confirmsLit State.zonePage
  rw [h.currentConfirms, h.active, hd]

/-- The expiry of an ENTRY filter, by whether the zone is confirmed (R83, R160). -/
theorem entryFilterExpiry_eq (s : State) (z : Zone) : s.entryFilterExpiry z =
    if s.confirmsLit z then s.decideArc z
    else if s.zev.zones[z].drill then
      State.toWaiting { s.appendDrill z s.zev.zones[z].trigger s.zev.zones[z].degraded with
        zev.drill.shown := satInc s.zev.drill.shown } z
    else s.toWaiting z := by
  have hz := appendDrill_zev s z s.zev.zones[z].trigger s.zev.zones[z].degraded
  unfold State.entryFilterExpiry State.confirmsLit
  simp only [hz]
  cases s.zev.zones[z].drill <;> cases s.currentConfirms z <;> simp

theorem startPlaced_unlit {s : State} {z : Zone} (h : s.zev.zones[z].lit = false) : s.startPlaced z = s := by
  unfold State.startPlaced
  simp only [h, Bool.not_false, if_true]

theorem startPlaced_quiet {s : State} {z : Zone} (h : s.zev.zones[z].lit = true) (hq : s.zev.zones[z].state = .quiet) :
    s.startPlaced z = if (s.zonePage z).tzf.val = 0 then (s.lightedAt z none).entryFilterExpiry z
      else s.lightedAt z none := by
  unfold State.startPlaced
  simp only [h, hq, Bool.not_true, Bool.false_eq_true, if_false]
  exact toLit_eq s z none

theorem startPlaced_ready {s : State} {z : Zone} (h : s.zev.zones[z].lit = true)
    (hq : s.zev.zones[z].state = .tripped) (hp : s.zev.zones[z].phase = some .ready) :
    s.startPlaced z = if (s.zonePage z).tzf.val = 0 then (s.refilteredAt z none).restrikeFilterExpiry z
      else s.refilteredAt z none := by
  unfold State.startPlaced
  simp only [h, hq, hp, Bool.not_true, Bool.false_eq_true, if_false]
  exact startRestrike_eq s z none

theorem startPlaced_rests {s : State} {z : Zone} (hq : s.zev.zones[z].state ≠ .quiet)
    (hp : ¬ (s.zev.zones[z].state = .tripped ∧ s.zev.zones[z].phase = some .ready)) : s.startPlaced z = s := by
  unfold State.startPlaced
  simp only
  split
  · rfl
  · split
    · rename_i h
      exact absurd h hq
    · rename_i h1 h2
      exact absurd ⟨h1, h2⟩ hp
    · rfl

/-- The expiry of a RESTRIKE filter, by whether the re-strike is confirmed (R93). -/
theorem restrikeFilterExpiry_eq (s : State) (z : Zone) [Decidable (s.RestrikeConfirmed z)] :
    s.restrikeFilterExpiry z =
      (if s.RestrikeConfirmed z then s.restrike z else s).modZone z fun r =>
        { r with filter := .stopped, phase := some .holding } := by
  have h : (decide ((s.zonePage z).confirm = .lightOnly) || s.live (s.feedSet (s.recordRegion z))) = true ↔
      s.RestrikeConfirmed z := by
    rw [Bool.or_eq_true, decide_eq_true_iff]
    rfl
  unfold State.restrikeFilterExpiry
  simp only [h]

theorem refilteredAt_confirmed {s : State} {z : Zone} (ev : Option Chan) :
    (s.refilteredAt z ev).RestrikeConfirmed z ↔ s.RestrikeConfirmed z := Iff.rfl

theorem modZone_sameTrips (s : State) (z : Zone) (f : ZoneRec → ZoneRec) : s.SameTrips (s.modZone z f) :=
  ⟨rfl, rfl, rfl, rfl, rfl⟩

/-- What the start of a placed zone does to the records: nothing, a DRILL record, an arc decision or a re-strike. -/
inductive State.Starts (s : State) (z : Zone) (t : State) : Prop
  | rests (hd : ¬ s.DecidesAtOnce z) (hs : ¬ s.StrikesAtOnce z) (h : s.SameTrips t)
  | drills (hd : ¬ s.DecidesAtOnce z) (hs : ¬ s.StrikesAtOnce z) (hsh : s.ShowsAtOnce z) (trigger : Option Chan) (degraded : Bool)
      (h : ((s.lightedAt z none).appendDrill z trigger degraded).SameTrips t)
  | decides (hd : s.DecidesAtOnce z) (h : t = (s.lightedAt z none).decideArc z)
  | strikes (hs : s.StrikesAtOnce z) (h : ((s.refilteredAt z none).restrike z).SameTrips t)

theorem instant_iff (s : State) (z : Zone) : s.instant z = true ↔ (s.zonePage z).tzf.val = 0 := decide_eq_true_iff

theorem startPlaced_starts (s : State) (z : Zone) : s.Starts z (s.startPlaced z) := by
  classical
  by_cases hl : s.zev.zones[z].lit = true
  · by_cases hq : s.zev.zones[z].state = .quiet
    · have hs : ¬ s.StrikesAtOnce z := fun h => by
        have := h.tripped
        rw [hq] at this
        cases this
      rw [startPlaced_quiet hl hq]
      by_cases hi : (s.zonePage z).tzf.val = 0
      · have hdrill : (s.lightedAt z none).zev.zones[z].drill = s.zev.zones[z].drill := by
          have : (s.lightedAt z none).zev.zones[z] = _ := modAt_same _ _ _
          rw [this]
          rfl
        have hconf := (lightedAt_sameBoard s z none).confirmsLit hdrill
        rw [if_pos hi, entryFilterExpiry_eq, hconf, hdrill]
        by_cases hc : s.confirmsLit z = true
        · rw [if_pos hc]
          exact .decides ⟨(instant_iff s z).2 hi, hl, hq, hc⟩ rfl
        · have hd : ¬ s.DecidesAtOnce z := fun ⟨_, _, _, h⟩ => hc h
          rw [if_neg hc]
          by_cases hf : s.zev.zones[z].drill = true
          · rw [if_pos hf]
            refine .drills hd hs ⟨(instant_iff s z).2 hi, hl, hq, hf⟩ (s.lightedAt z none).zev.zones[z].trigger
              (s.lightedAt z none).zev.zones[z].degraded (.trans ?_ (toWaiting_sameTrips _ z))
            exact ⟨rfl, rfl, rfl, rfl, rfl⟩
          · rw [if_neg hf]
            exact .rests hd hs ((lightedAt_sameTrips s z none).trans (toWaiting_sameTrips _ z))
      · rw [if_neg hi]
        exact .rests (fun h => hi ((instant_iff s z).1 h.1)) hs (lightedAt_sameTrips s z none)
    · have hd : ¬ s.DecidesAtOnce z := fun h => hq h.quiet
      by_cases hp : s.zev.zones[z].state = .tripped ∧ s.zev.zones[z].phase = some .ready
      · rw [startPlaced_ready hl hp.1 hp.2]
        by_cases hi : (s.zonePage z).tzf.val = 0
        · rw [if_pos hi, restrikeFilterExpiry_eq]
          by_cases hc : s.RestrikeConfirmed z
          · rw [if_pos ((refilteredAt_confirmed none).2 hc)]
            exact .strikes ⟨(instant_iff s z).2 hi, hl, hp.1, hp.2, hc⟩ (modZone_sameTrips _ z _)
          · rw [if_neg fun h => hc ((refilteredAt_confirmed none).1 h)]
            exact .rests hd (fun h => hc h.confirmed) ((refilteredAt_sameTrips s z none).trans (modZone_sameTrips _ z _))
        · rw [if_neg hi]
          exact .rests hd (fun h => hi ((instant_iff s z).1 h.1)) (refilteredAt_sameTrips s z none)
      · rw [startPlaced_rests hq hp]
        exact .rests hd (fun h => hp ⟨h.tripped, h.ready⟩) (.refl s)
  · rw [startPlaced_unlit (Bool.eq_false_of_not_eq_true hl)]
    exact .rests (fun h => hl h.2.1) (fun h => hl h.2.1) (.refl s)

/-! ### One start at the zones -/

theorem decideArc_zev_idle {s : State} (z : Zone) (h : s.zev.drill.active = false) :
    (s.decideArc z).zev = { s.zev with zones := modAt s.zev.zones z fun r => r.struck s.alr.time } := by
  rw [decideArc_zev]
  unfold Zev.decided
  simp only [h, Bool.and_false, Bool.false_eq_true, if_false]
  rfl

/-- A step of the zones that changes one of them; the drill register changes only where it shows (R161). -/
structure State.OneZone (s : State) (z : Zone) (r' : ZoneRec) (shows : Prop) (t : State) : Prop where
  zones : ∀ y : Zone, t.zev.zones[y] = if y = z then r' else s.zev.zones[y]
  active : t.zev.drill.active = s.zev.drill.active
  drill : ¬ shows → t.zev.drill = s.zev.drill

theorem oneZone_of_modAt {s t : State} {z : Zone} (f : ZoneRec → ZoneRec) {r' : ZoneRec} {shows : Prop}
    (h : t.zev = { s.zev with zones := modAt s.zev.zones z f }) (hf : f s.zev.zones[z] = r') :
    s.OneZone z r' shows t := by
  refine ⟨fun y => ?_, congrArg (·.drill.active) h, fun _ => congrArg (·.drill) h⟩
  rw [h, ← hf]
  exact modAt_get _ _ _ _

theorem lightedAt_zone (s : State) (z : Zone) :
    (s.lightedAt z none).zev.zones[z] = s.zev.zones[z].lighted (s.zonePage z) none s.alr.time := modAt_same _ _ _

theorem toWaiting_zev (s : State) (z : Zone) : (s.toWaiting z).zev = { s.zev with
    zones := modAt s.zev.zones z fun r => { r with
      filter := .stopped, confirm := .running (s.zonePage z).tcw.val, state := .waiting, entryTime := s.alr.time } } := by
  unfold State.toWaiting State.enterZone
  rw [modZone_modZone, noticeZones_zev]
  exact congrArg (fun v : Vector ZoneRec 8 => { s.zev with zones := v }) (modAt_congr _ _ rfl)

/-- A step after a change of the same zone. -/
theorem State.OneZone.after {s v t : State} {z : Zone} {f : ZoneRec → ZoneRec} {r' : ZoneRec} {shows shows' : Prop}
    (h : v.OneZone z r' shows t) (hv : v.zev = { s.zev with zones := modAt s.zev.zones z f }) (hs : shows → shows') :
    s.OneZone z r' shows' t := by
  have hz (y : Zone) : v.zev.zones[y] = if y = z then f s.zev.zones[z] else s.zev.zones[y] := by
    rw [hv]
    exact modAt_get _ _ _ _
  have hd : v.zev.drill = s.zev.drill := congrArg (·.drill) hv
  refine ⟨fun y => ?_, h.active.trans (congrArg (·.active) hd), fun hn => (h.drill fun e => hn (hs e)).trans hd⟩
  rw [h.zones, hz]
  split <;> rfl

/-- The expiry of an ENTRY filter, at the zones, while no drill is in progress (R83, R160). -/
theorem entryFilterExpiry_oneZone {s : State} (z : Zone) (h : s.zev.drill.active = false) :
    s.OneZone z (if s.confirmsLit z then s.zev.zones[z].struck s.alr.time
      else { s.zev.zones[z] with
        filter := .stopped, confirm := .running (s.zonePage z).tcw.val, state := .waiting, entryTime := s.alr.time })
      (s.zev.zones[z].drill = true) (s.entryFilterExpiry z) := by
  rw [entryFilterExpiry_eq]
  split
  · exact oneZone_of_modAt _ (decideArc_zev_idle z h) rfl
  · split
    · rename_i hf
      have hz := appendDrill_zev s z s.zev.zones[z].trigger s.zev.zones[z].degraded
      have hb := (appendDrill_zstep s z s.zev.zones[z].trigger s.zev.zones[z].degraded).sameBoard
      generalize s.appendDrill z s.zev.zones[z].trigger s.zev.zones[z].degraded = a at hz hb ⊢
      have hpage : a.zonePage z = s.zonePage z := congrArg (fun i : Image => i.zones[z]) hb.active
      refine ⟨fun y => ?_, ?_, fun hn => absurd hf hn⟩
      · have hzone (y : Zone) : a.zev.zones[y] = s.zev.zones[y] := congrArg (fun v : Zev => v.zones[y]) hz
        rw [toWaiting_zev]
        refine (modAt_get _ _ _ _).trans ?_
        change (if y = z then { a.zev.zones[z] with
          filter := .stopped, confirm := .running (a.zonePage z).tcw.val, state := .waiting, entryTime := a.alr.time }
          else a.zev.zones[y]) = _
        rw [hzone, hzone, hpage, hb.time]
      · rw [toWaiting_zev]
        show a.zev.drill.active = _
        rw [hz]
    · exact oneZone_of_modAt _ (toWaiting_zev s z) rfl

/-- The expiry of a RESTRIKE filter, at the zones (R93). -/
theorem restrikeFilterExpiry_oneZone (s : State) (z : Zone) :
    s.OneZone z { s.zev.zones[z] with filter := .stopped, phase := some .holding } False (s.restrikeFilterExpiry z) := by
  classical
  refine oneZone_of_modAt (fun r => { r with filter := .stopped, phase := some .holding }) ?_ rfl
  rw [restrikeFilterExpiry_eq]
  split
  · have hz := restrike_zev s z
    generalize s.restrike z = t at hz ⊢
    rw [← hz]
    rfl
  · rfl

/-- The start of a placed zone, at the zones, while no drill is in progress. -/
theorem startPlaced_oneZone {s : State} (z : Zone) (h : s.zev.drill.active = false) :
    s.OneZone z (s.zev.zones[z].started (s.zonePage z) (s.confirmsLit z) s.alr.time) (s.ShowsAtOnce z)
      (s.startPlaced z) := by
  have hrest (hl : s.zev.zones[z].started (s.zonePage z) (s.confirmsLit z) s.alr.time = s.zev.zones[z]) :
      s.OneZone z (s.zev.zones[z].started (s.zonePage z) (s.confirmsLit z) s.alr.time) (s.ShowsAtOnce z) s := by
    rw [hl]
    refine ⟨fun y => ?_, rfl, fun _ => rfl⟩
    split
    · rename_i e
      rw [e]
    · rfl
  by_cases hl : s.zev.zones[z].lit = true
  · by_cases hq : s.zev.zones[z].state = .quiet
    · have hlit := lightedAt_zone s z
      rw [startPlaced_quiet hl hq]
      unfold ZoneRec.started
      rw [if_neg (by rw [hl]; decide), if_pos hq]
      by_cases hi : (s.zonePage z).tzf.val = 0
      · have hone := (entryFilterExpiry_oneZone (s := s.lightedAt z none) z h).after (s := s)
          (f := fun r => r.lighted (s.zonePage z) none s.alr.time) (shows' := s.ShowsAtOnce z) rfl
          fun e => ⟨(instant_iff s z).2 hi, hl, hq, by rw [hlit] at e; exact e⟩
        have hconf := (lightedAt_sameBoard s z none).confirmsLit (z := z) (by rw [hlit]; rfl)
        rw [hconf, hlit] at hone
        simp only [hi, ne_eq, not_true_eq_false, if_true, if_false]
        exact hone
      · simp only [hi, ne_eq, not_false_eq_true, if_true, if_false]
        exact oneZone_of_modAt (fun r => r.lighted (s.zonePage z) none s.alr.time) rfl rfl
    · by_cases hp : s.zev.zones[z].state = .tripped ∧ s.zev.zones[z].phase = some .ready
      · rw [startPlaced_ready hl hp.1 hp.2]
        unfold ZoneRec.started
        rw [if_neg (by rw [hl]; decide), if_neg hq, if_pos hp]
        by_cases hi : (s.zonePage z).tzf.val = 0
        · simp only [hi, if_true]
          have hfilter : (s.refilteredAt z none).zev.zones[z] = { s.zev.zones[z] with
              trigger := triggerOf (s.zonePage z) s.zev.zones[z].view none
              filter := .running .restrike (s.zonePage z).tzf.val, phase := some .filtering } := modAt_same _ _ _
          have hone := (restrikeFilterExpiry_oneZone (s.refilteredAt z none) z).after (s := s) (f := fun r => { r with
            trigger := triggerOf (s.zonePage z) r.view none, filter := .running .restrike (s.zonePage z).tzf.val
            phase := some .filtering }) (shows' := s.ShowsAtOnce z) rfl False.elim
          rw [hfilter] at hone
          exact hone
        · simp only [hi, if_false]
          exact oneZone_of_modAt _ rfl rfl
      · rw [startPlaced_rests hq hp]
        refine hrest ?_
        unfold ZoneRec.started
        rw [if_neg (by rw [hl]; decide), if_neg hq, if_neg hp]
  · rw [startPlaced_unlit (Bool.eq_false_of_not_eq_true hl)]
    refine hrest ?_
    unfold ZoneRec.started
    rw [if_pos (Bool.eq_false_of_not_eq_true hl)]

/-! ### One start at the Trip Record Manager -/

/-- The start of the zone reaches records. -/
def State.ActsAtOnce (s : State) (z : Zone) : Prop :=
  s.DecidesAtOnce z ∨ (s.StrikesAtOnce z ∧ s.trm.records.any (·.isArcOf z) = true)

theorem startPlaced_tripStep (s : State) (z : Zone) : s.TripStep (s.startPlaced z) (s.ActsAtOnce z) := by
  cases startPlaced_starts s z with
  | rests _ _ h => exact .of_same h
  | drills _ _ _ _ _ h => exact .between (lightedAt_sameTrips s z none) (appendDrill_tripStep _ z _ _) h
  | decides hd h => exact h ▸ .between (lightedAt_sameTrips s z none) (decideArc_tripStep _ z (.inl hd)) (.refl _)
  | strikes hs h =>
    refine .between (refilteredAt_sameTrips s z none) ?_ h
    obtain ⟨h1, h2, h3, h4⟩ := restrike_tripStep (s.refilteredAt z none) z
    exact ⟨h1, fun hn => h2 fun e => hn (.inr ⟨hs, e⟩), h3, h4⟩

end Sys2Proof.Machine
end

section
/-! PROOFS. Placed zones start one after another: the start of one leaves what the start of another hangs on (R98, R99,
log 12). -/

namespace Sys2Proof.Machine

/-! ### The open ARC records of a zone (R101, R124) -/

/-- The open ARC records of a zone. -/
def arcsOf (rs : List TripRec) (z : Zone) : List TripRec := rs.filter (·.isArcOf z)

theorem arcsOf_append (rs ss : List TripRec) (z : Zone) : arcsOf (rs ++ ss) z = arcsOf rs z ++ arcsOf ss z :=
  List.filter_append _ _

theorem arcsOf_closed {r : TripRec} (h : r.stage = .closed) (z : Zone) : r.isArcOf z = false := by
  simp [TripRec.isArcOf, TripRec.isOpen, h]

theorem filter_eraseP {α : Type} {p q : α → Bool} (h : ∀ a, p a = true → q a = false) (l : List α) :
    (l.eraseP p).filter q = l.filter q := by
  induction l with
  | nil => rfl
  | cons a l ih =>
    by_cases hp : p a = true
    · rw [List.eraseP_cons_of_pos hp, List.filter_cons_of_neg (by rw [h a hp]; decide)]
    · rw [List.eraseP_cons_of_neg hp]
      simp only [List.filter_cons, ih]

theorem arcsOf_kept (rs : List TripRec) (z : Zone) : arcsOf (keptRecords rs) z = arcsOf rs z := by
  unfold keptRecords
  split
  · rfl
  · exact filter_eraseP (fun r h => arcsOf_closed (of_decide_eq_true h) z) rs

theorem isArcOf_other {r : TripRec} {y z : Zone} (h : r.isArcOf y = true) (hne : z ≠ y) : r.isArcOf z = false := by
  rw [isArcOf_iff] at h
  refine Bool.eq_false_iff.2 fun hz => ?_
  rw [isArcOf_iff] at hz
  exact hne (Option.some.inj (hz.2.2.symm.trans h.2.2))

theorem restruck_isArcOf (s : State) {r : TripRec} {y : Zone} (h : r.isArcOf y = true) :
    (s.restruck r).isArcOf y = true := by
  rw [isArcOf_iff] at h ⊢
  exact ⟨h.1, by unfold State.restruck; simp, h.2.2⟩

theorem arcsOf_restruckOf (s : State) (rs : List TripRec) {y z : Zone} (hne : z ≠ y) :
    arcsOf (s.restruckOf y rs) z = arcsOf rs z := by
  unfold arcsOf State.restruckOf
  induction rs with
  | nil => rfl
  | cons r rs ih =>
    rw [List.map_cons]
    by_cases hy : r.isArcOf y = true
    · rw [if_pos hy, List.filter_cons_of_neg (by rw [isArcOf_other (restruck_isArcOf s hy) hne]; decide),
        List.filter_cons_of_neg (by rw [isArcOf_other hy hne]; decide), ih]
    · rw [if_neg hy]
      simp only [List.filter_cons, ih]

theorem any_isArcOf (rs : List TripRec) (z : Zone) : rs.any (·.isArcOf z) = true ↔ arcsOf rs z ≠ [] := by
  unfold arcsOf
  rw [Ne, List.filter_eq_nil_iff, List.any_eq_true]
  push Not
  rfl

theorem recordRegion_arcsOf (s : State) (z : Zone) : s.recordRegion z =
    ((arcsOf s.trm.records z).head?.elim 0 (·.region)) := by
  unfold State.recordRegion arcsOf
  rw [List.head?_filter]
  cases s.trm.records.find? (·.isArcOf z) <;> rfl

/-! ### A zone that another leaves alone -/

/-- What the start of a zone hangs on is the same in two states. -/
structure State.SameAt (s t : State) (z : Zone) : Prop where
  board : s.SameBoard t
  zone : t.zev.zones[z] = s.zev.zones[z]
  arcs : arcsOf t.trm.records z = arcsOf s.trm.records z

theorem State.SameAt.trans {s t u : State} {z : Zone} (h : s.SameAt t z) (g : t.SameAt u z) : s.SameAt u z :=
  ⟨h.board.trans g.board, g.zone.trans h.zone, g.arcs.trans h.arcs⟩

section
variable {s t : State} {z : Zone} (h : s.SameAt t z)
include h

theorem State.SameAt.page : t.zonePage z = s.zonePage z := congrArg (fun i : Image => i.zones[z]) h.board.active

theorem State.SameAt.instant : t.instant z = s.instant z := by
  unfold State.instant
  rw [h.page]

theorem State.SameAt.confirmsLit : t.confirmsLit z = s.confirmsLit z :=
  h.board.confirmsLit (congrArg (·.drill) h.zone)

theorem State.SameAt.decides : t.DecidesAtOnce z ↔ s.DecidesAtOnce z := by
  unfold State.DecidesAtOnce
  rw [h.instant, h.zone, h.confirmsLit]

theorem State.SameAt.shows : t.ShowsAtOnce z ↔ s.ShowsAtOnce z := by
  unfold State.ShowsAtOnce
  rw [h.instant, h.zone]

theorem State.SameAt.strikes : t.StrikesAtOnce z ↔ s.StrikesAtOnce z := by
  unfold State.StrikesAtOnce State.RestrikeConfirmed
  rw [h.instant, h.zone, h.board.active, h.board.live, h.board.feedSet, recordRegion_arcsOf t, h.arcs,
    ← recordRegion_arcsOf]

theorem State.SameAt.anyArc : t.trm.records.any (·.isArcOf z) = s.trm.records.any (·.isArcOf z) := by
  rw [Bool.eq_iff_iff, any_isArcOf, any_isArcOf, h.arcs]

theorem State.SameAt.acts : t.ActsAtOnce z ↔ s.ActsAtOnce z := by
  unfold State.ActsAtOnce
  rw [h.decides, h.strikes, h.anyArc]

end

theorem startPlaced_sameBoard (s : State) (z : Zone) : s.SameBoard (s.startPlaced z) := (startPlaced_zstep s z).sameBoard

/-- The start of a zone leaves the open ARC records of another. -/
theorem startPlaced_arcs (s : State) {y z : Zone} (hne : z ≠ y) :
    arcsOf (s.startPlaced y).trm.records z = arcsOf s.trm.records z := by
  cases startPlaced_starts s y with
  | rests _ _ h => rw [h.trm]
  | drills _ _ _ tr dg h =>
    obtain ⟨r, hr, hrec⟩ := appendDrill_records (s.lightedAt y none) y tr dg
    have hone : arcsOf [r] z = [] := by
      unfold arcsOf
      rw [List.filter_cons_of_neg (by rw [arcsOf_closed hr]; decide)]
      rfl
    rw [h.trm, hrec, arcsOf_append, arcsOf_kept, hone, List.append_nil]
    rfl
  | decides _ h =>
    have hone (n : Byte) : arcsOf [(s.lightedAt y none).arcOf y n] z = [] := by
      unfold arcsOf
      rw [List.filter_cons_of_neg]
      · rfl
      · rw [isArcOf_other (y := y) ((isArcOf_iff _ _).2 ⟨rfl, by simp [State.arcOf], rfl⟩) hne]
        decide
    rw [h, (decideArc_records _ y).1, arcsOf_append, arcsOf_kept, hone, List.append_nil]
    rfl
  | strikes _ h =>
    rw [h.trm, (restrike_records _ y).1]
    exact arcsOf_restruckOf _ _ hne

theorem startPlaced_sameAt {s : State} {y z : Zone} (hd : s.zev.drill.active = false) (hne : z ≠ y) :
    s.SameAt (s.startPlaced y) z := by
  refine ⟨startPlaced_sameBoard s y, ?_, startPlaced_arcs s hne⟩
  rw [(startPlaced_oneZone y hd).zones, if_neg hne]

/-! ### Several starts -/

theorem State.Asks.mono {s t : State} {once once' : Prop} (h : s.Asks t once) (ho : once' → once) :
    s.Asks t once' := by
  obtain ⟨g, a1, a2, a3⟩ := h
  refine ⟨g, a1, a2, fun hne hi => ?_⟩
  obtain ⟨e, begun, hb, hl⟩ := a3 hne hi
  exact ⟨e, begun, fun h => hb (ho h), hl⟩

/-- The placed zones of a list start one after another. -/
def State.startAll (s : State) (zs : List Zone) : State := zs.foldl (fun t z => t.startPlaced z) s

theorem startAll_zstep (s : State) (zs : List Zone) : ZStep s (s.startAll zs) :=
  foldl_zstep _ (fun t z => startPlaced_zstep t z) zs s

theorem startPlaced_inactive {s : State} (z : Zone) (hd : s.zev.drill.active = false) :
    (s.startPlaced z).zev.drill.active = false := (startPlaced_oneZone z hd).active.trans hd

theorem startAll_inactive {s : State} (zs : List Zone) (hd : s.zev.drill.active = false) :
    (s.startAll zs).zev.drill.active = false := by
  induction zs generalizing s with
  | nil => exact hd
  | cons y zs ih => exact ih (startPlaced_inactive y hd)

theorem startAll_sameAt {s : State} {zs : List Zone} {z : Zone} (hd : s.zev.drill.active = false) (hz : z ∉ zs) :
    s.SameAt (s.startAll zs) z := by
  induction zs generalizing s with
  | nil => exact ⟨⟨rfl, rfl, rfl, rfl⟩, rfl, rfl⟩
  | cons y zs ih =>
    rw [List.mem_cons, not_or] at hz
    exact (startPlaced_sameAt hd hz.1).trans (ih (s := s.startPlaced y) (startPlaced_inactive y hd) hz.2)

section
variable {s : State} {zs : List Zone} (hd : s.zev.drill.active = false) (hn : zs.Nodup)
include hd hn

theorem startAll_zones (z : Zone) : (s.startAll zs).zev.zones[z] =
    if z ∈ zs then s.zev.zones[z].started (s.zonePage z) (s.confirmsLit z) s.alr.time else s.zev.zones[z] := by
  induction zs generalizing s with
  | nil => simp [State.startAll]
  | cons y zs ih =>
    obtain ⟨hy, hn⟩ := List.nodup_cons.1 hn
    refine (ih (s := s.startPlaced y) (startPlaced_inactive y hd) hn).trans ?_
    by_cases he : z = y
    · subst he
      rw [if_neg hy, if_pos List.mem_cons_self, (startPlaced_oneZone z hd).zones, if_pos rfl]
    · have h := startPlaced_sameAt hd he
      rw [h.zone, h.page, h.confirmsLit, h.board.time]
      simp only [List.mem_cons, he, false_or]

theorem startAll_drill (hs : ∀ z ∈ zs, ¬ s.ShowsAtOnce z) : (s.startAll zs).zev.drill = s.zev.drill := by
  induction zs generalizing s with
  | nil => rfl
  | cons y zs ih =>
    obtain ⟨hy, hn⟩ := List.nodup_cons.1 hn
    refine (ih (s := s.startPlaced y) (startPlaced_inactive y hd) hn fun z hz => ?_).trans
      ((startPlaced_oneZone y hd).drill (hs y List.mem_cons_self))
    rw [(startPlaced_sameAt hd fun e : z = y => hy (e ▸ hz)).shows]
    exact hs z (List.mem_cons_of_mem _ hz)

theorem startAll_silent (hs : ∀ z ∈ zs, ¬ s.ActsAtOnce z) : (s.startAll zs).closeInhibit = s.closeInhibit ∧
    (s.startAll zs).trm.lock = s.trm.lock ∧ (s.startAll zs).cfg.engine = s.cfg.engine := by
  induction zs generalizing s with
  | nil => exact ⟨rfl, rfl, rfl⟩
  | cons y zs ih =>
    obtain ⟨hy, hn⟩ := List.nodup_cons.1 hn
    obtain ⟨h1, h2, h3⟩ := (startPlaced_tripStep s y).silent (hs y List.mem_cons_self)
    obtain ⟨g1, g2, g3⟩ := ih (s := s.startPlaced y) (startPlaced_inactive y hd) hn fun z hz => by
      rw [(startPlaced_sameAt hd fun e : z = y => hy (e ▸ hz)).acts]
      exact hs z (List.mem_cons_of_mem _ hz)
    exact ⟨g1.trans h1, g2.trans h2, g3.trans h3⟩

/-- The starts ask for the lockout word; once, where one zone acts on records (R132, R142). -/
theorem startAll_asks : s.Asks (s.startAll zs) (∃ y, ∀ z ∈ zs, s.ActsAtOnce z → z = y) := by
  induction zs generalizing s with
  | nil => exact .of_same _ rfl rfl rfl
  | cons y zs ih =>
    obtain ⟨hy, hn⟩ := List.nodup_cons.1 hn
    have hone := startPlaced_tripStep s y
    have hact {z : Zone} (hz : z ∈ zs) := (startPlaced_sameAt hd fun e : z = y => hy (e ▸ hz)).acts
    have hd' := startPlaced_inactive y hd
    have hrest := ih (s := s.startPlaced y) hd' hn
    by_cases ha : s.ActsAtOnce y
    · refine hone.asks.cons hrest (fun ⟨x, hx⟩ => ⟨x, fun z hz hact' => ?_⟩) fun ⟨x, hx⟩ => ?_
      · exact hx z (List.mem_cons_of_mem _ hz) ((hact hz).1 hact')
      · refine (startAll_silent hd' hn fun z hz hact' => hy ?_).1
        have hzx := hx z (List.mem_cons_of_mem _ hz) ((hact hz).1 hact')
        rwa [hx y List.mem_cons_self ha, ← hzx]
    · obtain ⟨h1, h2, h3⟩ := hone.silent ha
      exact (hrest.congr h1.symm h2.symm h3.symm rfl rfl rfl).mono fun ⟨x, hx⟩ =>
        ⟨x, fun z hz hact' => hx z (List.mem_cons_of_mem _ hz) ((hact hz).1 hact')⟩

end

theorem startAll_job (s : State) (zs : List Zone) : (s.startAll zs).cfg.job = s.cfg.job := by
  induction zs generalizing s with
  | nil => rfl
  | cons y zs ih => exact (ih (s.startPlaced y)).trans (startPlaced_tripStep s y).job

theorem startAll_bare (s : State) (zs : List Zone) {p : Port} (h : s.lnk[p].Windowless) :
    (s.startAll zs).lnk[p].Windowless := by
  induction zs generalizing s with
  | nil => exact h
  | cons y zs ih => exact ih (s.startPlaced y) ((startPlaced_tripStep s y).bare p h)

/-- A re-strike raises ARC_OPENED (R126). -/
theorem startAll_arcOpened {s : State} {zs : List Zone} (hd : s.zev.drill.active = false) (hn : zs.Nodup) {z : Zone}
    (hz : z ∈ zs) (hs : s.StrikesAtOnce z) (ha : s.trm.records.any (·.isArcOf z) = true) {p : Port}
    (hp : s.used p = true) : (s.startAll zs).alerted p .arcOpened = true := by
  induction zs generalizing s with
  | nil => exact absurd hz List.not_mem_nil
  | cons y zs ih =>
    obtain ⟨hy, hn⟩ := List.nodup_cons.1 hn
    rcases List.mem_cons.1 hz with rfl | hz
    · refine (startAll_zstep (s.startPlaced z) zs).masks.alerted ?_
      cases startPlaced_starts s z with
      | rests _ h _ => exact absurd hs h
      | drills _ h _ _ _ _ => exact absurd hs h
      | decides h _ => exact absurd hs (not_strikes_of_decides h)
      | strikes _ h =>
        unfold State.alerted
        rw [h.alr]
        exact restrike_arcOpened (s := s.refilteredAt z none) ha hp
    · have h := startPlaced_sameAt hd fun e : z = y => hy (e ▸ hz)
      refine ih (s := s.startPlaced y) (startPlaced_inactive y hd) hn hz (h.strikes.2 hs) (h.anyArc.trans ha) ?_
      rw [h.board.used]
      exact hp

/-! ### The records of several starts (R105, R106, R107, R125) -/

theorem State.SameBoard.restruck {s t : State} (h : s.SameBoard t) (r : TripRec) : t.restruck r = s.restruck r := by
  have hregion (sc : Scope) : t.restrikeAnswer sc r.region = s.restrikeAnswer sc r.region := by
    have e : t.restrikeAnswer sc r.region =
      State.restrikeAnswer { s with top := t.top, cfg.active := t.cfg.active } sc r.region := rfl
    rw [e, h.top, h.active]
  have hpulse (k : Incomer) (why : Reason) : t.freshPulse k why = s.freshPulse k why := by
    unfold State.freshPulse
    rw [h.time, h.active]
  unfold State.restruck
  simp only [hregion, hpulse, h.freshEntry]

/-- A record of the list, and what it is in the end where some of them are struck anew. -/
def State.StruckInto (b : State) (hit : TripRec → Prop) (r r' : TripRec) : Prop :=
  (hit r → r' = b.restruck r) ∧ (¬ hit r → r' = r)

theorem restruck_closed (b : State) (z : Zone) (r : TripRec) :
    decide ((if r.isArcOf z then b.restruck r else r).stage = .closed) = decide (r.stage = .closed) := by
  split
  · rename_i h
    have : r.stage ≠ .closed := ((isArcOf_iff r z).1 h).2.1
    rw [decide_eq_false this]
    rfl
  · rfl

theorem restruckOf_counts (b : State) (z : Zone) (rs : List TripRec) :
    (b.restruckOf z rs).length = rs.length ∧ openCount (b.restruckOf z rs) = openCount rs := by
  refine ⟨List.length_map _, ?_⟩
  unfold openCount State.restruckOf
  rw [List.filter_map, List.length_map]
  congr 2
  funext r
  have h := congrArg not (restruck_closed b z r)
  simpa using h

/-- Records that are struck anew keep their places in the list, their numbers and whether they are open. -/
theorem keptRecords_restruckOf (b : State) (z : Zone) (rs : List TripRec) :
    keptRecords (b.restruckOf z rs) = b.restruckOf z (keptRecords rs) ∧
      (b.restruckOf z rs).map (·.seq) = rs.map (·.seq) := by
  have hseq (r : TripRec) : (if r.isArcOf z then b.restruck r else r).seq = r.seq := by split <;> rfl
  unfold State.restruckOf
  refine ⟨?_, ?_⟩
  · unfold keptRecords
    rw [List.length_map]
    split
    · rfl
    · rw [List.eraseP_map]
      exact congrArg _ (congrArg (fun p => List.eraseP p rs) (funext (restruck_closed b z)))
  · rw [List.map_map]
    exact List.map_congr_left fun r _ => hseq r

/-- Decisions of other zones do not meet the records that a zone struck anew. -/
theorem arcsOpened_restruckOf {b : State} {z : Zone} {ds : List Zone} (hz : z ∉ ds) {c c' : Byte} {rs rs' : List TripRec}
    (h : b.ArcsOpened ds c (b.restruckOf z rs) c' rs') :
    ∃ ss, b.ArcsOpened ds c rs c' ss ∧ rs' = b.restruckOf z ss := by
  induction ds generalizing c rs with
  | nil => exact ⟨rs, ⟨h.1, rfl⟩, h.2⟩
  | cons y ds ih =>
    rw [List.mem_cons, not_or] at hz
    obtain ⟨n, hn, hrest⟩ := h
    obtain ⟨hkept, -⟩ := keptRecords_restruckOf b z rs
    obtain ⟨-, hseq⟩ := keptRecords_restruckOf b z (keptRecords rs)
    have harc : (b.arcOf y n).isArcOf z = false :=
      isArcOf_other (y := y) ((isArcOf_iff _ _).2 ⟨rfl, by simp [State.arcOf], rfl⟩) hz.1
    change NextNumber ((keptRecords (b.restruckOf z rs)).map (·.seq)) c n at hn
    change b.ArcsOpened ds n (keptRecords (b.restruckOf z rs) ++ [b.arcOf y n]) c' rs' at hrest
    have happ : keptRecords (b.restruckOf z rs) ++ [b.arcOf y n] = b.restruckOf z (keptRecords rs ++ [b.arcOf y n]) := by
      rw [hkept]
      unfold State.restruckOf
      rw [List.map_append, List.map_singleton, if_neg (by rw [harc]; decide)]
    rw [happ] at hrest
    rw [hkept, hseq] at hn
    obtain ⟨ss, hss, he⟩ := ih hz.2 hrest
    exact ⟨ss, ⟨n, hn, hss⟩, he⟩

/-- The zones of a list whose start ends in an arc decision. -/
def State.decidingOf (s : State) (zs : List Zone) : List Zone := zs.filter fun z => decide (s.DecidesAtOnce z)

theorem mem_decidingOf {s : State} {zs : List Zone} {z : Zone} :
    z ∈ s.decidingOf zs ↔ z ∈ zs ∧ s.DecidesAtOnce z := by
  unfold State.decidingOf
  rw [List.mem_filter, decide_eq_true_iff]

theorem decidingOf_cons_pos {s : State} {y : Zone} {zs : List Zone} (h : s.DecidesAtOnce y) :
    s.decidingOf (y :: zs) = y :: s.decidingOf zs := List.filter_cons_of_pos (decide_eq_true h)

theorem decidingOf_cons_neg {s : State} {y : Zone} {zs : List Zone} (h : ¬ s.DecidesAtOnce y) :
    s.decidingOf (y :: zs) = s.decidingOf zs := List.filter_cons_of_neg fun e => h (of_decide_eq_true e)

/-- The record is one that the starts of the zones strike anew. -/
def State.HitBy (s : State) (zs : List Zone) (r : TripRec) : Prop :=
  ∃ z ∈ zs, s.StrikesAtOnce z ∧ r.isArcOf z = true

theorem hitBy_cons_of_not {s : State} {y : Zone} {zs : List Zone} (h : ¬ s.StrikesAtOnce y) :
    s.HitBy (y :: zs) = s.HitBy zs := by
  funext r
  refine propext ⟨?_, fun ⟨z, hz, hrest⟩ => ⟨z, List.mem_cons_of_mem _ hz, hrest⟩⟩
  rintro ⟨z, hz, hs, ha⟩
  rcases List.mem_cons.1 hz with rfl | hz
  · exact absurd hs h
  · exact ⟨z, hz, hs, ha⟩

/-- A zone that strikes first has its records struck anew once. -/
theorem struckInto_cons {s b : State} {y : Zone} {zs : List Zone} (hy : y ∉ zs) (hs : s.StrikesAtOnce y)
    {r r' : TripRec} (h : b.StruckInto (s.HitBy zs) (if r.isArcOf y then b.restruck r else r) r') :
    b.StruckInto (s.HitBy (y :: zs)) r r' := by
  by_cases ha : r.isArcOf y = true
  · rw [if_pos ha] at h
    have hno : ¬ s.HitBy zs (b.restruck r) := by
      rintro ⟨z, hz, -, haz⟩
      rw [isArcOf_other (restruck_isArcOf b ha) fun e : z = y => hy (e ▸ hz)] at haz
      exact absurd haz (by decide)
    exact ⟨fun _ => h.2 hno, fun hn => absurd ⟨y, List.mem_cons_self, hs, ha⟩ hn⟩
  · rw [if_neg ha] at h
    have hiff : s.HitBy (y :: zs) r ↔ s.HitBy zs r := by
      refine ⟨?_, fun ⟨z, hz, hrest⟩ => ⟨z, List.mem_cons_of_mem _ hz, hrest⟩⟩
      rintro ⟨z, hz, hsz, haz⟩
      rcases List.mem_cons.1 hz with rfl | hz
      · exact absurd haz ha
      · exact ⟨z, hz, hsz, haz⟩
    exact ⟨fun g => h.1 (hiff.1 g), fun g => h.2 fun k => g (hiff.2 k)⟩

/-- The records of one start: none, that of a decision, or those struck anew. -/
theorem startPlaced_records {s : State} (z : Zone) (hsh : ¬ s.ShowsAtOnce z) :
    (¬ s.DecidesAtOnce z ∧ ¬ s.StrikesAtOnce z ∧ (s.startPlaced z).trm.records = s.trm.records ∧
      (s.startPlaced z).trm.seqCounter = s.trm.seqCounter) ∨
    (s.DecidesAtOnce z ∧ ¬ s.StrikesAtOnce z ∧ s.startPlaced z = (s.lightedAt z none).decideArc z) ∨
    (¬ s.DecidesAtOnce z ∧ s.StrikesAtOnce z ∧
      (s.startPlaced z).trm.records = s.restruckOf z s.trm.records ∧
      (s.startPlaced z).trm.seqCounter = s.trm.seqCounter) := by
  cases startPlaced_starts s z with
  | rests hd hs h => exact .inl ⟨hd, hs, congrArg (·.records) h.trm, congrArg (·.seqCounter) h.trm⟩
  | drills _ _ h _ _ _ => exact absurd h hsh
  | decides hd h => exact .inr (.inl ⟨hd, not_strikes_of_decides hd, h⟩)
  | strikes hs h =>
    obtain ⟨h1, h2⟩ := restrike_records (s.refilteredAt z none) z
    refine .inr (.inr ⟨fun hd => not_strikes_of_decides hd hs, hs, ?_, ?_⟩)
    · rw [h.trm, h1]
      unfold State.restruckOf
      simp only [(refilteredAt_sameBoard s z none).restruck]
      rfl
    · rw [h.trm, h2]
      rfl

/-- The records of the starts, in which `b` is the board: those of the decisions follow the ones there were, and those
of zones that strike are struck anew. -/
theorem startAll_records {s b : State} {zs : List Zone} (hd : s.zev.drill.active = false) (hn : zs.Nodup)
    (hb : s.SameBoard b) (hsh : ∀ z ∈ zs, ¬ s.ShowsAtOnce z)
    (hlit : ∀ z ∈ zs, s.DecidesAtOnce z → b.zev.zones[z].trigger = triggerOf (s.zonePage z) s.zev.zones[z].view none ∧
      b.zev.zones[z].degraded = voteDegraded (s.zonePage z) s.zev.zones[z].view)
    (hroom : s.decidingOf zs = [] ∨ s.RoomFor (s.decidingOf zs)) :
    ∃ rs, b.ArcsOpened (s.decidingOf zs) s.trm.seqCounter s.trm.records
        (s.startAll zs).trm.seqCounter rs ∧
      List.Forall₂ (b.StruckInto (s.HitBy zs)) rs (s.startAll zs).trm.records := by
  induction zs generalizing s with
  | nil => exact ⟨_, ⟨rfl, rfl⟩, List.forall₂_same.2 fun r _ => ⟨fun ⟨_, h, _⟩ => absurd h List.not_mem_nil, fun _ => rfl⟩⟩
  | cons y zs ih =>
    obtain ⟨hy, hn⟩ := List.nodup_cons.1 hn
    have hat {z : Zone} (hz : z ∈ zs) : s.SameAt (s.startPlaced y) z := startPlaced_sameAt hd fun e : z = y => hy (e ▸ hz)
    have hboard := startPlaced_sameBoard s y
    have hfilter : (s.startPlaced y).decidingOf zs = s.decidingOf zs :=
      List.filter_congr fun z hz => decide_eq_decide.2 (hat hz).decides
    have hhit (r : TripRec) : (s.startPlaced y).HitBy zs r ↔ s.HitBy zs r :=
      exists_congr fun z => and_congr_right fun hz => and_congr_left fun _ => (hat hz).strikes
    have hrest := ih (s := s.startPlaced y) (startPlaced_inactive y hd) hn
      (State.SameBoard.trans ⟨hboard.time.symm, hboard.cp.symm, hboard.top.symm, hboard.active.symm⟩ hb)
      (fun z hz => by rw [(hat hz).shows]; exact hsh z (List.mem_cons_of_mem _ hz))
      (fun z hz h => by
        rw [(hat hz).page, (hat hz).zone]
        exact hlit z (List.mem_cons_of_mem _ hz) ((hat hz).decides.1 h))
    rw [hfilter] at hrest
    simp only [funext fun r => propext (hhit r)] at hrest
    change ∃ rs, _ ∧ List.Forall₂ _ rs ((s.startPlaced y).startAll zs).trm.records
    change _ → ∃ rs, b.ArcsOpened _ _ _ ((s.startPlaced y).startAll zs).trm.seqCounter rs ∧ _ at hrest
    rcases startPlaced_records y (hsh y List.mem_cons_self) with ⟨h1, h2, hrec, hnum⟩ | ⟨h1, h2, hdec⟩ | ⟨h1, h2, hrec, hnum⟩
    · rw [decidingOf_cons_neg h1] at hroom ⊢
      unfold State.RoomFor at hrest hroom
      rw [hrec, hnum] at hrest
      obtain ⟨rs, ho, hf⟩ := hrest hroom
      exact ⟨rs, ho, by rw [hitBy_cons_of_not h2]; exact hf⟩
    · rw [decidingOf_cons_pos h1] at hroom ⊢
      obtain ⟨hk, hr⟩ := RoomFor_cons (s := s.lightedAt y none) (hroom.resolve_left (by simp))
      obtain ⟨hrec, hnum⟩ := decideArc_records (s.lightedAt y none) y
      rw [← hdec] at hr hrec hnum
      obtain ⟨rs, ho, hf⟩ := hrest (.inr hr)
      obtain ⟨htr, hdg⟩ := hlit y List.mem_cons_self h1
      have harc (n : Byte) : b.arcOf y n = (s.lightedAt y none).arcOf y n :=
        State.SameBoard.arcOf (s := s.lightedAt y none) ⟨hb.time, hb.cp, hb.top, hb.active⟩
          (htr.trans (congrArg (·.trigger) (lightedAt_zone s y)).symm)
          (hdg.trans (congrArg (·.degraded) (lightedAt_zone s y)).symm) n
      refine ⟨rs, ⟨(s.lightedAt y none).decisionNumber,
        nextSeq_nextNumber _ _ (le_trans (le_of_eq (List.length_map _)) hk.le), ?_⟩,
        by rw [hitBy_cons_of_not h2]; exact hf⟩
      rw [hnum, hrec, ← harc] at ho
      exact ho
    · rw [decidingOf_cons_neg h1] at hroom ⊢
      have hroom' : s.decidingOf zs = [] ∨ (s.startPlaced y).RoomFor (s.decidingOf zs) := by
        obtain ⟨e1, e2⟩ := restruckOf_counts s y s.trm.records
        unfold State.RoomFor
        rw [hrec]
        exact hroom.imp id fun h => ⟨e1.trans_le h.1, (Nat.add_le_add_right e2.le _).trans h.2⟩
      obtain ⟨rs', ho, hf⟩ := hrest hroom'
      have hsame : s.restruckOf y s.trm.records = b.restruckOf y s.trm.records := by
        unfold State.restruckOf
        simp only [hb.restruck]
      rw [hrec, hnum, hsame] at ho
      obtain ⟨ss, hss, rfl⟩ := arcsOpened_restruckOf (fun h => hy (mem_decidingOf.1 h).1) ho
      refine ⟨ss, hss, (List.forall₂_map_left_iff.1 hf).imp fun r r' h => ?_⟩
      exact struckInto_cons hy h2 h

end Sys2Proof.Machine
end

section
/-! PROOFS. The placing of the zones at a transfer (R98, R99): the slow filters start, and those that expire at once in a
free order (log 12). -/

namespace Sys2Proof.Machine

/-! ### Starts without an expiry -/

/-- The start of a filter that runs reaches no record. -/
theorem startAll_slow {s : State} {zs : List Zone} (h : ∀ z ∈ zs, s.instant z = false) : s.SameTrips (s.startAll zs) := by
  induction zs generalizing s with
  | nil => exact .refl s
  | cons y zs ih =>
    have hy : s.instant y ≠ true := by
      rw [h y List.mem_cons_self]
      decide
    have hone : s.SameTrips (s.startPlaced y) := by
      cases startPlaced_starts s y with
      | rests _ _ h => exact h
      | drills _ _ h _ _ _ => exact absurd h.1 hy
      | decides h _ => exact absurd h.1 hy
      | strikes h _ => exact absurd h.1 hy
    refine hone.trans (ih (s := s.startPlaced y) fun z hz => ?_)
    have hpage : (s.startPlaced y).instant z = s.instant z := by
      unfold State.instant State.zonePage
      rw [(startPlaced_sameBoard s y).active]
    rw [hpage]
    exact h z (List.mem_cons_of_mem _ hz)

/-- The zones whose filters run. -/
def State.slowZones (s : State) : List Zone := (List.finRange 8).filter fun z => !s.instant z

/-- The zones whose filters expire as they start. -/
def State.fastZones (s : State) : List Zone := (List.finRange 8).filter fun z => s.instant z && s.zev.zones[z].lit

theorem mem_slowZones (s : State) (z : Zone) : z ∈ s.slowZones ↔ s.instant z = false := by
  unfold State.slowZones
  simp

theorem mem_fastZones (s : State) (z : Zone) : z ∈ s.fastZones ↔ s.instant z = true ∧ s.zev.zones[z].lit = true := by
  unfold State.fastZones
  simp

theorem startAllPlaced_eq (s : State) : ∃ (order : List Zone) (n : Nat),
    s.startAllPlaced = State.startAll { s.startAll s.slowZones with freeTick := n } order ∧
      order.Perm s.fastZones := by
  unfold State.startAllPlaced
  simp only
  split
  · rename_i h
    rw [List.isEmpty_iff] at h
    exact ⟨[], (s.startAll s.slowZones).freeTick, rfl, by unfold State.fastZones; rw [h]⟩
  · exact ⟨_, _, rfl, orderZones_perm _ _⟩

theorem started_unlit {r : ZoneRec} (h : r.lit = false) (page : ZonePage) (c : Bool) (now : Time) :
    r.started page c now = r := if_pos h

/-- The record of a zone that decided as it started. -/
theorem started_decides {s : State} {z : Zone} (h : s.DecidesAtOnce z) :
    s.zev.zones[z].started (s.zonePage z) (s.confirmsLit z) s.alr.time =
      (s.zev.zones[z].lighted (s.zonePage z) none s.alr.time).struck s.alr.time := by
  obtain ⟨hi, hl, hq, hc⟩ := h
  unfold ZoneRec.started
  rw [if_neg (by rw [hl]; decide), if_pos hq]
  simp only [(instant_iff s z).1 hi, hc, ne_eq, not_true_eq_false, if_false, if_true]

theorem State.SameAt.free {s t : State} {z : Zone} (h : s.SameAt t z) (n : Nat) :
    s.SameAt { t with freeTick := n } z := by
  obtain ⟨⟨h1, h2, h3, h4⟩, h5, h6⟩ := h
  exact ⟨⟨h1, h2, h3, h4⟩, h5, h6⟩

/-- What the starts of the placed zones make of the unit. -/
structure State.Started (s t : State) : Prop where
  step : ZStep s t
  zones : ∀ z : Zone, t.zev.zones[z] = s.zev.zones[z].started (s.zonePage z) (s.confirmsLit z) s.alr.time
  inactive : t.zev.drill.active = false
  drill : (∀ z, ¬ s.ShowsAtOnce z) → t.zev.drill = s.zev.drill
  asks : s.Asks t (∃ y, ∀ z, s.ActsAtOnce z → z = y)
  job : t.cfg.job = s.cfg.job
  bare : ∀ p : Port, s.lnk[p].Windowless → t.lnk[p].Windowless
  arcOpened : ∀ z, s.StrikesAtOnce z → s.trm.records.any (·.isArcOf z) = true →
    ∀ p, s.used p = true → t.alerted p .arcOpened = true
  records : (∀ z, ¬ s.ShowsAtOnce z) → ∃ ds : List Zone, ds.Nodup ∧ (∀ z, z ∈ ds ↔ s.DecidesAtOnce z) ∧
    (ds = [] ∨ s.RoomFor ds → ∃ rs, t.ArcsOpened ds s.trm.seqCounter s.trm.records t.trm.seqCounter rs ∧
      List.Forall₂ (t.StruckInto fun r => ∃ z, s.StrikesAtOnce z ∧ r.isArcOf z = true) rs t.trm.records)

/-- The slow filters start first, which reaches no record; then the zones of `order` start, whose filters expire. -/
theorem startAllPlaced_split {s : State} (hd : s.zev.drill.active = false) : ∃ (m : State) (order : List Zone),
    s.startAllPlaced = m.startAll order ∧ order.Nodup ∧
      (∀ z, z ∈ order ↔ s.instant z = true ∧ s.zev.zones[z].lit = true) ∧ s.SameTrips m ∧
      m.zev.drill = s.zev.drill ∧
      (∀ z : Zone, s.instant z = false →
        m.zev.zones[z] = s.zev.zones[z].started (s.zonePage z) (s.confirmsLit z) s.alr.time) ∧
      ∀ z : Zone, s.instant z = true → s.SameAt m z := by
  obtain ⟨order, n, heq, hperm⟩ := startAllPlaced_eq s
  have hslow : s.slowZones.Nodup := (List.nodup_finRange 8).filter _
  have hnot {z : Zone} (hz : s.instant z = true) : z ∉ s.slowZones := fun h => by
    rw [mem_slowZones, hz] at h
    cases h
  obtain ⟨h1, h2, h3, h4, h5⟩ := startAll_slow fun z hz => (mem_slowZones s z).1 hz
  refine ⟨_, order, heq, hperm.nodup_iff.2 ((List.nodup_finRange 8).filter _), fun z => ?_, ⟨h1, h2, h3, h4, h5⟩,
    startAll_drill hd hslow fun z hz h => hnot h.1 hz, fun z hz => ?_, fun z hz => (startAll_sameAt hd (hnot hz)).free n⟩
  · rw [hperm.mem_iff, mem_fastZones]
  · exact (startAll_zones hd hslow z).trans (if_pos ((mem_slowZones s z).2 hz))

theorem startAllPlaced_started {s : State} (hd : s.zev.drill.active = false) : s.Started s.startAllPlaced := by
  have hstep := startAllPlaced_zstep s
  obtain ⟨m, order, heq, hn, hmem, htrips, hdrill, hslow, hsame⟩ := startAllPlaced_split hd
  have hd' : m.zev.drill.active = false := (congrArg (·.active) hdrill).trans hd
  have hsame' {z : Zone} (hz : z ∈ order) : s.SameAt m z := hsame z ((hmem z).1 hz).1
  have hact (z : Zone) (hz : s.ActsAtOnce z) : z ∈ order := by
    rcases hz with h | ⟨h, -⟩ <;> exact (hmem z).2 ⟨h.1, h.2.1⟩
  have hzones (z : Zone) : s.startAllPlaced.zev.zones[z] =
      s.zev.zones[z].started (s.zonePage z) (s.confirmsLit z) s.alr.time := by
    rw [heq, startAll_zones hd' hn]
    by_cases hz : z ∈ order
    · rw [if_pos hz, (hsame' hz).zone, (hsame' hz).page, (hsame' hz).confirmsLit, (hsame' hz).board.time]
    · rw [if_neg hz]
      cases hi : s.instant z
      · exact hslow z hi
      · rw [(hsame z hi).zone, started_unlit]
        exact Bool.eq_false_of_not_eq_true fun hl => hz ((hmem z).2 ⟨hi, hl⟩)
  have hboard : m.SameBoard s.startAllPlaced := heq ▸ (startAll_zstep m order).sameBoard
  have hlines : m.closeInhibit = s.closeInhibit := congrArg (fun x : Trm => linesOf x.records) htrips.trm
  rw [heq] at hstep hzones hboard ⊢
  refine ⟨hstep, hzones, startAll_inactive order hd', fun hsh => ?_, ?_, (startAll_job m order).trans htrips.job,
    fun p hp => startAll_bare m order (windowless_of_lnk htrips.lnk hp), fun z hz ha p hp => ?_, fun hsh => ?_⟩
  · exact (startAll_drill hd' hn fun z hz h => hsh z ((hsame' hz).shows.1 h)).trans hdrill
  · refine ((startAll_asks hd' hn).congr hlines.symm (congrArg (·.lock) htrips.trm).symm htrips.engine.symm rfl rfl
      rfl).mono ?_
    exact fun ⟨y, hy⟩ => ⟨y, fun z hz h => hy z ((hsame' hz).acts.1 h)⟩
  · have hin := hact z (.inr ⟨hz, ha⟩)
    refine startAll_arcOpened hd' hn hin ((hsame' hin).strikes.2 hz) ((hsame' hin).anyArc.trans ha) ?_
    rw [(hsame' hin).board.used]
    exact hp
  · refine ⟨m.decidingOf order, hn.filter _, fun z => ?_, fun hroom => ?_⟩
    · rw [mem_decidingOf]
      exact ⟨fun h => (hsame' h.1).decides.1 h.2, fun h => ⟨hact z (.inl h), (hsame' (hact z (.inl h))).decides.2 h⟩⟩
    · have hhit : m.HitBy order = fun r => ∃ z, s.StrikesAtOnce z ∧ r.isArcOf z = true := by
        funext r
        refine propext (exists_congr fun z => ?_)
        have hin (h : s.StrikesAtOnce z) : z ∈ order := (hmem z).2 ⟨h.1, h.2.1⟩
        exact ⟨fun ⟨hz, h, ha⟩ => ⟨(hsame' hz).strikes.1 h, ha⟩, fun ⟨h, ha⟩ => ⟨hin h, (hsame' (hin h)).strikes.2 h, ha⟩⟩
      have hrec := startAll_records (b := m.startAll order) hd' hn hboard
        (fun z hz h => hsh z ((hsame' hz).shows.1 h)) (fun z hz h => ?_) ?_
      · rw [htrips.trm, hhit] at hrec
        exact hrec
      · have h' := (hsame' hz).decides.1 h
        rw [hzones, started_decides h', (hsame' hz).page, (hsame' hz).zone]
        exact ⟨rfl, rfl⟩
      · unfold State.RoomFor at hroom ⊢
        rw [htrips.trm]
        exact hroom

end Sys2Proof.Machine
end

section
/-! PROOFS. The record of a zone through a transfer: placed anew, then started (R98, R99, R80, R83, R92, R93). -/

namespace Sys2Proof.Machine

/-! ### The place of a zone (R98, R100) -/

theorem placedState_eq (page : ZonePage) (v : Vector MemberStatus 6) : placedState page v =
    if page.enabled = false then .disabled else if votingCount v = 0 then .blocked else .quiet := by
  unfold placedState
  cases page.enabled <;> rfl

theorem votingLit_le (v : Vector MemberStatus 6) : votingLit v ≤ votingCount v := by
  unfold votingLit votingCount
  refine List.Sublist.length_le (List.monotone_filter_right _ fun m h => ?_)
  exact (Bool.and_eq_true_iff.1 h).1

/-- A zone whose vote is satisfied is enabled and has a voting member, and is placed in QUIET (R77, R98). -/
theorem placedState_of_satisfied {page : ZonePage} {v : Vector MemberStatus 6} (h : voteSatisfied page v = true) :
    placedState page v = .quiet := by
  unfold voteSatisfied at h
  obtain ⟨he, hv⟩ := Bool.and_eq_true_iff.1 h
  have hlit : 1 ≤ votingLit v := by
    cases hvote : page.vote with
    | any =>
      rw [hvote] at hv
      exact of_decide_eq_true hv
    | two =>
      rw [hvote] at hv
      simp only at hv
      split at hv
      · exact of_decide_eq_true hv
      · exact le_trans (by decide) (of_decide_eq_true hv)
  have hcount : votingCount v ≠ 0 := fun e => by
    have := votingLit_le v
    omega
  rw [placedState_eq, if_neg (by rw [he]; decide), if_neg hcount]

section
variable {r : ZoneRec} (page : ZonePage) (v : Vector MemberStatus 6) (now : Time)

/-- A zone that is not TRIPPED takes its place (R98). -/
theorem placed_resting (h : r.state ≠ .tripped) : r.placed page v now = { r with
    view := v, lit := voteSatisfied page v, degraded := voteDegraded page v, state := placedState page v
    filter := .stopped, confirm := .stopped
    entryTime := if placedState page v = r.state then r.entryTime else now } := by
  unfold ZoneRec.placed
  split
  · rename_i h'
    exact absurd h' h
  · rfl

/-- A TRIPPED zone stays, with its vote taken up (R99). -/
theorem placed_tripped (h : r.state = .tripped) : r.placed page v now = { r with
    view := v, lit := voteSatisfied page v, degraded := voteDegraded page v
    phase := phaseAfterTransfer r.phase (voteSatisfied page v), filter := .stopped } := by
  unfold ZoneRec.placed
  simp only [h]

theorem placed_lit : (r.placed page v now).lit = voteSatisfied page v := by
  by_cases h : r.state = .tripped
  · rw [placed_tripped _ _ _ h]
  · rw [placed_resting _ _ _ h]

theorem placed_view : (r.placed page v now).view = v := by
  by_cases h : r.state = .tripped
  · rw [placed_tripped _ _ _ h]
  · rw [placed_resting _ _ _ h]

/-- A zone with a satisfied vote is placed in QUIET unless it is TRIPPED. -/
theorem placed_quiet_iff (hsat : voteSatisfied page v = true) : (r.placed page v now).state = .quiet ↔ r.state ≠ .tripped := by
  by_cases h : r.state = .tripped
  · rw [placed_tripped _ _ _ h]
    simp [h]
  · rw [placed_resting _ _ _ h]
    simp [h, placedState_of_satisfied hsat]

/-- A TRIPPED zone with a satisfied vote is to start a re-strike filter where it was READY or FILTERING (R99). -/
theorem placed_ready_iff (hsat : voteSatisfied page v = true) :
    ((r.placed page v now).state = .tripped ∧ (r.placed page v now).phase = some .ready) ↔
      r.state = .tripped ∧ (r.phase = some .ready ∨ r.phase = some .filtering) := by
  by_cases h : r.state = .tripped
  · rw [placed_tripped _ _ _ h, hsat]
    rcases hp : r.phase with _ | _ | _ | _ <;> simp [h, phaseAfterTransfer]
  · rw [placed_resting _ _ _ h, placedState_of_satisfied hsat]
    simp [h]

variable (c : Bool)

theorem started_resting (hsat : voteSatisfied page v = false) :
    (r.placed page v now).started page c now = r.placed page v now :=
  started_unlit ((placed_lit page v now).trans hsat) page c now

/-- A zone that is placed in QUIET with a satisfied vote is lit (R98, R80). -/
theorem started_lit (h : r.state ≠ .tripped) (hsat : voteSatisfied page v = true) (hz : page.tzf.val ≠ 0) :
    (r.placed page v now).started page c now = (r.placed page v now).lighted page none now := by
  unfold ZoneRec.started
  rw [if_neg (by rw [placed_lit, hsat]; decide), if_pos ((placed_quiet_iff page v now hsat).2 h)]
  exact if_pos hz

theorem started_expired (h : r.state ≠ .tripped) (hsat : voteSatisfied page v = true) (hz : page.tzf.val = 0) :
    (r.placed page v now).started page c now =
      if c then ((r.placed page v now).lighted page none now).struck now
      else { (r.placed page v now).lighted page none now with
        filter := .stopped, confirm := .running page.tcw.val, state := .waiting } := by
  unfold ZoneRec.started
  rw [if_neg (by rw [placed_lit, hsat]; decide), if_pos ((placed_quiet_iff page v now hsat).2 h)]
  simp only
  rw [if_neg (by rw [hz]; decide)]

theorem started_restrikes (h : r.state = .tripped) (hsat : voteSatisfied page v = true)
    (hp : r.phase = some .ready ∨ r.phase = some .filtering) :
    (r.placed page v now).started page c now = { r.placed page v now with
      trigger := triggerOf page v none
      filter := if page.tzf.val = 0 then .stopped else .running .restrike page.tzf.val
      phase := if page.tzf.val = 0 then some .holding else some .filtering } := by
  have hready := (placed_ready_iff page v now hsat).2 ⟨h, hp⟩
  unfold ZoneRec.started
  rw [if_neg (by rw [placed_lit, hsat]; decide), if_neg (by rw [hready.1]; decide), if_pos hready]
  simp only [placed_view]

theorem started_stays (h : r.state = .tripped) (hp : ¬ (r.phase = some .ready ∨ r.phase = some .filtering)) :
    (r.placed page v now).started page c now = r.placed page v now := by
  cases hsat : voteSatisfied page v
  · exact started_unlit ((placed_lit page v now).trans hsat) page c now
  · unfold ZoneRec.started
    rw [if_neg (by rw [placed_lit, hsat]; decide), if_neg fun e => (placed_quiet_iff page v now hsat).1 e h,
      if_neg fun e => hp ((placed_ready_iff page v now hsat).1 e).2]

end

/-! ### Every zone placed (R98, R99) -/

theorem placeAll_zev (s : State) : s.placeAll.zev = { s.zev with
    zones := Vector.ofFn fun z => s.zev.zones[z].placed (s.zonePage z) (s.viewOf z) s.alr.time } := by
  unfold State.placeAll
  simp only
  split <;> rfl

theorem placeAll_zone (s : State) (z : Zone) :
    s.placeAll.zev.zones[z] = s.zev.zones[z].placed (s.zonePage z) (s.viewOf z) s.alr.time := by
  rw [placeAll_zev]
  exact ofFn_get _ z

theorem placeAll_kept (s : State) : s.placeAll.trm = s.trm ∧ s.placeAll.lnk = s.lnk ∧
    s.placeAll.cfg.engine = s.cfg.engine ∧ s.placeAll.cfg.job = s.cfg.job := by
  unfold State.placeAll
  simp only
  split <;> exact ⟨rfl, rfl, rfl, rfl⟩

/-- ZONE_BLOCKED is raised where a zone enters BLOCKED by its place (R98). -/
theorem placeAll_blocked {s : State} {z : Zone} (h : s.zev.zones[z].state ≠ .tripped ∧ s.zev.zones[z].state ≠ .blocked)
    (hb : placedState (s.zonePage z) (s.viewOf z) = .blocked) {p : Port} (hp : s.used p = true) :
    s.placeAll.alerted p .zoneBlocked = true := by
  have hany : (List.finRange 8).any s.blockedByPlacement = true := by
    rw [List.any_eq_true]
    refine ⟨z, List.mem_finRange z, ?_⟩
    unfold State.blockedByPlacement
    simp only [hb, Bool.and_eq_true, decide_eq_true_eq]
    exact ⟨h, trivial⟩
  unfold State.placeAll
  simp only [hany, if_true]
  exact raise_alerts (s := { s with zev.zones := _ }) .zoneBlocked hp

end Sys2Proof.Machine
end

section
/-! PROOFS. A transfer up to the placing of the zones: channels, ports, reports, couplers, evidence and the end of a
drill (R71, R164, R179, R196, R197). -/

namespace Sys2Proof.Machine

/-! ### What TOP hands on -/

/-- TOP hands on evidence, and then zones in WAITING may decide (R62, R84). -/
theorem topHandOff_eq (s t : State) : ∃ (zs : List Zone) (n : Nat),
    t.topHandOff s.top.couplers = State.decideAll { t.evidenceAll (openedTargets s t) with freeTick := n } zs ∧
      ∀ z ∈ zs, t.zev.zones[z].state = .waiting := by
  have hzev := (evidenceAll_kept (openedTargets s t) t).2.1
  unfold State.topHandOff
  rw [couplerEvidence_eq]
  simp only
  split
  · exact ⟨[], (t.evidenceAll (openedTargets s t)).freeTick, rfl, fun z hz => absurd hz List.not_mem_nil⟩
  · obtain ⟨zs, n, h, hp⟩ := askConfirmation_eq (t.evidenceAll (openedTargets s t))
    refine ⟨zs, n, h, fun z hz => ?_⟩
    have := ((mem_deciders _ z).1 (hp.mem_iff.1 hz)).1
    rw [hzev] at this
    exact this

theorem decideAll_job (s : State) (zs : List Zone) : (s.decideAll zs).cfg.job = s.cfg.job := by
  induction zs generalizing s with
  | nil => rfl
  | cons z zs ih => exact (ih (s.decideArc z)).trans (decideArc_job s z)

theorem evidenceAll_job (s : State) (tgs : List Target) : (s.evidenceAll tgs).cfg.job = s.cfg.job :=
  by rw [evidenceAll_cfg]

theorem topHandOff_job (s t : State) : (t.topHandOff s.top.couplers).cfg.job = t.cfg.job := by
  obtain ⟨zs, n, h, -⟩ := topHandOff_eq s t
  rw [h, decideAll_job]
  exact evidenceAll_job t _

theorem topHandOff_windowless (s t : State) {p : Port} (h : t.lnk[p].Windowless) :
    (t.topHandOff s.top.couplers).lnk[p].Windowless := by
  obtain ⟨zs, n, he, -⟩ := topHandOff_eq s t
  rw [he]
  exact decideAll_windowless zs (windowless_of_lnk (t := { t.evidenceAll _ with freeTick := n })
    (evidenceAll_lnk t _) h)

/-! ### Channels and ports take up the image -/

theorem abortTest_shape (s : State) : ∃ lcu fsu quiet due, s.abortTest =
    { s with lcu := lcu, fsu := fsu, cfg.testQuiet := quiet, cfg.transferDue := due } := by
  unfold State.abortTest
  split
  · exact ⟨s.lcu, s.fsu, s.cfg.testQuiet, s.cfg.transferDue, rfl⟩
  · exact ⟨_, _, _, _, rfl⟩

/-- The channels take up the image: nothing else changes but the supervision, and the CFG's view of the test. -/
theorem channelsTaken_shape (s : State) : ∃ lcu fsu quiet due, s.channelsTaken =
    { s with lcu := lcu, fsu := fsu, cfg.active := s.cfg.staged, cfg.testQuiet := quiet, cfg.transferDue := due } := by
  have habort : ∃ lcu fsu quiet due, s.activated.pageAborted s.cfg.active =
      { s with lcu := lcu, fsu := fsu, cfg.active := s.cfg.staged, cfg.testQuiet := quiet, cfg.transferDue := due } := by
    unfold State.pageAborted
    split
    · split
      · exact abortTest_shape s.activated
      · exact ⟨s.lcu, s.fsu, s.cfg.testQuiet, s.cfg.transferDue, rfl⟩
    · exact ⟨s.lcu, s.fsu, s.cfg.testQuiet, s.cfg.transferDue, rfl⟩
  obtain ⟨lcu, fsu, quiet, due, h⟩ := habort
  unfold State.channelsTaken
  rw [takeUpChannels_eq, h]
  exact ⟨_, _, _, _, rfl⟩

/-- The ports and the reports have taken up the image, and the couplers are resolved again (R71, R197). -/
def State.boardResolved (s : State) : State := (s.channelsTaken.boardSet s.cfg.active).topResolve fun _ => true

theorem takeUpStaged_eq (s : State) : s.takeUpStaged = s.boardResolved.topHandOff s.top.couplers := by
  obtain ⟨lcu, fsu, quiet, due, h⟩ := channelsTaken_shape s
  have htop : s.channelsTaken.top = s.top := by rw [h]
  rw [← htop]
  rfl

/-- The board after ports, reports and couplers have taken up the image. -/
structure State.Rewired (s x : State) : Prop where
  shape : ∃ lcu fsu quiet due lnk top alr, x = { s with
    lcu := lcu, fsu := fsu, cfg.active := s.cfg.staged, cfg.testQuiet := quiet, cfg.transferDue := due
    lnk := lnk, top := top, alr := alr }
  time : x.alr.time = s.alr.time
  lcu : x.lcu = s.channelsTaken.lcu
  ports : ∀ p : Port, x.lnk[p] =
    s.lnk[p].takeUp (becomesAbsent s.cfg.active s.cfg.staged p) (becomesPresent s.cfg.active s.cfg.staged p)
  reports : ∀ p : Port, x.top.reports[p] = s.top.reports[p].takeUp s.cfg.staged p
    (becomesAbsent s.cfg.active s.cfg.staged p || becomesPresent s.cfg.active s.cfg.staged p)
  couplers : ∀ j : Coupler, x.top.couplers[j] =
    if x.resolvedNow j ≠ s.top.couplers[j].resolved then ⟨x.resolvedNow j, s.alr.time⟩ else s.top.couplers[j]
  topology : (∃ j : Coupler, x.top.couplers[j].resolved = .disputed ∧ s.top.couplers[j].resolved ≠ .disputed) ∨
    x.top.islandName ≠ s.top.islandName → ∀ p, x.used p = true → x.alerted p .topology = true

/-- The ports and the reports as they take up the image (R71, R197). -/
theorem boardSet_spec (s : State) : (∃ lcu fsu quiet due lnk reports, s.channelsTaken.boardSet s.cfg.active = { s with
      lcu := lcu, fsu := fsu, cfg.active := s.cfg.staged, cfg.testQuiet := quiet, cfg.transferDue := due
      lnk := lnk, top.reports := reports }) ∧
    (s.channelsTaken.boardSet s.cfg.active).lcu = s.channelsTaken.lcu ∧
    (∀ p : Port, (s.channelsTaken.boardSet s.cfg.active).lnk[p] =
      s.lnk[p].takeUp (becomesAbsent s.cfg.active s.cfg.staged p) (becomesPresent s.cfg.active s.cfg.staged p)) ∧
    ∀ p : Port, (s.channelsTaken.boardSet s.cfg.active).top.reports[p] = s.top.reports[p].takeUp s.cfg.staged p
      (becomesAbsent s.cfg.active s.cfg.staged p || becomesPresent s.cfg.active s.cfg.staged p) := by
  obtain ⟨lcu, fsu, quiet, due, h⟩ := channelsTaken_shape s
  rw [h]
  exact ⟨⟨_, _, _, _, _, _, rfl⟩, rfl, fun p => ofFn_get _ p, fun p => ofFn_get _ p⟩

theorem boardResolved_rewired (s : State) : s.Rewired s.boardResolved := by
  obtain ⟨⟨lcu, fsu, quiet, due, lnk, reports, hb⟩, hlcu, hports, hreports⟩ := boardSet_spec s
  unfold State.boardResolved
  generalize s.channelsTaken.boardSet s.cfg.active = b at *
  obtain ⟨hstep, hrep, -⟩ := topResolve_spec b fun _ => true
  have hx := topResolve_eq b fun _ => true
  have hcoup := topResolve_coupler b fun _ => true
  have htop := topResolve_alerts b fun _ => true
  generalize b.topResolve (fun _ => true) = x at *
  have hnow (j : Coupler) : x.resolvedNow j = b.resolvedNow j := by
    have hcfg : x.cfg = b.cfg := by rw [hx]
    unfold State.resolvedNow
    rw [hcfg, hrep]
  have hbtop : b.top.couplers = s.top.couplers ∧ b.top.islandName = s.top.islandName ∧ b.alr = s.alr := by
    rw [hb]
    exact ⟨rfl, rfl, rfl⟩
  obtain ⟨hbc, hbi, hba⟩ := hbtop
  have hxl : x.lnk = b.lnk := by rw [hx]
  have hxu : x.used = b.used := by
    have hcfg : x.cfg = b.cfg := by rw [hx]
    unfold State.used
    rw [hcfg]
  refine ⟨⟨lcu, fsu, quiet, due, lnk, x.top, x.alr, by rw [hx, hb]⟩, ?_, hstep.lcu.trans hlcu, fun p => ?_, fun p => ?_,
    fun j => ?_, fun h p hp => ?_⟩
  · exact hstep.time.trans (congrArg (·.time) hba)
  · simp only [hxl]
    exact hports p
  · rw [hrep]
    exact hreports p
  · have hj := hcoup j
    rw [← hnow, hbc, hba] at hj
    simp only [true_and] at hj
    exact hj
  · exact htop (by rw [hbc, hbi]; exact h) (by rw [← hxu]; exact hp)

/-! ### The ports that leave LIVE, and the end of a drill (R164, R196) -/

theorem noteLeavers_shape (s : State) (ps : List Port) : ∃ alr, s.noteLeavers ps = { s with alr := alr } := by
  induction ps generalizing s with
  | nil => exact ⟨s.alr, rfl⟩
  | cons p ps ih => exact ih (s.raiseOthers .peerStale p)

theorem raiseOthers_alerted {s : State} {a : Alert} {p q : Port} (hne : q ≠ p) (hq : s.used q = true) :
    (s.raiseOthers a p).alerted q a = true := by
  unfold State.raiseOthers
  rw [raiseOn_alerted, hq, decide_eq_true hne, decide_eq_true rfl]
  simp

/-- PEER_STALE is raised on the others for a port that leaves LIVE (R196). -/
theorem noteLeavers_alerted {s : State} {ps : List Port} {p q : Port} (hp : p ∈ ps) (hne : q ≠ p) (hq : s.used q = true) :
    (s.noteLeavers ps).alerted q .peerStale = true := by
  induction ps generalizing s with
  | nil => exact absurd hp List.not_mem_nil
  | cons y ps ih =>
    rcases List.mem_cons.1 hp with rfl | hp
    · exact (noteLeavers_zstep (s.raiseOthers .peerStale p) ps).masks.alerted (raiseOthers_alerted hne hq)
    · exact ih (s := s.raiseOthers .peerStale y) hp hq

/-- The board as the zones find it: any drill has ended. -/
def State.drillOver (s : State) : State :=
  (s.takeUpStaged.noteLeavers (s.leavers s.cfg.active s.cfg.staged)).endDrill .transfer

theorem drillOver_kept (s : State) : s.drillOver.trm = s.takeUpStaged.trm ∧ s.drillOver.cfg = s.takeUpStaged.cfg ∧
    s.drillOver.lnk = s.takeUpStaged.lnk ∧
    s.drillOver.zev =
      if s.takeUpStaged.zev.drill.active then s.takeUpStaged.zev.drillEnded .transfer else s.takeUpStaged.zev := by
  obtain ⟨alr, h⟩ := noteLeavers_shape s.takeUpStaged (s.leavers s.cfg.active s.cfg.staged)
  unfold State.drillOver
  rw [h]
  obtain ⟨h1, h2⟩ := endDrill_kept { s.takeUpStaged with alr := alr } .transfer
  exact ⟨h1, h2, endDrill_lnk _ _, endDrill_zev _ _⟩

theorem drillOver_zstep (s : State) : ZStep s.boardResolved s.drillOver := by
  unfold State.drillOver
  rw [takeUpStaged_eq]
  exact ((topHandOff_zstep _ _).trans (noteLeavers_zstep _ _)).trans (endDrill_zstep _ _)

theorem drillOver_inactive (s : State) : s.drillOver.zev.drill.active = false := endDrill_inactive _ _

theorem placed_started (s : State) : s.drillOver.placeAll.Started s.transferred := by
  refine startAllPlaced_started ?_
  rw [placeAll_zev]
  exact drillOver_inactive s

theorem transferred_zstep (s : State) : ZStep s.boardResolved s.transferred :=
  ((drillOver_zstep s).trans (placeAll_zstep _)).trans (placed_started s).step

theorem transferred_job (s : State) : s.transferred.cfg.job = s.cfg.job := by
  obtain ⟨-, -, -, hplace⟩ := placeAll_kept s.drillOver
  obtain ⟨-, hcfg, -⟩ := drillOver_kept s
  obtain ⟨⟨lcu, fsu, quiet, due, lnk, top, alr, hx⟩, -⟩ := boardResolved_rewired s
  have hjob : s.boardResolved.cfg.job = s.cfg.job := by rw [hx]
  rw [(placed_started s).job, hplace, hcfg, takeUpStaged_eq, topHandOff_job, hjob]

theorem transferred_bare {s : State} {p : Port} (h : s.boardResolved.lnk[p].Windowless) :
    s.transferred.lnk[p].Windowless := by
  obtain ⟨-, hplace, -⟩ := placeAll_kept s.drillOver
  obtain ⟨-, -, hlnk, -⟩ := drillOver_kept s
  refine (placed_started s).bare p (windowless_of_lnk (hplace.trans hlnk) ?_)
  rw [takeUpStaged_eq]
  exact topHandOff_windowless s _ h

/-! ### The last step of a transfer (R173, R179) -/

/-- A claim of a port that is not used lapses; where a commit is pending nothing else of the CFG changes. -/
theorem lapseUnused_shape {s : State} (h : s.cfg.pendingCommit = true) : ∃ fsu, s.lapseUnused = { s with
    fsu := fsu
    cfg.claim := s.cfg.claim.filter s.used } := by
  have hstays (e : s.cfg.claim.filter s.used = s.cfg.claim) :
      s = { s with fsu := s.fsu, cfg.claim := s.cfg.claim.filter s.used } := by rw [e]
  unfold State.lapseUnused
  split
  · rename_i p hc
    split
    · rename_i hu
      exact ⟨s.fsu, hstays (by rw [hc, Option.filter_some, if_pos hu])⟩
    · rename_i hu
      have hnone : s.cfg.claim.filter s.used = none := by rw [hc, Option.filter_some, if_neg hu]
      unfold State.releaseClaim
      rw [hnone, capturesLoseClaim_eq]
      simp only [h, if_true]
      exact ⟨_, rfl⟩
  · rename_i hc
    exact ⟨s.fsu, hstays (by rw [hc, Option.filter_none])⟩

/-- What the last step of a transfer makes of the unit as it stands after the placing of the zones (R179). -/
structure State.Closed (u t : State) : Prop where
  trm : t.trm = u.trm
  zev : t.zev = u.zev
  lnk : t.lnk = u.lnk
  top : t.top = u.top
  nv : t.nv = u.nv
  lcu : t.lcu = u.lcu
  board : u.SameBoard t
  masks : AlertFrame u t
  engine : t.cfg.engine = u.cfg.engine
  staged : t.cfg.staged = u.cfg.staged
  claim : t.cfg.claim = u.cfg.claim.filter u.used
  pendingCommit : t.cfg.pendingCommit = false
  transferDue : t.cfg.transferDue = false
  transferCount : t.cfg.transferCount = u.cfg.transferCount + 1
  unsaved : t.cfg.unsaved = true
  job : t.cfg.job = u.cfg.job.map fun j => { j with noTransfer := false }
  configApplied : ∀ p, t.used p = true → t.alerted p .configApplied = true

theorem makeTransfer_closed {s : State} (h : s.transferred.cfg.pendingCommit = true) :
    s.transferred.Closed s.makeTransfer := by
  obtain ⟨fsu, hl⟩ := lapseUnused_shape h
  unfold State.makeTransfer
  rw [hl]
  generalize s.transferred = u
  refine ⟨rfl, rfl, rfl, rfl, rfl, rfl, ⟨rfl, rfl, rfl, rfl⟩, ?_, rfl, rfl, rfl, rfl, rfl, rfl, rfl, rfl, fun p hp => ?_⟩
  · exact (raise_zstep _ .configApplied).masks
  · exact raise_alerts .configApplied hp

end Sys2Proof.Machine
end

section
/-! PROOFS. A transfer that is due, at the board: configuration, ports, reports, couplers and alerts (R71, R173, R179,
R196, R197). -/

namespace Sys2Proof.Machine

/-! ### Ports but for their windows -/

theorem port_of_windowless {a b : PortRec} (h : a.dropSelection = b.dropSelection) (ha : a.Windowless)
    (hb : b.Windowless) : a = b := by
  obtain ⟨h1, h2⟩ := ha
  obtain ⟨g1, g2⟩ := hb
  rw [port_of_dropSelection h, h1, h2, ← g1, ← g2]

/-- The board at the end of a transfer is that with the couplers resolved. -/
theorem transferred_board (s : State) : s.boardResolved.SameBoard s.transferred := (transferred_zstep s).sameBoard

theorem boardResolved_active (s : State) : s.boardResolved.cfg.active = s.cfg.staged := by
  obtain ⟨lcu, fsu, quiet, due, lnk, top, alr, hx⟩ := (boardResolved_rewired s).shape
  rw [hx]

/-- What a transfer keeps of the Configuration Store (R179). -/
theorem transferred_cfg (s : State) : s.transferred.cfg.claim = s.cfg.claim ∧
    s.transferred.cfg.transferCount = s.cfg.transferCount := by
  obtain ⟨lcu, fsu, quiet, due, lnk, top, alr, hx⟩ := (boardResolved_rewired s).shape
  have h := (transferred_zstep s).cfg
  generalize s.transferred = u at h ⊢
  rw [hx] at h
  have hclaim := congrArg Cfg.claim h
  have hcount := congrArg Cfg.transferCount h
  exact ⟨hclaim, hcount⟩

section
variable {s : State} (hp : s.cfg.pendingCommit = true)
include hp

theorem makeTransfer_over : s.transferred.Closed s.makeTransfer := by
  obtain ⟨-, -, -, hpending, -⟩ := transferred_spec s
  exact makeTransfer_closed (hpending.trans hp)

theorem makeTransfer_board : s.boardResolved.SameBoard s.makeTransfer :=
  (transferred_board s).trans (makeTransfer_over hp).board

theorem makeTransfer_active : s.makeTransfer.cfg.active = s.cfg.staged :=
  (makeTransfer_board hp).active.trans (boardResolved_active s)

theorem makeTransfer_used (p : Port) : s.makeTransfer.used p = s.cfg.staged.board.incomer[p] :=
  congrArg (fun i : Image => i.board.incomer[p]) (makeTransfer_active hp)

theorem makeTransfer_staged : s.makeTransfer.cfg.staged = s.cfg.staged := by
  obtain ⟨-, -, hstaged, -⟩ := transferred_spec s
  exact (makeTransfer_over hp).staged.trans hstaged

theorem makeTransfer_time : s.makeTransfer.alr.time = s.alr.time :=
  (makeTransfer_board hp).time.trans (boardResolved_rewired s).time

theorem makeTransfer_nv : s.makeTransfer.nv = s.nv := by
  obtain ⟨lcu, fsu, quiet, due, lnk, top, alr, hx⟩ := (boardResolved_rewired s).shape
  rw [(makeTransfer_over hp).nv, (transferred_zstep s).nv, hx]

/-- An alert of the couplers' resolution, or raised later, stands at the end. -/
theorem makeTransfer_alerted {p : Port} {a : Alert} (h : s.boardResolved.alerted p a = true) :
    s.makeTransfer.alerted p a = true :=
  (makeTransfer_over hp).masks.alerted ((transferred_zstep s).masks.alerted h)

theorem makeTransfer_top : s.makeTransfer.top = s.boardResolved.top := (makeTransfer_board hp).top

/-! ### Ports (R155, R196, R197) -/

theorem makeTransfer_port (p : Port) :
    s.makeTransfer.lnk[p].dropSelection = s.boardResolved.lnk[p].dropSelection := by
  have h := (transferred_zstep s).ports p
  have e := (makeTransfer_over hp).lnk
  simp only [e]
  exact h

theorem makeTransfer_port_enter {p : Port} {st : PortState} {a b : Timer}
    (h : s.boardResolved.lnk[p] = s.lnk[p].enter st a b) : s.makeTransfer.lnk[p] = s.lnk[p].enter st a b := by
  have hbare : s.boardResolved.lnk[p].Windowless := by
    rw [h]
    exact ⟨rfl, rfl⟩
  rw [← h]
  exact port_of_windowless (makeTransfer_port hp p)
    (windowless_of_lnk (makeTransfer_over hp).lnk (transferred_bare hbare)) hbare

theorem makeTransfer_ports (p : Port) :
    (s.used p = true → s.makeTransfer.used p = false → s.makeTransfer.lnk[p] = { s.lnk[p] with
        state := .unused, silentTimer := .stopped, heartbeat := .stopped, selection := none, latch := none }) ∧
      (s.used p = false → s.makeTransfer.used p = true → s.makeTransfer.lnk[p] = { s.lnk[p] with
        state := .silent, silentTimer := .running 2000, heartbeat := .stopped, selection := none, latch := none }) ∧
      (s.used p = s.makeTransfer.used p → s.makeTransfer.lnk[p] = { s.lnk[p] with
        selection := s.makeTransfer.lnk[p].selection, latch := s.makeTransfer.lnk[p].latch }) := by
  have hx := (boardResolved_rewired s).ports p
  have hport := makeTransfer_port hp p
  have hu : s.used p = s.cfg.active.board.incomer[p] := rfl
  unfold PortRec.takeUp becomesAbsent becomesPresent at hx
  rw [← hu, ← makeTransfer_used hp] at hx
  refine ⟨fun h1 h2 => ?_, fun h1 h2 => ?_, fun h => ?_⟩
  · rw [h1, h2] at hx
    exact makeTransfer_port_enter hp hx
  · rw [h1, h2] at hx
    exact makeTransfer_port_enter hp hx
  · have : s.boardResolved.lnk[p] = s.lnk[p] := by
      rw [hx, ← h]
      cases s.used p <;> rfl
    rw [this] at hport
    exact port_of_dropSelection hport

theorem makeTransfer_peerStale {p : Port} (h1 : s.used p = true) (h2 : s.makeTransfer.used p = false)
    (hl : s.lnk[p].state = .live) {q : Port} (hne : q ≠ p) (hq : s.makeTransfer.used q = true) :
    s.makeTransfer.alerted q .peerStale = true := by
  have hleave : p ∈ s.leavers s.cfg.active s.cfg.staged := by
    unfold State.leavers becomesAbsent
    rw [List.mem_filter]
    refine ⟨List.mem_finRange p, ?_⟩
    have e1 : s.cfg.active.board.incomer[p] = true := h1
    rw [makeTransfer_used hp] at h2
    rw [e1, h2, decide_eq_true hl]
    rfl
  have hused : s.takeUpStaged.used q = true := by
    rw [makeTransfer_used hp] at hq
    exact (congrArg (fun i : Image => i.board.incomer[q]) (takeUpStaged_spec s).2.1).trans hq
  have hrest : AlertFrame (s.takeUpStaged.noteLeavers (s.leavers s.cfg.active s.cfg.staged)) s.transferred :=
    ((endDrill_zstep _ _).trans (placeZones_zstep _)).masks
  exact (makeTransfer_over hp).masks.alerted (hrest.alerted (noteLeavers_alerted hleave hne hused))

/-! ### Reports, couplers and islands (R71) -/

theorem makeTransfer_reports (p : Port) : s.makeTransfer.top.reports[p] =
    if s.used p ≠ s.makeTransfer.used p then ⟨.none, .none, .none⟩ else { s.top.reports[p] with
      left := if couplerPresent s.cfg.staged (leftCoupler p) then s.top.reports[p].left else .none
      right := if couplerPresent s.cfg.staged (rightCoupler p) then s.top.reports[p].right else .none } := by
  have hu : s.used p = s.cfg.active.board.incomer[p] := rfl
  rw [makeTransfer_top hp, (boardResolved_rewired s).reports]
  unfold ReportRec.takeUp becomesAbsent becomesPresent
  rw [← hu, ← makeTransfer_used hp]
  cases s.used p <;> cases s.makeTransfer.used p <;> rfl

theorem makeTransfer_coupler (j : Coupler) : s.makeTransfer.top.couplers[j] =
    if s.makeTransfer.resolvedNow j ≠ s.top.couplers[j].resolved then ⟨s.makeTransfer.resolvedNow j, s.alr.time⟩
    else s.top.couplers[j] := by
  rw [makeTransfer_top hp, (makeTransfer_board hp).resolvedNow]
  exact (boardResolved_rewired s).couplers j

theorem makeTransfer_topology
    (h : (∃ j : Coupler, s.makeTransfer.top.couplers[j].resolved = .disputed ∧ s.top.couplers[j].resolved ≠ .disputed) ∨
      s.makeTransfer.top.islandName ≠ s.top.islandName) {p : Port} (hu : s.makeTransfer.used p = true) :
    s.makeTransfer.alerted p .topology = true := by
  rw [makeTransfer_top hp] at h
  rw [(makeTransfer_board hp).used] at hu
  exact makeTransfer_alerted hp ((boardResolved_rewired s).topology h p hu)

end

end Sys2Proof.Machine
end

section
/-! PROOFS. A transfer that is due with no zone waiting: zones, records and drill (R90 to R93, R98, R99, R105 to R107,
R125, R132, R142, R164). -/

namespace Sys2Proof.Machine

/-! ### Evidence leaves the open ARC records of a zone in their places -/

theorem evidence_origin (r : TripRec) (tg : Target) (now : Time) : (r.evidence tg now).kind = r.kind ∧
    (r.evidence tg now).origin = r.origin ∧ (r.evidence tg now).region = r.region := by
  unfold TripRec.evidence TripRec.settle
  split
  · simp only
    split <;> exact ⟨rfl, rfl, rfl⟩
  · exact ⟨rfl, rfl, rfl⟩

theorem evidence_isArcOf (r : TripRec) (tg : Target) (now : Time) (z : Zone) :
    (r.evidence tg now).isArcOf z = r.isArcOf z := by
  obtain ⟨hk, ho, -⟩ := evidence_origin r tg now
  unfold TripRec.isArcOf
  rw [evidence_isOpen, hk, ho]

theorem evidenceAll_arcs (s : State) (tgs : List Target) (z : Zone) :
    (s.evidenceAll tgs).recordRegion z = s.recordRegion z ∧
      (s.evidenceAll tgs).trm.records.any (·.isArcOf z) = s.trm.records.any (·.isArcOf z) := by
  induction tgs generalizing s with
  | nil => exact ⟨rfl, rfl⟩
  | cons tg tgs ih =>
    obtain ⟨h1, h2⟩ := ih (s.openEvidence tg)
    have hrec : (s.openEvidence tg).trm.records = s.trm.records.map fun r => r.evidence tg s.alr.time := rfl
    have hcomp : ((·.isArcOf z) ∘ fun r : TripRec => r.evidence tg s.alr.time) = (·.isArcOf z) :=
      funext fun r => evidence_isArcOf r tg _ z
    refine ⟨h1.trans ?_, h2.trans ?_⟩
    · unfold State.recordRegion
      rw [hrec, List.find?_map, hcomp]
      cases s.trm.records.find? (·.isArcOf z) with
      | none => rfl
      | some r => exact (evidence_origin r tg _).2.2
    · rw [hrec, List.any_map, hcomp]

/-! ### The zones as they are placed (R98, R99, R164) -/

/-- The zone is still under drill once any drill in progress has ended (R164). -/
def State.stillFlagged (s : State) (z : Zone) : Bool :=
  s.zev.zones[z].drill && !(s.zev.drill.active && decide (s.zev.drill.zone = some z))

/-- The record of a zone once any drill in progress has ended (R164). -/
def State.undrilled (s : State) (z : Zone) : ZoneRec := { s.zev.zones[z] with drill := s.stillFlagged z }

section
variable {s : State} (hq : s.noneWaiting)
include hq

/-- With no zone waiting, TOP hands on evidence only. -/
theorem takeUpStaged_evidence : ∃ n, s.takeUpStaged =
    { s.boardResolved.evidenceAll (openedTargets s s.boardResolved) with freeTick := n } := by
  obtain ⟨lcu, fsu, quiet, due, lnk, top, alr, hx⟩ := (boardResolved_rewired s).shape
  obtain ⟨zs, n, he, hw⟩ := topHandOff_eq s s.boardResolved
  have hzev : s.boardResolved.zev = s.zev := by rw [hx]
  have hnil : zs = [] := List.eq_nil_iff_forall_not_mem.2 fun z hz => hq z (by rw [← hzev]; exact hw z hz)
  rw [takeUpStaged_eq, he, hnil]
  exact ⟨n, rfl⟩

theorem takeUpStaged_kept :
    s.takeUpStaged.trm = { s.trm with
      records := withEvidence s.trm.records (openedTargets s s.boardResolved) s.alr.time } ∧
    s.takeUpStaged.zev = s.zev ∧ s.takeUpStaged.cfg.engine = s.cfg.engine ∧
    s.takeUpStaged.closeInhibit = s.closeInhibit := by
  obtain ⟨n, h⟩ := takeUpStaged_evidence hq
  obtain ⟨lcu, fsu, quiet, due, lnk, top, alr, hx⟩ := (boardResolved_rewired s).shape
  have htime := (boardResolved_rewired s).time
  obtain ⟨h1, h2, -, -, h5⟩ := evidenceAll_kept (openedTargets s s.boardResolved) s.boardResolved
  have h6 := evidenceAll_closeInhibit s.boardResolved (openedTargets s s.boardResolved)
  have hsame : s.boardResolved.trm = s.trm ∧ s.boardResolved.zev = s.zev ∧
      s.boardResolved.cfg.engine = s.cfg.engine := by
    rw [hx]
    exact ⟨rfl, rfl, rfl⟩
  obtain ⟨g1, g2, g3⟩ := hsame
  rw [g1, htime] at h1
  have hlines : s.boardResolved.closeInhibit = s.closeInhibit := congrArg (fun x : Trm => linesOf x.records) g1
  rw [h]
  exact ⟨h1, h2.trans g2, h5.trans g3, h6.trans hlines⟩

theorem drillOver_zone (z : Zone) : s.drillOver.zev.zones[z] = s.undrilled z := by
  obtain ⟨-, -, -, hzev⟩ := drillOver_kept s
  obtain ⟨-, hkept, -⟩ := takeUpStaged_kept hq
  rw [hzev, hkept]
  unfold State.undrilled State.stillFlagged
  cases ha : s.zev.drill.active
  · simp
  · rw [if_pos rfl, drillEnded_zones]
    simp

theorem drillOver_drill : s.drillOver.zev.drill =
    if s.zev.drill.active = true then s.zev.drill.ended .transfer else s.zev.drill := by
  obtain ⟨-, -, -, hzev⟩ := drillOver_kept s
  obtain ⟨-, hkept, -⟩ := takeUpStaged_kept hq
  rw [hzev, hkept]
  split <;> rfl

theorem placeAll_trm : s.drillOver.placeAll.trm = { s.trm with
    records := withEvidence s.trm.records (openedTargets s s.boardResolved) s.alr.time } := by
  obtain ⟨h1, -⟩ := takeUpStaged_kept hq
  obtain ⟨h2, -⟩ := drillOver_kept s
  obtain ⟨h3, -⟩ := placeAll_kept s.drillOver
  rw [h3, h2, h1]

theorem placeAll_arcs (z : Zone) : s.drillOver.placeAll.recordRegion z = s.recordRegion z ∧
    s.drillOver.placeAll.trm.records.any (·.isArcOf z) = s.trm.records.any (·.isArcOf z) := by
  obtain ⟨h1, -⟩ := evidenceAll_kept (openedTargets s s.boardResolved) s
  have htrm : s.drillOver.placeAll.trm = (s.evidenceAll (openedTargets s s.boardResolved)).trm :=
    (placeAll_trm hq).trans h1.symm
  have h := evidenceAll_arcs s (openedTargets s s.boardResolved) z
  have hregion : s.drillOver.placeAll.recordRegion z =
      (s.evidenceAll (openedTargets s s.boardResolved)).recordRegion z := by
    unfold State.recordRegion
    rw [htrm]
  rw [hregion, htrm]
  exact h

end

section
variable {s : State} (hp : s.cfg.pendingCommit = true)
include hp

theorem placeAll_board : s.drillOver.placeAll.SameBoard s.makeTransfer :=
  (placed_started s).step.sameBoard.trans (makeTransfer_over hp).board

theorem drillOver_board : s.drillOver.SameBoard s.makeTransfer :=
  (placeAll_zstep _).sameBoard.trans (placeAll_board hp)

theorem drillOver_view (z : Zone) : s.drillOver.viewOf z = s.makeTransfer.viewOf z := by
  have hlcu : s.drillOver.lcu = s.makeTransfer.lcu :=
    (drillOver_zstep s).lcu.trans ((transferred_zstep s).lcu.symm.trans (makeTransfer_over hp).lcu.symm)
  have hact := (drillOver_board hp).active
  unfold State.viewOf State.zonePage State.statusOf
  rw [hlcu, hact]

variable (hq : s.noneWaiting)
include hq

/-- The record of a zone as it is placed. -/
theorem placeAll_placed (z : Zone) : s.drillOver.placeAll.zev.zones[z] =
    (s.undrilled z).placed (s.makeTransfer.zonePage z) (s.makeTransfer.viewOf z) s.alr.time := by
  have hpage : s.drillOver.zonePage z = s.makeTransfer.zonePage z :=
    congrArg (fun i : Image => i.zones[z]) (drillOver_board hp).active.symm
  have htime : s.drillOver.alr.time = s.alr.time := (drillOver_board hp).time.symm.trans (makeTransfer_time hp)
  rw [placeAll_zone, drillOver_zone hq, drillOver_view hp, hpage, htime]

/-- The vote of the zone is satisfied at a transfer, and its filter expires as it starts (R80, R92). -/
def State.AtOnce (t : State) (z : Zone) : Prop :=
  voteSatisfied (t.zonePage z) (t.viewOf z) = true ∧ (t.zonePage z).tzf.val = 0

theorem placeAll_instant (z : Zone) :
    (s.drillOver.placeAll.instant z = true ∧ s.drillOver.placeAll.zev.zones[z].lit = true) ↔ s.makeTransfer.AtOnce z := by
  have hpage : s.drillOver.placeAll.zonePage z = s.makeTransfer.zonePage z :=
    congrArg (fun i : Image => i.zones[z]) (placeAll_board hp).active.symm
  rw [instant_iff, placeAll_placed hp hq, placed_lit, hpage, and_comm]
  rfl

theorem placeAll_confirms (z : Zone) : s.drillOver.placeAll.confirmsLit z = true ↔
    (s.makeTransfer.currentConfirms z = true ∨
      ((s.makeTransfer.zonePage z).confirm = .lightOnly ∧ s.stillFlagged z = false)) := by
  have hpage : s.drillOver.placeAll.zonePage z = s.makeTransfer.zonePage z :=
    congrArg (fun i : Image => i.zones[z]) (placeAll_board hp).active.symm
  unfold State.confirmsLit
  rw [placeAll_placed hp hq, placed_drill, hpage, (placeAll_board hp).currentConfirms]
  simp [State.undrilled]

theorem placeAll_decides (z : Zone) : s.drillOver.placeAll.DecidesAtOnce z ↔
    s.makeTransfer.AtOnce z ∧ s.zev.zones[z].state ≠ .tripped ∧ (s.makeTransfer.currentConfirms z = true ∨
      ((s.makeTransfer.zonePage z).confirm = .lightOnly ∧ s.stillFlagged z = false)) := by
  unfold State.DecidesAtOnce
  rw [← and_assoc, placeAll_instant hp hq, placeAll_confirms hp hq]
  refine and_congr_right fun h => and_congr_left fun _ => ?_
  rw [placeAll_placed hp hq]
  exact placed_quiet_iff _ _ _ h.1

theorem placeAll_shows (z : Zone) : s.drillOver.placeAll.ShowsAtOnce z ↔
    s.makeTransfer.AtOnce z ∧ s.zev.zones[z].state ≠ .tripped ∧ s.stillFlagged z = true := by
  unfold State.ShowsAtOnce
  rw [← and_assoc, placeAll_instant hp hq]
  refine and_congr_right fun h => ?_
  rw [placeAll_placed hp hq, placed_drill, placed_quiet_iff _ _ _ h.1]
  rfl

theorem placeAll_strikes (z : Zone) : s.drillOver.placeAll.StrikesAtOnce z ↔
    s.makeTransfer.AtOnce z ∧ s.zev.zones[z].state = .tripped ∧
      (s.zev.zones[z].phase = some .ready ∨ s.zev.zones[z].phase = some .filtering) ∧
      ((s.makeTransfer.zonePage z).confirm = .lightOnly ∨
        s.makeTransfer.live (s.makeTransfer.feedSet (s.recordRegion z)) = true) := by
  have hb := placeAll_board hp
  have hconf : s.drillOver.placeAll.RestrikeConfirmed z ↔ ((s.makeTransfer.zonePage z).confirm = .lightOnly ∨
      s.makeTransfer.live (s.makeTransfer.feedSet (s.recordRegion z)) = true) := by
    unfold State.RestrikeConfirmed State.zonePage
    rw [(placeAll_arcs hq z).1, ← hb.active, ← hb.live, ← hb.feedSet]
  unfold State.StrikesAtOnce
  rw [← and_assoc, placeAll_instant hp hq, hconf]
  refine and_congr_right fun h => ?_
  have hready := placed_ready_iff (r := s.undrilled z) (s.makeTransfer.zonePage z) (s.makeTransfer.viewOf z) s.alr.time h.1
  rw [placeAll_placed hp hq, ← and_assoc, hready, and_assoc]
  rfl

end

end Sys2Proof.Machine
end

section
/-! PROOFS. A transfer that is due, settled (R71, R90 to R93, R98, R99, R125, R132, R142, R164, R173, R179). -/

namespace Sys2Proof.Machine

/-! ### The record of a zone at the end of a transfer (R98, R99) -/

section
variable (r : ZoneRec) (page : ZonePage) (v : Vector MemberStatus 6) (now : Time)

/-- The record with the view and the vote of the new image, its filter stopped. -/
def ZoneRec.voting : ZoneRec :=
  { r with view := v, lit := voteSatisfied page v, degraded := voteDegraded page v, filter := .stopped }

/-- The record in its place (R98). -/
def ZoneRec.inPlace : ZoneRec :=
  { r.voting page v with
    state := placedState page v, confirm := .stopped
    entryTime := if placedState page v = r.state then r.entryTime else now }

/-- The record at the end of a transfer, where `c` says that the zone is confirmed, clause by clause. -/
theorem started_placed (c : Bool) :
    let t := (r.placed page v now).started page c now
    (r.state ≠ .tripped → voteSatisfied page v = false → t = r.inPlace page v now) ∧
    (r.state ≠ .tripped → voteSatisfied page v = true → 0 < page.tzf.val → t = { r.inPlace page v now with
      trigger := firstLitMember page v, filter := .running .entry page.tzf.val, state := .lit, entryTime := now }) ∧
    (r.state ≠ .tripped → voteSatisfied page v = true → page.tzf.val = 0 → t = { r.inPlace page v now with
      trigger := firstLitMember page v, entryTime := now
      state := if c = true then .tripped else .waiting
      phase := if c = true then some .holding else (r.inPlace page v now).phase
      confirm := if c = true then .stopped else .running page.tcw.val }) ∧
    (r.state = .tripped → voteSatisfied page v = false → t = { r.voting page v with
      phase := if (r.voting page v).phase = none then none else some .ready }) ∧
    (r.state = .tripped → voteSatisfied page v = true → r.phase = some .holding ∨ r.phase = none →
      t = r.voting page v) ∧
    (r.state = .tripped → voteSatisfied page v = true → r.phase = some .ready ∨ r.phase = some .filtering →
      t = { r.voting page v with
        trigger := firstLitMember page v
        filter := if page.tzf.val = 0 then .stopped else .running .restrike page.tzf.val
        phase := if page.tzf.val = 0 then some .holding else some .filtering }) := by
  intro t
  refine ⟨fun h hs => ?_, fun h hs hz => ?_, fun h hs hz => ?_, fun h hs => ?_, fun h hs hp => ?_, fun h hs hp => ?_⟩
  · exact (started_resting page v now c hs).trans (placed_resting page v now h)
  · refine (started_lit page v now c h hs hz.ne').trans ?_
    rw [placed_resting page v now h]
    unfold ZoneRec.inPlace ZoneRec.voting ZoneRec.lighted
    rw [hs]
    rfl
  · refine (started_expired page v now c h hs hz).trans ?_
    rw [placed_resting page v now h]
    unfold ZoneRec.inPlace ZoneRec.voting ZoneRec.lighted ZoneRec.struck
    rw [hs]
    cases c <;> rfl
  · refine (started_unlit ((placed_lit page v now).trans hs) page c now).trans ?_
    rw [placed_tripped page v now h, hs]
    unfold ZoneRec.voting
    rw [hs]
    rcases hp : r.phase with _ | _ | _ | _ <;> rfl
  · have hrest : ¬ (r.phase = some .ready ∨ r.phase = some .filtering) := by
      rcases hp with hp | hp <;> simp [hp]
    have hphase : phaseAfterTransfer r.phase true = r.phase := by
      rcases hp with hp | hp <;> rw [hp] <;> rfl
    refine (started_stays page v now c h hrest).trans ?_
    rw [placed_tripped page v now h, hs, hphase]
    unfold ZoneRec.voting
    rw [hs]
  · refine (started_restrikes page v now c h hs hp).trans ?_
    rw [placed_tripped page v now h]
    rfl

end

/-! ### Zones, records and drill at the end of a transfer -/

/-- What decisions append hangs on the records they open. -/
theorem arcsOpened_congr {s t : State} (h : ∀ z n, t.arcOf z n = s.arcOf z n) {zs : List Zone} {c c' : Byte}
    {rs rs' : List TripRec} (ho : s.ArcsOpened zs c rs c' rs') : t.ArcsOpened zs c rs c' rs' := by
  induction zs generalizing c rs with
  | nil => exact ho
  | cons z zs ih =>
    obtain ⟨n, hn, hrest⟩ := ho
    refine ⟨n, hn, ?_⟩
    rw [h]
    exact ih hrest

/-- Evidence turns no close-inhibit line on or off. -/
theorem evidence_lines (s : State) (tgs : List Target) :
    linesOf (withEvidence s.trm.records tgs s.alr.time) = s.closeInhibit := by
  have h := evidenceAll_closeInhibit s tgs
  rw [closeInhibit_eq, (evidenceAll_kept tgs s).1] at h
  exact h

section
variable (s t : State)

/-- A zone that decides at a transfer is confirmed (R83, R160). -/
def State.ConfirmedIn (z : Zone) : Prop :=
  t.currentConfirms z = true ∨ ((t.zonePage z).confirm = .lightOnly ∧ s.stillFlagged z = false)

/-- A record is struck anew by its zone at a transfer (R92, R93, R99). -/
def State.StrikesIn (z : Zone) (r : TripRec) : Prop :=
  r.ArcOf z ∧ t.AtOnce z ∧ s.zev.zones[z].state = .tripped ∧
    (s.zev.zones[z].phase = some .ready ∨ s.zev.zones[z].phase = some .filtering) ∧
    ((t.zonePage z).confirm = .lightOnly ∨ t.live (t.feedSet (s.recordRegion z)) = true)

end

section
variable {s : State} (hp : s.cfg.pendingCommit = true) (hq : s.noneWaiting)
include hp hq

theorem strikesIn_iff (z : Zone) (r : TripRec) :
    s.StrikesIn s.makeTransfer z r ↔ s.drillOver.placeAll.StrikesAtOnce z ∧ r.isArcOf z = true := by
  rw [placeAll_strikes hp hq, isArcOf_iff]
  exact and_comm

theorem makeTransfer_zone (z : Zone) : ∃ c : Bool, (c = true ↔ s.ConfirmedIn s.makeTransfer z) ∧
    s.makeTransfer.zev.zones[z] =
      ((s.undrilled z).placed (s.makeTransfer.zonePage z) (s.makeTransfer.viewOf z) s.alr.time).started
        (s.makeTransfer.zonePage z) c s.alr.time := by
  refine ⟨s.drillOver.placeAll.confirmsLit z, placeAll_confirms hp hq z, ?_⟩
  have hb := placeAll_board hp
  have hpage : s.drillOver.placeAll.zonePage z = s.makeTransfer.zonePage z :=
    congrArg (fun i : Image => i.zones[z]) hb.active.symm
  have htime : s.drillOver.placeAll.alr.time = s.alr.time := hb.time.symm.trans (makeTransfer_time hp)
  rw [(makeTransfer_over hp).zev, (placed_started s).zones, placeAll_placed hp hq, hpage, htime]

theorem makeTransfer_arcOpened {z : Zone} {r : TripRec} (hr : r ∈ s.trm.records) (h : s.StrikesIn s.makeTransfer z r)
    {p : Port} (hu : s.makeTransfer.used p = true) : s.makeTransfer.alerted p .arcOpened = true := by
  obtain ⟨hs, ha⟩ := (strikesIn_iff hp hq z r).1 h
  rw [(placeAll_board hp).used] at hu
  refine (makeTransfer_over hp).masks.alerted ((placed_started s).arcOpened z hs ?_ p hu)
  rw [(placeAll_arcs hq z).2]
  exact List.any_eq_true.2 ⟨r, hr, ha⟩

theorem makeTransfer_drillEnds (ha : s.zev.drill.active = true) {p : Port} (hu : s.makeTransfer.used p = true) :
    s.makeTransfer.alerted p .drill = true := by
  have hactive : s.takeUpStaged.zev.drill.active = true := by
    rw [(takeUpStaged_kept hq).2.1]
    exact ha
  obtain ⟨alr, hl⟩ := noteLeavers_shape s.takeUpStaged (s.leavers s.cfg.active s.cfg.staged)
  have hend : s.drillOver.alerted p .drill = true := by
    rw [(drillOver_board hp).used] at hu
    have hused : s.drillOver.used = (s.takeUpStaged.noteLeavers (s.leavers s.cfg.active s.cfg.staged)).used :=
      (endDrill_zstep _ .transfer).sameBoard.used
    rw [hused] at hu
    exact endDrill_alerted .transfer (by rw [hl]; exact hactive) hu
  exact (makeTransfer_over hp).masks.alerted
    ((placed_started s).step.masks.alerted ((placeAll_zstep _).masks.alerted hend))

theorem makeTransfer_blocked {z : Zone}
    (hb : placedState (s.makeTransfer.zonePage z) (s.makeTransfer.viewOf z) = .blocked)
    (ht : s.zev.zones[z].state ≠ .tripped) (hn : s.zev.zones[z].state ≠ .blocked) {p : Port}
    (hu : s.makeTransfer.used p = true) : s.makeTransfer.alerted p .zoneBlocked = true := by
  have hboard := drillOver_board hp
  have hpage : s.drillOver.zonePage z = s.makeTransfer.zonePage z :=
    congrArg (fun i : Image => i.zones[z]) hboard.active.symm
  rw [hboard.used] at hu
  rw [← hpage, ← drillOver_view hp] at hb
  refine (makeTransfer_over hp).masks.alerted ((placed_started s).step.masks.alerted (placeAll_blocked ?_ hb hu))
  rw [drillOver_zone hq]
  exact ⟨ht, hn⟩

/-- Zones that decide as they are placed, and zones that strike, at the records, the drill register and the lockout
word. -/
theorem makeTransfer_records (hf : ∀ z, s.makeTransfer.AtOnce z → s.zev.zones[z].state ≠ .tripped →
      s.stillFlagged z = false) :
    s.makeTransfer.zev.drill =
        (if s.zev.drill.active = true then s.zev.drill.ended .transfer else s.zev.drill) ∧
      ∃ zs : List Zone, zs.Nodup ∧
        (∀ z, z ∈ zs ↔ s.makeTransfer.AtOnce z ∧ s.zev.zones[z].state ≠ .tripped ∧ s.ConfirmedIn s.makeTransfer z) ∧
        (zs = [] ∨ s.RoomFor zs → ∃ rs, s.makeTransfer.ArcsOpened zs s.trm.seqCounter
            (withEvidence s.trm.records (openedTargets s s.makeTransfer) s.alr.time) s.makeTransfer.trm.seqCounter rs ∧
          List.Forall₂ (s.makeTransfer.StruckInto fun r => ∃ z, s.StrikesIn s.makeTransfer z r) rs
            s.makeTransfer.trm.records) ∧
        s.AsksForWord s.makeTransfer
          (∃ y, ∀ z, z ∈ zs ∨ (∃ r ∈ s.trm.records, s.StrikesIn s.makeTransfer z r) → z = y) := by
  have hshow : ∀ z, ¬ s.drillOver.placeAll.ShowsAtOnce z := fun z h => by
    obtain ⟨h1, h2, h3⟩ := (placeAll_shows hp hq z).1 h
    rw [hf z h1 h2] at h3
    cases h3
  have hstart := placed_started s
  have hover := makeTransfer_over hp
  have htrm := placeAll_trm hq
  have hlines : s.drillOver.placeAll.closeInhibit = s.closeInhibit :=
    (congrArg (fun x : Trm => linesOf x.records) htrm).trans (evidence_lines s _)
  have hengine : s.drillOver.placeAll.cfg.engine = s.cfg.engine := by
    obtain ⟨-, -, h1, -⟩ := placeAll_kept s.drillOver
    obtain ⟨-, h2, -⟩ := drillOver_kept s
    obtain ⟨-, -, h3, -⟩ := takeUpStaged_kept hq
    rw [h1, h2, h3]
  have hopened : openedTargets s s.makeTransfer = openedTargets s s.boardResolved :=
    openedTargets_congr (makeTransfer_top hp)
  obtain ⟨ds, hnd, hmem, hrec⟩ := hstart.records hshow
  refine ⟨?_, ds, hnd, fun z => (hmem z).trans (placeAll_decides hp hq z), fun hroom => ?_, ?_⟩
  · rw [hover.zev, hstart.drill hshow, placeAll_zev]
    exact drillOver_drill hq
  · have hroom' : ds = [] ∨ s.drillOver.placeAll.RoomFor ds := by
      obtain ⟨e1, e2⟩ := withEvidence_counts s.trm.records (openedTargets s s.boardResolved) s.alr.time
      unfold State.RoomFor
      rw [htrm]
      exact hroom.imp id fun h => ⟨e1.trans_le h.1, (Nat.add_le_add_right e2.le _).trans h.2⟩
    obtain ⟨rs, ho, hall⟩ := hrec hroom'
    rw [htrm] at ho
    have harc (z : Zone) (n : Byte) : s.makeTransfer.arcOf z n = s.transferred.arcOf z n :=
      hover.board.arcOf (by rw [hover.zev]) (by rw [hover.zev]) n
    have hhit : (fun r => ∃ z, s.drillOver.placeAll.StrikesAtOnce z ∧ r.isArcOf z = true) =
        fun r => ∃ z, s.StrikesIn s.makeTransfer z r :=
      funext fun r => propext (exists_congr fun z => (strikesIn_iff hp hq z r).symm)
    refine ⟨rs, ?_, ?_⟩
    · rw [hopened, hover.trm]
      exact arcsOpened_congr harc ho
    · rw [hover.trm]
      rw [hhit] at hall
      refine hall.imp fun r r' h => ?_
      exact ⟨fun g => (h.1 g).trans (hover.board.restruck r).symm, h.2⟩
  · refine ((hstart.asks.congr hlines.symm (congrArg (·.lock) htrm).symm hengine.symm
      (congrArg (fun x : Trm => linesOf x.records) hover.trm) (congrArg (·.lock) hover.trm) hover.engine).mono ?_).asks
    rintro ⟨y, hy⟩
    refine ⟨y, fun z hz => hy z ?_⟩
    rcases hz with hz | ⟨hz, ha⟩
    · exact .inl ((hmem z).2 hz)
    · rw [(placeAll_arcs hq z).2] at ha
      obtain ⟨r, hr, hrz⟩ := List.any_eq_true.1 ha
      exact .inr ⟨r, hr, (strikesIn_iff hp hq z r).2 ⟨hz, hrz⟩⟩

end

/-- What a transfer makes of zones, records and drill, with no zone waiting. -/
structure State.PlacedAnew (s t : State) : Prop where
  drillEnds : s.zev.drill.active = true → ∀ p, t.used p = true → t.alerted p .drill = true
  arcOpened : ∀ z, ∀ r ∈ s.trm.records, s.StrikesIn t z r → ∀ p, t.used p = true → t.alerted p .arcOpened = true
  records : (∀ z, t.AtOnce z → s.zev.zones[z].state ≠ .tripped → s.stillFlagged z = false) →
    t.zev.drill = (if s.zev.drill.active = true then s.zev.drill.ended .transfer else s.zev.drill) ∧
      ∃ zs : List Zone, zs.Nodup ∧
        (∀ z, z ∈ zs ↔ t.AtOnce z ∧ s.zev.zones[z].state ≠ .tripped ∧ s.ConfirmedIn t z) ∧
        (zs = [] ∨ s.RoomFor zs → ∃ rs, t.ArcsOpened zs s.trm.seqCounter
            (withEvidence s.trm.records (openedTargets s t) s.alr.time) t.trm.seqCounter rs ∧
          List.Forall₂ (t.StruckInto fun r => ∃ z, s.StrikesIn t z r) rs t.trm.records) ∧
        s.AsksForWord t (∃ y, ∀ z, z ∈ zs ∨ (∃ r ∈ s.trm.records, s.StrikesIn t z r) → z = y)
  blocked : ∀ z, placedState (t.zonePage z) (t.viewOf z) = .blocked → s.zev.zones[z].state ≠ .tripped →
    s.zev.zones[z].state ≠ .blocked → ∀ p, t.used p = true → t.alerted p .zoneBlocked = true
  zone : ∀ z : Zone, ∃ c : Bool, (c = true ↔ s.ConfirmedIn t z) ∧ t.zev.zones[z] =
    ((s.undrilled z).placed (t.zonePage z) (t.viewOf z) s.alr.time).started (t.zonePage z) c s.alr.time

theorem makeTransfer_placedAnew {s : State} (hp : s.cfg.pendingCommit = true) (hq : s.noneWaiting) :
    s.PlacedAnew s.makeTransfer :=
  ⟨fun ha _ hu => makeTransfer_drillEnds hp hq ha hu, fun _ _ hr h _ hu => makeTransfer_arcOpened hp hq hr h hu,
    makeTransfer_records hp hq, fun _ hb h1 h2 _ hu => makeTransfer_blocked hp hq hb h1 h2 hu, makeTransfer_zone hp hq⟩

/-! ### O41 -/

theorem exec_transfer_due {s : State} (hp : s.cfg.pendingCommit = true) (hd : s.cfg.transferDue = true) :
    exec .transfer s = .next s.makeTransfer := by
  refine congrArg Host.Outcome.next ?_
  unfold State.transferIfDue
  rw [hp, hd]
  rfl

theorem exec_transfer_idle {s : State} (h : s.cfg.pendingCommit = false ∨ s.cfg.transferDue = false) :
    exec .transfer s = .next s := by
  refine congrArg Host.Outcome.next (if_neg ?_)
  rw [Bool.and_eq_true]
  rintro ⟨h1, h2⟩
  rcases h with h | h
  · rw [h1] at h
    cases h
  · rw [h2] at h
    cases h

/-- Records and their places, where some of them are struck anew. -/
theorem struckInto_getElem? {b : State} {hit : TripRec → Prop} {rs rs' : List TripRec}
    (h : List.Forall₂ (b.StruckInto hit) rs rs') {i : Nat} {r : TripRec} (hr : rs[i]? = some r) :
    (hit r → rs'[i]? = some (b.restruck r)) ∧ (¬ hit r → rs'[i]? = some r) := by
  induction h generalizing i with
  | nil => simp at hr
  | cons hhead _ ih =>
    cases i with
    | zero =>
      obtain rfl := Option.some.inj hr
      exact ⟨fun g => congrArg some (hhead.1 g), fun g => congrArg some (hhead.2 g)⟩
    | succ i => exact ih hr

/-- Settles O41: the staged image is in force, every block has taken it up, and the zones are placed anew. -/
theorem transferTakesTheStagedImage : Obligations.TransferTakesTheStagedImage := by
  intro s
  refine ⟨exec_transfer_idle, fun hp hd => ?_⟩
  have hover := makeTransfer_over hp
  obtain ⟨hclaim, hcount⟩ := transferred_cfg s
  have hused : s.transferred.used = s.makeTransfer.used := hover.board.used.symm
  refine ⟨s.makeTransfer, exec_transfer_due hp hd, makeTransfer_active hp, makeTransfer_staged hp, fun p => ?_, ?_, ?_,
    hover.pendingCommit, hover.transferDue, hover.transferCount.trans (congrArg (· + 1) hcount), hover.unsaved,
    hover.configApplied, ?_, makeTransfer_nv hp, ?_, fun hq => ?_⟩
  · obtain ⟨h1, h2, h3⟩ := makeTransfer_ports hp p
    exact ⟨h1, h2, h3, fun hu ht hl q hne hq => makeTransfer_peerStale hp hu ht hl hne hq⟩
  · obtain ⟨-, -, -, -, hidle, -⟩ := transferred_spec s
    rw [hover.zev]
    exact hidle
  · rw [hover.claim, hclaim, hused]
    cases s.cfg.claim with
    | none => rfl
    | some p => exact Option.filter_some
  · rw [hover.job, transferred_job]
  · intro there
    have hthere : there = couplerPresent s.cfg.staged := funext fun j => by cases j <;> rfl
    rw [hthere]
    exact ⟨makeTransfer_reports hp, makeTransfer_coupler hp, (makeTransfer_keeps s).islands,
      fun h p hu => makeTransfer_topology hp h hu⟩
  · have h := makeTransfer_placedAnew hp hq
    generalize s.makeTransfer = t at h ⊢
    obtain ⟨hdrill, harc, hrecords, hblocked, hzone⟩ := h
    refine ⟨hdrill, ?_⟩
    intro view place atOnce flagged confirmed strikes
    have hview : view = t.viewOf := rfl
    have hplace : place = fun z => placedState (t.zonePage z) (t.viewOf z) := funext fun z => (placedState_eq _ _).symm
    have hstrikes : strikes = s.StrikesIn t := rfl
    refine ⟨fun ⟨z, r, hr, h⟩ p hu => harc z r hr h p hu, fun hf => ?_,
      fun ⟨z, hb, h1, h2⟩ p hu => hblocked z ((congrFun hplace z).symm.trans hb) h1 h2 p hu, fun z => ?_⟩
    · obtain ⟨hdrill, zs, hnd, hmem, hrec, hask⟩ := hrecords hf
      refine ⟨hdrill, zs, hnd, hmem, fun hroom => ?_, hask⟩
      obtain ⟨rs, ho, hall⟩ := hrec hroom
      refine ⟨rs, ho, hall.length_eq.symm, fun i r hr => ?_⟩
      obtain ⟨h1, h2⟩ := struckInto_getElem? hall hr
      exact ⟨h1, fun hn => h2 fun ⟨z, hz⟩ => hn z hz⟩
    · obtain ⟨c, hc, hz⟩ := hzone z
      obtain ⟨h1, h2, h3, h4, h5, h6⟩ := started_placed (s.undrilled z) (t.zonePage z) (t.viewOf z) s.alr.time c
      have hite {α : Type} (a b : α) (i : Decidable (confirmed z)) : @ite α (confirmed z) i a b = if c = true then a else b :=
        if_congr hc.symm rfl rfl
      simp only [← hz] at h1 h2 h3 h4 h5 h6
      clear_value place
      subst hplace
      intro page sat first r placed
      refine ⟨h1, h2, fun hr hs h0 => ?_, h4, h5, h6, fun hdis hr => ?_⟩
      · rw [hite, hite, hite]
        exact h3 hr hs h0
      · have hsat : voteSatisfied (t.zonePage z) (t.viewOf z) = false := Bool.eq_false_of_not_eq_true fun h => by
          have := (placedState_of_satisfied h).symm.trans hdis
          exact absurd this (by decide)
        rw [h4 hr hsat]
        exact hsat

end Sys2Proof.Machine
end

section
/-! PROOFS. The list of records by itself (R90, R101, R105, R107, R109): what a new record, a change of each record and
a release leave of it. -/

namespace Sys2Proof.Machine

/-- The list of R101 and R105, the zones that are TRIPPED and the close notices on their way, as `ListInv` has them,
with what `RecordsInv` adds: no DRILL record is open. -/
structure ListOk (rs : List TripRec) (down : Zone → Prop) (ns : List Zone) : Prop where
  length : rs.length ≤ 12
  seqs : (rs.map (·.seq)).Nodup
  targets : ∀ r ∈ rs, (r.entries.map (·.target)).Nodup
  origin : ∀ r ∈ rs, r.kind = .arc → r.origin ≠ none
  drills : ∀ r ∈ rs, r.kind = .drill → r.stage = .closed
  restored : (rs.filter fun r => decide (r.kind = .restored ∧ r.stage ≠ .closed)).length ≤ 1
  notices : ns.Nodup
  arcs : ∀ z, (arcsOf rs z).length ≤ 1
  tripped : ∀ z, down z ↔ (∃ r ∈ rs, r.ArcOf z) ∨ z ∈ ns
  apart : ∀ z, (∃ r ∈ rs, r.ArcOf z) → z ∉ ns

def State.TrippedAt (s : State) (z : Zone) : Prop := s.zev.zones[z].state = .tripped

/-- The list, the TRIPPED zones and the notices of a state are as they must be. -/
def State.ListKept (s : State) : Prop := ListOk s.trm.records s.TrippedAt s.zev.notices

theorem arcsOf_eq (rs : List TripRec) (z : Zone) : arcsOf rs z = rs.filter fun r => decide (r.ArcOf z) :=
  List.filter_congr fun r _ => isArcOf_eq r z

theorem State.ListKept.listInv {s : State} (h : s.ListKept) : ListInv s :=
  ⟨h.length, h.seqs, h.targets, h.origin, h.restored, h.notices, fun z =>
    ⟨arcsOf_eq s.trm.records z ▸ h.arcs z, h.tripped z, fun ⟨ha, hn⟩ => h.apart z ha hn⟩⟩

theorem listKept_of_inv {s : State} (hr : RecordsInv s) (h : ListInv s) : s.ListKept := by
  obtain ⟨hl, hs, ht, ho, hres, hn, hz⟩ := h
  refine ⟨hl, hs, ht, ho, fun r hm hk => ?_, hres, hn, fun z => ?_, fun z => ?_, fun z ha hm => ?_⟩
  · obtain ⟨-, -, -, hd⟩ := hr r hm
    exact (hd hk).1
  · obtain ⟨hone, -⟩ := hz z
    rw [arcsOf_eq]
    exact hone
  · obtain ⟨-, htripped, -⟩ := hz z
    exact htripped
  · obtain ⟨-, -, hapart⟩ := hz z
    exact hapart ⟨ha, hm⟩

theorem arcsOf_ne_nil (rs : List TripRec) (z : Zone) : arcsOf rs z ≠ [] ↔ ∃ r ∈ rs, r.ArcOf z := by
  rw [← any_isArcOf, List.any_eq_true]
  simp only [isArcOf_iff]

theorem ListOk.congr {rs : List TripRec} {down down' : Zone → Prop} {ns : List Zone} (h : ListOk rs down ns)
    (hd : ∀ z, down' z ↔ down z) : ListOk rs down' ns :=
  { h with tripped := fun z => (hd z).trans (h.tripped z) }

/-! ### A change of each record -/

/-- The record after a change is listed as the one before it. -/
structure TripRec.ListedAs (r r' : TripRec) : Prop where
  seq : r'.seq = r.seq
  kind : r'.kind = r.kind
  origin : r'.origin = r.origin
  closed : r'.stage = .closed ↔ r.stage = .closed
  targets : (r.entries.map (·.target)).Nodup → (r'.entries.map (·.target)).Nodup

theorem TripRec.ListedAs.refl (r : TripRec) : r.ListedAs r := ⟨rfl, rfl, rfl, Iff.rfl, id⟩

theorem TripRec.ListedAs.trans {r r' r'' : TripRec} (h : r.ListedAs r') (g : r'.ListedAs r'') : r.ListedAs r'' :=
  ⟨g.seq.trans h.seq, g.kind.trans h.kind, g.origin.trans h.origin, g.closed.trans h.closed,
    fun i => g.targets (h.targets i)⟩

/-- A filter that a change of each record lets nothing new through. -/
theorem length_filter_map_le {α : Type} {p : α → Bool} {f : α → α} {l : List α}
    (h : ∀ a ∈ l, p (f a) = true → p a = true) : ((l.map f).filter p).length ≤ (l.filter p).length := by
  rw [← List.countP_eq_length_filter, ← List.countP_eq_length_filter, List.countP_map]
  exact List.countP_mono_left h

/-! ### Room for a new record (R101, R107) -/

theorem keptRecords_sublist (rs : List TripRec) : (keptRecords rs).Sublist rs := by
  unfold keptRecords
  split
  · exact .refl rs
  · exact List.eraseP_sublist

/-- A full list that gives up its oldest closed record stays as it must be. -/
theorem ListOk.kept {rs : List TripRec} {down : Zone → Prop} {ns : List Zone} (h : ListOk rs down ns) :
    ListOk (keptRecords rs) down ns := by
  have hsub := keptRecords_sublist rs
  have hin := keptRecords_subset rs
  have harc (z : Zone) : (∃ r ∈ keptRecords rs, r.ArcOf z) ↔ ∃ r ∈ rs, r.ArcOf z := by
    rw [← arcsOf_ne_nil, ← arcsOf_ne_nil, arcsOf_kept]
  refine ⟨(length_keptRecords_le rs).trans h.length, (hsub.map _).nodup h.seqs, fun r hr => h.targets r (hin hr),
    fun r hr => h.origin r (hin hr), fun r hr => h.drills r (hin hr), (hsub.filter _).length_le.trans h.restored,
    h.notices, fun z => ?_, fun z => ?_, fun z ha => ?_⟩
  · rw [arcsOf_kept]
    exact h.arcs z
  · rw [harc]
    exact h.tripped z
  · exact h.apart z ((harc z).1 ha)

/-- Every open record is an ARC record of a zone or RESTORED, so open ones are no more than these. -/
theorem openCount_le_arcs {rs : List TripRec} (h : ∀ r ∈ rs, r.stage ≠ .closed → r.kind = .restored ∨ ∃ z, r.ArcOf z) :
    openCount rs ≤ (rs.filter fun r => decide (r.kind = .restored ∧ r.stage ≠ .closed)).length +
      ∑ z : Zone, (arcsOf rs z).length := by
  induction rs with
  | nil => exact Nat.zero_le _
  | cons r rs ih =>
    have ih := ih fun x hx => h x (List.mem_cons_of_mem _ hx)
    have hcons (z : Zone) : (arcsOf (r :: rs) z).length = (if r.isArcOf z then 1 else 0) + (arcsOf rs z).length := by
      unfold arcsOf
      rw [List.filter_cons]
      split <;> simp [Nat.add_comm]
    have hopen : openCount (r :: rs) = (if r.stage = .closed then 0 else 1) + openCount rs := by
      unfold openCount
      rw [List.filter_cons]
      by_cases hc : r.stage = .closed <;> simp [hc, Nat.add_comm]
    have hone : (if r.stage = .closed then 0 else 1) ≤ (if r.kind = .restored ∧ r.stage ≠ .closed then 1 else 0) +
        ∑ z : Zone, if r.isArcOf z then 1 else 0 := by
      by_cases hc : r.stage = .closed
      · rw [if_pos hc]
        exact Nat.zero_le _
      · rw [if_neg hc]
        rcases h r List.mem_cons_self hc with hk | ⟨z, hz⟩
        · rw [if_pos ⟨hk, hc⟩]
          omega
        · have hle := Finset.single_le_sum (f := fun y : Zone => if r.isArcOf y then 1 else 0)
            (fun y _ => Nat.zero_le _) (Finset.mem_univ z)
          rw [if_pos ((isArcOf_iff r z).2 hz)] at hle
          omega
    have hres : ((r :: rs).filter fun r => decide (r.kind = .restored ∧ r.stage ≠ .closed)).length =
        (if r.kind = .restored ∧ r.stage ≠ .closed then 1 else 0) +
          (rs.filter fun r => decide (r.kind = .restored ∧ r.stage ≠ .closed)).length := by
      rw [List.filter_cons]
      by_cases hk : r.kind = .restored ∧ r.stage ≠ .closed
      · rw [if_pos (decide_eq_true hk), if_pos hk, List.length_cons, Nat.add_comm]
      · rw [if_neg (by simpa using hk), if_neg hk, Nat.zero_add]
    simp only [hcons, Finset.sum_add_distrib]
    rw [hopen, hres]
    omega

/-- Eight ARC records, one for each zone, and one RESTORED record are open at most. -/
theorem ListOk.openCount_le {rs : List TripRec} {down : Zone → Prop} {ns : List Zone} (h : ListOk rs down ns) :
    openCount rs ≤ 9 := by
  have hsum : ∑ z : Zone, (arcsOf rs z).length ≤ ∑ _z : Zone, 1 := Finset.sum_le_sum fun z _ => h.arcs z
  have h8 : ∑ _z : Zone, 1 = 8 := rfl
  have hres := h.restored
  refine (openCount_le_arcs fun r hr ho => ?_).trans (by omega)
  cases hk : r.kind with
  | arc =>
    cases hz : r.origin with
    | none => exact absurd hz (h.origin r hr hk)
    | some z => exact .inr ⟨z, hk, ho, hz⟩
  | drill => exact absurd (h.drills r hr hk) ho
  | restored => exact .inl rfl

theorem ListOk.room {rs : List TripRec} {down : Zone → Prop} {ns : List Zone} (h : ListOk rs down ns) :
    (keptRecords rs).length < 12 := length_keptRecords_lt h.length (by have := h.openCount_le; omega)

/-- A record of a new number comes in behind those the list keeps. -/
theorem ListOk.snoc {rs : List TripRec} {down down' : Zone → Prop} {ns : List Zone} (h : ListOk rs down ns)
    {r : TripRec} (hroom : rs.length < 12) (hseq : r.seq ∉ rs.map (·.seq)) (htg : (r.entries.map (·.target)).Nodup)
    (hor : r.kind = .arc → r.origin ≠ none) (hd : r.kind = .drill → r.stage = .closed) (hk : r.kind ≠ .restored)
    (hfree : ∀ z, r.ArcOf z → ¬ down z) (hdown : ∀ z, down' z ↔ down z ∨ r.ArcOf z) : ListOk (rs ++ [r]) down' ns := by
  have hmem (p : TripRec → Prop) : (∀ x ∈ rs ++ [r], p x) ↔ (∀ x ∈ rs, p x) ∧ p r := by simp [or_imp, forall_and]
  have harc (z : Zone) : (∃ x ∈ rs ++ [r], x.ArcOf z) ↔ (∃ x ∈ rs, x.ArcOf z) ∨ r.ArcOf z := by
    simp [or_and_right, exists_or]
  refine ⟨?_, ?_, (hmem _).2 ⟨h.targets, htg⟩, (hmem _).2 ⟨h.origin, hor⟩, (hmem _).2 ⟨h.drills, hd⟩, ?_, h.notices,
    fun z => ?_, fun z => ?_, fun z ha => ?_⟩
  · rw [List.length_append, List.length_singleton]
    exact hroom
  · rw [List.map_append, List.map_singleton, List.nodup_append_comm]
    exact List.nodup_cons.2 ⟨hseq, h.seqs⟩
  · rw [List.filter_append, List.filter_cons_of_neg (by simp [hk]), List.filter_nil, List.append_nil]
    exact h.restored
  · rw [arcsOf_append, List.length_append]
    by_cases hz : r.ArcOf z
    · have hnone : arcsOf rs z = [] := by
        by_contra hn
        exact hfree z hz ((h.tripped z).2 (.inl ((arcsOf_ne_nil rs z).1 hn)))
      rw [hnone, List.length_nil, Nat.zero_add]
      exact List.length_filter_le _ [r]
    · have hnone : arcsOf [r] z = [] := List.filter_cons_of_neg fun e => hz ((isArcOf_iff r z).1 e)
      rw [hnone, List.length_nil, Nat.add_zero]
      exact h.arcs z
  · rw [hdown, harc, h.tripped, or_right_comm]
  · rcases (harc z).1 ha with ha | ha
    · exact h.apart z ha
    · exact fun hn => hfree z ha ((h.tripped z).2 (.inr hn))

/-! ### Close notices (R94, R139) -/

/-- A zone that leaves TRIPPED at its notice. -/
theorem ListOk.noticeTaken {rs : List TripRec} {down down' : Zone → Prop} {ns : List Zone} (h : ListOk rs down ns)
    {z : Zone} (hz : z ∈ ns) (hd : ∀ y, down' y ↔ y ≠ z ∧ down y) : ListOk rs down' (ns.erase z) := by
  have hmem (y : Zone) : y ∈ ns.erase z ↔ y ≠ z ∧ y ∈ ns := h.notices.mem_erase_iff
  refine { h with notices := h.notices.erase z, tripped := fun y => ?_, apart := fun y ha hy => ?_ }
  · have : (∃ r ∈ rs, r.ArcOf y) → y ≠ z := fun ha e => h.apart y ha (e ▸ hz)
    rw [hd, hmem, h.tripped]
    generalize (∃ r ∈ rs, r.ArcOf y) = arc at this ⊢
    tauto
  · exact h.apart y ha ((hmem y).1 hy).2

/-- The zones of the ARC records that close. -/
def closingZones (rs : List TripRec) (closes : TripRec → Bool) : List Zone :=
  ((rs.filter closes).filter fun r => decide (r.kind = .arc)).filterMap (·.origin)

theorem mem_closingZones {rs : List TripRec} {closes : TripRec → Bool}
    (hopen : ∀ r, closes r = true → r.stage ≠ .closed) (z : Zone) :
    z ∈ closingZones rs closes ↔ ∃ r ∈ rs, r.ArcOf z ∧ closes r = true := by
  unfold closingZones TripRec.ArcOf
  simp only [List.mem_filterMap, List.mem_filter, decide_eq_true_eq]
  exact exists_congr fun r => ⟨fun ⟨⟨⟨hr, hc⟩, hk⟩, ho⟩ => ⟨hr, ⟨hk, hopen r hc, ho⟩, hc⟩,
    fun ⟨hr, ⟨hk, _, ho⟩, hc⟩ => ⟨⟨⟨hr, hc⟩, hk⟩, ho⟩⟩

theorem count_closingZones_le {rs : List TripRec} {closes : TripRec → Bool}
    (hopen : ∀ r, closes r = true → r.stage ≠ .closed) (z : Zone) :
    (closingZones rs closes).count z ≤ (arcsOf rs z).length := by
  unfold closingZones arcsOf List.count
  rw [List.countP_filterMap, List.filter_filter, List.countP_filter, ← List.countP_eq_length_filter]
  refine List.countP_mono_left fun r _ h => ?_
  simp only [Bool.and_eq_true, decide_eq_true_eq] at h
  obtain ⟨hz, hk, hc⟩ := h
  refine (isArcOf_iff r z).2 ⟨hk, hopen r hc, ?_⟩
  cases ho : r.origin with
  | none => simp [ho] at hz
  | some y => simpa [ho] using hz

theorem eq_of_length_le_one {α : Type} {l : List α} (h : l.length ≤ 1) {a b : α} (ha : a ∈ l) (hb : b ∈ l) : a = b := by
  match l with
  | [] => cases ha
  | [x] => rw [List.mem_singleton.1 ha, List.mem_singleton.1 hb]

/-- The record after a release that closes it, or leaves it listed as before. -/
structure TripRec.ReleasedAs (closes : Prop) (r r' : TripRec) : Prop where
  seq : r'.seq = r.seq
  kind : r'.kind = r.kind
  origin : r'.origin = r.origin
  closed : r'.stage = .closed ↔ r.stage = .closed ∨ closes
  targets : (r.entries.map (·.target)).Nodup → (r'.entries.map (·.target)).Nodup

theorem TripRec.ListedAs.releasedAs {r r' : TripRec} (h : r.ListedAs r') {closes : Prop} (hc : ¬ closes) :
    r.ReleasedAs closes r' := ⟨h.seq, h.kind, h.origin, h.closed.trans (or_iff_left hc).symm, h.targets⟩

theorem TripRec.ReleasedAs.arcOf {r r' : TripRec} {closes : Prop} (h : r.ReleasedAs closes r') (z : Zone) :
    r'.ArcOf z ↔ r.ArcOf z ∧ ¬ closes := by
  unfold TripRec.ArcOf
  rw [h.kind, h.origin, Ne, h.closed]
  tauto

/-- Records that close, ARC records among them, send their zones a notice (R139). -/
theorem ListOk.release {rs : List TripRec} {down : Zone → Prop} {ns : List Zone} (h : ListOk rs down ns)
    {f : TripRec → TripRec} {closes : TripRec → Bool} (hopen : ∀ r, closes r = true → r.stage ≠ .closed)
    (hf : ∀ r ∈ rs, r.ReleasedAs (closes r = true) (f r)) :
    ListOk (rs.map f) down (ns ++ closingZones rs closes) := by
  have harc (z : Zone) : (∃ r ∈ rs.map f, r.ArcOf z) ↔ ∃ r ∈ rs, r.ArcOf z ∧ ¬ closes r = true := by
    simp only [List.mem_map, exists_exists_and_eq_and]
    exact exists_congr fun r => and_congr_right fun hr => (hf r hr).arcOf z
  have hnew := mem_closingZones (rs := rs) hopen
  have huniq {z : Zone} {r r' : TripRec} (hr : r ∈ rs) (hr' : r' ∈ rs) (ha : r.ArcOf z) (ha' : r'.ArcOf z) :
      r = r' := by
    have hm {x : TripRec} (hx : x ∈ rs) (hxa : x.ArcOf z) : x ∈ arcsOf rs z :=
      List.mem_filter.2 ⟨hx, (isArcOf_iff x z).2 hxa⟩
    exact eq_of_length_le_one (h.arcs z) (hm hr ha) (hm hr' ha')
  refine ⟨(List.length_map f).trans_le h.length, ?_, ?_, ?_, ?_, ?_, ?_, fun z => ?_, fun z => ?_, fun z ha hz => ?_⟩
  · rw [List.map_map]
    exact (List.map_congr_left fun r hr => (hf r hr).seq) ▸ h.seqs
  · exact List.forall_mem_map.2 fun r hr => (hf r hr).targets (h.targets r hr)
  · refine List.forall_mem_map.2 fun r hr => ?_
    rw [(hf r hr).kind, (hf r hr).origin]
    exact h.origin r hr
  · refine List.forall_mem_map.2 fun r hr hd => ?_
    rw [(hf r hr).kind] at hd
    exact (hf r hr).closed.2 (.inl (h.drills r hr hd))
  · refine (length_filter_map_le fun r hr hp => ?_).trans h.restored
    rw [decide_eq_true_iff, (hf r hr).kind, Ne, (hf r hr).closed, not_or] at hp
    obtain ⟨hk, ho, -⟩ := hp
    exact decide_eq_true ⟨hk, ho⟩
  · refine List.nodup_append.2 ⟨h.notices, List.nodup_iff_count_le_one.2 fun z => ?_, ?_⟩
    · exact (count_closingZones_le hopen z).trans (h.arcs z)
    · rintro z hz y hy rfl
      obtain ⟨r, hr, ha, -⟩ := (hnew z).1 hy
      exact h.apart z ⟨r, hr, ha⟩ hz
  · refine (length_filter_map_le fun r hr hp => ?_).trans (h.arcs z)
    rw [isArcOf_iff] at hp ⊢
    exact (((hf r hr).arcOf z).1 hp).1
  · rw [harc, List.mem_append, hnew, h.tripped]
    constructor
    · rintro (⟨r, hr, ha⟩ | hn)
      · by_cases hc : closes r = true
        · exact .inr (.inr ⟨r, hr, ha, hc⟩)
        · exact .inl ⟨r, hr, ha, hc⟩
      · exact .inr (.inl hn)
    · rintro (⟨r, hr, ha, -⟩ | hn | ⟨r, hr, ha, -⟩)
      · exact .inl ⟨r, hr, ha⟩
      · exact .inr hn
      · exact .inl ⟨r, hr, ha⟩
  · obtain ⟨r, hr, har, hc⟩ := (harc z).1 ha
    rcases List.mem_append.1 hz with hz | hz
    · exact h.apart z ⟨r, hr, har⟩ hz
    · obtain ⟨x, hx, hax, hcx⟩ := (hnew z).1 hz
      exact hc (huniq hx hr hax har ▸ hcx)

/-- A change of each record that closes none. -/
theorem ListOk.map {rs : List TripRec} {down : Zone → Prop} {ns : List Zone} (h : ListOk rs down ns)
    {f : TripRec → TripRec} (hf : ∀ r ∈ rs, r.ListedAs (f r)) : ListOk (rs.map f) down ns := by
  have hlist := h.release (f := f) (closes := fun _ => false) (fun _ e => absurd e Bool.false_ne_true)
    fun r hr => (hf r hr).releasedAs Bool.false_ne_true
  have hnone : closingZones rs (fun _ => false) = [] := by simp [closingZones]
  rw [hnone, List.append_nil] at hlist
  exact hlist

theorem nextSeq_notMem {used : List Byte} (h : used.length ≤ 12) (c : Byte) : nextSeq used 12 c ∉ used := by
  obtain ⟨-, -, -, hn, -⟩ := nextSeq_nextNumber used c h
  exact hn

end Sys2Proof.Machine
end

section
/-! PROOFS. What the operations on one record, on a zone and at the Trip Record Manager keep of the list (R90, R92, R94,
R101, R105, R109, R119, R125, R139). -/

namespace Sys2Proof.Machine

/-- An operation keeps the list, the TRIPPED zones and the notices as they must be. -/
structure KeepsList (s t : State) : Prop where
  keeps : s.ListKept → t.ListKept

theorem KeepsList.refl (s : State) : KeepsList s s := ⟨id⟩

theorem KeepsList.trans {s t u : State} (h : KeepsList s t) (g : KeepsList t u) : KeepsList s u :=
  ⟨fun i => g.keeps (h.keeps i)⟩

theorem keepsList_of_same {s t : State} (hr : t.trm.records = s.trm.records)
    (hz : ∀ z, t.TrippedAt z ↔ s.TrippedAt z) (hn : t.zev.notices = s.zev.notices) : KeepsList s t := by
  refine ⟨fun i => ?_⟩
  unfold State.ListKept
  rw [hr, hn]
  exact i.congr hz

/-- An operation aside from the records and the zones. -/
theorem keepsList_aside {s t : State} (hr : t.trm.records = s.trm.records) (hz : t.zev = s.zev) : KeepsList s t :=
  keepsList_of_same hr (fun z => by unfold State.TrippedAt; rw [hz]) (by rw [hz])

theorem keepsList_of_map {s t : State} {f : TripRec → TripRec} (hr : t.trm.records = s.trm.records.map f)
    (hf : ∀ r : TripRec, r.ListedAs (f r)) (hz : t.zev = s.zev) : KeepsList s t := by
  refine ⟨fun i => ?_⟩
  unfold State.ListKept State.TrippedAt
  rw [hr, hz]
  exact i.map fun r _ => hf r

/-! ### One record -/

theorem TripRec.ListedAs.ite {r r' : TripRec} (c : Prop) [Decidable c] (h : c → r.ListedAs r') :
    r.ListedAs (if c then r' else r) := by
  split
  · exact h (by assumption)
  · exact .refl r

theorem settle_listedAs (r : TripRec) : r.ListedAs r.settle := by
  unfold TripRec.settle
  split
  · rename_i h
    exact ⟨rfl, rfl, rfl, by simp [h.1], id⟩
  · exact .refl r

/-- The targets of entries that are changed in place. -/
theorem targets_map {es : List Entry} {f : Entry → Entry} (hf : ∀ e, (f e).target = e.target) :
    (es.map f).map (·.target) = es.map (·.target) := by
  rw [List.map_map]
  exact List.map_congr_left fun e _ => hf e

theorem evidence_listedAs (r : TripRec) (tg : Target) (now : Time) : r.ListedAs (r.evidence tg now) := by
  have hentry (e : Entry) : (if e.takesEvidence tg then e.evidenceAt now else e).target = e.target := by
    split
    · exact Entry.evidenceAt_target e now
    · rfl
  unfold TripRec.evidence
  refine .ite _ fun _ => TripRec.ListedAs.trans ?_ (settle_listedAs _)
  exact ⟨rfl, rfl, rfl, Iff.rfl, fun h => by rw [targets_map hentry]; exact h⟩

theorem modEntry_listedAs (r : TripRec) (tg : Target) {f : Entry → Entry} (hf : ∀ e, (f e).target = e.target) :
    r.ListedAs (r.modEntry tg f) := by
  refine ⟨rfl, rfl, rfl, Iff.rfl, fun h => ?_⟩
  rw [modEntry_map, targets_map fun e => ?_]
  · exact h
  · split
    · exact hf e
    · rfl

theorem advance_listedAs (r : TripRec) (tg : Target) {p : Entry → Bool} {f : Entry → Entry}
    (hf : ∀ e, (f e).target = e.target) : r.ListedAs (r.advance tg p f) := by
  refine .trans (modEntry_listedAs r tg fun e => ?_) (settle_listedAs _)
  split
  · exact hf e
  · rfl

theorem command_target (s : State) (e : Entry) : (s.command e).target = e.target := by
  unfold State.command
  split <;> rfl

theorem newEntry_target (s : State) (tg : Target) (why : Reason) : (s.newEntry tg why).target = tg := command_target s _

theorem holds_eq_true (r : TripRec) (tg : Target) : r.holds tg = true ↔ tg ∈ r.entries.map (·.target) := by
  simp [TripRec.holds]

/-- Entries on targets that the record does not hold come in (R109). -/
theorem targets_added {r : TripRec} {es : List Entry} (hes : es.map (·.target) = r.entries.map (·.target))
    {ts : List Target} (hts : ts.Nodup) {f : Target → Entry} (hf : ∀ tg, (f tg).target = tg)
    (h : (r.entries.map (·.target)).Nodup) :
    ((es ++ (ts.filter fun tg => !r.holds tg).map f).map (·.target)).Nodup := by
  have hnew : ((ts.filter fun tg => !r.holds tg).map f).map (·.target) = ts.filter fun tg => !r.holds tg := by
    rw [List.map_map]
    exact (List.map_congr_left fun tg _ => hf tg).trans (List.map_id _)
  rw [List.map_append, hnew, hes]
  refine List.nodup_append.2 ⟨h, hts.filter _, ?_⟩
  rintro tg hold x hx rfl
  have := (List.mem_filter.1 hx).2
  rw [(holds_eq_true r tg).2 hold] at this
  exact absurd this (by decide)

theorem addEntries_listedAs (s : State) (r : TripRec) {ts : List Target} (hts : ts.Nodup) (why : Reason) :
    r.ListedAs (s.addEntries r ts why) :=
  ⟨rfl, rfl, rfl, Iff.rfl, targets_added rfl hts fun tg => newEntry_target s tg why⟩

theorem escalate_listedAs (s : State) (r : TripRec) (tg : Target) : r.ListedAs (s.escalate r tg) := by
  unfold State.escalate
  cases tg with
  | ti k => exact addEntries_listedAs s r (List.nodup_singleton _) _
  | tc j =>
    simp only
    split
    · rename_i far side _
      exact .trans (r' := { r with region := r.region ||| single far }) ⟨rfl, rfl, rfl, Iff.rfl, id⟩
        (addEntries_listedAs s _ (targetsOf_nodup side) _)
    · exact .refl r
  | ut k => exact .refl r

theorem failEntry_listedAs (s : State) (r : TripRec) (tg : Target) : r.ListedAs (s.failEntry r tg) := by
  unfold State.failEntry
  refine .trans (.trans (r' := { r with escalated := true }) ⟨rfl, rfl, rfl, Iff.rfl, id⟩
    (modEntry_listedAs _ tg fun e => ?_)) (escalate_listedAs s _ tg)
  split <;> rfl

theorem restrikeRecord_listedAs (s : State) {r : TripRec} (h : r.stage ≠ .closed) :
    r.ListedAs (s.restrikeRecord r) := by
  refine ⟨rfl, rfl, rfl, iff_of_false ?_ h, ?_⟩
  · unfold State.restrikeRecord
    simp
  · refine targets_added (targets_map fun e => ?_) (targetsOf_nodup _) fun tg => newEntry_target s tg _
    split
    · exact command_target s e
    · rfl

theorem peaked_listedAs (s : State) (n : Chan) (v : LU) (r : TripRec) : r.ListedAs (s.peaked n v r) :=
  .ite _ fun _ => ⟨rfl, rfl, rfl, Iff.rfl, id⟩

/-! ### The Trip Record Manager -/

theorem openEvidence_keepsList (s : State) (tg : Target) : KeepsList s (s.openEvidence tg) :=
  keepsList_of_map rfl (fun r => evidence_listedAs r tg s.alr.time) rfl

theorem atEntry_keepsList (s : State) (seq : Byte) (tg : Target) (p : Entry → Bool) {f : TripRec → TripRec}
    (hf : ∀ r : TripRec, r.ListedAs (f r)) : KeepsList s (s.atEntry seq tg p f) :=
  keepsList_of_map rfl (fun r => .ite _ fun _ => hf r) rfl

theorem advanceEntry_keepsList (s : State) (seq : Byte) (tg : Target) (p : Entry → Bool) {f : Entry → Entry}
    (hf : ∀ e, (f e).target = e.target) : KeepsList s (s.advanceEntry seq tg p f) :=
  (atEntry_keepsList s seq tg p fun r => advance_listedAs r tg hf).trans (keepsList_aside rfl rfl)

/-- The write engine is asked for a lockout word aside from the list. -/
theorem trmEvent_keepsList {s : State} {f : State → State} (h : KeepsList s (f s)) : KeepsList s (s.trmEvent f) := by
  obtain ⟨hr, -⟩ := trmEvent_kept s f
  exact h.trans (keepsList_aside hr (trmEvent_zev s f))

theorem failBreaker_keepsList (s : State) (seq : Byte) (tg : Target) : KeepsList s (s.failBreaker seq tg) :=
  (trmEvent_keepsList (f := fun s => s.atEntry seq tg Entry.canFail fun r => s.failEntry r tg)
    (atEntry_keepsList s seq tg _ fun r => failEntry_listedAs s r tg)).trans (keepsList_aside rfl rfl)

theorem restrike_keepsList (s : State) (z : Zone) : KeepsList s (s.restrike z) := by
  obtain ⟨hr, -⟩ := restrike_records s z
  refine keepsList_of_map hr (fun r => .ite _ fun h => ?_) (restrike_zev s z)
  rw [← restrikeRecord_eq]
  exact restrikeRecord_listedAs s ((isArcOf_iff r z).1 h).2.1

/-- A DRILL record comes in closed (R161). -/
theorem appendDrill_keepsList (s : State) (z : Zone) (trigger : Option Chan) (degraded : Bool) :
    KeepsList s (s.appendDrill z trigger degraded) := by
  refine trmEvent_keepsList (f := fun t => t.drillTaken z trigger degraded) ⟨fun i => ?_⟩
  obtain ⟨hr, -⟩ := makeRoom_trm s
  have hk : ListOk s.makeRoom.trm.records s.TrippedAt s.zev.notices := hr.symm ▸ i.kept
  have hroom : s.makeRoom.trm.records.length < 12 := hr.symm ▸ i.room
  have hz : s.makeRoom.zev = s.zev := makeRoom_zev s
  have hlist := hk.snoc (r := { s.makeRoom.drillRecord z trigger degraded with
      seq := nextSeq (s.makeRoom.trm.records.map (·.seq)) 12 s.makeRoom.trm.seqCounter }) (down' := s.TrippedAt)
    hroom (nextSeq_notMem ((List.length_map _).trans_le hroom.le) _) ?_ nofun (fun _ => rfl) nofun
    (fun y h => absurd rfl h.2.1) fun y => (or_iff_left fun h => absurd rfl h.2.1).symm
  · unfold State.ListKept State.TrippedAt State.drillTaken State.appendRecord
    simp only [hz]
    exact hlist
  · show (((targetsOf _).map s.makeRoom.shownEntry).map (·.target)).Nodup
    rw [List.map_map]
    exact (List.map_id _).symm ▸ targetsOf_nodup _

theorem arcOf_targets (s : State) (z : Zone) (n : Byte) : ((s.arcOf z n).entries.map (·.target)).Nodup := by
  unfold State.arcOf
  simp only [List.map_map]
  exact (List.map_id _).symm ▸ targetsOf_nodup _

theorem decideArc_notices (s : State) (z : Zone) : (s.decideArc z).zev.notices = s.zev.notices := by
  rw [decideArc_zev]
  unfold Zev.decided Zev.drillEnded
  simp only
  split <;> rfl

/-- A zone that is not TRIPPED decides: its record comes in, and the zone is TRIPPED (R90, R106). -/
theorem decideArc_keepsList (s : State) {z : Zone} (h : ¬ s.TrippedAt z) : KeepsList s (s.decideArc z) := by
  refine ⟨fun i => ?_⟩
  obtain ⟨hr, -⟩ := decideArc_records s z
  have hdown (y : Zone) : (s.decideArc z).TrippedAt y ↔ s.TrippedAt y ∨ (s.arcOf z s.decisionNumber).ArcOf y := by
    have harc : (s.arcOf z s.decisionNumber).ArcOf y ↔ y = z := by
      simp [TripRec.ArcOf, State.arcOf, eq_comm]
    unfold State.TrippedAt
    rw [harc, decideArc_zev, decided_zones]
    by_cases hy : y = z <;> simp [hy, ZoneRec.struck]
  unfold State.ListKept
  rw [hr, decideArc_notices]
  refine i.kept.snoc i.room (nextSeq_notMem ((List.length_map _).trans_le i.room.le) _) (arcOf_targets s z _)
    (fun _ => by simp [State.arcOf]) nofun nofun (fun y ha hd => h ?_) hdown
  obtain ⟨-, -, horigin⟩ := ha
  have hy : y = z := (Option.some.inj horigin).symm
  exact hy ▸ hd

theorem take_fields (r : TripRec) (b : Fin 7) (now : Time) : (r.take b now).seq = r.seq ∧ (r.take b now).kind = r.kind ∧
    (r.take b now).origin = r.origin ∧ (r.take b now).entries = r.entries := by
  unfold TripRec.take
  simp only
  split <;> exact ⟨rfl, rfl, rfl, rfl⟩

/-- ARC records that close at a release send their zones a notice (R139). -/
theorem releaseBreaker_keepsList (s : State) (b : Fin 7) : KeepsList s (s.releaseBreaker b) := by
  have hopen (r : TripRec) (h : s.releaseAt b r = some .taken) : r.stage ≠ .closed := by
    unfold State.releaseAt at h
    split at h
    · rename_i ho
      exact of_decide_eq_true (Bool.and_eq_true_iff.1 ho).1
    · cases h
  have hcloses (r : TripRec) : s.closesAt b r = true ↔
      s.releaseAt b r = some .taken ∧ (r.take b s.alr.time).stage = .closed := by
    simp [State.closesAt]
  refine trmEvent_keepsList ⟨fun i => ?_⟩
  have hlist := ListOk.release i (f := fun r => if s.releaseAt b r = some .taken then r.take b s.alr.time else r)
    (closes := s.closesAt b) (fun r h => hopen r ((hcloses r).1 h).1) fun r _ => ?_
  · simp only
    split <;> exact hlist
  · obtain ⟨h1, h2, h3, h4⟩ := take_fields r b s.alr.time
    by_cases ht : s.releaseAt b r = some .taken
    · rw [if_pos ht]
      refine ⟨h1, h2, h3, ?_, fun i => h4 ▸ i⟩
      rw [hcloses, or_iff_right (hopen r ht), and_iff_right ht]
    · rw [if_neg ht]
      exact (TripRec.ListedAs.refl r).releasedAs fun hc => ht ((hcloses r).1 hc).1

/-! ### Zones -/

theorem modZone_keepsList (s : State) (z : Zone) (f : ZoneRec → ZoneRec) (hf : ∀ r, (f r).state = r.state) :
    KeepsList s (s.modZone z f) := by
  refine keepsList_of_same rfl (fun y => ?_) rfl
  unfold State.TrippedAt
  show (modAt s.zev.zones z f)[y].state = _ ↔ _
  rw [modAt_get]
  split
  · rename_i h
    rw [hf, h]
  · rfl

/-- A zone that is not TRIPPED takes another state. -/
theorem enterZone_keepsList (s : State) {z : Zone} {st : ZoneState} (h : ¬ s.TrippedAt z) (hst : st ≠ .tripped) :
    KeepsList s (s.enterZone z st) := by
  refine keepsList_of_same rfl (fun y => ?_) rfl
  unfold State.TrippedAt at h ⊢
  show (modAt s.zev.zones z fun r => { r with state := st, entryTime := s.alr.time })[y].state = _ ↔ _
  rw [modAt_get]
  split
  · rename_i hy
    exact iff_of_false hst (hy ▸ h)
  · rfl

theorem modZone_trippedAt (s : State) (z y : Zone) {f : ZoneRec → ZoneRec} (hf : ∀ r, (f r).state = r.state) :
    (s.modZone z f).TrippedAt y ↔ s.TrippedAt y := by
  unfold State.TrippedAt
  show (modAt s.zev.zones z f)[y].state = _ ↔ _
  rw [modAt_get]
  split
  · rename_i h
    rw [hf, h]
  · rfl

theorem enterZone_trippedAt (s : State) (z : Zone) {st : ZoneState} (hst : st ≠ .tripped) :
    ¬ (s.enterZone z st).TrippedAt z := by
  unfold State.TrippedAt
  show ¬ (modAt s.zev.zones z fun r => { r with state := st, entryTime := s.alr.time })[z].state = _
  rw [modAt_same]
  exact hst

theorem raise_keepsList (s : State) (a : Alert) : KeepsList s (s.raise a) := keepsList_aside rfl rfl

/-- A change of a zone's record with a passage to another state. -/
theorem passage_keepsList (s : State) {z : Zone} {f : ZoneRec → ZoneRec} (hf : ∀ r, (f r).state = r.state)
    {st : ZoneState} (h : ¬ s.TrippedAt z) (hst : st ≠ .tripped) : KeepsList s ((s.modZone z f).enterZone z st) :=
  (modZone_keepsList s z f hf).trans (enterZone_keepsList _ (mt (modZone_trippedAt s z z hf).1 h) hst)

section
variable (s : State) {z : Zone} (h : ¬ s.TrippedAt z)
include h

theorem toWaiting_keepsList : KeepsList s (s.toWaiting z) :=
  passage_keepsList s (by intro; rfl) h (by decide)

theorem toQuiet_keepsList : KeepsList s (s.toQuiet z) :=
  passage_keepsList s (by intro; rfl) h (by decide)

theorem toBlocked_keepsList : KeepsList s (s.toBlocked z) :=
  (passage_keepsList s (by intro; rfl) h (by decide)).trans (raise_keepsList _ _)

theorem toSuppressed_keepsList : KeepsList s (s.toSuppressed z) := by
  unfold State.toSuppressed
  simp only
  split
  · exact passage_keepsList s (by intro; rfl) h (by decide)
  · exact (passage_keepsList s (by intro; rfl) h (by decide)).trans (raise_keepsList _ _)

theorem entryFilterExpiry_keepsList : KeepsList s (s.entryFilterExpiry z) := by
  unfold State.entryFilterExpiry
  simp only
  split
  · split
    · exact decideArc_keepsList s h
    · have hdrill := appendDrill_keepsList s z s.zev.zones[z].trigger s.zev.zones[z].degraded
      have hz := appendDrill_zev s z s.zev.zones[z].trigger s.zev.zones[z].degraded
      generalize s.appendDrill z s.zev.zones[z].trigger s.zev.zones[z].degraded = u at hdrill hz ⊢
      have hup : ¬ u.TrippedAt z := by unfold State.TrippedAt; rw [hz]; exact h
      refine hdrill.trans (.trans ?_ (toWaiting_keepsList { u with zev.drill.shown := _ } hup))
      exact keepsList_of_same rfl (fun _ => Iff.rfl) rfl
  · split
    · exact decideArc_keepsList s h
    · exact toWaiting_keepsList s h

theorem toLit_keepsList (ev : Option Chan) : KeepsList s (s.toLit z ev) := by
  unfold State.toLit
  simp only
  split
  · exact (passage_keepsList s (by intro; rfl) h (by decide)).trans
      (entryFilterExpiry_keepsList _ (enterZone_trippedAt _ z (by decide)))
  · exact passage_keepsList s (by intro; rfl) h (by decide)

end

/-- A zone returns to QUIET, and takes the passage to LIT where its vote is satisfied. -/
theorem quietThenLit_keepsList (s : State) {z : Zone} (h : ¬ s.TrippedAt z) (ev : Option Chan) :
    KeepsList s ((s.toQuiet z).toLit z ev) :=
  (toQuiet_keepsList s h).trans (toLit_keepsList _ (enterZone_trippedAt _ z (by decide)) ev)

theorem restrikeFilterExpiry_keepsList (s : State) (z : Zone) : KeepsList s (s.restrikeFilterExpiry z) := by
  unfold State.restrikeFilterExpiry
  simp only
  split
  · exact (restrike_keepsList s z).trans (modZone_keepsList _ z _ (by intro; rfl))
  · exact modZone_keepsList s z _ (by intro; rfl)

theorem startRestrike_keepsList (s : State) (z : Zone) (ev : Option Chan) : KeepsList s (s.startRestrike z ev) := by
  have hmod := modZone_keepsList s z (fun r => { r with
    trigger := triggerOf (s.zonePage z) r.view ev, filter := .running .restrike (s.zonePage z).tzf.val
    phase := some .filtering }) (by intro; rfl)
  unfold State.startRestrike
  simp only
  split
  · exact hmod.trans (restrikeFilterExpiry_keepsList _ z)
  · exact hmod

theorem trippedVote_keepsList (s : State) (z : Zone) (ev : Option Chan) : KeepsList s (s.trippedVote z ev) := by
  unfold State.trippedVote
  simp only
  refine .trans (modZone_keepsList s z (fun r => { r with
    lit := voteSatisfied (s.zonePage z) s.zev.zones[z].view
    degraded := voteDegraded (s.zonePage z) s.zev.zones[z].view }) (by intro; rfl)) ?_
  split
  · exact modZone_keepsList _ z _ (by intro; rfl)
  · exact startRestrike_keepsList _ z ev
  · exact modZone_keepsList _ z _ (by intro; rfl)
  · exact .refl _

theorem up_of_state {s : State} {z : Zone} {st : ZoneState} (h : s.zev.zones[z].state = st) (hst : st ≠ .tripped) :
    ¬ s.TrippedAt z := fun e => hst (h.symm.trans e)

/-- A zone acts on its view in each of its states (R80, R81, R85, R88, R89, R92). -/
theorem reevaluate_keepsList (s : State) (z : Zone) (ev : Option Chan) : KeepsList s (s.reevaluate z ev) := by
  have keep := modZone_keepsList s z (fun r => { r with degraded := voteDegraded (s.zonePage z) r.view })
    (by intro; rfl)
  have judging (h : s.zev.zones[z].state = .lit ∨ s.zev.zones[z].state = .waiting ∨
      s.zev.zones[z].state = .suppressed) (hup : ¬ s.TrippedAt z) : KeepsList s (s.reevaluate z ev) := by
    rw [reevaluate_judging ev h]
    split
    · exact toBlocked_keepsList s hup
    · split
      · exact keep
      · exact toQuiet_keepsList s hup
  cases h : s.zev.zones[z].state with
  | disabled => rw [reevaluate_disabled ev h]; exact .refl s
  | tripped => rw [reevaluate_tripped ev h]; exact trippedVote_keepsList s z ev
  | blocked =>
    rw [reevaluate_blocked ev h]
    split
    · exact .refl s
    · split
      · exact quietThenLit_keepsList s (up_of_state h nofun) ev
      · exact toQuiet_keepsList s (up_of_state h nofun)
  | quiet =>
    rw [reevaluate_quiet ev h]
    split
    · exact toBlocked_keepsList s (up_of_state h nofun)
    · split
      · exact toLit_keepsList s (up_of_state h nofun) ev
      · exact keep
  | lit => exact judging (.inl h) (up_of_state h nofun)
  | waiting => exact judging (.inr (.inl h)) (up_of_state h nofun)
  | suppressed => exact judging (.inr (.inr h)) (up_of_state h nofun)

/-- The end of a drill leaves the states of the zones (R164). -/
theorem endDrill_keepsList (s : State) (why : EndReason) : KeepsList s (s.endDrill why) := by
  obtain ⟨ht, -⟩ := endDrill_kept s why
  have hstate (z : Zone) : (s.zev.drillEnded why).zones[z].state = s.zev.zones[z].state := by rw [drillEnded_zones]
  refine keepsList_of_same (by rw [ht]) (fun z => ?_) ?_
  · unfold State.TrippedAt
    rw [endDrill_zev]
    split
    · rw [hstate]
    · rfl
  · rw [endDrill_zev]
    split <;> rfl

/-! ### The close notice (R94) -/

/-- A zone leaves TRIPPED by a passage as its notice is taken. -/
theorem noticeTaken_keepsList (s : State) {z : Zone} (hz : z ∈ s.zev.notices) {f : ZoneRec → ZoneRec} {st : ZoneState}
    (hst : st ≠ .tripped) :
    KeepsList s ((({ s with zev.notices := s.zev.notices.erase z } : State).modZone z f).enterZone z st) := by
  refine ⟨fun i => i.noticeTaken hz fun y => ?_⟩
  unfold State.TrippedAt
  show (modAt (modAt s.zev.zones z f) z fun r => { r with state := st, entryTime := s.alr.time })[y].state = _ ↔ _
  rw [modAt_modAt, modAt_get]
  by_cases hy : y = z
  · rw [if_pos hy]
    exact iff_of_false hst fun h => h.1 hy
  · rw [if_neg hy]
    exact (and_iff_right hy).symm

/-- A zone with a notice on its way is TRIPPED, and leaves TRIPPED as it takes the notice (R94). -/
theorem closeNotice_keepsList (s : State) (z : Zone) : KeepsList s (s.closeNotice z) := by
  refine ⟨fun i => ?_⟩
  unfold State.closeNotice
  split
  · rename_i hz
    have htripped : s.zev.zones[z].state = .tripped := (i.tripped z).2 (.inr hz)
    have hquiet (f : ZoneRec → ZoneRec) :
        KeepsList s ((({ s with zev.notices := s.zev.notices.erase z } : State).modZone z f).toQuiet z) := by
      unfold State.toQuiet
      rw [modZone_modZone]
      exact noticeTaken_keepsList s hz (by decide)
    simp only [htripped, if_true]
    unfold State.leaveTripped
    simp only
    refine KeepsList.keeps ?_ i
    split
    · rw [modZone_modZone]
      exact noticeTaken_keepsList s hz (by decide)
    · split
      · unfold State.toBlocked
        rw [modZone_modZone]
        exact (noticeTaken_keepsList s hz (by decide)).trans (raise_keepsList _ _)
      · split
        · exact (hquiet _).trans (toLit_keepsList _ (enterZone_trippedAt _ z (by decide)) none)
        · exact hquiet _
  · exact i

end Sys2Proof.Machine
end

section
/-! PROOFS. The list of records through what each command does (R90, R94, R98, R99, R139, R145); O56. -/

namespace Sys2Proof.Machine

theorem KeepsList.after {s t u : State} (h : KeepsList t u) (hr : t.trm.records = s.trm.records) (hz : t.zev = s.zev) :
    KeepsList s u := (keepsList_aside hr hz).trans h

/-! ### Channels and supervision -/

/-- An event at the LCU reaches the zones by its status event only (R7, R76). -/
theorem lcuEvent_keepsList {s : State} (n : Chan) {f : State → State} (h : KeepsList s (f s)) :
    KeepsList s (s.lcuEvent n f) := by
  refine h.trans ?_
  unfold State.lcuEvent
  simp only
  split
  · exact .refl _
  · split
    · exact .refl _
    · exact (modZone_keepsList (f s) _ _ (by intro; rfl)).trans (reevaluate_keepsList _ _ _)

theorem modChanEvent_keepsList (s : State) (n : Chan) (f : State → Channel → Channel) :
    KeepsList s (s.lcuEvent n fun s => s.modChan n (f s)) := lcuEvent_keepsList n (keepsList_aside rfl rfl)

theorem offerPeak_keepsList (s : State) (n : Chan) (v : LU) : KeepsList s (s.offerPeak n v) := by
  rw [offerPeak_eq]
  exact keepsList_of_map rfl (peaked_listedAs s n v) rfl

theorem pickupAborts_zev (s : State) (n : Chan) : (s.pickupAborts n).zev = s.zev := by
  unfold State.pickupAborts
  split
  · rfl
  · split
    · exact abortTest_zev s
    · rfl

theorem evaluated_keepsList (s : State) (n : Chan) (v : LU) : KeepsList s (s.evaluated n v) := by
  refine (offerPeak_keepsList s n v).trans ?_
  unfold State.evaluated
  simp only
  generalize s.offerPeak n v = u
  split
  · obtain ⟨-, ht, -, hz⟩ := pickupSample_beside u n v
    exact keepsList_aside (by rw [ht]) hz
  · split
    · exact keepsList_aside (by rw [pickupAborts_trm]; rfl) (pickupAborts_zev _ n)
    · exact keepsList_aside rfl rfl

theorem classify_keepsList (s : State) (n : Chan) (o : TestOutcome) (c : Nat) : KeepsList s (s.classify n o c) := by
  have halert (u : State) (x : Clarity) : KeepsList u (u.alertClarity x) := by
    unfold State.alertClarity
    split
    · exact raise_keepsList u _
    · exact .refl u
  have hclarity : KeepsList s (s.modClarity n fun r => r.classify s.cfg.active.board o c) := keepsList_aside rfl rfl
  rw [classify_eq]
  simp only
  split
  · exact hclarity
  · split
    · exact hclarity.trans (halert _ _)
    · exact (hclarity.trans (halert _ _)).trans (keepsList_aside rfl rfl)

theorem completed_keepsList (s : State) (run : TestRun) : KeepsList s (s.completed run) := by
  have hjudge (u : State) : KeepsList u (u.judge run) := by
    unfold State.judge
    simp only
    split
    · exact keepsList_aside rfl rfl
    · exact classify_keepsList u _ _ _
  have hcapture (u : State) (o : TestOutcome) (a : LU) : KeepsList u (u.endCapture run.chan o a) := by
    unfold State.endCapture
    split <;> exact keepsList_aside rfl rfl
  have hover : KeepsList s (s.testOver run) := keepsList_aside rfl rfl
  unfold State.completed
  simp only
  refine KeepsList.trans ?_ (keepsList_aside (s := ite _ _ _) rfl rfl)
  split
  · exact (hover.trans (hjudge _)).trans (hcapture _ _ _)
  · exact hover.trans (hjudge _)

theorem completeTest_keepsList (s : State) : KeepsList s s.completeTest := by
  cases h : s.fsu.test with
  | none => unfold State.completeTest; rw [h]; exact .refl s
  | some run =>
    rw [completeTest_eq h]
    exact lcuEvent_keepsList _ (completed_keepsList s run)

theorem testSample_keepsList (s : State) (n : Chan) (v : LU) : KeepsList s (s.testSample n v) := by
  unfold State.testSample
  split
  · exact .refl s
  · split
    · exact .refl s
    · simp only
      split
      · exact (completeTest_keepsList _).after rfl rfl
      · exact keepsList_aside rfl rfl

theorem takeSample_keepsList (s : State) (n : Chan) (v : LU) : KeepsList s (s.takeSample n v) := by
  unfold State.takeSample
  split
  · exact .refl s
  · split
    · exact testSample_keepsList s n v
    · exact lcuEvent_keepsList n (f := fun s => s.evaluated n v) (evaluated_keepsList s n v)

theorem serveQueue_trm (q : List Request) (s : State) : (s.serveQueue q).trm = s.trm := by
  induction q generalizing s with
  | nil => rfl
  | cons r rest ih =>
    unfold State.serveQueue
    split
    · exact ih _
    · split <;> rfl

theorem scan_trm (ns : List Chan) (s : State) : (s.scan ns).trm = s.trm := by
  have hdefer (s : State) (n : Chan) : (s.deferChan n).trm = s.trm := by
    unfold State.deferChan
    split <;> rfl
  induction ns generalizing s with
  | nil => rfl
  | cons n ns ih =>
    unfold State.scan
    split
    · rfl
    · exact (ih _).trans (hdefer s n)

theorem slotExpiry_trm (s : State) : s.slotExpiry.trm = s.trm := by
  have serve (t : State) : t.serveSlot.trm = t.trm := by
    unfold State.serveSlot
    simp only
    split
    · exact serveQueue_trm _ t
    · exact (scan_trm _ _).trans (serveQueue_trm _ t)
  unfold State.slotExpiry
  split
  · simp only
    split
    · rfl
    · exact serve _
  · rfl

/-! ### Decisions one after another (R84, R91, R130) -/

theorem foldl_keepsList {α : Type} (f : State → α → State) (hf : ∀ s a, KeepsList s (f s a)) (as : List α) (s : State) :
    KeepsList s (as.foldl f s) := by
  induction as generalizing s with
  | nil => exact .refl s
  | cons a as ih => exact (hf s a).trans (ih _)

/-- Zones that are not TRIPPED decide one after another, each once. -/
theorem decideAll_keepsList {zs : List Zone} (hn : zs.Nodup) (s : State) (h : ∀ z ∈ zs, ¬ s.TrippedAt z) :
    KeepsList s (s.decideAll zs) := by
  induction zs generalizing s with
  | nil => exact .refl s
  | cons z zs ih =>
    obtain ⟨hz, hn⟩ := List.nodup_cons.1 hn
    refine (decideArc_keepsList s (h z List.mem_cons_self)).trans (ih hn (s.decideArc z) fun y hy => ?_)
    have hne : y ≠ z := fun e => hz (e ▸ hy)
    unfold State.TrippedAt
    rw [decideArc_zev, decided_zones, if_neg hne]
    exact h y (List.mem_cons_of_mem _ hy)

theorem deciders_up {s : State} {z : Zone} (h : z ∈ s.deciders) : ¬ s.TrippedAt z :=
  up_of_state ((mem_deciders s z).1 h).1 (by decide)

theorem askConfirmation_keepsList (s : State) : KeepsList s s.askConfirmation := by
  obtain ⟨zs, n, h, hp⟩ := askConfirmation_eq s
  rw [h]
  refine KeepsList.after (t := { s with freeTick := n }) ?_ rfl rfl
  exact decideAll_keepsList (hp.nodup_iff.2 (deciders_nodup s)) _ fun z hz => deciders_up (s := s) (hp.mem_iff.1 hz)

/-- As `askConfirmation_keepsList`, with evidence among the decisions that leaves the zones. -/
theorem askConfirmationWith_keepsList (s : State) {evidence : State → State}
    (h : ∀ t, KeepsList t (evidence t) ∧ (evidence t).zev = t.zev) : KeepsList s (s.askConfirmationWith evidence) := by
  unfold State.askConfirmationWith
  simp only
  split
  · exact (h s).1
  · have hp := orderZones_perm (Config.zoneRank s.freeTick) s.deciders
    generalize orderZones (Config.zoneRank s.freeTick) s.deciders = order at hp ⊢
    generalize Config.decisionsBeforeEvidence s.freeTick = n
    have hn : (order.take n ++ order.drop n).Nodup :=
      (List.take_append_drop n order).symm ▸ hp.nodup_iff.2 (deciders_nodup s)
    obtain ⟨htake, hdrop, hapart⟩ := List.nodup_append.1 hn
    have hup (z : Zone) (hz : z ∈ order) : ¬ s.TrippedAt z := deciders_up (hp.mem_iff.1 hz)
    have h1 := decideAll_keepsList htake { s with freeTick := s.freeTick + 1 } fun z hz =>
      hup z (List.mem_of_mem_take hz)
    refine KeepsList.after (t := { s with freeTick := s.freeTick + 1 }) (h1.trans ((h _).1.trans ?_)) rfl rfl
    refine decideAll_keepsList hdrop _ fun z hz => ?_
    have hz' : z ∉ order.take n := fun e => hapart z e z hz rfl
    unfold State.TrippedAt
    rw [(h _).2, decideAll_zev, decidedAll_zones, if_neg hz']
    exact hup z (List.mem_of_mem_drop hz)

theorem couplerEvidence_keepsList (s : State) (before : Vector CouplerRec 3) : KeepsList s (s.couplerEvidence before) :=
  foldl_keepsList _ (fun t j => openEvidence_keepsList t (.tc j)) _ s

theorem topHandOff_keepsList (s : State) (before : Vector CouplerRec 3) : KeepsList s (s.topHandOff before) := by
  unfold State.topHandOff
  simp only
  split
  · exact couplerEvidence_keepsList s before
  · exact (couplerEvidence_keepsList s before).trans (askConfirmation_keepsList _)

theorem topResolve_keepsList (s : State) (which : Coupler → Bool) : KeepsList s (s.topResolve which) := by
  rw [topResolve_eq]
  exact keepsList_aside rfl rfl

theorem takeReport_keepsList (s : State) (p : Port) (v : ReportRec) : KeepsList s (s.takeReport p v) := by
  have h0 : KeepsList s ((s.setReport p (takenReport s.cfg.active p v)).topResolve (adjacent p)) :=
    (topResolve_keepsList _ _).after rfl rfl
  have inc (t : State) : KeepsList t (t.incomerPosition p v.incomer) ∧ (t.incomerPosition p v.incomer).zev = t.zev := by
    unfold State.incomerPosition
    split
    · exact ⟨openEvidence_keepsList t _, rfl⟩
    · exact ⟨.refl t, rfl⟩
  unfold State.takeReport
  simp only
  split
  · exact h0.trans ((couplerEvidence_keepsList _ _).trans (askConfirmationWith_keepsList _
      (evidence := fun t => t.incomerPosition p v.incomer) inc))
  · exact h0.trans ((topHandOff_keepsList _ _).trans (inc _).1)

theorem cpChange_keepsList (s : State) (k : Incomer) (active : Bool) : KeepsList s (s.cpChange k active) := by
  have h0 : KeepsList s (s.setCp k active) := keepsList_aside rfl rfl
  unfold State.cpChange
  split
  · exact .refl s
  · simp only
    split
    · exact h0.trans (askConfirmation_keepsList _)
    · exact (h0.trans (openEvidence_keepsList _ _)).trans (askConfirmation_keepsList _)

/-! ### Zones placed anew (R98, R99, R179) -/

theorem placedState_up (page : ZonePage) (v : Vector MemberStatus 6) : placedState page v ≠ .tripped := by
  unfold placedState
  split
  · decide
  · split <;> decide

/-- A zone stays TRIPPED as it is placed, and does not come to be (R98, R99). -/
theorem placeAll_keepsList (s : State) : KeepsList s s.placeAll := by
  obtain ⟨ht, -⟩ := placeAll_kept s
  refine keepsList_of_same (by rw [ht]) (fun z => ?_) (by rw [placeAll_zev])
  unfold State.TrippedAt
  rw [placeAll_zone]
  by_cases h : s.zev.zones[z].state = .tripped
  · rw [placed_tripped _ _ _ h]
  · rw [placed_resting _ _ _ h]
    exact iff_of_false (placedState_up _ _) h

theorem startPlaced_keepsList (s : State) (z : Zone) : KeepsList s (s.startPlaced z) := by
  unfold State.startPlaced
  simp only
  split
  · exact .refl s
  · split
    · rename_i hq
      exact toLit_keepsList s (up_of_state hq (by decide)) none
    · exact startRestrike_keepsList s z none
    · exact .refl s

theorem placeZones_keepsList (s : State) : KeepsList s s.placeZones := by
  obtain ⟨order, n, h, -⟩ := startAllPlaced_eq s.placeAll
  have hall (t : State) (zs : List Zone) : KeepsList t (t.startAll zs) := foldl_keepsList _ startPlaced_keepsList zs t
  unfold State.placeZones
  rw [h]
  exact (placeAll_keepsList s).trans ((hall _ _).trans ((hall _ order).after rfl rfl))

theorem releaseClaim_trm (s : State) : s.releaseClaim.trm = s.trm := by
  unfold State.releaseClaim State.capturesLoseClaim
  simp only
  split <;> rfl

theorem releaseClaim_keepsList (s : State) : KeepsList s s.releaseClaim :=
  keepsList_aside (by rw [releaseClaim_trm]) (releaseClaim_zev s)

theorem takeUpStaged_keepsList (s : State) : KeepsList s s.takeUpStaged := by
  obtain ⟨lcu, fsu, quiet, due, h⟩ := channelsTaken_shape s
  have h1 : KeepsList s (s.channelsTaken.boardSet s.cfg.active) := by
    rw [h]
    exact keepsList_aside rfl rfl
  exact (h1.trans (topResolve_keepsList _ _)).trans (topHandOff_keepsList _ _)

theorem makeTransfer_keepsList (s : State) : KeepsList s s.makeTransfer := by
  have hleavers (t : State) (ps : List Port) : KeepsList t (t.noteLeavers ps) :=
    foldl_keepsList _ (fun t p => keepsList_aside (t := t.raiseOthers .peerStale p) rfl rfl) ps t
  have h : KeepsList s s.transferred := (((takeUpStaged_keepsList s).trans (hleavers _ _)).trans
    (endDrill_keepsList _ _)).trans (placeZones_keepsList _)
  have hclaim (t : State) : KeepsList t t.lapseUnused := by
    unfold State.lapseUnused
    split
    · split
      · exact .refl t
      · exact releaseClaim_keepsList t
    · exact .refl t
  have last : KeepsList s.transferred.lapseUnused s.makeTransfer := by
    unfold State.makeTransfer
    generalize s.transferred.lapseUnused = t
    exact keepsList_aside rfl rfl
  exact (h.trans (hclaim _)).trans last

theorem transferIfDue_keepsList (s : State) : KeepsList s s.transferIfDue := by
  unfold State.transferIfDue
  split
  · exact makeTransfer_keepsList s
  · exact .refl s

/-! ### Reset, time and the write engine -/

theorem listOk_of_restored {rs : List TripRec} {down : Zone → Prop} (hl : rs.length ≤ 1)
    (h : ∀ r ∈ rs, r.kind = .restored ∧ r.entries = []) (hup : ∀ z, ¬ down z) : ListOk rs down [] := by
  have hkind (r : TripRec) (hr : r ∈ rs) {k : RecKind} (hk : r.kind = k) : k = .restored := hk.symm.trans (h r hr).1
  have harc (z : Zone) : ¬ ∃ r ∈ rs, r.ArcOf z := fun ⟨r, hr, ha⟩ => nomatch hkind r hr ha.1
  refine ⟨hl.trans (by decide), ?_, fun r hr => ?_, fun r hr hk => (nomatch hkind r hr hk),
    fun r hr hk => (nomatch hkind r hr hk), (List.length_filter_le _ _).trans hl, List.nodup_nil,
    fun z => (List.length_filter_le _ _).trans hl, fun z => ?_, fun z ha => absurd ha (harc z)⟩
  · exact List.nodup_iff_count_le_one.2 fun _ => List.count_le_length.trans ((List.length_map _).trans_le hl)
  · rw [(h r hr).2]
    exact List.nodup_nil
  · exact iff_of_false (hup z) fun e => e.elim (harc z) List.not_mem_nil

/-- After reset no zone is TRIPPED, and the list holds at most the RESTORED record (R100, R145). -/
theorem powerOn_listKept (s : State) : s.powerOn.ListKept := by
  obtain ⟨-, -, -, -, hzev, -⟩ := powerOn_placed s
  have hrec : s.powerOn.trm.records = s.placedAtReset.trm.records := by
    unfold State.powerOn
    simp only
    split <;> split
    · rfl
    · rfl
    · exact (requestWord_kept _ _).1
    · exact (requestWord_kept _ _).1
  have hlist : s.placedAtReset.trm.records = [] ∨ ∃ b, s.placedAtReset.trm.records = [TripRec.restored b] := by
    show (Trm.atReset s.nv).records = [] ∨ ∃ b, (Trm.atReset s.nv).records = _
    unfold Trm.atReset
    simp only
    split
    · exact .inl rfl
    · exact .inr ⟨_, rfl⟩
  have hup (z : Zone) : ¬ s.powerOn.TrippedAt z := by
    unfold State.TrippedAt
    rw [hzev, show s.placedAtReset.zev.zones[z] = _ from ofFn_get _ z]
    exact placedState_up _ _
  have hn : s.powerOn.zev.notices = [] := by rw [hzev]; rfl
  unfold State.ListKept
  rw [hrec, hn]
  rcases hlist with h | ⟨b, h⟩ <;> rw [h]
  · exact listOk_of_restored (by decide) (by simp) hup
  · exact listOk_of_restored le_rfl (by simp [TripRec.restored]) hup

/-- A change of every zone record alike that leaves the states. -/
theorem modAllZones_keepsList {s t : State} (f : ZoneRec → ZoneRec) (hr : t.trm.records = s.trm.records)
    (hz : t.zev.zones = modAll s.zev.zones f) (hf : ∀ r, (f r).state = r.state) (hn : t.zev.notices = s.zev.notices) :
    KeepsList s t :=
  keepsList_of_same hr (fun z => by unfold State.TrippedAt; rw [hz, modAll_get, hf]) hn

theorem engineNext_keepsList (s : State) : KeepsList s s.engineNext := by
  refine keepsList_aside ?_ (engineNext_zev s)
  unfold State.engineNext
  split
  · split
    · rfl
    · split <;> rfl
  · rfl
  · rfl

theorem tick_keepsList (s : State) : KeepsList s s.tick := by
  have hrec (r : TripRec) : r.ListedAs r.tick :=
    ⟨rfl, rfl, rfl, Iff.rfl, fun h => by unfold TripRec.tick; rw [targets_map fun e => by rfl]; exact h⟩
  refine KeepsList.trans (t := { s with trm.records := s.trm.records.map TripRec.tick }) ?_ ?_
  · exact keepsList_of_map rfl hrec rfl
  · exact modAllZones_keepsList ZoneRec.tick rfl rfl (fun _ => rfl) rfl

/-- An operation that only one condition lets act. -/
theorem ite_keepsList {s t : State} (c : Prop) [Decidable c] (h : KeepsList s t) :
    KeepsList s (if c then t else s) := by
  split
  · exact h
  · exact .refl s

theorem filterExpiry_keepsList (s : State) (z : Zone) : KeepsList s (s.filterExpiry z) := by
  unfold State.filterExpiry
  split
  · rename_i h
    rw [Bool.and_eq_true, decide_eq_true_iff] at h
    exact entryFilterExpiry_keepsList s (up_of_state h.1 (by decide))
  · exact .refl s

theorem confirmExpiry_keepsList (s : State) (z : Zone) : KeepsList s (s.confirmExpiry z) := by
  unfold State.confirmExpiry
  split
  · rename_i h
    rw [Bool.and_eq_true, decide_eq_true_iff] at h
    exact toSuppressed_keepsList s (up_of_state h.1 (by decide))
  · exact .refl s

theorem wordWriteEnd_keepsList (s : State) (rb : ReadBack LockWord) : KeepsList s (s.wordWriteEnd rb) :=
  ite_keepsList _ ((engineNext_keepsList _).after rfl rfl)

theorem saveWriteEnd_keepsList (s : State) (rb : ReadBack NvCopy) : KeepsList s (s.saveWriteEnd rb) := by
  unfold State.saveWriteEnd
  split
  · exact (engineNext_keepsList _).after rfl rfl
  · exact .refl s

/-! ### Frames and port timers -/

theorem modPort_keepsList (s : State) (p : Port) (f : PortRec → PortRec) : KeepsList s (s.modPort p f) :=
  keepsList_aside rfl rfl

theorem setSlot_keepsList (s : State) (p : Port) (r : Reply) : KeepsList s (s.setSlot p r) := keepsList_aside rfl rfl

theorem openFrame_keepsList (s : State) (p : Port) (b : Bool) : KeepsList s (s.openFrame p b) :=
  ite_keepsList _ (modPort_keepsList s p _)

theorem receive_keepsList (s : State) (p : Port) (n : Nat) (b : Bool) (w : BitVec 40) :
    KeepsList s (s.receive p n b w) := (openFrame_keepsList s p false).trans (modPort_keepsList _ p _)

theorem riseSelect_keepsList (s : State) (p : Port) (k : State → State) (hk : ∀ t, KeepsList t (k t)) :
    KeepsList s (s.riseSelect p k) := by
  have h := modPort_keepsList s p PortRec.closeFrame
  unfold State.riseSelect
  simp only
  split
  · exact h
  · exact h.trans (modPort_keepsList _ p _)
  · exact (h.trans (modPort_keepsList _ p fun q => { q with frameErr := false })).trans (hk _)

theorem goodFrame_keepsList (s : State) (p : Port) (c : BitVec 4) (f : Fields) (k : State → State)
    (hk : ∀ t, KeepsList t (k t)) : KeepsList s (s.goodFrame p c f k) :=
  ite_keepsList _ ((receive_keepsList s p _ _ _).trans (riseSelect_keepsList _ p k hk))

theorem function_keepsList (s : State) (p : Port) (fn : Fn) (f : Fields) (body : State → State)
    (hb : ∀ t, KeepsList t (body t)) : KeepsList s (s.function p fn f body) := by
  refine goodFrame_keepsList s p _ _ _ fun t => ?_
  split
  · exact hb t
  · split <;> exact setSlot_keepsList t p _

theorem rejectFrame_keepsList (s : State) (p : Port) (n : Byte) (b : Bool) (w : BitVec 40) :
    KeepsList s (s.rejectFrame p n b w) := by
  refine ite_keepsList _ ?_
  split
  · exact (receive_keepsList s p _ _ _).trans (riseSelect_keepsList _ p id .refl)
  · exact .refl s
  · exact .refl s

theorem emptyPulse_keepsList (s : State) (p : Port) : KeepsList s (s.emptyPulse p) :=
  ite_keepsList _ ((openFrame_keepsList s p false).trans (riseSelect_keepsList _ p id .refl))

theorem endOwnedDrill_keepsList (s : State) (p : Port) : KeepsList s (s.endOwnedDrill p) := by
  unfold State.endOwnedDrill
  split
  · exact endDrill_keepsList s _
  · exact .refl s

theorem dropReport_keepsList (s : State) (p : Port) : KeepsList s (s.dropReport p) := by
  refine KeepsList.trans ?_ (topHandOff_keepsList _ _)
  exact (topResolve_keepsList (s.setReport p ReportRec.empty) _).after rfl rfl

theorem leaveLive_keepsList (s : State) (p : Port) : KeepsList s (s.leaveLive p) := by
  have last (t : State) : KeepsList t ((t.lapseClaim p).raiseOthers .peerStale p) := by
    refine KeepsList.trans (t := t.lapseClaim p) ?_ (keepsList_aside rfl rfl)
    unfold State.lapseClaim
    split
    · exact releaseClaim_keepsList t
    · exact .refl t
  have drillFirst (t : State) : KeepsList t ((t.endOwnedDrill p).dropReport p) :=
    (endOwnedDrill_keepsList t p).trans (dropReport_keepsList _ p)
  have reportFirst (t : State) : KeepsList t ((t.dropReport p).endOwnedDrill p) :=
    (dropReport_keepsList t p).trans (endOwnedDrill_keepsList _ p)
  have port := modPort_keepsList s p fun r => r.enter .stale .stopped .stopped
  unfold State.leaveLive
  simp only
  refine KeepsList.trans ?_ (last _)
  split
  · split
    · exact port.trans ((drillFirst _).after rfl rfl)
    · exact port.trans ((reportFirst _).after rfl rfl)
  · exact port.trans (reportFirst _)

/-! ### Requests and CONTROL subfunctions -/

theorem writeBody_keepsList (s : State) (p : Port) (f : Fields) : KeepsList s (s.writeBody p f) := by
  unfold State.writeBody
  split
  · exact setSlot_keepsList s p _
  · split
    · exact setSlot_keepsList s p _
    · split <;> exact keepsList_aside rfl rfl

theorem claimBody_keepsList (s : State) (p : Port) : KeepsList s (s.claimBody p) := by
  unfold State.claimBody
  split
  · exact keepsList_aside rfl rfl
  · split <;> exact setSlot_keepsList s p _

theorem yieldBody_keepsList (s : State) (p : Port) : KeepsList s (s.yieldBody p) := by
  unfold State.yieldBody
  split
  · exact (releaseClaim_keepsList s).trans (setSlot_keepsList _ p _)
  · exact setSlot_keepsList s p _

theorem acceptCommit_keepsList (s : State) (p : Port) : KeepsList s (s.acceptCommit p) := by
  unfold State.acceptCommit
  simp only
  split
  · refine KeepsList.trans ?_ (setSlot_keepsList _ p _)
    exact (transferIfDue_keepsList _).after rfl rfl
  · exact keepsList_aside rfl rfl

theorem commitBody_keepsList (s : State) (p : Port) : KeepsList s (s.commitBody p) := by
  unfold State.commitBody
  split
  · exact setSlot_keepsList s p _
  · split
    · exact setSlot_keepsList s p _
    · split
      · exact keepsList_aside rfl rfl
      · exact acceptCommit_keepsList s p

theorem reportBody_keepsList (s : State) (p : Port) (f : Fields) : KeepsList s (s.reportBody p f) := by
  unfold State.reportBody
  split
  · exact setSlot_keepsList s p _
  · exact ((modPort_keepsList s p _).trans (takeReport_keepsList _ p _)).trans (setSlot_keepsList _ p _)

theorem releaseBody_keepsList (s : State) (p : Port) (f : Fields) : KeepsList s (s.releaseBody p f) := by
  unfold State.releaseBody
  split
  · simp only
    split
    · exact (releaseBreaker_keepsList s _).trans (setSlot_keepsList _ p _)
    · exact setSlot_keepsList s p _
  · exact setSlot_keepsList s p _

theorem recordBody_keepsList (s : State) (p : Port) (f : Fields) : KeepsList s (s.recordBody p f) := by
  unfold State.recordBody
  split
  · exact setSlot_keepsList s p _
  · split <;> exact keepsList_aside rfl rfl

theorem seenBody_keepsList (s : State) (p : Port) (f : Fields) : KeepsList s (s.seenBody p f) := by
  unfold State.seenBody
  split
  · exact setSlot_keepsList s p _
  · split
    · exact setSlot_keepsList s p _
    · refine KeepsList.trans ?_ (setSlot_keepsList _ p _)
      exact keepsList_of_map rfl (fun r => .ite _ fun _ => ⟨rfl, rfl, rfl, Iff.rfl, id⟩) rfl

theorem relearnBody_keepsList (s : State) (p : Port) (v : Word) : KeepsList s (s.relearnBody p v) := by
  unfold State.relearnBody
  split
  · exact setSlot_keepsList s p _
  · split
    · exact setSlot_keepsList s p _
    · split
      · exact setSlot_keepsList s p _
      · exact (modChanEvent_keepsList s _ fun s c => c.relearn (s.chanPage _) s.tLearn).trans (setSlot_keepsList _ p _)

theorem testBody_keepsList (s : State) (p : Port) (v : Word) : KeepsList s (s.testBody p v) := by
  unfold State.testBody
  split
  · exact setSlot_keepsList s p _
  · split
    · exact setSlot_keepsList s p _
    · split
      · exact setSlot_keepsList s p _
      · split <;> exact keepsList_aside rfl rfl

theorem captureBody_keepsList (s : State) (p : Port) (v : Word) : KeepsList s (s.captureBody p v) := by
  have queued (n : Chan) : KeepsList s (s.queueCapture p n) := by
    unfold State.queueCapture
    split
    · split <;> exact keepsList_aside rfl rfl
    · split <;> exact keepsList_aside rfl rfl
  unfold State.captureBody
  split
  · exact setSlot_keepsList s p _
  · repeat'
      split
      · exact setSlot_keepsList s p _
    exact queued _

theorem drillStartBody_keepsList (s : State) (p : Port) (v : Word) : KeepsList s (s.drillStartBody p v) := by
  have start (z : Zone) : KeepsList s (s.startDrill p z) :=
    (modZone_keepsList s z (fun r => { r with drill := true }) (by intro; rfl)).trans
      (keepsList_of_same rfl (fun _ => Iff.rfl) rfl)
  unfold State.drillStartBody
  split
  · exact setSlot_keepsList s p _
  · split
    · exact setSlot_keepsList s p _
    · split
      · exact setSlot_keepsList s p _
      · exact (start _).trans (setSlot_keepsList _ p _)

theorem drillEndBody_keepsList (s : State) (p : Port) : KeepsList s (s.drillEndBody p) := by
  unfold State.drillEndBody
  split
  · exact setSlot_keepsList s p _
  · split
    · exact setSlot_keepsList s p _
    · exact (endDrill_keepsList s _).trans (setSlot_keepsList _ p _)

theorem saveBody_keepsList (s : State) (p : Port) : KeepsList s (s.saveBody p) := by
  unfold State.saveBody
  split
  · exact setSlot_keepsList s p _
  · refine KeepsList.trans ?_ (setSlot_keepsList _ p _)
    exact (engineNext_keepsList _).after rfl rfl

theorem zeroCounters_keepsList (s : State) : KeepsList s s.zeroCounters :=
  modAllZones_keepsList (fun r => { r with nuisance := 0 }) rfl rfl (fun _ => rfl) rfl

theorem defaultStagedBody_keepsList (s : State) (p : Port) : KeepsList s (s.defaultStagedBody p) := by
  unfold State.defaultStagedBody
  split
  · exact setSlot_keepsList s p _
  · split <;> exact keepsList_aside rfl rfl

/-! ### Every command -/

theorem KeepsList.of_next {s t u : State} (h : (Host.Outcome.next u : Host.Outcome State Fault Refusal) = .next t)
    (k : KeepsList s u) : KeepsList s t := Host.Outcome.next.inj h ▸ k

theorem minPulseOver_target (e : Entry) : e.minPulseOver.target = e.target := by
  unfold Entry.minPulseOver
  split <;> rfl

/-- Every command keeps the list; RESET begins one. -/
theorem exec_keepsList {c : Instr} {s t : State} (h : exec c s = .next t) : KeepsList s t := by
  have frame := function_keepsList s
  cases c with
  | reset => exact .of_next h ⟨fun _ => powerOn_listKept s⟩
  | millisecondTick => exact .of_next h (tick_keepsList s)
  | lightSample n v => exact .of_next h (takeSample_keepsList s n v)
  | learningWindowExpiry n =>
    exact .of_next h (ite_keepsList _ (modChanEvent_keepsList s n fun s c => c.learned (s.chanPage n)))
  | stormWindowExpiry n =>
    exact .of_next h (ite_keepsList _ (modChanEvent_keepsList s n fun s c => c.stormExpiry (s.chanPage n) s.tLearn))
  | slotTimerExpiry => exact .of_next h (keepsList_aside (by rw [slotExpiry_trm]) (slotExpiry_zev s))
  | testWindowExpiry => exact .of_next h (completeTest_keepsList s)
  | cpLineChange k active => exact .of_next h (cpChange_keepsList s k active)
  | filterExpiry z => exact .of_next h (filterExpiry_keepsList s z)
  | confirmWindowExpiry z => exact .of_next h (confirmExpiry_keepsList s z)
  | restrikeFilterExpiry z => exact .of_next h (ite_keepsList _ (restrikeFilterExpiry_keepsList s z))
  | closeNotice z => exact .of_next h (closeNotice_keepsList s z)
  | minPulseExpiry seq tg =>
    exact .of_next h (ite_keepsList _ (advanceEntry_keepsList s seq tg _ minPulseOver_target))
  | breakerFailExpiry seq tg => exact .of_next h (ite_keepsList _ (failBreaker_keepsList s seq tg))
  | coilExpiry seq tg => exact .of_next h (ite_keepsList _ (advanceEntry_keepsList s seq tg _ fun _ => rfl))
  | pulseExpiry seq k => exact .of_next h (ite_keepsList _ (advanceEntry_keepsList s seq (.ut k) _ fun _ => rfl))
  | lockoutWordWriteEnd rb => exact .of_next h (wordWriteEnd_keepsList s rb)
  | saveWriteEnd rb => exact .of_next h (saveWriteEnd_keepsList s rb)
  | selectTimeout p => exact .of_next h (ite_keepsList _ (modPort_keepsList s p _))
  | frameRejected p edges sckHigh bits => exact .of_next h (rejectFrame_keepsList s p edges sckHigh bits)
  | unknownFunction p code f =>
    exact .of_next h (ite_keepsList _ (goodFrame_keepsList s p code f _ fun u => setSlot_keepsList u p _))
  | fetch p f => exact .of_next h (frame p _ _ _ .refl)
  | read p f => exact .of_next h (frame p _ _ _ fun _ => keepsList_aside rfl rfl)
  | readStaged p f => exact .of_next h (frame p _ _ _ fun u => setSlot_keepsList u p _)
  | write p f => exact .of_next h (frame p _ _ _ fun u => writeBody_keepsList u p f)
  | report p f => exact .of_next h (frame p _ _ _ fun u => reportBody_keepsList u p f)
  | claim p f => exact .of_next h (frame p _ _ _ fun u => claimBody_keepsList u p)
  | yield p f => exact .of_next h (frame p _ _ _ fun u => yieldBody_keepsList u p)
  | commit p f => exact .of_next h (frame p _ _ _ fun u => commitBody_keepsList u p)
  | release p f => exact .of_next h (frame p _ _ _ fun u => releaseBody_keepsList u p f)
  | record p f => exact .of_next h (frame p _ _ _ fun u => recordBody_keepsList u p f)
  | seen p f => exact .of_next h (frame p _ _ _ fun u => seenBody_keepsList u p f)
  | clearAlerts p f => exact .of_next h (frame p _ _ _ fun _ => keepsList_aside rfl rfl)
  | setMask p f => exact .of_next h (frame p _ _ _ fun _ => keepsList_aside rfl rfl)
  | relearn p page v => exact .of_next h (frame p _ _ _ fun u => relearnBody_keepsList u p v)
  | test p page v => exact .of_next h (frame p _ _ _ fun u => testBody_keepsList u p v)
  | capture p page v => exact .of_next h (frame p _ _ _ fun u => captureBody_keepsList u p v)
  | drillStart p page v => exact .of_next h (frame p _ _ _ fun u => drillStartBody_keepsList u p v)
  | drillEnd p page v => exact .of_next h (frame p _ _ _ fun u => drillEndBody_keepsList u p)
  | save p page v => exact .of_next h (frame p _ _ _ fun u => saveBody_keepsList u p)
  | clearCounters p page v =>
    exact .of_next h (frame p _ _ _ fun u => (zeroCounters_keepsList u).trans (setSlot_keepsList _ p _))
  | defaultStaged p page v => exact .of_next h (frame p _ _ _ fun u => defaultStagedBody_keepsList u p)
  | drillWindowExpiry => exact .of_next h (ite_keepsList _ (endDrill_keepsList s _))
  | heartbeatExpiry p => exact .of_next h (ite_keepsList _ (leaveLive_keepsList s p))
  | silentTimerExpiry p => exact .of_next h (ite_keepsList _ (keepsList_aside rfl rfl))
  | transfer => exact .of_next h (transferIfDue_keepsList s)
  | selectFall p sck => exact .of_next h (ite_keepsList _ (keepsList_aside rfl rfl))
  | timedOutSelectRise p => exact .of_next h (ite_keepsList _ (modPort_keepsList s p _))
  | selectPulseIgnored p => exact .of_next h (emptyPulse_keepsList s p)
  | controlBadSubfunction p f =>
    exact .of_next h (ite_keepsList _ (frame p _ _ _ fun u => setSlot_keepsList u p _))

/-- A step idles or runs the front command; taking it from the queue is aside from the list. -/
theorem step_keepsList {s t : State} (h : step s = .next t) : KeepsList s t := by
  unfold step at h
  split at h
  · exact .of_next h (.refl s)
  · exact (exec_keepsList h).after rfl rfl

/-- Settles O56: each record by the invariants that every command keeps, the list by its own. -/
theorem stepKeepsRecords : Obligations.StepKeepsRecords := by
  intro s t h i
  refine ⟨?_, fun hl => ((step_keepsList h).keeps (listKept_of_inv i hl)).listInv⟩
  obtain rfl | ⟨rest, rfl⟩ | ⟨rest, k⟩ := step_cases h
  · exact i
  · obtain ⟨-, hr, -⟩ := powerOn_inv { s with pending := rest }
    exact hr
  · exact k.records i

end Sys2Proof.Machine
end

section
/-! PROOFS. A pickup that satisfies the vote of its zone (R7, R76, R78, R80, R97, R178); O13. -/

namespace Sys2Proof.Machine

section
variable {s : State} {n : Chan} {v : LU} {z : Zone}

/-- The abort of another channel's test leaves the channel that began a pickup. -/
theorem pickupAborts_self (s : State) (n : Chan) : (s.pickupAborts n).lcu[n] = s.lcu[n] := by
  by_cases h : ∃ run, s.fsu.test = some run ∧ run.chan ≠ n ∧ s.fellows n run.chan = true
  · obtain ⟨run, ht, hc, hf⟩ := h
    obtain ⟨hlcu, -⟩ := abortTest_fields ht
    rw [pickupAborts_abort ht hc hf, hlcu]
    exact modAt_other _ _ hc.symm
  · rw [pickupAborts_none fun run ht hc => Bool.eq_false_iff.2 fun hf => h ⟨run, ht, hc, hf⟩]

theorem startPickup_votes (c : Channel) (now : Time) (target : ChanTarget) :
    channelVotes (c.startPickup now) target = channelVotes c target := by
  rw [startPickup_eq]
  rfl

/-- A voting channel that begins a pickup is, from then on, a voting member in pickup (R7). -/
theorem evaluated_status (hp : s.lcu[n].pickup = false) (hv : s.lcu[n].pickupLevel ≤ v)
    (hvotes : channelVotes s.lcu[n] s.cfg.active.chans[n].target = true) :
    (s.evaluated n v).statusOf n = ⟨true, true⟩ := by
  have hchan : (s.evaluated n v).lcu[n] = s.lcu[n].startPickup s.alr.time := by
    rw [evaluated_starts hp hv, pickupAborts_self]
    exact pickedUp_same s n v
  unfold State.statusOf
  rw [(evaluated_prepares s n v).active, hchan, startPickup_votes, hvotes, startPickup_eq]

theorem evaluated_time (hp : s.lcu[n].pickup = false) (hv : s.lcu[n].pickupLevel ≤ v) :
    (s.evaluated n v).alr.time = s.alr.time := by
  rw [evaluated_starts hp hv]
  exact (pickupAborts_lstep _ n).time

/-- An event that changes the status of a channel hands it to the zone of the channel (R7). -/
theorem lcuEvent_of_changed {f : State → State} (h : (f s).statusOf n ≠ s.statusOf n)
    (hz : (f s).zoneOf n = some z) : s.lcuEvent n f = (f s).statusEvent z n ((f s).statusOf n) := by
  unfold State.lcuEvent
  simp only [if_neg h, hz]

/-- Where a vote is satisfied, there is a voting member (R77). -/
theorem votingCount_of_satisfied {page : ZonePage} {w : Vector MemberStatus 6} (h : voteSatisfied page w = true) :
    votingCount w ≠ 0 := fun e => by
  have hq := placedState_of_satisfied h
  unfold placedState at hq
  rw [e, if_pos rfl] at hq
  split at hq <;> cases hq

/-- A status event that satisfies the vote of a QUIET zone with a filter time lights the zone (R76, R80). -/
theorem statusEvent_lights {st : MemberStatus} (hq : s.zev.zones[z].state = .quiet)
    (hsat : voteSatisfied (s.zonePage z) (s.viewAfter z n st) = true) (htzf : (s.zonePage z).tzf.val ≠ 0) :
    s.statusEvent z n st = { s with
      zev.zones := modAt s.zev.zones z fun _ =>
        ({ s.zev.zones[z] with view := s.viewAfter z n st } : ZoneRec).lighted (s.zonePage z) (some n) s.alr.time
      cfg.zonesQuiet := false
      cfg.transferDue := false } := by
  have hr := viewed_zone s z n st
  have hlights := reevaluate_lights (s := s.viewed z n st) (z := z) (some n)
  rw [hr, ← statusEvent_viewed] at hlights
  have hnew := hlights (.inl hq) (votingCount_of_satisfied hsat) hsat
  have hpage : (s.viewed z n st).zonePage z = s.zonePage z := rfl
  rw [hpage, if_neg htzf, viewed_lightsAt, if_neg (by rw [hq]; decide)] at hnew
  exact hnew

/-- The zone of a channel lists it. -/
theorem slot_of_zoneOf (h : s.zoneOf n = some z) : ∃ i : Slot, s.cfg.active.zones[z].slots[i].toNat = n.val := by
  obtain ⟨hm, -⟩ := (zoneOf_eq_some_iff s n z).1 h
  exact (mem_members_iff _ n).1 ((isMember_iff s z n).1 hm)

theorem viewAfter_eq (s : State) (z : Zone) (n : Chan) (st : MemberStatus) :
    s.viewAfter z n st = Vector.ofFn fun i : Slot =>
      if s.cfg.active.zones[z].memberAt i = some n then st else s.zev.zones[z].view[i] := by
  unfold State.viewAfter
  exact congrArg Vector.ofFn (funext fun i => if_congr (memberAt_eq_some_iff _ i n).symm rfl rfl)

end

/-- Settles O13: the sample begins a pickup, the pickup reaches the zone as a status event, and the event lights it. -/
theorem pickupLightsItsZone : Obligations.PickupLightsItsZone := by
  intro s n v z hs hm hp hv hzone hq hvotes page view hsat htzf
  have hprep := evaluated_prepares s n v
  have hstatus := evaluated_status hp hv hvotes
  have htime := evaluated_time hp hv
  have hview : s.viewAfter z n ⟨true, true⟩ = view := viewAfter_eq s z n _
  have htrigger : triggerOf (s.zonePage z) view (some n) = some n := by
    obtain ⟨i, hi⟩ := slot_of_zoneOf hzone
    rw [← hview, triggerOf_viewAfter]
    exact if_pos ⟨i, hi, rfl, rfl⟩
  have hchanged : (s.evaluated n v).statusOf n ≠ s.statusOf n := by
    rw [hstatus]
    exact fun e => Bool.false_ne_true (hp.symm.trans (congrArg MemberStatus.pickup e).symm)
  have hzone' : (s.evaluated n v).zoneOf n = some z := by
    rw [← hzone]
    unfold State.zoneOf State.isMember
    rw [hprep.active]
  refine ⟨_, exec_lightSample_evaluated v hs hm, ?_⟩
  rw [lcuEvent_of_changed (f := fun s => s.evaluated n v) hchanged hzone', hstatus]
  obtain ⟨hzev, hactive, -⟩ := hprep
  generalize s.evaluated n v = u at hzev hactive htime
  have hpage : u.zonePage z = page := congrArg (fun i : Image => i.zones[z]) hactive
  have hview' : u.viewAfter z n ⟨true, true⟩ = view := by
    rw [← hview]
    unfold State.viewAfter
    rw [hactive, hzev]
  rw [statusEvent_lights (by rw [hzev]; exact hq) (by rw [hpage, hview']; exact hsat) (by rw [hpage]; omega)]
  refine ⟨?_, fun y hy => ?_, rfl, rfl⟩
  · show (modAt u.zev.zones z _)[z] = _
    rw [modAt_same, hview', hpage, htime, hzev]
    unfold ZoneRec.lighted
    rw [show triggerOf page view (some n) = some n from htrigger]
  · show (modAt u.zev.zones z _)[y] = _
    rw [modAt_other _ _ hy, hzev]

end Sys2Proof.Machine
end

section
/-! PROOFS. A change of a CP line: evidence, and the decisions of the zones that wait (R84, R90, R91, R112, R162);
O20. -/

namespace Sys2Proof.Machine

/-- A line that goes inactive is open evidence for its incomer (R112). -/
def cpEvidence (k : Incomer) (active : Bool) : List Target := if active then [] else [.ti k]

/-- A change of a CP line hands on its evidence, and then the decisions of the zones it confirms. -/
theorem cpChange_handedOn {s : State} {k : Incomer} {active : Bool} (h : s.cp[k] ≠ active) :
    ∃ (zs : List Zone) (n : Nat), zs.Nodup ∧
      s.cpChange k active = State.handedOn { s.setCp k active with freeTick := n } (cpEvidence k active) [] [] zs ∧
      ∀ z, z ∈ zs ↔ s.zev.zones[z].state = .waiting ∧ (s.setCp k active).currentConfirms z = true := by
  have he : s.cpChange k active = ((s.setCp k active).evidenceAll (cpEvidence k active)).askConfirmation := by
    unfold State.cpChange
    rw [if_neg h]
    cases active <;> rfl
  obtain ⟨zs, n, ha, hp⟩ := askConfirmation_eq ((s.setCp k active).evidenceAll (cpEvidence k active))
  refine ⟨zs, n, hp.nodup_iff.2 (deciders_nodup _), ?_, fun z => ?_⟩
  · rw [he, ha, ← evidenceAll_freeTick]
    rfl
  · obtain ⟨-, hz, -⟩ := evidenceAll_kept (cpEvidence k active) (s.setCp k active)
    rw [hp.mem_iff, mem_deciders, hz, (evidenceAll_zstep _ _).sameBoard.currentConfirms]
    rfl

/-- The due transfer after a line went inactive: by the notice of its evidence, or held up by a decision (R178,
log 5). -/
theorem cpFall_due {s w : State} {k : Incomer} {zs : List Zone} (hw : w.cfg = s.cfg) :
    s.DueAfter (w.handedOn [.ti k] [] [] zs) := by
  by_cases hz : zs = []
  · subst hz
    have h := openEvidence_dueAfter w (.ti k)
    unfold State.DueAfter at h ⊢
    rw [hw] at h
    exact h
  · obtain ⟨h1, h2⟩ := decideAll_quiet (s := w.evidenceAll [.ti k]) hz
    have hr : (w.handedOn [.ti k] [] [] zs).cfg.recordsQuiet = false := h1
    have hd : (w.handedOn [.ti k] [] [] zs).cfg.transferDue = false := h2
    unfold State.DueAfter
    rw [hr, hd]
    simp

/-- Settles O20: the line of the image is set, and what TOP's changes hand on is handed on here. -/
theorem cpChangeConfirmsWaitingZones : Obligations.CpChangeConfirmsWaitingZones := by
  intro s k active
  refine ⟨fun h => congrArg Host.Outcome.next (if_pos h), fun h => ?_⟩
  intro u evidence
  obtain ⟨zs, n, hnd, ht, hzs⟩ := cpChange_handedOn h
  have hbeside : u.Beside { u with freeTick := n } := ⟨_, _, _, _, rfl, rfl⟩
  have hconf (z : Zone) (hz : z ∈ zs) : State.currentConfirms { u with freeTick := n } z = true := ((hzs z).1 hz).2
  obtain ⟨hdec, hdrill, hrec⟩ := handedOn_decided hbeside (cpEvidence k active) [] (before := []) (after := zs) hconf
  refine ⟨_, zs, congrArg Host.Outcome.next ht, ?_, hnd, hzs, fun ha => ?_, hdec, hdrill, fun hroom => ?_⟩
  · exact (handedOn_zstep _ _ _ _ _).cp
  · subst ha
    exact cpFall_due rfl
  · obtain ⟨c, rs, ⟨rfl, rfl⟩, h2⟩ := hrec hroom
    rw [withEvidence_nil] at h2
    exact h2

end Sys2Proof.Machine
end

section
/-! PROOFS. An ENTRY filter expires (R83, R90, R105, R106, R108, R131, R132, R142, R160, R164); O21. -/

namespace Sys2Proof.Machine

section
variable (s : State) (z : Zone)

/-- A zone that waits for current, and the commit that waits with it (R83, R97, R178). -/
theorem toWaiting_eq : s.toWaiting z = { s with
    zev.zones := modAt s.zev.zones z fun r => { r with
      filter := .stopped, confirm := .running s.cfg.active.zones[z].tcw.val, state := .waiting
      entryTime := s.alr.time }
    cfg.zonesQuiet := false
    cfg.transferDue := false } := by
  unfold State.toWaiting State.enterZone
  rw [modZone_modZone, noticeZones_of_lit]
  · rfl
  · rw [← Bool.not_eq_true, noZoneLit_iff]
    intro h
    refine (h z).2 ?_
    rw [zones_modZone]

theorem confirmsLit_iff : s.confirmsLit z = true ↔
    s.currentConfirms z = true ∨ (s.zev.zones[z].drill = false ∧ s.cfg.active.zones[z].confirm = .lightOnly) := by
  unfold State.confirmsLit State.zonePage
  rw [Bool.or_eq_true, Bool.and_eq_true, decide_eq_true_iff, Bool.not_eq_true', and_comm]

/-- The record of a decision adds its trip set to the close-inhibit lines (R132). -/
theorem linesOf_append_arcOf (rs : List TripRec) (n : Byte) : linesOf (rs ++ [s.arcOf z n]) =
    (s.initialAnswer s.cfg.active.zones[z].location s.cfg.active.zones[z].scope).trips ||| linesOf rs := by
  have harc (b : Fin 7) : ((s.arcOf z n).stage ≠ .closed ∧ mem (s.arcOf z n).lockout b = true ∧
      mem (s.arcOf z n).released b = false) ↔
      mem (s.initialAnswer s.cfg.active.zones[z].location s.cfg.active.zones[z].scope).trips b = true := by
    simp [State.arcOf, mem]
  refine set_ext fun b => Bool.eq_iff_iff.2 ?_
  rw [mem_or, Bool.or_eq_true, mem_linesOf, mem_linesOf, ← harc b]
  simp only [List.mem_append, List.mem_singleton, or_and_right, exists_or, exists_eq_left]
  exact or_comm

variable {s} {z}

/-- The zone that decides (R90). -/
theorem decideArc_zone : (s.decideArc z).zev.zones[z] =
    { s.zev.zones[z].struck s.alr.time with drill := (s.decideArc z).zev.zones[z].drill } := by
  have h := decided_zones s.zev z s.alr.time z
  rw [if_pos rfl, ← decideArc_zev] at h
  exact h

theorem filterExpiry_runs (hl : s.zev.zones[z].state = .lit) (hf : s.zev.zones[z].filter.isRunning .entry = true) :
    exec (.filterExpiry z) s = .next (s.entryFilterExpiry z) := by
  refine congrArg Host.Outcome.next (if_pos ?_)
  rw [hl, hf]
  rfl

end

/-- Settles O21: a zone that is not confirmed waits, a confirmed one decides. -/
theorem filterExpiryDecides : Obligations.FilterExpiryDecides := by
  intro s z hl hf
  rw [filterExpiry_runs hl hf, entryFilterExpiry_eq]
  refine ⟨fun hd hp hc => ?_, fun hc hroom => ?_⟩
  · have hno : s.confirmsLit z ≠ true := by
      rw [Ne, confirmsLit_iff, hc, hp]
      simp
    rw [if_neg hno, hd, if_neg Bool.false_ne_true, toWaiting_eq]
  · rw [if_pos ((confirmsLit_iff s z).2 hc)]
    obtain ⟨hrec, hnum⟩ := decideArc_records s z
    obtain ⟨hquiet, hdue⟩ := decideArc_quiet s z
    have hkept : keptRecords s.trm.records = s.trm.records := if_pos hroom
    have hzone := decideArc_zone (s := s) (z := z)
    have hlen : (s.trm.records.map (·.seq)).length ≤ 12 := by
      rw [List.length_map]
      exact hroom.le
    rw [hkept] at hrec
    refine ⟨_, s.decisionNumber, rfl, hrec, ?_, hnum, fun b hb => ?_, ?_, fun p hp => decideArc_arcOpened s z hp,
      ?_, ?_, ?_, ?_, ?_, ?_, (decideArc_asks s z).asks, fun hd ha => ?_, hquiet, hdue⟩
    · unfold State.decisionNumber
      rw [hkept]
      exact nextSeq_nextNumber _ _ hlen
    · exact ((decideArc_commands s z b).2 hb).lines.1
    · rw [closeInhibit_eq, hrec, closeInhibit_eq, linesOf_append_arcOf]
    iterate 6
      · rw [hzone]
        rfl
    · obtain ⟨h, -⟩ := (decided_drill s.zev z s.alr.time).1 ⟨hd, ha⟩
      rw [decideArc_zev, h]
      exact ⟨rfl, rfl⟩

end Sys2Proof.Machine
end

section
/-! PROOFS. A confirm window runs out (R87, R162); O24. -/

namespace Sys2Proof.Machine

/-- The record of a zone whose confirm window has run out (R87, R162). -/
def ZoneRec.suppressed (r : ZoneRec) (now : Time) : ZoneRec :=
  { r with
    confirm := .stopped, nuisance := if r.drill then r.nuisance else satInc r.nuisance, state := .suppressed
    entryTime := now }

/-- A confirm window runs out: the passage of the zone, and NUISANCE in service. -/
theorem toSuppressed_outcome (s : State) (z : Zone) : ∃ (al : Vector AlertRec 4) (quiet due : Bool),
    let t : State := { s with
      alr.ports := al
      zev.zones := modAt s.zev.zones z fun r => r.suppressed s.alr.time
      cfg.zonesQuiet := quiet
      cfg.transferDue := due }
    s.toSuppressed z = t ∧ s.DueAfter t ∧
      AlertsRaised s.alr.ports al .nuisance (fun p => s.used p && !s.zev.zones[z].drill) ∧
      (quiet = true ↔ ∀ y : Zone, y ≠ z → s.zev.zones[y].state ≠ .lit ∧ s.zev.zones[y].state ≠ .waiting) := by
  have hzones : (modAt s.zev.zones z fun r => r.suppressed s.alr.time) =
      modAt s.zev.zones z fun _ => s.zev.zones[z].suppressed s.alr.time := modAt_congr _ _ rfl
  obtain ⟨al, quiet, due, ht, hdue, hal, hq⟩ := enterZone_moves s z (fun r => { r with
    confirm := .stopped, nuisance := if s.zev.zones[z].drill then r.nuisance else satInc r.nuisance })
    (st := .suppressed) (by decide)
  have hsame (p : Port) : al[p] = s.alr.ports[p] := hal p
  rw [hzones]
  unfold State.toSuppressed ZoneRec.suppressed
  cases hd : s.zev.zones[z].drill <;> simp only [hd] at ht hdue ⊢ <;> rw [ht]
  · refine ⟨_, quiet, due, rfl, hdue, ?_, hq⟩
    rw [show (fun p => s.used p && !false) = s.used from funext fun p => Bool.and_true _]
    intro p
    have h := raise_alertsRaised { s with alr.ports := al } .nuisance p
    simp only [hsame] at h
    exact h
  · exact ⟨al, quiet, due, rfl, hdue, fun p => by rw [hsame]; simp, hq⟩

/-- Settles O24. -/
theorem confirmWindowExpires : Obligations.ConfirmWindowExpires := by
  intro s z hw hc
  obtain ⟨al, quiet, due, ht, hrest⟩ := toSuppressed_outcome s z
  refine ⟨al, quiet, due, congrArg Host.Outcome.next ((if_pos ?_).trans ht), hrest⟩
  rw [hw, hc]
  rfl

end Sys2Proof.Machine
end

section
/-! PROOFS. A RESTRIKE filter expires (R93, R124 to R126, R128, R132, R142); O25. -/

namespace Sys2Proof.Machine

section
variable {s : State} {z : Zone}

theorem any_arcOf_iff (rs : List TripRec) (z : Zone) : rs.any (·.isArcOf z) = true ↔ ∃ r ∈ rs, r.ArcOf z := by
  simp only [List.any_eq_true, isArcOf_iff]

/-- A re-strike request with no open ARC record of the zone is discarded (R124). -/
theorem restrike_discarded (h : ∀ r ∈ s.trm.records, ¬ r.ArcOf z) : s.restrike z = s := by
  rw [restrike_eq, if_neg fun e => ?_]
  obtain ⟨r, hr, ha⟩ := (any_arcOf_iff _ z).1 e
  exact h r hr ha

/-- A pending commit waits for a record that is struck anew (R128, R178, log 5). -/
theorem restrike_quiet (h : ∃ r ∈ s.trm.records, r.ArcOf z) :
    (s.restrike z).cfg.recordsQuiet = false ∧ (s.restrike z).cfg.transferDue = false := by
  obtain ⟨r, hr, ha⟩ := h
  obtain ⟨-, -, hq, hd, -⟩ := trmEvent_kept s fun s => s.strikeTaken z
  have hfires : State.noRecordFiring { s with trm.records := s.restruckOf z s.trm.records } = false := by
    refine Bool.eq_false_iff.2 fun hn => (noRecordFiring_iff _).1 hn (s.restruck r) ?_ rfl
    exact List.mem_map.2 ⟨r, hr, if_pos ((isArcOf_iff r z).2 ha)⟩
  have hquiet : (s.strikeTaken z).cfg.recordsQuiet = false := hfires
  have hdue : (s.strikeTaken z).cfg.transferDue = false := by
    show (_ && _ && State.noRecordFiring { s with trm.records := s.restruckOf z s.trm.records } && _) = false
    rw [hfires, Bool.and_false, Bool.false_and]
  rw [restrike_eq, if_pos ((any_arcOf_iff _ z).2 ⟨r, hr, ha⟩)]
  exact ⟨hq.trans hquiet, hd.trans hdue⟩

/-- What a re-strike makes of each record (R125). -/
theorem restrike_getElem? {i : Nat} {r : TripRec} (h : s.trm.records[i]? = some r) :
    (r.ArcOf z → (s.restrike z).trm.records[i]? = some (s.restruck r)) ∧
      (¬ r.ArcOf z → (s.restrike z).trm.records[i]? = some r) := by
  obtain ⟨hrec, -⟩ := restrike_records s z
  rw [hrec]
  unfold State.restruckOf
  rw [List.getElem?_map, h, Option.map_some]
  exact ⟨fun ha => by rw [if_pos ((isArcOf_iff r z).2 ha)], fun ha => by rw [if_neg (mt (isArcOf_iff r z).1 ha)]⟩

theorem restrikeExpiry_runs (ht : s.zev.zones[z].state = .tripped)
    (hf : s.zev.zones[z].filter.isRunning .restrike = true) :
    exec (.restrikeFilterExpiry z) s = .next (s.restrikeFilterExpiry z) := by
  refine congrArg Host.Outcome.next (if_pos ?_)
  rw [ht, hf]
  rfl

end

/-- Settles O25, by whether the expiry is confirmed and the zone has an open ARC record. -/
theorem restrikeFilterExpires : Obligations.RestrikeFilterExpires := by
  classical
  intro s z ht hf zones
  rw [restrikeExpiry_runs ht hf, restrikeFilterExpiry_eq]
  refine ⟨fun h => ?_, fun hc ha => ⟨_, rfl, ?_⟩⟩
  · have hnone : (if s.RestrikeConfirmed z then s.restrike z else s) = s := by
      split
      · exact restrike_discarded (h.resolve_left (not_not_intro (by assumption)))
      · rfl
    rw [hnone]
    rfl
  · obtain ⟨hrec, -⟩ := restrike_records s z
    obtain ⟨hquiet, hdue⟩ := restrike_quiet ha
    have hasks := (restrike_tripStep s z).asks
    rw [if_pos hc]
    refine ⟨?_, ?_, fun i r h => restrike_getElem? h, fun p hp => ?_, ?_, hquiet, hdue⟩
    · exact congrArg (fun v : Zev => modAt v.zones z fun r => { r with filter := .stopped, phase := some .holding })
        (restrike_zev s z)
    · show (s.restrike z).trm.records.length = _
      rw [hrec]
      exact List.length_map _
    · exact restrike_arcOpened ((any_arcOf_iff _ z).2 ha) hp
    · exact (hasks.congr (s' := s) (t' := (s.restrike z).modZone z _) rfl rfl rfl rfl rfl rfl).asks

end Sys2Proof.Machine
end

section
/-! PROOFS. A close notice is taken (R80, R94, R97, R178); O26. -/

namespace Sys2Proof.Machine

/-! ### A zone that leaves TRIPPED -/

section
variable (s : State) (z : Zone)

/-- The zone without its record: no filter runs and it has no phase (R94). -/
def State.freed (s : State) (z : Zone) : State := s.modZone z fun r => { r with filter := .stopped, phase := none }

variable {s} {z}

theorem freed_zone : (s.freed z).zev.zones[z] = { s.zev.zones[z] with filter := .stopped, phase := none } :=
  zones_modZone s z _

theorem leaveTripped_disabled (h : (s.zonePage z).enabled = false) : s.leaveTripped z =
    ((s.freed z).modZone z fun r => { r with lit := false, degraded := false }).enterZone z .disabled := by
  unfold State.leaveTripped State.freed
  simp only [h, Bool.not_false, if_true]

theorem leaveTripped_enabled (h : (s.zonePage z).enabled = true) : s.leaveTripped z =
    if votingCount s.zev.zones[z].view = 0 then (s.freed z).toBlocked z
    else if voteSatisfied (s.zonePage z) s.zev.zones[z].view then ((s.freed z).toQuiet z).toLit z none
    else (s.freed z).toQuiet z := by
  have hv : (s.freed z).zev.zones[z].view = s.zev.zones[z].view := by rw [freed_zone]
  rw [← hv]
  unfold State.leaveTripped State.freed
  simp only [h, Bool.not_true, Bool.false_eq_true, if_false]

theorem leaveTripped_blocked (h : (s.zonePage z).enabled = true) (hv : votingCount s.zev.zones[z].view = 0) :
    s.leaveTripped z = (s.freed z).toBlocked z := (leaveTripped_enabled h).trans (if_pos hv)

theorem leaveTripped_quiet (h : (s.zonePage z).enabled = true) (hv : votingCount s.zev.zones[z].view ≠ 0)
    (hsat : voteSatisfied (s.zonePage z) s.zev.zones[z].view = false) : s.leaveTripped z = (s.freed z).toQuiet z :=
  (leaveTripped_enabled h).trans ((if_neg hv).trans (if_neg (ne_true_of_eq_false hsat)))

theorem leaveTripped_lit (h : (s.zonePage z).enabled = true) (hv : votingCount s.zev.zones[z].view ≠ 0)
    (hsat : voteSatisfied (s.zonePage z) s.zev.zones[z].view = true) :
    s.leaveTripped z = ((s.freed z).toQuiet z).toLit z none :=
  (leaveTripped_enabled h).trans ((if_neg hv).trans (if_pos hsat))

/-- What the move of a zone leaves of it, and of the due transfer. -/
theorem State.Moves.outcome {t : State} {r' : ZoneRec} {blocks : Bool} (h : s.Moves z r' blocks t) :
    t.zev.notices = s.zev.notices ∧ s.DueAfter t ∧ t.zev.zones[z] = { r' with entryTime := s.alr.time } := by
  obtain ⟨al, quiet, due, rfl, hdue, -, -⟩ := h
  exact ⟨rfl, hdue, modAt_same _ _ _⟩

theorem freed_disabled_moves : s.Moves z { s.zev.zones[z] with
    filter := .stopped, phase := none, lit := false, degraded := false, state := .disabled } false
    (((s.freed z).modZone z fun r => { r with lit := false, degraded := false }).enterZone z .disabled) := by
  have h := enterZone_moves (s.freed z) z (fun r => { r with lit := false, degraded := false }) (st := .disabled)
    (by decide)
  rw [freed_zone] at h
  exact h.of_modZone

theorem freed_blocked_moves : s.Moves z { s.zev.zones[z] with
    filter := .stopped, confirm := .stopped, phase := none, lit := false, degraded := false, state := .blocked } true
    ((s.freed z).toBlocked z) := by
  have h := toBlocked_moves (s.freed z) z
  rw [freed_zone] at h
  exact h.of_modZone

theorem freed_quiet_moves : s.Moves z { s.zev.zones[z] with
    filter := .stopped, confirm := .stopped, phase := none, lit := false
    degraded := voteDegraded (s.zonePage z) s.zev.zones[z].view, state := .quiet } false ((s.freed z).toQuiet z) := by
  have h := toQuiet_moves (s.freed z) z
  rw [freed_zone] at h
  exact h.of_modZone

theorem toBlocked_alerted {p : Port} (hp : s.used p = true) : (s.toBlocked z).alerted p .zoneBlocked = true := by
  unfold State.toBlocked
  exact raise_alerts .zoneBlocked hp

/-- The board with a zone just lit out of TRIPPED, before its filter expires (R80, R94). -/
def State.litAfresh (s : State) (z : Zone) : State :=
  { s with
    zev.zones := modAt s.zev.zones z fun r => { r with
      filter := .running .entry s.cfg.active.zones[z].tzf.val, confirm := .stopped, phase := none, lit := true
      degraded := voteDegraded s.cfg.active.zones[z] r.view
      trigger := firstLitMember s.cfg.active.zones[z] r.view, state := .lit, entryTime := s.alr.time }
    cfg.zonesQuiet := false
    cfg.transferDue := false }

theorem freed_lightedAt : ((s.freed z).toQuiet z).lightedAt z none = s.litAfresh z := by
  obtain ⟨al, quiet, due, ht, -, hal, -⟩ := freed_quiet_moves (s := s) (z := z)
  have halr : ((s.freed z).toQuiet z).alr = s.alr := rfl
  have he : al = s.alr.ports := by rw [ht] at halr; exact congrArg Alr.ports halr
  subst he
  unfold State.litAfresh State.lightedAt
  rw [ht]
  simp only [modAt_modAt]
  rw [modAt_congr s.zev.zones z]
  rfl

theorem freed_toLit : ((s.freed z).toQuiet z).toLit z none =
    if s.cfg.active.zones[z].tzf.val = 0 then (s.litAfresh z).entryFilterExpiry z else s.litAfresh z := by
  rw [toLit_eq, freed_lightedAt]
  rfl

/-! ### A filter that expires at once, and the due transfer -/

/-- A state whose pending commit waits for a zone or a record (R178, log 5). -/
def State.Waits (t : State) : Prop :=
  (t.cfg.zonesQuiet = false ∨ t.cfg.recordsQuiet = false) ∧ t.cfg.transferDue = false

theorem State.Waits.dueAfter {t : State} (h : t.Waits) : s.DueAfter t := by
  obtain ⟨h | h, hd⟩ := h <;> unfold State.DueAfter <;> rw [h, hd] <;> simp

/-- Where a filter expires, the zone waits for current or its record is FIRING. -/
theorem entryFilterExpiry_waits : (s.entryFilterExpiry z).Waits := by
  obtain ⟨hq, hd⟩ := decideArc_quiet s z
  rw [entryFilterExpiry_eq]
  split
  · exact ⟨.inr hq, hd⟩
  · split <;> rw [toWaiting_eq] <;> exact ⟨.inl rfl, rfl⟩

theorem entryFilterExpiry_notices : (s.entryFilterExpiry z).zev.notices = s.zev.notices := by
  rw [entryFilterExpiry_eq]
  split
  · exact decideArc_notices s z
  · split
    · have hz := appendDrill_zev s z s.zev.zones[z].trigger s.zev.zones[z].degraded
      generalize s.appendDrill z s.zev.zones[z].trigger s.zev.zones[z].degraded = u at hz ⊢
      rw [toWaiting_eq]
      have hn : u.zev.notices = s.zev.notices := by rw [hz]
      exact hn
    · rw [toWaiting_eq]

theorem litAfresh_runs : exec (.filterExpiry z) (s.litAfresh z) = .next ((s.litAfresh z).entryFilterExpiry z) := by
  have h : (s.litAfresh z).zev.zones[z] = _ := modAt_same _ _ _
  exact filterExpiry_runs (by rw [h]) (by rw [h]; rfl)

theorem freed_toLit_outcome : (((s.freed z).toQuiet z).toLit z none).zev.notices = s.zev.notices ∧
    (((s.freed z).toQuiet z).toLit z none).Waits := by
  rw [freed_toLit]
  split
  · exact ⟨entryFilterExpiry_notices, entryFilterExpiry_waits⟩
  · exact ⟨rfl, .inl rfl, rfl⟩

theorem litAfresh_outcome :
    let t := if s.cfg.active.zones[z].tzf.val = 0 then (s.litAfresh z).entryFilterExpiry z else s.litAfresh z
    if s.cfg.active.zones[z].tzf.val = 0 then exec (.filterExpiry z) (s.litAfresh z) = .next t
    else t = s.litAfresh z := by
  simp only
  split
  · exact litAfresh_runs
  · rfl

end

/-- The state in which a notice has been taken from the list. -/
def State.noticeOff (s : State) (z : Zone) : State := { s with zev.notices := s.zev.notices.erase z }

theorem closeNotice_taken {s : State} {z : Zone} (hz : z ∈ s.zev.notices) (ht : s.zev.zones[z].state = .tripped) :
    s.closeNotice z = (s.noticeOff z).leaveTripped z := by
  unfold State.closeNotice State.noticeOff
  simp only [hz, ht, if_true]

/-- A zone that leaves TRIPPED leaves the notices, and the transfer due as it should be (R94, R97, R178). -/
theorem leaveTripped_outcome (s : State) (z : Zone) :
    (s.leaveTripped z).zev.notices = s.zev.notices ∧ s.DueAfter (s.leaveTripped z) := by
  cases he : (s.zonePage z).enabled
  · rw [leaveTripped_disabled he]
    obtain ⟨hn, hd, -⟩ := (freed_disabled_moves (s := s) (z := z)).outcome
    exact ⟨hn, hd⟩
  · rw [leaveTripped_enabled he]
    split
    · obtain ⟨hn, hd, -⟩ := (freed_blocked_moves (s := s) (z := z)).outcome
      exact ⟨hn, hd⟩
    · split
      · obtain ⟨hn, hw⟩ := freed_toLit_outcome (s := s) (z := z)
        exact ⟨hn, hw.dueAfter⟩
      · obtain ⟨hn, hd, -⟩ := (freed_quiet_moves (s := s) (z := z)).outcome
        exact ⟨hn, hd⟩

/-- Settles O26, by the image and the view of the zone. -/
theorem closeNoticeFreesItsZone : Obligations.CloseNoticeFreesItsZone := by
  intro s z r page
  refine ⟨fun hz => congrArg Host.Outcome.next (if_neg hz), fun hz ht => ?_⟩
  obtain ⟨hn, hd⟩ := leaveTripped_outcome (s.noticeOff z) z
  refine ⟨_, congrArg Host.Outcome.next (closeNotice_taken hz ht), hn, hd, fun he => ?_, fun he hv => ?_,
    fun he hv hsat => ?_, fun he hv hsat => ?_⟩
  · obtain ⟨-, -, h⟩ := (freed_disabled_moves (s := s.noticeOff z) (z := z)).outcome
    rw [leaveTripped_disabled (s := s.noticeOff z) he]
    exact h
  · obtain ⟨-, -, h⟩ := (freed_blocked_moves (s := s.noticeOff z) (z := z)).outcome
    rw [leaveTripped_blocked (s := s.noticeOff z) he hv]
    exact ⟨h, fun p hp => toBlocked_alerted hp⟩
  · obtain ⟨-, -, h⟩ := (freed_quiet_moves (s := s.noticeOff z) (z := z)).outcome
    rw [leaveTripped_quiet (s := s.noticeOff z) he hv hsat]
    exact h
  · rw [leaveTripped_lit (s := s.noticeOff z) he hv hsat, freed_toLit]
    exact litAfresh_outcome (s := s.noticeOff z) (z := z)

end Sys2Proof.Machine
end

section
/-! PROOFS. The write engine through a step (R132, R142, R181); O59. -/

namespace Sys2Proof.Machine

/-- Settles O59: RESET leaves the write engine in order with the set of the lines as the last set asked for, and every
other command keeps both. -/
theorem stepKeepsTheWriteEngine : Obligations.StepKeepsTheWriteEngine := by
  intro s t h i
  obtain rfl | ⟨rest, rfl⟩ | ⟨rest, k⟩ := step_cases h
  · exact i
  · obtain ⟨-, -, -, -, hw, -⟩ := powerOn_inv { s with pending := rest }
    exact hw
  · exact k.write i

end Sys2Proof.Machine
end

section
/-! PROOFS. What reaches the records with a notice to the CFG and nothing else: the evidence of a CP line that goes
inactive, and the expiries of the minimum pulse, coil and pulse timers (R112, R115, R116, R120 to R122, R127, R128,
R178); O19 and O27. -/

namespace Sys2Proof.Machine

/-- New records with the notice of the TRM: the CFG's view of them and the due transfer change with them (R128, R178). -/
theorem noticeRecords_outcome (s : State) (rs : List TripRec) : ∃ quiet due : Bool,
    let t : State := { s with trm.records := rs, cfg.recordsQuiet := quiet, cfg.transferDue := due }
    ({ s with trm.records := rs } : State).noticeRecords = t ∧ s.DueAfter t ∧
      (quiet = true ↔ ∀ r ∈ rs, r.stage ≠ .firing) :=
  ⟨_, _, rfl, settleDue_dueAfter { s with trm.records := rs, cfg.recordsQuiet := _ },
    noRecordFiring_iff { s with trm.records := rs }⟩

/-! ### A CP line goes inactive (R112) -/

/-- With no zone in WAITING there is none to confirm (R84). -/
theorem askConfirmation_noneWaiting {s : State} (h : s.noneWaiting) : s.askConfirmation = s := by
  have hnone : s.deciders = [] := List.eq_nil_iff_forall_not_mem.2 fun z hz => h z ((mem_deciders s z).1 hz).1
  unfold State.askConfirmation
  rw [hnone]
  rfl

/-- The fall of a CP line with no zone in WAITING is its open evidence and no more. -/
theorem cpChange_falls {s : State} {k : Incomer} (hk : s.cp[k] = true) (hw : s.noneWaiting) :
    s.cpChange k false = (s.setCp k false).openEvidence (.ti k) := by
  have hne : s.cp[k] ≠ false := by rw [hk]; decide
  unfold State.cpChange
  exact (if_neg hne).trans (askConfirmation_noneWaiting (s := (s.setCp k false).openEvidence (.ti k)) hw)

/-- Settles O19: the line falls, every record takes its evidence, and the TRM gives notice. -/
theorem cpFallGivesEvidence : Obligations.CpFallGivesEvidence := by
  intro s k hk hw
  obtain ⟨quiet, due, ht, hdue, hquiet⟩ :=
    noticeRecords_outcome (s.setCp k false) (s.trm.records.map fun r => r.evidence (.ti k) s.alr.time)
  have hrecords : (s.trm.records.map fun r => r.evidence (.ti k) s.alr.time) =
      s.trm.records.map fun r => r.tookEvidence (.ti k) s.alr.time :=
    List.map_congr_left fun r _ => evidence_eq r _ _
  exact ⟨_, quiet, due, congrArg Host.Outcome.next ((cpChange_falls hk hw).trans ht), hdue, hrecords, hquiet⟩

/-! ### The timers of an entry (R115, R120, R121, R127) -/

theorem TripRec.entryHas_iff (r : TripRec) (seq : Byte) (tg : Target) (p : Entry → Bool) : r.entryHas seq tg p = true ↔
    r.seq = seq ∧ r.stage ≠ .closed ∧ ∃ e ∈ r.entries, e.target = tg ∧ p e = true := by
  simp [TripRec.entryHas, TripRec.isOpen, and_assoc]

theorem State.entryHas_iff (s : State) (seq : Byte) (tg : Target) (p : Entry → Bool) : s.entryHas seq tg p = true ↔
    ∃ r ∈ s.trm.records, r.seq = seq ∧ r.stage ≠ .closed ∧ ∃ e ∈ r.entries, e.target = tg ∧ p e = true := by
  simp only [State.entryHas, List.any_eq_true, TripRec.entryHas_iff]

/-- The entries of a record with the one on a target changed where it can be (R109). -/
theorem modEntry_if (r : TripRec) (tg : Target) (p : Entry → Bool) (f : Entry → Entry) :
    r.modEntry tg (fun e => if p e then f e else e) =
      { r with entries := r.entries.map fun e => if e.target = tg ∧ p e = true then f e else e } := by
  unfold TripRec.modEntry
  simp only [ite_and]

theorem advance_eq (r : TripRec) (tg : Target) (p : Entry → Bool) (f : Entry → Entry) : r.advance tg p f =
    r.withEntries (r.entries.map fun e => if e.target = tg ∧ p e = true then f e else e) := by
  unfold TripRec.advance
  rw [modEntry_if, settle_eq]
  rfl

/-- What becomes of each record where the records with a named entry change and no other does. -/
theorem atEntry_getElem? {s : State} {i : Nat} {r : TripRec} (h : s.trm.records[i]? = some r) (seq : Byte)
    (tg : Target) (p : Entry → Bool) (f : TripRec → TripRec) :
    let names := r.seq = seq ∧ r.stage ≠ .closed ∧ ∃ e ∈ r.entries, e.target = tg ∧ p e = true
    (names → (s.atEntry seq tg p f).trm.records[i]? = some (f r)) ∧
      (¬ names → (s.atEntry seq tg p f).trm.records[i]? = some r) := by
  intro names
  have hi : (s.atEntry seq tg p f).trm.records[i]? = some (if r.entryHas seq tg p then f r else r) := by
    unfold State.atEntry
    rw [List.getElem?_map, h, Option.map_some]
  rw [hi]
  exact ⟨fun hn => by rw [if_pos ((r.entryHas_iff seq tg p).2 hn)],
    fun hn => by rw [if_neg (mt (r.entryHas_iff seq tg p).1 hn)]⟩

/-- A command moves the entry that it names, and its record with it: `moved` of the statement about entry timers. -/
def State.MovesEntry (s : State) (seq : Byte) (i : Instr) (tg : Target) (p : Entry → Bool) (f : Entry → Entry) :
    Prop :=
  let names (r : TripRec) : Prop := r.seq = seq ∧ r.stage ≠ .closed ∧ ∃ e ∈ r.entries, e.target = tg ∧ p e = true
  (∃ r ∈ s.trm.records, names r) →
    ∃ (rs : List TripRec) (quiet due : Bool),
      let t : State := { s with trm.records := rs, cfg.recordsQuiet := quiet, cfg.transferDue := due }
      exec i s = .next t ∧ s.DueAfter t ∧ rs.length = s.trm.records.length ∧
        (∀ (j : Nat) (r : TripRec), s.trm.records[j]? = some r →
          (names r → rs[j]? = some (r.withEntries
            (r.entries.map fun e => if e.target = tg ∧ p e = true then f e else e))) ∧
          (¬ names r → rs[j]? = some r)) ∧
        (quiet = true ↔ ∀ r ∈ rs, r.stage ≠ .firing)

/-- A command that advances the entry it names, with the notice of the TRM. -/
theorem movesEntry_of_exec {s : State} {seq : Byte} {i : Instr} {tg : Target} {p : Entry → Bool} {f : Entry → Entry}
    (h : exec i s = .next (if s.entryHas seq tg p then s.advanceEntry seq tg p f else s)) :
    s.MovesEntry seq i tg p f := by
  intro hnames
  obtain ⟨quiet, due, ht, hdue, hquiet⟩ :=
    noticeRecords_outcome s (s.atEntry seq tg p fun r => r.advance tg p f).trm.records
  rw [if_pos ((s.entryHas_iff seq tg p).2 hnames)] at h
  refine ⟨_, quiet, due, h.trans (congrArg Host.Outcome.next ht), hdue, List.length_map _, fun j r hr => ?_, hquiet⟩
  rw [← advance_eq]
  exact atEntry_getElem? hr seq tg p _

theorem minPulseOver_eq (e : Entry) : e.minPulseOver =
    if e.evidence = none then { e with minPulse := .stopped }
    else { e with minPulse := .stopped, state := .confirmed, breakerFail := .stopped, coil := .stopped } := by
  unfold Entry.minPulseOver
  cases e.evidence <;> rfl

/-- Settles O27, one timer after another. -/
theorem entryTimersExpire : Obligations.EntryTimersExpire := by
  intro s seq tg
  have hmin : s.MovesEntry seq (.minPulseExpiry seq tg) tg Entry.inMinPulse Entry.minPulseOver := movesEntry_of_exec rfl
  rw [show Entry.minPulseOver = _ from funext minPulseOver_eq] at hmin
  exact ⟨hmin, movesEntry_of_exec (f := Entry.giveUp) rfl, fun k => movesEntry_of_exec (f := Entry.pulseOver) rfl⟩

end Sys2Proof.Machine
end

section
/-! PROOFS. A breaker-fail: the entry FAILING, the escalation of its record, and what is asked of the write engine (R117
to R119, R132, R142); O28. -/

namespace Sys2Proof.Machine

/-- The entry meets its breaker-fail expiry, in the words of the statements (R110, R117, log 24). -/
@[reducible] def Entry.FailsAt (e : Entry) (tg : Target) : Prop :=
  e.target = tg ∧ e.state = .commanded ∧ e.breakerFail.isRunning = true ∧ e.evidence = none ∧
    e.minPulse.isRunning = false

theorem failsAt_iff (e : Entry) (tg : Target) : e.target = tg ∧ e.canFail = true ↔ e.FailsAt tg := by
  simp [Entry.canFail, Entry.FailsAt, and_assoc]

/-- The record with its entry FAILING and ESCALATED set, before the escalation adds to it (R117). -/
def TripRec.failed (r : TripRec) (tg : Target) : TripRec :=
  { r with
    escalated := true
    entries := r.entries.map fun e => if e.FailsAt tg then { e with state := .failing, breakerFail := .stopped } else e }

theorem failEntry_eq (s : State) (r : TripRec) (tg : Target) : s.failEntry r tg = s.escalate (r.failed tg) tg := by
  unfold State.failEntry TripRec.failed
  rw [modEntry_if]
  simp only [failsAt_iff]

/-- A breaker-fail leaves which targets the record holds (R117). -/
theorem failed_holds (r : TripRec) (tg x : Target) :
    (r.failed tg).holds x = r.entries.any fun e => decide (e.target = x) := by
  unfold TripRec.failed TripRec.holds
  rw [List.any_map]
  refine congrArg r.entries.any (funext fun e => ?_)
  simp only [Function.comp_apply]
  split <;> rfl

/-- Lines that stand for no breaker lock out none (R119). -/
theorem breakersOf_eq_zero {ts : List Target} (h : ∀ t ∈ ts, t.breaker? = none) : breakersOf ts = 0 := by
  refine set_ext fun i => ?_
  unfold breakersOf
  rw [mem_setOf, List.any_eq_false.2 fun t ht => by simp [h t ht]]
  simp [mem]

/-- The record after the escalation of an incomer's line: its intertrip line is added where the record does not hold it
(R118). -/
theorem escalate_ti (s : State) (r : TripRec) (k : Incomer) : s.escalate (r.failed (.ti k)) (.ti k) =
    if ∃ e ∈ r.entries, e.target = .ut k then r.failed (.ti k)
    else { r.failed (.ti k) with entries := (r.failed (.ti k)).entries ++ [s.freshPulse k .escalation] } := by
  have hold : (r.failed (.ti k)).holds (.ut k) = true ↔ ∃ e ∈ r.entries, e.target = .ut k := by
    rw [failed_holds, List.any_eq_true]
    simp only [decide_eq_true_iff]
  have hnone : breakersOf [] = 0 := breakersOf_eq_zero (by simp)
  have hpulse : breakersOf [Target.ut k] = 0 := breakersOf_eq_zero (by simp [Target.breaker?])
  have hnew : s.newEntry (.ut k) .escalation = s.freshPulse k .escalation := command_eq s _
  unfold State.escalate State.addEntries
  by_cases h : ∃ e ∈ r.entries, e.target = .ut k
  · simp [hold.2 h, h, hnone]
  · simp [Bool.eq_false_iff.2 (mt hold.1 h), h, hpulse, hnew]

/-- The record after the escalation of a coupler's line with a far side: the far section joins the region, and the
targets of its side-set that the record does not hold are added, with their breakers locked out (R119). -/
theorem escalate_tc (s : State) (r : TripRec) {j : Coupler} {far : Sect} {side : BreakerSet}
    (h : s.farSide r.region j = some (far, side)) :
    let new := (targetsOf side).filter fun x => !r.entries.any fun e => decide (e.target = x)
    s.escalate (r.failed (.tc j)) (.tc j) = { r.failed (.tc j) with
      region := r.region ||| single far
      entries := (r.failed (.tc j)).entries ++ new.map (fun x => s.freshEntry x .escalation)
      lockout := r.lockout ||| breakersOf new } := by
  intro new
  have hr : s.farSide (r.failed (.tc j)).region j = some (far, side) := h
  have hnew : ((targetsOf side).filter fun x => !(r.failed (.tc j)).holds x) = new := by
    simp only [failed_holds]
    rfl
  have hfresh : new.map (fun x => s.newEntry x .escalation) = new.map fun x => s.freshEntry x .escalation :=
    List.map_congr_left fun x hx => newEntry_targetsOf s side _ (List.mem_of_mem_filter hx)
  unfold State.escalate
  simp only [hr]
  rw [← hfresh, ← hnew]
  rfl

/-- A coupler that leads to no far side escalates nothing (R119). -/
theorem escalate_tc_none (s : State) (r : TripRec) {j : Coupler} (h : s.farSide r.region j = none) :
    s.escalate (r.failed (.tc j)) (.tc j) = r.failed (.tc j) := by
  have hr : s.farSide (r.failed (.tc j)).region j = none := h
  unfold State.escalate
  simp only [hr]

/-- What a breaker-fail does to the records, before the write engine is asked. -/
def State.failTaken (s : State) (seq : Byte) (tg : Target) : State :=
  s.atEntry seq tg Entry.canFail fun r => s.failEntry r tg

theorem failBreaker_eq (s : State) (seq : Byte) (tg : Target) :
    s.failBreaker seq tg = (s.trmEvent fun s => s.failTaken seq tg).raise .breakerFail := rfl

theorem failBreaker_kept (s : State) (seq : Byte) (tg : Target) :
    (s.failBreaker seq tg).trm.records = (s.failTaken seq tg).trm.records ∧
      (s.failBreaker seq tg).cfg.recordsQuiet = s.cfg.recordsQuiet ∧
      (s.failBreaker seq tg).cfg.transferDue = s.cfg.transferDue := by
  obtain ⟨hr, -, hq, hd, -⟩ := trmEvent_kept s fun s => s.failTaken seq tg
  exact ⟨hr, hq, hd⟩

theorem failBreaker_alerted {s : State} {p : Port} (seq : Byte) (tg : Target) (hp : s.used p = true) :
    (s.failBreaker seq tg).alerted p .breakerFail = true := by
  have hu := (failBreaker_zstep s seq tg).sameBoard.used
  rw [failBreaker_eq] at hu ⊢
  exact raise_alerts .breakerFail ((congrFun hu p).trans hp)

theorem failBreaker_asksForWord (s : State) (seq : Byte) (tg : Target) : s.AsksForWord (s.failBreaker seq tg) True :=
  trmEvent_asksForWord s (fun s => s.failTaken seq tg) rfl rfl

/-- Settles O28: the request for the lockout word and the alert go beside the records; each named record fails its entry
and escalates by its target. -/
theorem breakerFailEscalates : Obligations.BreakerFailEscalates := by
  intro s seq tg fails names hnames
  have hentry (r : TripRec) : (∃ e ∈ r.entries, e.target = tg ∧ e.canFail = true) ↔ ∃ e ∈ r.entries, fails e :=
    exists_congr fun e => and_congr_right fun _ => failsAt_iff e tg
  have hruns : exec (.breakerFailExpiry seq tg) s = .next (s.failBreaker seq tg) := by
    refine congrArg Host.Outcome.next (if_pos ((s.entryHas_iff seq tg Entry.canFail).2 ?_))
    simp only [hentry]
    exact hnames
  obtain ⟨hrecords, hquiet, hdue⟩ := failBreaker_kept s seq tg
  refine ⟨_, hruns, ?_, fun p hp => failBreaker_alerted seq tg hp, failBreaker_asksForWord s seq tg, hquiet, hdue,
    fun i r hr => ?_⟩
  · rw [hrecords]
    exact List.length_map _
  · obtain ⟨hnamed, hother⟩ := atEntry_getElem? hr seq tg Entry.canFail fun r => s.failEntry r tg
    simp only [hentry] at hnamed hother
    rw [hrecords]
    refine ⟨hother, fun hn => ?_⟩
    have hi : (s.failTaken seq tg).trm.records[i]? = some (s.escalate (r.failed tg) tg) :=
      (hnamed hn).trans (congrArg some (failEntry_eq s r tg))
    intro r'
    refine ⟨?_, ?_, ?_⟩
    · rintro k rfl
      exact hi.trans (congrArg some (escalate_ti s r k))
    · rintro j rfl hf
      exact hi.trans (congrArg some (escalate_tc_none s r hf))
    · rintro j far side rfl hf
      exact hi.trans (congrArg some (escalate_tc s r hf))

end Sys2Proof.Machine
end

section
/-! PROOFS. An opening in a full list: the oldest closed record leaves it, with RECORD_MISSED, and the selections and half
latches of that record go (R101, R105, R107, R150, R152, R154); O23. -/

namespace Sys2Proof.Machine

/-! ### The record that gives way (R107, R150) -/

section
variable {older newer : List TripRec} {old : TripRec}

/-- A full list keeps all but its oldest closed record. -/
theorem keptRecords_full (hlen : (older ++ old :: newer).length = 12) (ho : ∀ r ∈ older, r.stage ≠ .closed)
    (hc : old.stage = .closed) : keptRecords (older ++ old :: newer) = older ++ newer := by
  have hkept : ∀ r ∈ older, ¬ decide (r.stage = .closed) = true := fun r hr => by simpa using ho r hr
  unfold keptRecords
  rw [if_neg (by omega), List.eraseP_append_right _ hkept, List.eraseP_cons_of_pos (by simpa using hc)]

theorem oldestClosed_full (ho : ∀ r ∈ older, r.stage ≠ .closed) (hc : old.stage = .closed) :
    oldestClosed (older ++ old :: newer) = some old := by
  have hnone : older.find? (fun r => decide (r.stage = .closed)) = none :=
    List.find?_eq_none.2 fun r hr => by simpa using ho r hr
  unfold oldestClosed
  rw [List.find?_append, hnone, Option.none_or, List.find?_cons_of_pos (by simpa using hc)]

end

/-- A port after a record has left the list: a selection of it goes with the half latch, and a half latch loaded from it
goes by itself (R150, R152, R154, log 22). -/
def PortRec.without (r : PortRec) (seq : Byte) : PortRec :=
  { r with
    selection := if r.selection = some seq then none else r.selection
    latch := r.latch.filter fun l => !decide (r.selection = some seq ∨ l.key.record = some seq) }

theorem without_eq (r : PortRec) (seq : Byte) :
    (if r.selection = some seq then r.dropSelection else r.dropLatchOf seq) = r.without seq := by
  obtain ⟨_, _, _, _, _, _, _, _, _, _, _, _, _, selection, latch⟩ := r
  unfold PortRec.without
  by_cases hs : selection = some seq
  · cases latch <;> simp [hs, PortRec.dropSelection]
  · cases latch with
    | none => simp [hs, PortRec.dropLatchOf]
    | some l => by_cases hk : l.key.record = some seq <;> simp [hs, hk, PortRec.dropLatchOf, Option.filter]

section
variable {s : State} {old : TripRec}

theorem makeRoom_full (hlen : s.trm.records.length = 12) (ho : oldestClosed s.trm.records = some old) :
    s.makeRoom = (State.raiseOn { s with trm.records := s.trm.records.erase old } .recordMissed
      fun p => s.used p && !mem old.seenBy p).dropSelections old.seq := by
  unfold State.makeRoom
  rw [if_neg (by omega), ho]

/-- RECORD_MISSED goes to the used ports that had not seen the record, and to no other (R150). -/
theorem makeRoom_alerted (hlen : s.trm.records.length = 12) (ho : oldestClosed s.trm.records = some old) (p : Port) :
    s.makeRoom.alerted p .recordMissed = (s.alerted p .recordMissed || (s.used p && !mem old.seenBy p)) := by
  have h := raiseOn_alerted { s with trm.records := s.trm.records.erase old } .recordMissed .recordMissed
    (fun p => s.used p && !mem old.seenBy p) p
  rw [decide_eq_true rfl, Bool.and_true] at h
  rw [makeRoom_full hlen ho]
  exact h

theorem makeRoom_ports (hlen : s.trm.records.length = 12) (ho : oldestClosed s.trm.records = some old) (p : Port) :
    s.makeRoom.lnk[p] = s.lnk[p].without old.seq := by
  rw [makeRoom_full hlen ho, ← without_eq]
  exact modAll_get s.lnk p _

end

/-! ### The openings leave alerts of missed records and ports as the room made for them does -/

/-- The ports, and the alerts of missed records, are as making room leaves them. -/
structure State.RoomTaken (s t : State) : Prop where
  missed : ∀ p, t.alerted p .recordMissed = s.makeRoom.alerted p .recordMissed
  ports : t.lnk = s.makeRoom.lnk

/-- What room made in a full list leaves of the alerts of missed records and of the ports (R150, R152, R154). -/
theorem State.RoomTaken.outcome {s t : State} {old : TripRec} (h : s.RoomTaken t) (hlen : s.trm.records.length = 12)
    (ho : oldestClosed s.trm.records = some old) :
    (∀ p, s.used p = true → mem old.seenBy p = false → t.alerted p .recordMissed = true) ∧
      (∀ p, s.used p = false ∨ mem old.seenBy p = true → t.alerted p .recordMissed = s.alerted p .recordMissed) ∧
      ∀ p : Port, t.lnk[p] = s.lnk[p].without old.seq := by
  refine ⟨fun p hu hs => ?_, fun p hp => ?_, fun p => ?_⟩
  · rw [h.missed, makeRoom_alerted hlen ho, hu, hs]
    simp
  · rw [h.missed, makeRoom_alerted hlen ho]
    rcases hp with hp | hp <;> simp [hp]
  · simp only [h.ports]
    exact makeRoom_ports hlen ho p

theorem trmEvent_ports (s : State) (f : State → State) : (s.trmEvent f).lnk = (f s).lnk := by
  unfold State.trmEvent
  simp only
  split
  · rfl
  · exact requestWord_lnk _ _

theorem raise_notMissed (s : State) {a : Alert} (h : a ≠ .recordMissed) (p : Port) :
    (s.raise a).alerted p .recordMissed = s.alerted p .recordMissed := by
  rw [raise_alerted, decide_eq_false h.symm, Bool.and_false, Bool.or_false]

theorem endDrill_notMissed (s : State) (why : EndReason) (p : Port) :
    (s.endDrill why).alerted p .recordMissed = s.alerted p .recordMissed := by
  cases ha : s.zev.drill.active
  · rw [endDrill_idle why ha]
  · rw [endDrill_active why ha]
    exact raise_notMissed { s with zev := _ } (by decide) p

/-- An event at the TRM leaves alerts and ports as its change of the records does. -/
theorem State.RoomTaken.trmEvent {s : State} {f : State → State} (h : s.RoomTaken (f s)) : s.RoomTaken (s.trmEvent f) := by
  obtain ⟨-, -, -, -, ha⟩ := trmEvent_kept s f
  refine ⟨fun p => ?_, (trmEvent_ports s f).trans h.ports⟩
  rw [← h.missed]
  unfold State.alerted
  rw [ha]

section
variable (s : State) (z : Zone)

theorem decideArc_roomTaken : s.RoomTaken (s.decideArc z) := by
  have htaken : s.RoomTaken (s.arcTaken z s.zev.zones[z].trigger s.zev.zones[z].degraded) :=
    ⟨fun p => raise_notMissed (State.noticeRecords _) (by decide) p, rfl⟩
  have hopened : s.RoomTaken (s.arcOpenedAt z) := htaken.trmEvent (f := fun t => t.arcTaken z _ _)
  obtain ⟨-, halr, hlnk, -⟩ := decidedAt_kept s z
  have hdecided : s.RoomTaken (s.decidedAt z) := by
    refine ⟨fun p => ?_, hlnk.trans hopened.ports⟩
    rw [← hopened.missed]
    unfold State.alerted
    rw [halr]
  rw [decideArc_eq]
  split
  · exact ⟨fun p => (endDrill_notMissed _ _ p).trans (hdecided.missed p), (endDrill_lnk _ _).trans hdecided.ports⟩
  · exact hdecided

/-- The zone under drill waits, and its DRILL record is shown (R160, R161). -/
def State.drillShown : State :=
  State.toWaiting { s.appendDrill z s.zev.zones[z].trigger s.zev.zones[z].degraded with
    zev.drill.shown := satInc s.zev.drill.shown } z

theorem entryFilterExpiry_decides {s : State} {z : Zone} (h : s.currentConfirms z = true ∨
    (s.zev.zones[z].drill = false ∧ s.cfg.active.zones[z].confirm = .lightOnly)) :
    s.entryFilterExpiry z = s.decideArc z := by
  rw [entryFilterExpiry_eq, if_pos ((confirmsLit_iff s z).2 h)]

theorem entryFilterExpiry_shows {s : State} {z : Zone} (h : ¬ (s.currentConfirms z = true ∨
    (s.zev.zones[z].drill = false ∧ s.cfg.active.zones[z].confirm = .lightOnly)))
    (hd : s.zev.zones[z].drill = true) : s.entryFilterExpiry z = s.drillShown z := by
  rw [entryFilterExpiry_eq, if_neg (mt (confirmsLit_iff s z).1 h), if_pos hd]
  rfl

theorem drillShown_roomTaken : s.RoomTaken (s.drillShown z) := by
  have htaken : s.RoomTaken (s.drillTaken z s.zev.zones[z].trigger s.zev.zones[z].degraded) := ⟨fun _ => rfl, rfl⟩
  have happended : s.RoomTaken (s.appendDrill z s.zev.zones[z].trigger s.zev.zones[z].degraded) :=
    htaken.trmEvent (f := fun t => t.drillTaken z _ _)
  unfold State.drillShown
  generalize s.appendDrill z s.zev.zones[z].trigger s.zev.zones[z].degraded = u at happended ⊢
  exact ⟨happended.missed, happended.ports⟩

theorem drillShown_asksForWord : s.AsksForWord (s.drillShown z) True := by
  have h := appendDrill_tripStep s z s.zev.zones[z].trigger s.zev.zones[z].degraded (acts := True)
  unfold State.drillShown
  generalize s.appendDrill z s.zev.zones[z].trigger s.zev.zones[z].degraded = u at h ⊢
  exact (h.between (.refl s) (.trans ⟨rfl, rfl, rfl, rfl, rfl⟩ (toWaiting_sameTrips _ z))).asks.asks

/-- A pending commit waits for the zone (R178, log 5). -/
theorem drillShown_notDue : (s.drillShown z).cfg.transferDue = false := by
  unfold State.drillShown
  rw [toWaiting_eq]

/-- A DRILL record is appended behind those the list keeps, under the next number (R105, R107, R161). -/
theorem drillShown_records : ∃ r : TripRec, (s.drillShown z).trm.records = keptRecords s.trm.records ++ [r] ∧
    r.kind = .drill ∧ r.stage = .closed ∧ r.origin = some z ∧ r.opened = s.alr.time ∧ r.seq = s.decisionNumber ∧
    (s.drillShown z).trm.seqCounter = s.decisionNumber := by
  obtain ⟨hrec, hcount, -⟩ := trmEvent_kept s fun t => t.drillTaken z s.zev.zones[z].trigger s.zev.zones[z].degraded
  obtain ⟨hr, hc⟩ := makeRoom_trm s
  have htime := (makeRoom_tstep s).time
  have hn : nextSeq (s.makeRoom.trm.records.map (·.seq)) 12 s.makeRoom.trm.seqCounter = s.decisionNumber := by
    rw [hr, hc]
    rfl
  rw [← hr]
  exact ⟨_, hrec, rfl, rfl, rfl, htime, hn, hcount.trans hn⟩

end

/-- The number of an opening in a list of twelve (R105). -/
theorem decisionNumber_next {s : State} (h : s.trm.records.length ≤ 12) :
    NextNumber ((keptRecords s.trm.records).map (·.seq)) s.trm.seqCounter s.decisionNumber := by
  refine nextSeq_nextNumber _ _ ?_
  rw [List.length_map]
  exact (length_keptRecords_le _).trans h

/-- Settles O23: room is made alike for an ARC record and for a DRILL record. -/
theorem roomIsMade : Obligations.RoomIsMade := by
  intro s z newer older old hl hf arc hopens hrec hlen holder hc
  have hold : oldestClosed s.trm.records = some old := by
    rw [hrec]
    exact oldestClosed_full holder hc
  have hkept : keptRecords s.trm.records = older ++ newer := by
    rw [hrec] at hlen ⊢
    exact keptRecords_full hlen holder hc
  have hnumber := decisionNumber_next hlen.le
  rw [hkept] at hnumber
  rw [filterExpiry_runs hl hf]
  by_cases harc : arc
  · obtain ⟨hrecords, hcount⟩ := decideArc_records s z
    obtain ⟨hmissed, hsame, hports⟩ := (decideArc_roomTaken s z).outcome hlen hold
    rw [hkept] at hrecords
    rw [entryFilterExpiry_decides harc]
    exact ⟨_, _, rfl, hrecords, fun _ => ⟨rfl, rfl⟩, fun hn => absurd harc hn, rfl, rfl, hnumber, hcount, hmissed, hsame,
      (decideArc_asks s z).asks, (decideArc_quiet s z).2, hports⟩
  · obtain ⟨new, hrecords, hkind, hstage, horigin, hopened, hseq, hcount⟩ := drillShown_records s z
    obtain ⟨hmissed, hsame, hports⟩ := (drillShown_roomTaken s z).outcome hlen hold
    rw [hkept] at hrecords
    rw [← hseq] at hnumber hcount
    rw [entryFilterExpiry_shows harc (hopens.resolve_left harc)]
    exact ⟨_, new, rfl, hrecords, fun ha => absurd ha harc, fun _ => ⟨hkind, hstage⟩, horigin, hopened, hnumber, hcount,
      hmissed, hsame, drillShown_asksForWord s z, drillShown_notDue s z, hports⟩

end Sys2Proof.Machine
end

section
/-! PROOFS. A RELEASE: the port's authority, the outcome at every record, the reply and its counts, and what is asked of
the write engine (R132, R136 to R139, R142); O46. -/

namespace Sys2Proof.Machine

/-! ### The frame and the port's authority (R136) -/

/-- A RELEASE of a LIVE port runs its body on the board with the frame taken (R192). -/
theorem exec_release {s : State} {p : Port} (f : Fields) (h : s.liveReady p = true) :
    ∃ l, exec (.release p f) s = .next (State.releaseBody { s with lnk := l } p f) ∧
      TookFrame s.lnk l p s.lnk[p] s.lnk[p].slot := by
  obtain ⟨hready, hlive⟩ := liveReady_ready h
  obtain ⟨l, hl, htook⟩ := function_permitted s p .release f (fun s => s.releaseBody p f) hready (by rw [hlive]; rfl)
  exact ⟨l, congrArg Host.Outcome.next hl, htook⟩

/-- A RELEASE that does nothing but answer. -/
theorem release_answers {s : State} {p : Port} {f : Fields} {rep : Reply} (h : s.liveReady p = true)
    (hb : ∀ l : Vector PortRec 4,
      State.releaseBody { s with lnk := l } p f = State.setSlot { s with lnk := l } p rep) :
    AnswersOnly (.release p f) s p rep := by
  obtain ⟨l, he, htook⟩ := exec_release f h
  obtain ⟨l', hs, htook'⟩ := htook.setSlot rep
  refine ⟨l', ?_, htook'⟩
  rw [he, hb, hs]

/-- The ports of a coupler's sections own it, and the port of an incomer owns that (R136). -/
theorem owns_eq : ∀ (q : Port) (b : Fin 7), owns q b =
    if b.val < 4 then decide (q.val = b.val) else decide (q.val + 4 = b.val ∨ q.val + 3 = b.val) := by decide

theorem authority_iff (s : State) (p : Port) (b : Fin 7) :
    s.authority p b = true ↔ owns p b = true ∨ ∀ q : Port, owns q b = true → s.used q = false := by
  simp [State.authority, List.all_eq_true, imp_iff_not_or]

section
variable {s : State} {p : Port} {f : Fields} {b : Fin 7}

theorem releaseBody_badValue (h : 7 ≤ f.value.toNat) : s.releaseBody p f = s.setSlot p ⟨.badValue, 0⟩ :=
  dif_neg (by omega)

theorem releaseBody_breaker (h : f.value.toNat = b.val) : s.releaseBody p f =
    if s.authority p b then (s.releaseBreaker b).setSlot p (releaseReply (s.releaseOutcomes b))
    else s.setSlot p ⟨.notPermitted, 0⟩ := by
  have hlt : f.value.toNat < 7 := by omega
  have hb : (⟨f.value.toNat, hlt⟩ : Fin 7) = b := Fin.ext h
  unfold State.releaseBody
  simp only [hlt, dif_pos, hb]

end

/-! ### The outcome at a record (R137, R139) -/

section
variable (s : State) (b : Fin 7) (r : TripRec)

/-- The record is open and holds the breaker, so that a release of it examines the record (R137). -/
def TripRec.examined : Bool := decide (r.stage ≠ .closed) && mem r.lockout b && !mem r.released b

/-- The origin zone of an ARC record is lit, so that no release is taken there (R137). -/
def State.litAt : Bool :=
  decide (r.kind = .arc) && (match r.origin with | some z => s.zev.zones[z].lit | none => false)

/-- The record takes the release (R137). -/
def State.takesAt : Bool := r.examined b && decide (r.stage ≠ .firing) && !s.litAt r

theorem releaseAt_eq : s.releaseAt b r =
    if r.examined b then
      if r.stage = .firing then some .firing else if s.litAt r then some .lit else some .taken
    else none := by
  have hheld : (r.isOpen && mem r.holding b) = r.examined b := by
    simp [TripRec.isOpen, TripRec.holding, TripRec.examined, mem_and, mem_not, Bool.and_assoc]
  rw [← hheld]
  rfl

theorem releaseAt_taken_iff : s.releaseAt b r = some .taken ↔ s.takesAt b r = true := by
  rw [releaseAt_eq]
  unfold State.takesAt
  split_ifs <;> simp [*]

/-- A record is refused where it is examined and does not take the release (R137). -/
theorem releaseAt_refused_iff : (∃ o, s.releaseAt b r = some o ∧ o ≠ .taken) ↔
    (r.examined b && !s.takesAt b r) = true := by
  rw [releaseAt_eq]
  unfold State.takesAt
  split_ifs <;> simp [*]

/-- The record closes: its whole lockout set is released (R139). -/
theorem closesAt_eq : s.closesAt b r =
    (s.takesAt b r && decide (r.stage = .locked) && decide (r.released ||| single b = r.lockout)) := by
  have hopen (h : s.takesAt b r = true) : r.stage ≠ .closed := by
    simp only [State.takesAt, TripRec.examined, Bool.and_eq_true, decide_eq_true_iff] at h
    exact h.1.1.1.1
  rw [Bool.eq_iff_iff]
  simp only [State.closesAt, Bool.and_eq_true, decide_eq_true_iff, releaseAt_taken_iff, and_assoc]
  refine and_congr_right fun ht => ?_
  have hne := hopen ht
  unfold TripRec.take
  simp only
  split <;> simp_all

/-- The record after the release, in the words of the statements (R137, R139). -/
theorem released_eq : (if s.releaseAt b r = some .taken then r.take b s.alr.time else r) =
    if s.takesAt b r then
      { r with
        released := r.released ||| single b
        stage := if s.closesAt b r then .closed else r.stage
        closedAt := if s.closesAt b r then some s.alr.time else r.closedAt }
    else r := by
  rw [closesAt_eq]
  refine if_ctx_congr (releaseAt_taken_iff s b r) (fun ht => ?_) fun _ => rfl
  rw [ht, Bool.true_and]
  unfold TripRec.take
  split <;> simp_all

end

/-! ### The reply (R138, R204) -/

/-- The outcomes of one kind are counted at the records. -/
theorem length_filter_filterMap {α β : Type} {g : α → Option β} {q : β → Bool} {p : α → Bool}
    (h : ∀ x, (∃ y, g x = some y ∧ q y = true) ↔ p x = true) (xs : List α) :
    ((xs.filterMap g).filter q).length = (xs.filter p).length := by
  rw [List.filter_filterMap, List.length_filterMap_eq_countP, ← List.countP_eq_length_filter]
  refine List.countP_congr fun x _ => ?_
  rw [← h, Option.isSome_iff_exists]
  simp only [Option.filter_eq_some_iff]

/-- What a reply to a RELEASE carries, by how many outcomes are taken and how many are refused (R138). -/
theorem releaseReply_spec (outs : List ReleaseOutcome) :
    let taken := (outs.filter (· = .taken)).length
    let refused := (outs.filter (· ≠ .taken)).length
    (releaseReply outs).value.toNat = (taken * 256 + refused) % 65536 ∧
      (taken = 0 → refused = 0 → (releaseReply outs).code = .notHeld) ∧
      (0 < taken → refused = 0 → (releaseReply outs).code = .releasedAll) ∧
      (0 < taken → 0 < refused → (releaseReply outs).code = .releasedSome) ∧
      (taken = 0 → 0 < refused → (releaseReply outs).code =
        match outs.head? with
        | some .firing => .refusedFiring
        | _ => .refusedLit) := by
  intro taken refused
  have hlen : outs.length = taken + refused := by
    have h := List.length_eq_length_filter_add (l := outs) (· = ReleaseOutcome.taken)
    simpa [taken, refused] using h
  have hempty : outs.isEmpty = true ↔ taken = 0 ∧ refused = 0 := by
    rw [List.isEmpty_iff, ← List.length_eq_zero_iff, hlen, Nat.add_eq_zero_iff]
  have hreply : releaseReply outs =
      if outs.isEmpty then ⟨.notHeld, 0⟩
      else if refused = 0 then ⟨.releasedAll, BitVec.ofNat 16 (taken * 256 + refused)⟩
      else if 0 < taken then ⟨.releasedSome, BitVec.ofNat 16 (taken * 256 + refused)⟩
      else match outs.head? with
        | some .firing => ⟨.refusedFiring, BitVec.ofNat 16 (taken * 256 + refused)⟩
        | _ => ⟨.refusedLit, BitVec.ofNat 16 (taken * 256 + refused)⟩ := rfl
  rw [hreply]
  clear_value taken refused
  by_cases he : outs.isEmpty = true
  · obtain ⟨rfl, rfl⟩ := hempty.1 he
    simp [he]
  · have hsome : ¬ (taken = 0 ∧ refused = 0) := mt hempty.2 he
    rw [if_neg he]
    split_ifs with hr ht
    · exact ⟨BitVec.toNat_ofNat _ _, by omega, fun _ _ => rfl, by omega, by omega⟩
    · exact ⟨BitVec.toNat_ofNat _ _, by omega, by omega, fun _ _ => rfl, by omega⟩
    · refine ⟨?_, by omega, by omega, by omega, fun _ _ => ?_⟩
      · split <;> exact BitVec.toNat_ofNat _ _
      · split <;> rfl

/-- Where no record takes the release, the first outcome is the refusal of the first record examined (R138). -/
theorem head_releaseOutcomes {s : State} {b : Fin 7} (h : ∀ r ∈ s.trm.records, s.takesAt b r = false) :
    (s.releaseOutcomes b).head? = (s.trm.records.find? (·.examined b)).map fun r =>
      if r.stage = .firing then .firing else .lit := by
  unfold State.releaseOutcomes
  generalize s.trm.records = rs at h ⊢
  induction rs with
  | nil => rfl
  | cons r rs ih =>
    have hr := h r List.mem_cons_self
    have hrest := ih fun x hx => h x (List.mem_cons_of_mem r hx)
    cases he : r.examined b with
    | false =>
      have hnone : s.releaseAt b r = none := by rw [releaseAt_eq, he]; rfl
      rw [List.filterMap_cons_none hnone, hrest, List.find?_cons_of_neg (by simp [he])]
    | true =>
      have hsome : s.releaseAt b r = some (if r.stage = .firing then .firing else .lit) := by
        simp only [State.takesAt, he, Bool.true_and] at hr
        rw [releaseAt_eq, he, if_pos rfl]
        split_ifs <;> simp_all
      rw [List.filterMap_cons_some hsome, List.find?_cons_of_pos he]
      rfl

/-- The reply to a RELEASE, by the records that take it and those that refuse it (R138). -/
theorem releaseReply_records (s : State) (b : Fin 7) :
    let reply := releaseReply (s.releaseOutcomes b)
    let taken := (s.trm.records.filter (s.takesAt b)).length
    let refused := (s.trm.records.filter fun r => r.examined b && !s.takesAt b r).length
    reply.value.toNat = (taken * 256 + refused) % 65536 ∧
      (taken = 0 → refused = 0 → reply.code = .notHeld) ∧
      (0 < taken → refused = 0 → reply.code = .releasedAll) ∧
      (0 < taken → 0 < refused → reply.code = .releasedSome) ∧
      (taken = 0 → 0 < refused → reply.code =
        match s.trm.records.find? (·.examined b) with
        | some r => if r.stage = .firing then .refusedFiring else .refusedLit
        | none => .notHeld) := by
  have htaken : ((s.releaseOutcomes b).filter (· = .taken)).length = (s.trm.records.filter (s.takesAt b)).length :=
    length_filter_filterMap (fun r => by simp [← releaseAt_taken_iff]) _
  have hrefused : ((s.releaseOutcomes b).filter (· ≠ .taken)).length =
      (s.trm.records.filter fun r => r.examined b && !s.takesAt b r).length :=
    length_filter_filterMap (fun r => by simp only [decide_eq_true_iff]; exact releaseAt_refused_iff s b r) _
  have h := releaseReply_spec (s.releaseOutcomes b)
  simp only [htaken, hrefused] at h
  obtain ⟨hvalue, hnone, hall, hsome, hrefusal⟩ := h
  refine ⟨hvalue, hnone, hall, hsome, fun ht hr => (hrefusal ht hr).trans ?_⟩
  have hnot : ∀ r ∈ s.trm.records, s.takesAt b r = false := fun r hm =>
    Bool.eq_false_iff.2 (List.filter_eq_nil_iff.1 (List.length_eq_zero_iff.1 ht) r hm)
  rw [head_releaseOutcomes hnot]
  obtain ⟨r, hm⟩ := List.exists_mem_of_length_pos hr
  obtain ⟨hmem, hexam⟩ := List.mem_filter.1 hm
  have hfound : (s.trm.records.find? (·.examined b)).isSome = true :=
    List.find?_isSome.2 ⟨r, hmem, (Bool.and_eq_true_iff.1 hexam).1⟩
  obtain ⟨first, hfirst⟩ := Option.isSome_iff_exists.1 hfound
  rw [hfirst]
  by_cases hf : first.stage = .firing <;> simp [hf]

theorem setSlot_slot (s : State) (p : Port) (rep : Reply) : (s.setSlot p rep).lnk[p].slot = rep :=
  congrArg PortRec.slot (modAt_same s.lnk p _)

/-! ### The release at the Trip Record Manager (R137, R139) -/

/-- What a release does to the records and the notices, before the write engine is asked. -/
def State.releaseTaken (s : State) (b : Fin 7) : State :=
  let t : State :=
    { s with
      trm.records := s.trm.records.map fun r => if s.releaseAt b r = some .taken then r.take b s.alr.time else r
      zev.notices := s.zev.notices ++
        ((s.trm.records.filter (s.closesAt b)).filter fun r => decide (r.kind = .arc)).filterMap (·.origin) }
  if (s.trm.records.filter (s.closesAt b)).isEmpty then t else t.raise .recordClosed

theorem releaseBreaker_eq (s : State) (b : Fin 7) : s.releaseBreaker b = s.trmEvent fun s => s.releaseTaken b := rfl

section
variable (s : State) (b : Fin 7)

theorem releaseTaken_fields :
    (s.releaseTaken b).trm = { s.trm with
        records := s.trm.records.map fun r => if s.releaseAt b r = some .taken then r.take b s.alr.time else r } ∧
      (s.releaseTaken b).zev = { s.zev with notices := s.zev.notices ++
        ((s.trm.records.filter (s.closesAt b)).filter fun r => decide (r.kind = .arc)).filterMap (·.origin) } ∧
      (s.releaseTaken b).cfg = s.cfg ∧ (s.releaseTaken b).lnk = s.lnk := by
  unfold State.releaseTaken
  simp only
  split <;> exact ⟨rfl, rfl, rfl, rfl⟩

theorem releaseBreaker_records : (s.releaseBreaker b).trm.records = s.trm.records.map fun r =>
    if s.takesAt b r then
      { r with
        released := r.released ||| single b
        stage := if s.closesAt b r then .closed else r.stage
        closedAt := if s.closesAt b r then some s.alr.time else r.closedAt }
    else r := by
  obtain ⟨hrec, -⟩ := trmEvent_kept s fun s => s.releaseTaken b
  obtain ⟨htrm, -⟩ := releaseTaken_fields s b
  rw [releaseBreaker_eq, hrec, htrm]
  exact List.map_congr_left fun r _ => released_eq s b r

theorem releaseBreaker_zev : (s.releaseBreaker b).zev = { s.zev with notices := s.zev.notices ++
    (s.trm.records.filter fun r => s.closesAt b r && decide (r.kind = .arc)).filterMap (·.origin) } := by
  obtain ⟨-, hzev, -⟩ := releaseTaken_fields s b
  rw [releaseBreaker_eq, trmEvent_zev, hzev, List.filter_filter]
  simp only [Bool.and_comm]

theorem releaseBreaker_lnk : (s.releaseBreaker b).lnk = s.lnk := by
  obtain ⟨-, -, -, hlnk⟩ := releaseTaken_fields s b
  exact trmEvent_lnk hlnk

theorem releaseBreaker_asksForWord : s.AsksForWord (s.releaseBreaker b) True := by
  obtain ⟨htrm, -, hcfg, -⟩ := releaseTaken_fields s b
  exact trmEvent_asksForWord s (fun s => s.releaseTaken b) (by rw [htrm]) (by rw [hcfg])

variable {s b}

/-- RECORD_CLOSED is raised where a record closes (R139). -/
theorem releaseBreaker_alerted (h : s.trm.records.any (s.closesAt b) = true) {p : Port} (hp : s.used p = true) :
    (s.releaseBreaker b).alerted p .recordClosed = true := by
  obtain ⟨-, -, -, -, halr⟩ := trmEvent_kept s fun s => s.releaseTaken b
  have hsome : (s.trm.records.filter (s.closesAt b)).isEmpty = false := by
    obtain ⟨r, hr, hc⟩ := List.any_eq_true.1 h
    exact List.isEmpty_eq_false_iff_exists_mem.2 ⟨r, List.mem_filter.2 ⟨hr, hc⟩⟩
  unfold State.alerted
  rw [releaseBreaker_eq, halr]
  unfold State.releaseTaken
  rw [hsome]
  exact raise_alerts (s := { s with trm := _, zev := _ }) .recordClosed hp

end

/-- Settles O46: the refusals at the port answer only; an allowed RELEASE is taken at the records and answered. -/
theorem releaseDecides : Obligations.ReleaseDecides := by
  intro s p f h
  refine ⟨fun hv => release_answers h fun l => releaseBody_badValue hv, fun b hb => ?_⟩
  intro owner examined lit takes closes taken refused allowed
  have hauth : s.authority p b = true ↔ allowed := by
    rw [authority_iff]
    simp only [owns_eq]
    rfl
  have hcloses : closes = s.closesAt b := funext fun r => (closesAt_eq s b r).symm
  clear_value closes
  subst hcloses
  refine ⟨fun hno => release_answers h fun l => ?_, fun ha => ?_⟩
  · exact (releaseBody_breaker hb).trans (if_neg (mt hauth.1 hno))
  · obtain ⟨l, he, htook⟩ := exec_release f h
    have hbody : State.releaseBody { s with lnk := l } p f = _ := (releaseBody_breaker hb).trans (if_pos (hauth.2 ha))
    refine ⟨_, he.trans (congrArg Host.Outcome.next hbody), ?_⟩
    have hlnk := releaseBreaker_lnk { s with lnk := l } b
    have hrecords := releaseBreaker_records { s with lnk := l } b
    have hzev := releaseBreaker_zev { s with lnk := l } b
    have hasks := releaseBreaker_asksForWord { s with lnk := l } b
    have halerts (hc) (q : Port) := releaseBreaker_alerted (s := { s with lnk := l }) (b := b) (p := q) hc
    obtain ⟨hvalue, hnone, hall, hsome, hrefusal⟩ := releaseReply_records s b
    generalize State.releaseBreaker { s with lnk := l } b = u at hlnk hrecords hzev hasks halerts ⊢
    obtain rfl : u.lnk = l := hlnk
    rw [setSlot_slot]
    exact ⟨hvalue, hnone, hall, hsome, hrefusal, hrecords, halerts, hzev, hasks, htook.replied _⟩

end Sys2Proof.Machine
end

section
/-! PROOFS. Requests that every port state permits: what an accepted frame leaves where the body changes its port, and
RECORD and SEEN; O47. -/

namespace Sys2Proof.Machine

/-! ### Accepted frames (R187, R190, R192) -/

/-- A change of the port that leaves its frame, its FRAME_ERR and its slot alone. -/
theorem TookFrame.changed {b a : Vector PortRec 4} {p : Port} {q : PortRec} {r : Reply} (h : TookFrame b a p q r)
    {g : PortRec → PortRec}
    (hframe : ∀ x, (g x).frame = x.frame ∧ (g x).selectTimer = x.selectTimer ∧ (g x).frameErr = x.frameErr ∧
      (g x).slot = x.slot)
    (hport : ∀ x y, SamePort x y → SamePort (g x) (g y)) : TookFrame b (modAt a p g) p (g q) r := by
  obtain ⟨hother, hidle, htimer, herr, hslot, hsame⟩ := h
  obtain ⟨gframe, gtimer, gerr, gslot⟩ := hframe a[p]
  unfold TookFrame
  rw [modAt_same]
  exact ⟨fun o hne => (modAt_other a _ hne).trans (hother o hne), gframe.trans hidle, gtimer.trans htimer,
    gerr.trans herr, gslot.trans hslot, hport _ _ hsame⟩

/-- A function that its port permits and that does nothing but answer. -/
theorem function_answers {c : Instr} {s : State} {p : Port} {fn : Fn} {f : Fields} {body : State → State} {rep : Reply}
    (hexec : exec c s = .next (s.function p fn f body)) (h : s.frameReady p = true)
    (hp : fn.permitted s.lnk[p].state = true)
    (hb : ∀ l : Vector PortRec 4, body { s with lnk := l } = State.setSlot { s with lnk := l } p rep) :
    AnswersOnly c s p rep := by
  obtain ⟨l, he, htook⟩ := function_permitted s p fn f body h hp
  refine ⟨_, ?_, htook.replied rep⟩
  rw [hexec, he, hb]
  rfl

/-! ### The record of a seq (R105, R148, R152) -/

/-- Seqs are distinct, so that the search for a record's seq finds that record (R105). -/
theorem find_seq {rs : List TripRec} {r : TripRec} (hr : r ∈ rs) (hd : (rs.map (·.seq)).Nodup) :
    rs.find? (fun x => decide (x.seq = r.seq)) = some r := by
  have hfound : (rs.find? fun x => decide (x.seq = r.seq)).isSome = true := List.find?_isSome.2 ⟨r, hr, by simp⟩
  obtain ⟨x, hx⟩ := Option.isSome_iff_exists.1 hfound
  have hseq : x.seq = r.seq := by simpa using List.find?_some hx
  rw [hx, List.inj_on_of_nodup_map hd (List.mem_of_find?_eq_some hx) hr hseq]

section
variable {s : State} {v : Word}

theorem recordNamed_none (hv : v.toNat ≤ 255) (h : ∀ r ∈ s.trm.records, r.seq.toNat ≠ v.toNat) :
    s.recordNamed v = none := by
  refine List.find?_eq_none.2 fun r hr he => h r hr ?_
  have hseq : r.seq = v.setWidth 8 := by simpa using he
  rw [hseq, BitVec.toNat_setWidth, Nat.mod_eq_of_lt (by omega)]

theorem recordNamed_some {r : TripRec} (hr : r ∈ s.trm.records) (hv : r.seq.toNat = v.toNat)
    (hd : (s.trm.records.map (·.seq)).Nodup) : s.recordNamed v = some r := by
  have hseq : v.setWidth 8 = r.seq := BitVec.eq_of_toNat_eq (by
    rw [BitVec.toNat_setWidth, ← hv, Nat.mod_eq_of_lt r.seq.isLt])
  unfold State.recordNamed
  rw [hseq]
  exact find_seq hr hd

/-! ### RECORD and SEEN (R148, R152) -/

variable {p : Port} {f : Fields}

theorem recordBody_badValue (h : 255 < f.value.toNat) : s.recordBody p f = s.setSlot p ⟨.badValue, 0⟩ := if_pos h

theorem seenBody_badValue (h : 255 < f.value.toNat) : s.seenBody p f = s.setSlot p ⟨.badValue, 0⟩ := if_pos h

theorem recordBody_none (hv : f.value.toNat ≤ 255) (h : s.recordNamed f.value = none) :
    s.recordBody p f = (s.modPort p PortRec.dropSelection).setSlot p ⟨.noRecord, 0⟩ := by
  unfold State.recordBody
  rw [if_neg (Nat.not_lt.2 hv), h]

theorem seenBody_none (hv : f.value.toNat ≤ 255) (h : s.recordNamed f.value = none) :
    s.seenBody p f = s.setSlot p ⟨.noRecord, 0⟩ := by
  unfold State.seenBody
  rw [if_neg (Nat.not_lt.2 hv), h]

/-- A RECORD of a record selects it and answers with its number of entries (R152). -/
theorem recordBody_of_mem {r : TripRec} (hr : r ∈ s.trm.records) (hv : r.seq.toNat = f.value.toNat)
    (hd : (s.trm.records.map (·.seq)).Nodup) :
    s.recordBody p f = (s.modPort p fun q => { q with selection := some r.seq }).setSlot p
      ⟨.accepted, BitVec.ofNat 16 r.entries.length⟩ := by
  have hle : ¬ 255 < f.value.toNat := by have := r.seq.isLt; omega
  unfold State.recordBody
  rw [if_neg hle, recordNamed_some hr hv hd]

end

/-- A change at the seq of a record reaches that record and no other (R105). -/
theorem modRecord_of_mem {s : State} {r : TripRec} (hr : r ∈ s.trm.records)
    (hd : (s.trm.records.map (·.seq)).Nodup) (g : TripRec → TripRec) :
    s.modRecord r.seq g = { s with trm.records := s.trm.records.map fun x => if x = r then g x else x } := by
  have hmap : (s.trm.records.map fun x => if x.seq = r.seq then g x else x) =
      s.trm.records.map fun x => if x = r then g x else x :=
    List.map_congr_left fun x hx =>
      if_congr ⟨List.inj_on_of_nodup_map hd hx hr, congrArg TripRec.seq⟩ rfl rfl
  unfold State.modRecord
  rw [hmap]

/-- The stage as SEEN answers it (R148, R208). -/
theorem stageCode_word (st : Stage) :
    BitVec.ofNat 16 (stageCode st) = match st with | .firing => 0 | .locked => 1 | .closed => 2 := by
  cases st <;> rfl

/-- A SEEN of a record adds the port to its seen-by set and answers with its stage (R148). -/
theorem seenBody_of_mem {s : State} {p : Port} {f : Fields} {r : TripRec} (hr : r ∈ s.trm.records)
    (hv : r.seq.toNat = f.value.toNat) (hd : (s.trm.records.map (·.seq)).Nodup) :
    s.seenBody p f = State.setSlot { s with
        trm.records := s.trm.records.map fun x => if x = r then { x with seenBy := x.seenBy ||| single p } else x } p
      ⟨.accepted, match r.stage with | .firing => 0 | .locked => 1 | .closed => 2⟩ := by
  have hle : ¬ 255 < f.value.toNat := by have := r.seq.isLt; omega
  unfold State.seenBody
  rw [if_neg hle, recordNamed_some hr hv hd]
  exact congrArg₂ (fun t w => State.setSlot t p ⟨.accepted, w⟩) (modRecord_of_mem hr hd _) (stageCode_word r.stage)

/-- Settles O47: the value names no seq, a seq of no record, or the seq of one record. -/
theorem recordAndSeenNameARecord : Obligations.RecordAndSeenNameARecord := by
  intro s p f h
  obtain ⟨l, hrecord, htook⟩ := function_permitted s p .record f (fun s => s.recordBody p f) h rfl
  refine ⟨fun hv => ⟨?_, ?_⟩, fun hv hnone => ⟨?_, ?_⟩, fun r hr hseq hd => ?_⟩
  · exact function_answers rfl h rfl fun l => recordBody_badValue hv
  · exact function_answers rfl h rfl fun l => seenBody_badValue hv
  · have hbody : State.recordBody { s with lnk := l } p f = _ := recordBody_none hv (recordNamed_none hv hnone)
    exact ⟨_, congrArg Host.Outcome.next (hrecord.trans hbody),
      (htook.changed (g := PortRec.dropSelection) (fun x => ⟨rfl, rfl, rfl, rfl⟩)
        fun x y ⟨h1, h2, h3, h4, _, _⟩ => ⟨h1, h2, h3, h4, rfl, rfl⟩).replied _⟩
  · exact function_answers rfl h rfl fun l => seenBody_none hv (recordNamed_none hv hnone)
  · refine ⟨?_, ?_⟩
    · have hbody : State.recordBody { s with lnk := l } p f = _ := recordBody_of_mem hr hseq hd
      exact ⟨_, congrArg Host.Outcome.next (hrecord.trans hbody),
        (htook.changed (g := fun q => { q with selection := some r.seq }) (fun x => ⟨rfl, rfl, rfl, rfl⟩)
          fun x y ⟨h1, h2, h3, h4, _, h6⟩ => ⟨h1, h2, h3, h4, rfl, h6⟩).replied _⟩
    · obtain ⟨l', hseen, htook'⟩ := function_permitted s p .seen f (fun s => s.seenBody p f) h rfl
      have hbody : State.seenBody { s with lnk := l' } p f = _ := seenBody_of_mem hr hseq hd
      exact ⟨_, congrArg Host.Outcome.next (hseen.trans hbody), htook'.replied _⟩

end Sys2Proof.Machine
end

section
/-! PROOFS. What READ and READ STAGED answer (R153, R154, R168, R203, R205): the item of a page and index, the half latch
that the read moves, and the two halves of one time; O34. -/

namespace Sys2Proof.Machine

/-! ### The items of an image (R208 pages 0 to 2) -/

theorem boardItem_eq (b : BoardPage) (i : Nat) : boardItem b i =
    [boolCode b.incomer[0], boolCode b.incomer[1], boolCode b.incomer[2], boolCode b.incomer[3],
      boolCode b.coupler[0], boolCode b.coupler[1], boolCode b.coupler[2], b.tMin.val, b.tBf.val, b.tCoil.val,
      b.tUp.val, b.slotPeriod.val, b.soiledW.val, b.blindB.val, b.hystH.val, b.ka.val, b.kc.val, b.tLearn.val,
      b.tHb.val, b.tDrill.val][i]? := by
  unfold boardItem
  split
  case h_21 => exact (List.getElem?_eq_none (by simp only [imp_false, List.length_cons, List.length_nil] at *; omega)).symm
  all_goals rfl

theorem channelItem_eq (p : ChannelPage) (i : Nat) : channelItem p i =
    [targetCode p.target, modeCode p.mode, p.fixedBaseline.val, p.gain.val, p.floor.val, p.dropRatio.val,
      p.dropCount.val, p.stormLimit.val, actionCode p.stormAction, p.aRef.toNat][i]? := by
  unfold channelItem
  split
  case h_11 => exact (List.getElem?_eq_none (by simp only [imp_false, List.length_cons, List.length_nil] at *; omega)).symm
  all_goals rfl

/-- A location in the coding of R208. -/
theorem locationCode_eq (a : Location) :
    locationCode a = match a with | .sect a => a.val | .coupler k => 4 + k.val := by
  cases a with
  | sect a => rfl
  | coupler k => exact Nat.add_comm _ _

theorem zoneItem_eq (z : ZonePage) (i : Nat) : zoneItem z i =
    [boolCode z.enabled, match z.location with | .sect a => a.val | .coupler k => 4 + k.val,
      z.slots[0].toNat, z.slots[1].toNat, z.slots[2].toNat, z.slots[3].toNat, z.slots[4].toNat,
      z.slots[5].toNat, voteCode z.vote, confirmCode z.confirm, scopeCode z.scope, z.tzf.val, z.tcw.val][i]? := by
  unfold zoneItem
  split
  case h_2 => exact congrArg some (locationCode_eq z.location)
  case h_14 => exact (List.getElem?_eq_none (by simp only [imp_false, List.length_cons, List.length_nil] at *; omega)).symm
  all_goals rfl

section
variable (img : Image) (index : Byte) {page : BitVec 4}

theorem imageItem_zones (hp : page.toNat = 2) : imageItem img page index = itemAt img page index := by
  have hitem : imageItem img page index =
      (indexZone index).bind fun z => zoneItem img.zones[z] (indexItem index) := by
    unfold imageItem
    split
    case h_3 => rfl
    case h_4 hne => exact (hne hp).elim
    all_goals omega
  rw [hitem]
  unfold itemAt
  dsimp only
  split
  case h_3 =>
    by_cases h : index.toNat / 16 < 8
    · have hzone : indexZone index = some ⟨index.toNat / 16, h⟩ := dif_pos h
      rw [hzone, dif_pos h]
      exact zoneItem_eq _ _
    · have hzone : indexZone index = none := dif_neg h
      rw [hzone, dif_neg h, Option.bind_none]
  case h_4 hne => exact (hne hp).elim
  all_goals omega

variable (h : 3 ≤ page.toNat)
include h

theorem imageItem_above : imageItem img page index = none := by
  unfold imageItem
  split
  case h_4 => rfl
  all_goals omega

theorem itemAt_above : itemAt img page index = none := by
  unfold itemAt
  dsimp only
  split
  case h_4 => rfl
  all_goals omega

end

/-- The items of an image, page by page (R205, R208). -/
theorem imageItem_eq_itemAt (img : Image) (page : BitVec 4) (index : Byte) :
    imageItem img page index = itemAt img page index := by
  have hpage : page = 0 ∨ page = 1 ∨ page = 2 ∨ 3 ≤ page.toNat := by bv_omega
  rcases hpage with rfl | rfl | rfl | h
  · exact boardItem_eq img.board index.toNat
  · exact channelItem_eq img.chans[indexChan index] (indexItem index)
  · exact imageItem_zones img index rfl
  · rw [imageItem_above img index h, itemAt_above img index h]

/-! ### The reply of a READ hangs on nothing that its own frame changes -/

section
variable {s : State} {l : Vector PortRec 4} {p : Port} {rep : Reply} (h : TookFrame s.lnk l p s.lnk[p] rep)
include h

theorem TookFrame.samePort (q : Port) : SamePort s.lnk[q] l[q] := by
  obtain ⟨hother, -, -, -, -, hsame⟩ := h
  by_cases hq : q = p
  · rw [hq]
    exact hsame
  · rw [hother q hq]
    exact ⟨rfl, rfl, rfl, rfl, rfl, rfl⟩

theorem TookFrame.selected : State.selected { s with lnk := l } p = s.selected p := by
  obtain ⟨-, -, -, -, hsel, -⟩ := h.samePort p
  unfold State.selected
  rw [hsel]

theorem TookFrame.halfItem (page : BitVec 4) (index : Byte) :
    State.halfItem { s with lnk := l } p page index = s.halfItem p page index := by
  unfold State.halfItem
  rw [h.selected]

theorem TookFrame.portStatus (q : Port) (a : AlertRec) : portStatus l[q] a = portStatus s.lnk[q] a := by
  obtain ⟨hstate, hsilent, hheart, hrejects, -, -⟩ := h.samePort q
  have htimer : l[q].timerLeft = s.lnk[q].timerLeft := by
    unfold PortRec.timerLeft
    rw [hstate, hsilent, hheart]
  funext i
  unfold Machine.portStatus
  rw [hstate, hrejects, htimer]

theorem TookFrame.readReply (page : BitVec 4) (index : Byte) :
    State.readReply { s with lnk := l } p page index = s.readReply p page index := by
  obtain ⟨-, -, -, -, -, hlatch⟩ := h.samePort p
  have hitem : State.readItem { s with lnk := l } p page index = s.readItem p page index := by
    unfold State.readItem
    simp only [h.selected, h.portStatus]
    rfl
  unfold State.readReply
  rw [h.halfItem, hitem, hlatch]

end

/-! ### READ and READ STAGED -/

section
variable {s : State} {p : Port} {f : Fields}

/-- A READ completes: it answers by `readReply` and moves the half latch (R154, R205). -/
theorem exec_read (h : s.frameReady p = true) :
    ∃ l, exec (.read p f) s = .next { s with lnk := l } ∧
      TookFrame s.lnk l p { s.lnk[p] with latch := latchAfter (s.halfItem p f.page f.index) }
        (s.readReply p f.page f.index) := by
  obtain ⟨l, hread, htook⟩ := function_permitted s p .read f (fun s => s.readBody p f) h rfl
  have hbody : State.readBody { s with lnk := l } p f =
      (State.modPort { s with lnk := l } p fun q =>
        { q with latch := latchAfter (s.halfItem p f.page f.index) }).setSlot p (s.readReply p f.page f.index) := by
    unfold State.readBody
    rw [htook.halfItem, htook.readReply]
  exact ⟨_, congrArg Host.Outcome.next (hread.trans hbody),
    (htook.changed (g := fun q => { q with latch := latchAfter (s.halfItem p f.page f.index) })
      (fun x => ⟨rfl, rfl, rfl, rfl⟩) fun x y ⟨h1, h2, h3, h4, h5, _⟩ => ⟨h1, h2, h3, h4, h5, rfl⟩).replied _⟩

theorem exec_readStaged (h : s.frameReady p = true) :
    AnswersOnly (.readStaged p f) s p (Item.ofDefined (itemAt s.cfg.staged f.page f.index)).reply :=
  function_answers rfl h rfl fun l => congrArg (fun x => State.setSlot { s with lnk := l } p (Item.ofDefined x).reply)
    (imageItem_eq_itemAt s.cfg.staged f.page f.index)

end

/-! ### A READ of one item -/

section
variable {s : State} {p : Port} {page : BitVec 4} {index : Nat}

/-- A READ shows an item where `readReply` is the reply with that item. -/
theorem shows_of_readReply {x : Item} (h : s.frameReady p = true)
    (hx : s.readReply p page (BitVec.ofNat 8 index) = x.reply) : s.Shows p page index x := by
  intro v
  obtain ⟨l, hread, -, -, -, -, hslot, -⟩ := exec_read (f := ⟨page, BitVec.ofNat 8 index, v⟩) h
  refine ⟨l, hread, (hslot.trans hx).trans ?_⟩
  cases x <;> rfl

/-- An item that is no half of a time. -/
theorem readReply_item (h : s.halfItem p page (BitVec.ofNat 8 index) = none) :
    s.readReply p page (BitVec.ofNat 8 index) = s.readItem p page (BitVec.ofNat 8 index) := by
  unfold State.readReply
  rw [h]

/-- What the port's half latch holds of a time after a READ of its low half (R154). -/
theorem exec_read_latch {t : State} {v : Word} {key : TimeKey} {time : Option Time} (h : s.frameReady p = true)
    (hlow : s.halfItem p page (BitVec.ofNat 8 index) = some ⟨key, false, time⟩)
    (hread : exec (.read p ⟨page, BitVec.ofNat 8 index, v⟩) s = .next t) :
    t.lnk[p].latch = some ⟨key, time.map highHalf⟩ := by
  obtain ⟨l, he, -, -, -, -, -, -, -, -, -, -, hlatch⟩ := exec_read (f := ⟨page, BitVec.ofNat 8 index, v⟩) h
  obtain rfl : { s with lnk := l } = t := Host.Outcome.next.inj (he.symm.trans hread)
  exact hlatch.trans (congrArg latchAfter hlow)

/-! ### The halves of a time (R154) -/

theorem halfReply_low (time : Option Time) : halfReply (time.map lowHalf) = (lowItem time).reply := by
  cases time with
  | none => rfl
  | some x => exact congrArg (Reply.mk .accepted) (BitVec.eq_of_toNat_eq (by simp [lowHalf]))

theorem halfReply_high (time : Option Time) : halfReply (time.map highHalf) = (highItem time).reply := by
  cases time with
  | none => rfl
  | some x =>
    exact congrArg (Reply.mk .accepted) (BitVec.eq_of_toNat_eq (by simp [highHalf, Nat.shiftRight_eq_div_pow]))

variable {key : TimeKey} {time : Option Time} (h : s.frameReady p = true)
include h

/-- The low half of a time reads as it stands. -/
theorem shows_low (hlow : s.halfItem p page (BitVec.ofNat 8 index) = some ⟨key, false, time⟩) :
    s.Shows p page index (lowItem time) := by
  refine shows_of_readReply h ?_
  unfold State.readReply
  rw [hlow]
  exact halfReply_low time

/-- The high half of a time reads as it stands where the latch is not loaded from that time. -/
theorem shows_high (hhigh : s.halfItem p page (BitVec.ofNat 8 index) = some ⟨key, true, time⟩)
    (hlatch : ∀ l, s.lnk[p].latch = some l → l.key ≠ key) : s.Shows p page index (highItem time) := by
  refine shows_of_readReply h ?_
  unfold State.readReply
  rw [hhigh, ← halfReply_high]
  unfold halfRead
  cases hl : s.lnk[p].latch with
  | none => rfl
  | some l => exact if_neg (hlatch l hl)

/-- The high half of a time reads as the latch holds it where that is loaded from that time. -/
theorem shows_high_latched {now : Option Time}
    (hhigh : s.halfItem p page (BitVec.ofNat 8 index) = some ⟨key, true, now⟩)
    (hlatch : s.lnk[p].latch = some ⟨key, time.map highHalf⟩) : s.Shows p page index (highItem time) := by
  refine shows_of_readReply h ?_
  unfold State.readReply
  rw [hhigh, hlatch, ← halfReply_high]
  exact if_pos rfl

end

theorem TookFrame.ready {s : State} {l : Vector PortRec 4} {p : Port} {q : PortRec} {r : Reply}
    (h : TookFrame s.lnk l p q r) : State.frameReady { s with lnk := l } p = true := by
  obtain ⟨-, hidle, -⟩ := h
  unfold State.frameReady
  rw [hidle]

/-- Settles O34. The high half is read in a state whose latch the READ of the low half has loaded. -/
theorem readsAnswerWithTheItem : Obligations.ReadsAnswerWithTheItem := by
  intro s p f h
  refine ⟨exec_read h, fun n hn => ?_, fun hnone => ?_, fun v => ?_⟩
  · have hstaged := exec_readStaged (f := f) h
    rwa [hn] at hstaged
  · have hstaged := exec_readStaged (f := f) h
    rwa [hnone] at hstaged
  · obtain ⟨l, hread, htook⟩ := exec_read (f := ⟨7, 48, v⟩) h
    obtain ⟨-, -, -, -, hslot, -, -, -, -, -, hlatch⟩ := id htook
    refine ⟨_, hread, htook.ready, hslot, fun now => ?_⟩
    obtain ⟨l', hread', -, -, -, -, hslot', -, -, -, -, -, hlatch'⟩ :=
      exec_read (s := { s with lnk := l, alr.time := now }) (f := ⟨7, 49, v⟩) htook.ready
    refine ⟨_, hread', hslot'.trans ?_, hlatch'⟩
    show halfRead l[p].latch ⟨⟨7, 48, none⟩, true, some now⟩ = _
    rw [hlatch]
    rfl

end Sys2Proof.Machine
end

section
/-! PROOFS. What READ shows of the selected record and of the record list (R151, R153, R154): which record is read, its
items, and its times in two halves; O36. -/

namespace Sys2Proof.Machine

/-! ### The record that the window shows (R152, R153) -/

section
variable {s : State} {p : Port}

theorem selected_none (h : s.lnk[p].selection = none) : s.selected p = none := by
  unfold State.selected
  rw [h]

theorem selected_of_mem {r : TripRec} (hr : r ∈ s.trm.records) (hsel : s.lnk[p].selection = some r.seq)
    (hd : (s.trm.records.map (·.seq)).Nodup) : s.selected p = some r := by
  unfold State.selected
  rw [hsel]
  exact find_seq hr hd

variable {index : Byte}

theorem readReply_noRecord (h : s.selected p = none) : s.readReply p 10 index = ⟨.noRecord, 0⟩ := by
  show (match (s.selected p).bind fun r => recordHalf r index.toNat with
    | some h => halfRead s.lnk[p].latch h
    | none => match s.selected p with
      | some r => (recordItem r index.toNat).reply
      | none => ⟨.noRecord, 0⟩) = _
  rw [h]
  rfl

theorem halfItem_record {r : TripRec} (h : s.selected p = some r) :
    s.halfItem p 10 index = recordHalf r index.toNat := by
  show ((s.selected p).bind fun r => recordHalf r index.toNat) = _
  rw [h]
  rfl

theorem readItem_record {r : TripRec} (h : s.selected p = some r) :
    s.readItem p 10 index = (recordItem r index.toNat).reply := by
  show (match s.selected p with
    | some r => (recordItem r index.toNat).reply
    | none => ⟨.noRecord, 0⟩) = _
  rw [h]

end

/-! ### The items of a record (R153, R208) -/

theorem index_toNat {i : Nat} (h : i < 256) : (BitVec.ofNat 8 i).toNat = i := by
  rw [BitVec.toNat_ofNat, Nat.mod_eq_of_lt h]

/-- An item of the selected record that is no half of a time. -/
theorem shows_recordItem {s : State} {p : Port} {r : TripRec} {i : Nat} (h : s.frameReady p = true)
    (hr : s.selected p = some r) (hi : i < 256) (hhalf : recordHalf r i = none) : s.Shows p 10 i (recordItem r i) := by
  refine shows_of_readReply h ?_
  rw [readReply_item, readItem_record hr, index_toNat hi]
  rw [halfItem_record hr, index_toNat hi, hhalf]

section
variable (r : TripRec)

/-- The header items, in order (R208 page 10). -/
theorem recordItem_header (i : Fin 12) : recordItem r i.val =
    [Item.value (recordHead r), .ofOption (r.origin.map (·.val)), .ofOption (r.trigger.map (·.val)),
      .ofOption (r.peak.map (·.toNat)), .ofOption (r.scope.map scopeCode), .value r.region.toNat,
      .value r.snapshot.toNat, .value r.restrikes.toNat, .value (recordFlags r), .value r.entries.length,
      .value (r.lockout.toNat + 256 * r.released.toNat), .value r.seenBy.toNat].getD i.val .noItem := by
  fin_cases i <;> rfl

theorem recordHalf_header (i : Fin 12) : recordHalf r i.val = none := by fin_cases i <;> rfl

/-- Above the header, items other than times are the entries. -/
theorem recordItem_above {i : Nat} (h : 12 ≤ i) :
    recordItem r i = if 16 ≤ i ∧ i < 32 then .ofDefined ((r.entries[i - 16]?).map entryItem) else .noItem := by
  unfold recordItem
  split
  case h_13 => rfl
  all_goals omega

theorem recordHalf_entry {m : Nat} (hm : m < 16) : recordHalf r (16 + m) = none := by
  unfold recordHalf
  simp only
  rw [if_neg (by omega), if_neg (by omega), if_neg (by omega), if_neg (by omega)]

/-! ### The times of a record (R153, R154) -/

theorem recordHalf_command {i : Nat} (h : 32 ≤ i ∧ i < 64) : recordHalf r i =
    (r.entries[(i - 32) / 2]?).bind fun e => halfAt 10 (i - i % 2) i (some r.seq) (some e.commandTime) := by
  unfold recordHalf
  simp only
  rw [if_neg (by omega), if_neg (by omega), if_pos h]
  cases r.entries[(i - 32) / 2]? <;> rfl

theorem recordHalf_evidence {i : Nat} (h : 64 ≤ i) : recordHalf r i =
    (r.entries[(i - 64) / 2]?).bind fun e => halfAt 10 (i - i % 2) i (some r.seq) e.evidence := by
  unfold recordHalf
  simp only
  rw [if_neg (by omega), if_neg (by omega), if_neg (by omega), if_pos h]
  cases r.entries[(i - 64) / 2]? <;> rfl

end

section
variable {s : State} {p : Port} {r : TripRec} {i : Nat} (h : s.frameReady p = true) (hr : s.selected p = some r)
include h hr

/-- The command times of entries that the record does not have. -/
theorem shows_noCommand (hi : 32 ≤ i ∧ i < 64) (hlen : r.entries.length ≤ (i - 32) / 2) :
    s.Shows p 10 i .noItem := by
  have hhalf : recordHalf r i = none := by rw [recordHalf_command r hi, List.getElem?_eq_none hlen]; rfl
  have hitem := shows_recordItem h hr (by omega) hhalf
  rwa [recordItem_above r (by omega), if_neg (by omega)] at hitem

/-- The evidence times of entries that the record does not have. -/
theorem shows_noEvidence (hi : 64 ≤ i ∧ i < 256) (hlen : r.entries.length ≤ (i - 64) / 2) :
    s.Shows p 10 i .noItem := by
  have hhalf : recordHalf r i = none := by rw [recordHalf_evidence r hi.1, List.getElem?_eq_none hlen]; rfl
  have hitem := shows_recordItem h hr hi.2 hhalf
  rwa [recordItem_above r (by omega), if_neg (by omega)] at hitem

end

theorem halfAt_low (page base : Nat) (seq : Option Byte) (t : Option Time) :
    halfAt page base base seq t = some ⟨⟨page, base, seq⟩, false, t⟩ := if_pos rfl

theorem halfAt_high (page base : Nat) (seq : Option Byte) (t : Option Time) :
    halfAt page base (base + 1) seq t = some ⟨⟨page, base, seq⟩, true, t⟩ :=
  (if_neg (Nat.succ_ne_self base)).trans (if_pos rfl)

/-- The items at `low` and `low + 1` of every record are the two halves of one of its times, where it has that time. -/
def HalvesAt (low : Nat) (time : TripRec → Option (Option Time)) : Prop :=
  low + 1 < 256 ∧ ∀ r x, time r = some x →
    recordHalf r low = some ⟨⟨10, low, some r.seq⟩, false, x⟩ ∧
      recordHalf r (low + 1) = some ⟨⟨10, low, some r.seq⟩, true, x⟩

theorem halvesAt_opened : HalvesAt 12 fun r => some (some r.opened) :=
  ⟨by decide, fun _ _ hx => Option.some.inj hx ▸ ⟨rfl, rfl⟩⟩

theorem halvesAt_closedAt : HalvesAt 14 fun r => some r.closedAt :=
  ⟨by decide, fun _ _ hx => Option.some.inj hx ▸ ⟨rfl, rfl⟩⟩

theorem halvesAt_command {m : Nat} (hm : m < 16) :
    HalvesAt (32 + 2 * m) fun r => r.entries[m]?.map fun e => some e.commandTime := by
  refine ⟨by omega, fun r x hx => ?_⟩
  obtain ⟨e, he, rfl⟩ := Option.map_eq_some_iff.1 hx
  have hlow : (32 + 2 * m - 32) / 2 = m ∧ 32 + 2 * m - (32 + 2 * m) % 2 = 32 + 2 * m := by omega
  have hhigh : (32 + 2 * m + 1 - 32) / 2 = m ∧ 32 + 2 * m + 1 - (32 + 2 * m + 1) % 2 = 32 + 2 * m := by omega
  rw [recordHalf_command r (by omega), recordHalf_command r (by omega), hlow.1, hlow.2, hhigh.1, hhigh.2, he]
  exact ⟨halfAt_low _ _ _ _, halfAt_high _ _ _ _⟩

theorem halvesAt_evidence {m : Nat} (hm : m < 96) :
    HalvesAt (64 + 2 * m) fun r => r.entries[m]?.map (·.evidence) := by
  refine ⟨by omega, fun r x hx => ?_⟩
  obtain ⟨e, he, rfl⟩ := Option.map_eq_some_iff.1 hx
  have hlow : (64 + 2 * m - 64) / 2 = m ∧ 64 + 2 * m - (64 + 2 * m) % 2 = 64 + 2 * m := by omega
  have hhigh : (64 + 2 * m + 1 - 64) / 2 = m ∧ 64 + 2 * m + 1 - (64 + 2 * m + 1) % 2 = 64 + 2 * m := by omega
  rw [recordHalf_evidence r (by omega), recordHalf_evidence r (by omega), hlow.1, hlow.2, hhigh.1, hhigh.2, he]
  exact ⟨halfAt_low _ _ _ _, halfAt_high _ _ _ _⟩

section
variable {s : State} {p : Port} {r : TripRec} {low : Nat} {time : TripRec → Option (Option Time)} {x : Option Time}
  (hr : s.selected p = some r) (ht : HalvesAt low time) (hx : time r = some x)
include hr ht hx

theorem halfItem_low : s.halfItem p 10 (BitVec.ofNat 8 low) = some ⟨⟨10, low, some r.seq⟩, false, x⟩ := by
  obtain ⟨hlt, hhalves⟩ := ht
  rw [halfItem_record hr, index_toNat (by omega), (hhalves r x hx).1]

theorem halfItem_high : s.halfItem p 10 (BitVec.ofNat 8 (low + 1)) = some ⟨⟨10, low, some r.seq⟩, true, x⟩ := by
  obtain ⟨hlt, hhalves⟩ := ht
  rw [halfItem_record hr, index_toNat hlt, (hhalves r x hx).2]

/-- A time of the selected record reads in two halves: as it stands, or, in a state that still holds the latch of a READ
of the low half, as it stood then (R154). -/
theorem shows_halves (h : s.frameReady p = true) :
    s.Shows p 10 low (lowItem x) ∧
      ((∀ l, s.lnk[p].latch = some l → l.key ≠ ⟨10, low, some r.seq⟩) → s.Shows p 10 (low + 1) (highItem x)) ∧
      ∀ (v : Word) (t u : State), exec (.read p ⟨10, BitVec.ofNat 8 low, v⟩) s = .next t →
        u.frameReady p = true → u.lnk[p].latch = t.lnk[p].latch → u.lnk[p].selection = some r.seq →
        (u.trm.records.map (·.seq)).Nodup → (∃ r' ∈ u.trm.records, r'.seq = r.seq ∧ (time r').isSome = true) →
        u.Shows p 10 (low + 1) (highItem x) := by
  have hlow := halfItem_low hr ht hx
  refine ⟨shows_low h hlow, shows_high h (halfItem_high hr ht hx), ?_⟩
  intro v t u hread hu hlatch hsel hd ⟨r', hmem, hseq, hsome⟩
  obtain ⟨now, hnow⟩ := Option.isSome_iff_exists.1 hsome
  have hhigh := halfItem_high (selected_of_mem hmem (hsel.trans (congrArg some hseq.symm)) hd) ht hnow
  rw [hseq] at hhigh
  exact shows_high_latched hu hhigh (hlatch.trans (exec_read_latch h hlow hread))

end

/-! ### The list directory (R151) -/

theorem shows_directory {s : State} {p : Port} (h : s.frameReady p = true) {i : Nat} (hi : i < 256) :
    s.Shows p 11 i (s.directory i) := by
  refine shows_of_readReply h ?_
  show (s.directory (BitVec.ofNat 8 i).toNat).reply = _
  rw [index_toNat hi]

/-- Settles O36. -/
theorem recordItemsAreRead : Obligations.RecordItemsAreRead := by
  intro s p h code may head
  have hmay : may = Item.ofOption := by
    funext x
    cases x <;> rfl
  clear_value may
  subst hmay
  refine ⟨fun hsel index v => ?_, fun r hr hsel hd => ?_, fun i => ?_, rfl, rfl, rfl, rfl, rfl, ?_, ?_⟩
  · obtain ⟨l, hread, -, -, -, -, hslot, -⟩ := exec_read (f := ⟨10, index, v⟩) h
    exact ⟨l, hread, hslot.trans (readReply_noRecord (selected_none hsel))⟩
  · have hrec := selected_of_mem hr hsel hd
    intro shows halves
    have hhalves {low : Nat} {time : TripRec → Option (Option Time)} (ht : HalvesAt low time) : halves low time :=
      fun x hx => shows_halves hrec ht hx h
    refine ⟨fun i => ?_, hhalves halvesAt_opened, hhalves halvesAt_closedAt, fun m hm => ⟨?_, ?_, ?_⟩,
      fun m hm => ⟨hhalves (halvesAt_evidence hm), ?_⟩⟩
    · have hitem := shows_recordItem h hrec (by omega) (recordHalf_header r i)
      rwa [recordItem_header] at hitem
    · have hitem := shows_recordItem h hrec (by omega) (recordHalf_entry r hm)
      rw [recordItem_above r (by omega), if_pos (by omega), Nat.add_sub_cancel_left] at hitem
      cases he : r.entries[m]? with
      | none => rwa [he] at hitem
      | some e => rwa [he] at hitem
    · exact hhalves (halvesAt_command hm)
    · exact fun hlen => ⟨shows_noCommand h hrec (by omega) (by omega), shows_noCommand h hrec (by omega) (by omega)⟩
    · exact fun hlen => ⟨shows_noEvidence h hrec (by omega) (by omega), shows_noEvidence h hrec (by omega) (by omega)⟩
  · exact shows_directory h i.isLt
  · exact fun k => ⟨rfl, Nat.add_comm _ _⟩
  · exact fun j => Nat.add_comm _ _

end Sys2Proof.Machine
end

section
/-! PROOFS. How the NV write engine goes on, and the ends of its two writes (R143, R180 to R182); O29. -/

namespace Sys2Proof.Machine

/-! ### What a free engine begins (R181) -/

theorem beginSave_eq (s : State) : s.beginSave = s.saveBegun := by
  have hnext : nextSave s.cfg.lastSaved = match s.cfg.lastSaved with
      | none => ⟨.a, 0⟩
      | some x => ⟨if x.copy = .a then .b else .a, x.number + 1⟩ := by
    cases s.cfg.lastSaved with
    | none => rfl
    | some x =>
      obtain ⟨copy, number⟩ := x
      cases copy <;> rfl
  unfold State.beginSave State.saveBegun
  rw [hnext]
  rfl

section
variable {s : State} (h : s.cfg.engine = .idle)
include h

/-- A free engine begins the lockout word that waits. -/
theorem engineNext_word {x : BreakerSet} (hw : s.trm.lock.waiting = some x) : s.engineNext = { s with
    cfg.engine := .word
    trm.lock := { s.trm.lock with status := .writing, writing := some x, waiting := none } } := by
  unfold State.engineNext State.beginWord
  rw [h, hw]
  rfl

/-- A free engine with no lockout word waiting begins the save that waits. -/
theorem engineNext_noWord (hw : s.trm.lock.waiting = none) :
    s.engineNext = if s.cfg.saveWaiting then s.saveBegun else s := by
  unfold State.engineNext
  rw [h, hw, beginSave_eq]
  rfl

/-- A free engine with no save waiting begins the lockout word that waits, or stays free. -/
theorem engineNext_noSave (hs : s.cfg.saveWaiting = false) : s.engineNext = match s.trm.lock.waiting with
    | none => s
    | some x => { s with
      cfg.engine := .word, trm.lock := { s.trm.lock with status := .writing, writing := some x, waiting := none } } := by
  cases hw : s.trm.lock.waiting with
  | none =>
    rw [engineNext_noWord h hw, hs]
    rfl
  | some x => exact engineNext_word h hw

end

/-! ### The end of a lockout word write (R143) -/

section
variable {l : LockState}

theorem writeEnd_ok {w : BreakerSet} (hw : l.writing = some w) : l.writeEnd true =
    ⟨if l.waiting.isSome then .waiting else .idle, none, l.waiting, w, .ok, false⟩ := by
  unfold LockState.writeEnd
  rw [hw]
  rfl

/-- A write that failed, behind which a set waits. -/
theorem writeEnd_failed_waiting {x : BreakerSet} (hx : l.waiting = some x) : l.writeEnd false =
    ⟨.waiting, none, some x, l.lastWritten, .failed, l.retry⟩ := by
  unfold LockState.writeEnd
  rw [hx]
  rfl

/-- A first failed write with nothing waiting behind it: its set waits again, with the retry flag set. -/
theorem writeEnd_failed_first {w : BreakerSet} (hw : l.writing = some w) (hn : l.waiting = none)
    (hr : l.retry = false) : l.writeEnd false = ⟨.waiting, none, some w, l.lastWritten, .failed, true⟩ := by
  unfold LockState.writeEnd
  rw [hw, hn, hr]
  rfl

/-- A failed write of the retry with nothing waiting behind it. -/
theorem writeEnd_failed_again (hn : l.waiting = none) (hr : l.retry = true) :
    l.writeEnd false = ⟨.idle, none, none, l.lastWritten, .failed, true⟩ := by
  unfold LockState.writeEnd
  rw [hn, hr]
  rfl

end

/-- The state in which a lockout word write has ended and the engine is free. -/
def State.wordEnded (s : State) (found : LockWord) (l : LockState) : State :=
  { s with nv.word := found, cfg.engine := .idle, trm.lock := l }

theorem exec_wordWriteEnd {s : State} {w : BreakerSet} (rb : ReadBack LockWord) (he : s.cfg.engine = .word)
    (hw : s.trm.lock.writing = some w) : exec (.lockoutWordWriteEnd rb) s = .next
      (s.wordEnded (readBackFound rb (lockWordOf w))
        (s.trm.lock.writeEnd (decide (readBackFound rb (lockWordOf w) = lockWordOf w)))).engineNext := by
  show Host.Outcome.next (s.wordWriteEnd rb) = _
  unfold State.wordWriteEnd
  rw [if_pos he, hw]
  rfl

section
variable {s : State} {found : LockWord} {st : WordStatus} {last : BreakerSet} {result : WordResult} {retry : Bool}

/-- The engine goes on with the lockout word that waits: it stays on a word write. -/
theorem wordEnded_next_word {x : BreakerSet} (he : s.cfg.engine = .word) :
    (s.wordEnded found ⟨st, none, some x, last, result, retry⟩).engineNext =
      { s with nv.word := found, trm.lock := ⟨.writing, some x, none, last, result, retry⟩ } := by
  rw [engineNext_word rfl rfl]
  unfold State.wordEnded
  simp only [← he]

/-- The engine goes on with the save that waits, or is free. -/
theorem wordEnded_next_save :
    (s.wordEnded found ⟨.idle, none, none, last, result, retry⟩).engineNext =
      let u := s.wordEnded found ⟨.idle, none, none, last, result, retry⟩
      if s.cfg.saveWaiting then u.saveBegun else u :=
  engineNext_noWord rfl rfl

end

/-! ### The end of a save write (R182) -/

section
variable (c : Cfg) (j : SaveJob)

theorem saveEnd_done : c.saveEnd j true = { c with
    engine := .idle, job := none, saveStatus := .done, lastSaved := some ⟨j.copy, j.number⟩
    unsaved := c.unsaved && !j.noTransfer } := by
  unfold Cfg.saveEnd
  cases j.noTransfer <;> simp

theorem saveEnd_failed : c.saveEnd j false = { c with engine := .idle, job := none, saveStatus := .failed } := rfl

end

theorem exec_saveWriteEnd {s : State} {j : SaveJob} (rb : ReadBack NvCopy) (he : s.cfg.engine = .saving)
    (hj : s.cfg.job = some j) : exec (.saveWriteEnd rb) s = .next
      (let written : NvCopy := ⟨j.image, j.number, true⟩
      State.engineNext { s with
        nv := s.nv.modCopy j.copy fun _ => readBackFound rb written
        cfg := s.cfg.saveEnd j (decide (readBackFound rb written = written)) }) := by
  show Host.Outcome.next (s.saveWriteEnd rb) = _
  unfold State.saveWriteEnd
  rw [he, hj]

/-- Settles O29: each end leaves the lock or the save as its read-back says, and the free engine begins what waits. -/
theorem nvWritesEnd : Obligations.NvWritesEnd := by
  refine ⟨fun s rb w he hw => ?_, fun s rb j he hj hs => ?_⟩
  · intro written found l ends
    have hfound : found = readBackFound rb written := by cases rb <;> rfl
    have hend : exec (.lockoutWordWriteEnd rb) s = .next
        (s.wordEnded found (l.writeEnd (decide (found = written)))).engineNext := by
      rw [hfound]
      exact exec_wordWriteEnd rb he hw
    clear_value found written
    refine ⟨fun hok => ?_, fun hbad x hx => ?_, fun hbad hn hr => ?_, fun hbad hn hr => ?_⟩
    · rw [decide_eq_true hok, writeEnd_ok hw] at hend
      cases hx : l.waiting with
      | none =>
        rw [hx] at hend
        exact hend.trans (congrArg Host.Outcome.next wordEnded_next_save)
      | some x =>
        rw [hx] at hend
        exact hend.trans (congrArg Host.Outcome.next (wordEnded_next_word he))
    · rw [decide_eq_false hbad, writeEnd_failed_waiting hx, wordEnded_next_word he] at hend
      exact hend
    · rw [decide_eq_false hbad, writeEnd_failed_first hw hn hr, wordEnded_next_word he] at hend
      exact hend
    · rw [decide_eq_false hbad, writeEnd_failed_again hn hr, wordEnded_next_save] at hend
      exact hend
  · intro written found nv' ends
    have hfound : found = readBackFound rb written := by cases rb <;> rfl
    have hnv : nv' = s.nv.modCopy j.copy fun _ => found := by
      show (match j.copy with | .a => _ | .b => _) = _
      cases j.copy <;> rfl
    have hend : exec (.saveWriteEnd rb) s = .next
        (State.engineNext { s with nv := nv', cfg := s.cfg.saveEnd j (decide (found = written)) }) := by
      rw [hnv, hfound]
      exact exec_saveWriteEnd rb he hj
    clear_value nv' found written
    refine ⟨fun hok => ?_, fun hbad => ?_⟩
    · rw [decide_eq_true hok, saveEnd_done] at hend
      exact hend.trans (congrArg Host.Outcome.next (engineNext_noSave rfl hs))
    · rw [decide_eq_false hbad, saveEnd_failed] at hend
      exact hend.trans (congrArg Host.Outcome.next (engineNext_noSave rfl hs))

end Sys2Proof.Machine
end

section
/-! PROOFS. What RESET makes of the lockout word (R141, R145, R146): the record of a valid word, the write of the empty
set in place of an invalid one, and the alerts; O5. -/

namespace Sys2Proof.Machine

/-! ### The word (R141) -/

theorem lockWordValid_iff (w : LockWord) :
    lockWordValid w = true ↔ w.check = crc8 w.set ∧ w.set.getLsbD 7 = false := by
  unfold lockWordValid
  rw [Bool.and_eq_true, decide_eq_true_iff, Bool.not_eq_true']

theorem mem_lockWordSet (w : LockWord) (b : Fin 7) : mem (lockWordSet w) b = w.set.getLsbD b.val := by
  show (w.set.setWidth 7)[b.val] = _
  rw [BitVec.getElem_setWidth]

/-! ### The lines and the seen-by sets of the restored list (R132, R145, R149) -/

theorem restored_lines (b : BreakerSet) : linesOf (if b = 0 then [] else [TripRec.restored b]) = b := by
  split
  · rename_i h
    exact h.symm
  · have hnot : ~~~(0 : BreakerSet) = BitVec.allOnes 7 := by decide
    show (b &&& ~~~(0 : BreakerSet)) ||| 0#7 = b
    rw [hnot, BitVec.and_allOnes, BitVec.or_zero]

theorem restored_unseen (b : BreakerSet) (p : Port) :
    ((if b = 0 then [] else [TripRec.restored b]).any fun r => !mem r.seenBy p) = decide (b ≠ 0) := by
  by_cases h : b = 0
  · simp [h]
  · have hseen : mem (TripRec.restored b).seenBy p = false := BitVec.getElem_zero p.isLt
    rw [if_neg h, decide_eq_true h, List.any_cons, hseen]
    rfl

/-! ### The two outcomes of RESET (R145, R146) -/

theorem newest_isNone (nv : Nv) : nv.newest.isNone = true ↔ nv.copyA.valid = false ∧ nv.copyB.valid = false := by
  unfold Nv.newest
  cases nv.copyA.valid <;> cases nv.copyB.valid <;> simp
  split <;> simp

theorem restoredSet_valid {nv : Nv} (h : lockWordValid nv.word = true) : nv.restoredSet = lockWordSet nv.word :=
  if_pos h

theorem restoredSet_invalid {nv : Nv} (h : lockWordValid nv.word = false) : nv.restoredSet = 0 := by
  unfold Nv.restoredSet
  rw [h]
  rfl

section
variable {s : State}

/-- With a valid word RESET places every block, and raises CONFIG_DEFAULT where no image could be loaded. -/
theorem powerOn_valid (h : lockWordValid s.nv.word = true) : s.powerOn =
    if s.nv.newest.isNone then s.placedAtReset.raise .configDefault else s.placedAtReset := by
  unfold State.powerOn
  simp [h]

/-- With a word that is not valid RESET raises CONFIG_DEFAULT and asks for a write of the empty set, which the idle
engine begins. -/
theorem powerOn_invalid (h : lockWordValid s.nv.word = false) : s.powerOn =
    { s.placedAtReset.raise .configDefault with
      cfg.engine := .word, trm.lock := ⟨.writing, some 0, none, 0, .none, false⟩ } := by
  have hpower : s.powerOn = (s.placedAtReset.raise .configDefault).requestWord 0 := by
    unfold State.powerOn
    simp [h]
  have hlast : (s.placedAtReset.raise .configDefault).trm.lock.lastWritten = 0 := restoredSet_invalid h
  refine hpower.trans ((requestWord_eq _ 0).trans ((if_pos rfl).trans ?_))
  exact congrArg (fun last : BreakerSet => ({ s.placedAtReset.raise .configDefault with
    cfg.engine := .word, trm.lock := ⟨.writing, some 0, none, last, .none, false⟩ } : State)) hlast

/-! ### The alerts after RESET (R146, R183, R198) -/

theorem placedAtReset_alerts (p : Port) : s.placedAtReset.alr.ports[p] = ⟨0x0001, 0, true⟩ :=
  Vector.getElem_replicate p.isLt

/-- RESTARTED stands on every port, and CONFIG_DEFAULT with it on the used ones. -/
theorem raise_configDefault_alerts (p : Port) : (s.placedAtReset.raise .configDefault).alr.ports[p] =
    ⟨if s.placedAtReset.used p then 0x2001 else 0x0001, 0, true⟩ := by
  rw [raise_alertsRaised s.placedAtReset .configDefault p, placedAtReset_alerts]
  cases s.placedAtReset.used p <;> rfl

end

/-- The blocks that the lockout word concerns, after a RESET with a valid word. -/
theorem powerOn_valid_fields {s : State} (h : lockWordValid s.nv.word = true) :
    let b := lockWordSet s.nv.word
    s.powerOn.trm = ⟨if b = 0 then [] else [TripRec.restored b], 0, ⟨.idle, none, none, b, .none, false⟩⟩ ∧
      s.powerOn.cfg = Cfg.atReset s.nv ∧ ∀ p : Port, s.powerOn.alr.ports[p] =
        ⟨if (s.nv.copyA.valid = false ∧ s.nv.copyB.valid = false) ∧ s.powerOn.used p = true then 0x2001 else 0x0001,
          0, true⟩ := by
  have htrm : s.placedAtReset.trm = _ := congrArg (fun b : BreakerSet =>
    (⟨if b = 0 then [] else [TripRec.restored b], 0, ⟨.idle, none, none, b, .none, false⟩⟩ : Trm)) (restoredSet_valid h)
  rw [powerOn_valid h]
  split
  · rename_i hlost
    refine ⟨htrm, rfl, fun p => ?_⟩
    rw [raise_configDefault_alerts]
    simp only [(newest_isNone s.nv).1 hlost, and_self, true_and]
    rfl
  · rename_i hfound
    refine ⟨htrm, rfl, fun p => ?_⟩
    rw [placedAtReset_alerts, if_neg fun hc => hfound ((newest_isNone s.nv).2 hc.1)]

/-- Settles O5, by the validity of the word. -/
theorem resetReadsTheLockoutWord : Obligations.ResetReadsTheLockoutWord := by
  refine ⟨fun w => ⟨lockWordValid_iff w, mem_lockWordSet w⟩, fun s hvalid => ?_, fun s hinvalid => ?_⟩
  · obtain ⟨htrm, hcfg, halerts⟩ := powerOn_valid_fields hvalid
    refine ⟨s.powerOn, rfl, ?_⟩
    intro b
    refine ⟨by rw [htrm]; rfl, ?_, by rw [htrm], by rw [htrm], by rw [hcfg]; rfl, ?_, fun p => ?_, halerts⟩
    · rw [closeInhibit_eq, htrm]
      exact restored_lines b
    · rw [hcfg]
      show (!lockWordValid s.nv.word) = false
      rw [hvalid]
      rfl
    · unfold State.unseen
      rw [htrm]
      exact restored_unseen b p
  · have hrecords : s.powerOn.trm.records = [] := by
      rw [powerOn_invalid hinvalid]
      exact if_pos (restoredSet_invalid hinvalid)
    refine ⟨s.powerOn, rfl, hrecords, ?_, ?_, fun p => ?_, ?_, ?_⟩
    · rw [closeInhibit_eq, hrecords]
      rfl
    · rw [powerOn_invalid hinvalid]
      show (!lockWordValid s.nv.word) = true
      rw [hinvalid]
      rfl
    · rw [powerOn_invalid hinvalid]
      exact raise_configDefault_alerts p
    · rw [powerOn_invalid hinvalid]
    · rw [powerOn_invalid hinvalid]

end Sys2Proof.Machine
end

section
/-! PROOFS. DRILL START and DRILL END by the lines of their tables, and the end of a drill by its window (R157, R158,
R164, R165); O51. -/

namespace Sys2Proof.Machine

/-! ### The operand (R157) -/

theorem zoneOperand_of_eq {v : Word} {z : Zone} (h : v.toNat = z.val) : zoneOperand v = some z := by
  have hlt : v.toNat < 8 := by omega
  exact (dif_pos hlt).trans (congrArg some (Fin.ext h))

theorem zoneOperand_none {v : Word} (h : 7 < v.toNat) : zoneOperand v = none := dif_neg (by omega)

/-! ### The drill register and the flag of its zone (R158, R164) -/

/-- The zone records and the drill register after a drill has started (R158). -/
def Zev.drillStarted (v : Zev) (z : Zone) (p : Port) (now : Time) (window : Nat) : Zev :=
  { v with
    zones := modAt v.zones z fun r => { r with drill := true }
    drill := { v.drill with
      active := true, zone := some z, owner := some p, startTime := now, shown := 0, window := .running window } }

theorem startDrill_eq (s : State) (p : Port) (z : Zone) : s.startDrill p z =
    ({ s with zev := s.zev.drillStarted z p s.alr.time (s.cfg.active.board.tDrill.val * 1000) } : State).raise .drill :=
  rfl

/-- The end of a drill whose zone and owner are known. -/
theorem drillEnded_of_zone {v : Zev} {z : Zone} {o : Option Port} (why : EndReason) (hz : v.drill.zone = some z)
    (ho : v.drill.owner = o) : v.drillEnded why =
      { v with
        zones := modAt v.zones z fun r => { r with drill := false }
        drill := { v.drill with
          active := false, zone := none, owner := none, window := .stopped, shown := 0, lastZone := some z
          lastOwner := o, lastReason := why, lastShown := v.drill.shown } } := by
  unfold Zev.drillEnded DrillReg.ended
  rw [hz, ho]

/-! ### The drill window (R164) -/

theorem drillExpiry_ends {s : State} (ha : s.zev.drill.active = true) (hw : s.zev.drill.window.isRunning = true) :
    s.drillExpiry = ({ s with zev := s.zev.drillEnded .expiry } : State).raise .drill := by
  unfold State.drillExpiry
  rw [ha, hw]
  exact endDrill_active .expiry ha

theorem exec_drillWindowExpiry (s : State) : exec .drillWindowExpiry s = .next s.drillExpiry := rfl

/-! ### DRILL START (R157, R158) -/

section
variable {s : State} {p : Port} {v : Word} {z : Zone}

theorem drillStartBody_badValue (h : 7 < v.toNat) : s.drillStartBody p v = s.setSlot p ⟨.badValue, 0⟩ := by
  unfold State.drillStartBody
  rw [zoneOperand_none h]

/-- The table of R157 for an operand that names a zone. -/
theorem drillStartBody_eq (hz : v.toNat = z.val) : s.drillStartBody p v =
    if s.zev.drill.active then s.setSlot p ⟨.busy, 0⟩
    else if s.cfg.active.zones[z].enabled = false ∨ s.zev.zones[z].state ≠ .quiet then
      s.setSlot p ⟨.refusedState, 0⟩
    else (s.startDrill p z).setSlot p ⟨.accepted, BitVec.ofNat 16 s.cfg.active.board.tDrill.val⟩ := by
  unfold State.drillStartBody
  rw [zoneOperand_of_eq hz]
  rfl

theorem drillStartBody_busy (hz : v.toNat = z.val) (ha : s.zev.drill.active = true) :
    s.drillStartBody p v = s.setSlot p ⟨.busy, 0⟩ := by
  rw [drillStartBody_eq hz, if_pos ha]

theorem drillStartBody_refused (hz : v.toNat = z.val) (ha : s.zev.drill.active = false)
    (hr : s.cfg.active.zones[z].enabled = false ∨ s.zev.zones[z].state ≠ .quiet) :
    s.drillStartBody p v = s.setSlot p ⟨.refusedState, 0⟩ := by
  rw [drillStartBody_eq hz, if_neg (Bool.eq_false_iff.1 ha), if_pos hr]

theorem drillStartBody_starts (hz : v.toNat = z.val) (ha : s.zev.drill.active = false)
    (he : s.cfg.active.zones[z].enabled = true) (hq : s.zev.zones[z].state = .quiet) :
    s.drillStartBody p v =
      (s.startDrill p z).setSlot p ⟨.accepted, BitVec.ofNat 16 s.cfg.active.board.tDrill.val⟩ := by
  rw [drillStartBody_eq hz, if_neg (Bool.eq_false_iff.1 ha),
    if_neg (not_or.2 ⟨ne_false_of_eq_true he, not_not.2 hq⟩)]

/-! ### DRILL END (R165) -/

theorem drillEndBody_refused (ha : s.zev.drill.active = false) :
    s.drillEndBody p = s.setSlot p ⟨.refusedState, 0⟩ := if_pos ha

theorem drillEndBody_notPermitted (ha : s.zev.drill.active = true) (ho : s.zev.drill.owner ≠ some p) :
    s.drillEndBody p = s.setSlot p ⟨.notPermitted, 0⟩ := by
  unfold State.drillEndBody
  rw [if_neg (ne_false_of_eq_true ha), if_pos ho]

theorem drillEndBody_ends (ha : s.zev.drill.active = true) (ho : s.zev.drill.owner = some p) :
    s.drillEndBody p = (({ s with zev := s.zev.drillEnded .ownerEnd } : State).raise .drill).setSlot p
      ⟨.accepted, s.zev.drill.shown.setWidth 16⟩ := by
  unfold State.drillEndBody
  rw [if_neg (ne_false_of_eq_true ha), if_neg (not_not.2 ho), endDrill_active .ownerEnd ha]

end

/-! ### The frames that carry them (R187, R192) -/

theorem exec_drillStart (s : State) (p : Port) (page : BitVec 4) (v : Word) :
    exec (.drillStart p page v) s = .next (s.control p 4 page v fun s => s.drillStartBody p v) := rfl

theorem exec_drillEnd (s : State) (p : Port) (page : BitVec 4) (v : Word) :
    exec (.drillEnd p page v) s = .next (s.control p 5 page v fun s => s.drillEndBody p) := rfl

/-- A CONTROL request that changes the Zone Evaluator, raises DRILL and answers. -/
theorem control_drills {c : Instr} {s : State} {p : Port} {sub : Byte} {page : BitVec 4} {v : Word} {rep : Reply}
    {body : State → State} (w : Zev) (hexec : exec c s = .next (s.control p sub page v body))
    (h : s.liveReady p = true)
    (hb : ∀ l : Vector PortRec 4,
      body { s with lnk := l } = (State.raise { s with zev := w, lnk := l } .drill).setSlot p rep) :
    ∃ (l : Vector PortRec 4) (al : Vector AlertRec 4),
      exec c s = .next { s with lnk := l, alr.ports := al, zev := w } ∧
      AlertsRaised s.alr.ports al .drill s.used ∧ TookFrame s.lnk l p s.lnk[p] rep := by
  obtain ⟨l, he, ht⟩ := control_ready sub page v body h
  refine ⟨_, _, ?_, raise_alertsRaised s .drill, ht.replied rep⟩
  rw [hexec, he, hb]
  rfl

/-- Settles O51: the window's expiry ends the drill, and each line of the tables is a line of the body that a frame of a
LIVE port runs. -/
theorem drillStartsAndEnds : Obligations.DrillStartsAndEnds := by
  refine ⟨fun s z ha hw hz => ⟨_, ?_, raise_alertsRaised s .drill⟩, fun s p page v h => ?_⟩
  · rw [exec_drillWindowExpiry, drillExpiry_ends ha hw, drillEnded_of_zone .expiry hz rfl]
    rfl
  have starts := fun rep => control_answers (rep := rep) (exec_drillStart s p page v) h
  have ends := fun rep => control_answers (rep := rep) (exec_drillEnd s p page v) h
  refine ⟨fun hv => starts _ fun l => drillStartBody_badValue hv, fun z hz => ⟨fun ha => ?_, fun ha hr => ?_,
    fun ha he hq => ?_⟩, fun ha => ends _ fun l => drillEndBody_refused ha,
    fun ha ho => ends _ fun l => drillEndBody_notPermitted ha ho, fun z ha ho hz => ?_⟩
  · exact starts _ fun l => drillStartBody_busy (s := { s with lnk := l }) hz ha
  · exact starts _ fun l => drillStartBody_refused (s := { s with lnk := l }) hz ha hr
  · exact control_drills (s.zev.drillStarted z p s.alr.time (s.cfg.active.board.tDrill.val * 1000))
      (exec_drillStart s p page v) h fun l =>
        (drillStartBody_starts (s := { s with lnk := l }) hz ha he hq).trans
          (congrArg (State.setSlot · p _) (startDrill_eq _ p z))
  · have hended := control_drills (rep := ⟨.accepted, s.zev.drill.shown.setWidth 16⟩) (s.zev.drillEnded .ownerEnd)
      (exec_drillEnd s p page v) h fun l => drillEndBody_ends (s := { s with lnk := l }) ha ho
    rw [drillEnded_of_zone .ownerEnd hz ho] at hended
    exact hended

end Sys2Proof.Machine
end

section
/-! PROOFS. A fall of select: the frame it begins, its reply and the summary byte (R184, R188, R191, R204). -/

namespace Sys2Proof.Machine

/-! ### The fall of select (R184, R185) -/

theorem exec_selectFall (s : State) (p : Port) (sck : ClockLine) :
    exec (.selectFall p sck) s = .next (s.fallSelect p sck) := rfl

theorem fallSelect_idle {s : State} {p : Port} (sck : ClockLine) (h : s.lnk[p].frame = .idle) :
    s.fallSelect p sck = (s.beginFrame p sck.high).clock p sck.edges := if_pos h

theorem fallSelect_busy {s : State} {p : Port} (sck : ClockLine) (h : s.lnk[p].frame ≠ .idle) :
    s.fallSelect p sck = s := if_neg h

theorem clock_nil (s : State) (p : Port) : s.clock p [] = s := by
  unfold State.clock State.modPort
  rw [modAt_id _ _ rfl]

/-- Where no edge has come with it, a fall of select in IDLE only begins the frame. -/
theorem fallSelect_bare {s : State} {p : Port} (high : Bool) (h : s.lnk[p].frame = .idle) :
    s.fallSelect p ⟨high, []⟩ = s.beginFrame p high := (fallSelect_idle _ h).trans (clock_nil _ p)

/-! ### The summary byte (R191) -/

theorem summary_getLsbD (s : State) (p : Port) (i : Fin 8) : (s.summary p).getLsbD i.val =
    match i with
    | 0 => s.lnk[p].frameErr
    | 1 => s.peers p
    | 2 => s.cfg.pendingCommit
    | 3 => decide (s.cfg.claim = some p)
    | 4 => mem s.closeInhibit (breakerOfIncomer p)
    | 5 => s.alr.ports[p].unmasked
    | 6 => s.unseen p
    | 7 => s.trm.records.any TripRec.isOpen :=
  (BitVec.getLsbD_eq_getElem i.isLt).trans (mem_setOf _ i)

theorem anyOpen_iff (rs : List TripRec) :
    rs.any TripRec.isOpen = true ↔ ∃ r ∈ rs, r.stage = .firing ∨ r.stage = .locked := by
  rw [List.any_eq_true]
  refine exists_congr fun r => and_congr_right fun _ => ?_
  unfold TripRec.isOpen
  cases r.stage <;> decide

theorem unseen_iff (s : State) (p : Port) : s.unseen p = true ↔ ∃ r ∈ s.trm.records, mem r.seenBy p = false := by
  simp [State.unseen]

theorem peers_iff (s : State) (p : Port) :
    s.peers p = true ↔ ∃ q : Port, q ≠ p ∧ s.used q = true ∧ s.lnk[q].state ≠ .live := by
  simp [State.peers, and_assoc]

/-- Settles O30: the CRC-8 is `crc8_eq`, the reply register is loaded by `beginFrame`, and each bit of the summary byte
is read off by its own lemma. -/
theorem selectFallFormsTheReply : Obligations.SelectFallFormsTheReply := by
  refine ⟨fun n w => crc8_eq w, fun s p sck => ⟨fun h => ?_, fun h => ?_⟩⟩
  · rw [exec_selectFall, fallSelect_busy sck h]
  · have bit := summary_getLsbD s p
    refine ⟨s.summary p, ?_, ?_, ?_, ?_, ?_, ?_, ?_, ?_, ?_⟩
    · rw [exec_selectFall, fallSelect_bare sck.high h]
      rfl
    · exact (Bool.eq_iff_iff.1 (bit 7)).trans (anyOpen_iff _)
    · exact (Bool.eq_iff_iff.1 (bit 6)).trans (unseen_iff s p)
    · exact (Bool.eq_iff_iff.1 (bit 5)).trans (unmasked_iff _)
    · exact Bool.eq_iff_iff.1 (bit 4)
    · exact (Bool.eq_iff_iff.1 (bit 3)).trans decide_eq_true_iff
    · exact Bool.eq_iff_iff.1 (bit 2)
    · exact (Bool.eq_iff_iff.1 (bit 1)).trans (peers_iff s p)
    · exact Bool.eq_iff_iff.1 (bit 0)

end Sys2Proof.Machine
end

section
/-! PROOFS. Clock edges in clock periods: what they leave in the registers of a port, and how many of a frame's edges
have come (R185, log 4). -/

namespace Sys2Proof.Machine

/-! ### Edges as clock periods -/

/-- The edges of clock periods in which SDI stands at these bits, the clock low before and after. -/
def periods (bits : List Bool) : List Edge := (bits.map fun b => [Edge.rise b, .fall]).flatten

theorem periods_append (xs ys : List Bool) : periods (xs ++ ys) = periods xs ++ periods ys := by
  unfold periods
  rw [List.map_append, List.flatten_append]

/-- The last `n` bits of a word, most significant first. -/
def lastBits (w : BitVec 40) : Nat → List Bool
  | 0 => []
  | n + 1 => w.getLsbD n :: lastBits w n

theorem length_lastBits (w : BitVec 40) (n : Nat) : (lastBits w n).length = n := by
  induction n with
  | zero => rfl
  | succ n ih => rw [lastBits, List.length_cons, ih]

theorem edgesFrom_eq (w : BitVec 40) (n : Nat) : edgesFrom w n = periods (lastBits w n) := by
  induction n with
  | zero => rfl
  | succ n ih =>
    rw [edgesFrom, ih]
    rfl

/-- What SDI brings in a frame of `n` clock periods. -/
def frameBits (w : BitVec 40) (n : Nat) : List Bool := lastBits w (min n 40) ++ List.replicate (n - 40) false

theorem length_frameBits (w : BitVec 40) (n : Nat) : (frameBits w n).length = n := by
  unfold frameBits
  rw [List.length_append, length_lastBits, List.length_replicate]
  omega

theorem take_frameBits (w : BitVec 40) (n : Nat) : (frameBits w n).take 40 = lastBits w (min n 40) := by
  unfold frameBits
  rw [List.take_append, List.take_of_length_le (by rw [length_lastBits]; omega), length_lastBits, List.take_replicate]
  have : min (40 - min n 40) (n - 40) = 0 := by omega
  rw [this, List.replicate_zero, List.append_nil]

theorem frameRun_eq (a : Bool) (n : Nat) (b : Bool) (w : BitVec 40) : frameRun a n b w =
    (if a then [.fall] else []) ++ if b then (periods (frameBits w n)).dropLast else periods (frameBits w n) := by
  have hcycles : edgesFrom w (min n 40) ++ (List.replicate (n - 40) [Edge.rise false, .fall]).flatten =
      periods (frameBits w n) := by
    unfold frameBits
    rw [periods_append, edgesFrom_eq]
    unfold periods
    rw [List.map_replicate]
  unfold frameRun
  rw [hcycles]

/-! ### One edge -/

theorem satInc_byte (x : Byte) : satInc x = if x = 255 then 255 else x + 1 := by
  change (if x = 255 then x else x + 1) = _
  split
  · assumption
  · rfl

theorem satInc_toNat (x : Byte) : (satInc x).toNat = min (x.toNat + 1) 255 := by
  rw [satInc_byte]
  split
  · rename_i h
    rw [h]
    rfl
  · rename_i h
    have : x.toNat ≠ 255 := fun e => h (BitVec.eq_of_toNat_eq e)
    rw [BitVec.toNat_add]
    change (x.toNat + 1) % 256 = _
    omega

theorem shiftConcat_eq (x : BitVec 40) (b : Bool) : x.shiftConcat b = x <<< 1 ||| (if b then 1 else 0) := by
  refine BitVec.eq_of_getLsbD_eq fun i hi => ?_
  rw [BitVec.getLsbD_shiftConcat, BitVec.getLsbD_or, BitVec.getLsbD_shiftLeft]
  cases b <;> by_cases h0 : i = 0 <;> simp [hi, h0]

section
variable {q : PortRec}

theorem clock_rise (hf : q.frame = .shifting) (hs : q.sck = false) (b : Bool) : q.clock (.rise b) = q.clockRise b :=
  if_pos ⟨hf, hs⟩

theorem clock_fall (hf : q.frame = .shifting) (hs : q.sck = true) : q.clock .fall = q.clockFall := if_pos ⟨hf, hs⟩

/-- A rising edge, in the words of the statement. -/
theorem clock_rise_eq (hf : q.frame = .shifting) (b : Bool) : q.clock (.rise b) =
    if q.sck then q else { q with
      sck := true, edges := if q.edges = 255 then 255 else q.edges + 1
      request := if q.edges.toNat + 1 ≤ 40 then q.request <<< 1 ||| (if b then 1 else 0) else q.request } := by
  cases hs : q.sck
  · have hcount : (satInc q.edges).toNat ≤ 40 ↔ q.edges.toNat + 1 ≤ 40 := by
      rw [satInc_toNat]
      omega
    rw [clock_rise hf hs]
    unfold PortRec.clockRise
    simp only [hcount, shiftConcat_eq, Bool.false_eq_true, if_false]
    rw [satInc_byte]
  · exact if_neg fun h => by rw [hs] at h; exact absurd h.2 (by decide)

/-- A falling edge, in the words of the statement. -/
theorem clock_fall_eq (hf : q.frame = .shifting) : q.clock .fall =
    if q.sck then { q with
      sck := false, reply := if 1 ≤ q.edges.toNat ∧ q.edges.toNat ≤ 39 then q.reply <<< 1 else q.reply }
    else q := by
  cases hs : q.sck
  · exact if_neg fun h => by rw [hs] at h; exact absurd h.2 (by decide)
  · exact clock_fall hf hs

theorem clockAll_append (q : PortRec) (xs ys : List Edge) : q.clockAll (xs ++ ys) = (q.clockAll xs).clockAll ys :=
  List.foldl_append

end

/-! ### Whole clock periods -/

/-- The request register after SDI stood at these bits at one rising edge after another: the first forty are taken. -/
def received (r : BitVec 40) (bits : List Bool) : BitVec 40 := (bits.take 40).foldl BitVec.shiftConcat r

theorem received_snoc (r : BitVec 40) (bits : List Bool) (b : Bool) : received r (bits ++ [b]) =
    if bits.length + 1 ≤ 40 then (received r bits).shiftConcat b else received r bits := by
  unfold received
  rw [List.take_append]
  split
  · rw [List.take_of_length_le (l := [b]) (by rw [List.length_singleton]; omega), List.foldl_append]
    rfl
  · have : 40 - bits.length = 0 := by omega
    rw [this, List.take_zero, List.append_nil]

/-- A port that has begun a frame with the clock low, after these clock periods: up to 255 are counted, the first forty
have brought their bits, and the reply register has been shifted at the falls of the first thirty-nine. -/
def PortRec.afterPeriods (q : PortRec) (bits : List Bool) : PortRec :=
  { q with
    sck := false, edges := BitVec.ofNat 8 (min bits.length 255), request := received q.request bits
    reply := q.reply <<< min bits.length 39 }

/-- As `afterPeriods`, with the clock still high in the last of the periods. -/
def PortRec.inPeriod (q : PortRec) (bits : List Bool) (b : Bool) : PortRec :=
  { q.afterPeriods (bits ++ [b]) with sck := true, reply := q.reply <<< min bits.length 39 }

theorem afterPeriods_edges (q : PortRec) (bits : List Bool) :
    (q.afterPeriods bits).edges.toNat = min bits.length 255 := by
  change (BitVec.ofNat 8 (min bits.length 255)).toNat = _
  rw [BitVec.toNat_ofNat]
  omega

section
variable {q : PortRec}

theorem afterPeriods_rise (hf : q.frame = .shifting) (bits : List Bool) (b : Bool) :
    (q.afterPeriods bits).clock (.rise b) = q.inPeriod bits b := by
  have hcount : satInc (q.afterPeriods bits).edges = (q.afterPeriods (bits ++ [b])).edges := by
    refine BitVec.eq_of_toNat_eq ?_
    rw [satInc_toNat, afterPeriods_edges, afterPeriods_edges, List.length_append, List.length_singleton]
    omega
  have hfirst : (satInc (q.afterPeriods bits).edges).toNat ≤ 40 ↔ bits.length + 1 ≤ 40 := by
    rw [satInc_toNat, afterPeriods_edges]
    omega
  calc (q.afterPeriods bits).clock (.rise b)
      = (q.afterPeriods bits).clockRise b := clock_rise (q := q.afterPeriods bits) hf rfl b
    _ = { q.afterPeriods bits with
          sck := true, edges := satInc (q.afterPeriods bits).edges
          request := if (satInc (q.afterPeriods bits).edges).toNat ≤ 40 then (received q.request bits).shiftConcat b
            else received q.request bits } := rfl
    _ = q.inPeriod bits b := by
      rw [if_congr hfirst rfl rfl, ← received_snoc, hcount]
      rfl

theorem inPeriod_fall (hf : q.frame = .shifting) (bits : List Bool) (b : Bool) :
    (q.inPeriod bits b).clock .fall = q.afterPeriods (bits ++ [b]) := by
  have hn : (q.inPeriod bits b).edges.toNat = min (bits.length + 1) 255 := by
    refine (afterPeriods_edges q (bits ++ [b])).trans ?_
    rw [List.length_append, List.length_singleton]
  have hreply : (if 1 ≤ (q.inPeriod bits b).edges.toNat ∧ (q.inPeriod bits b).edges.toNat ≤ 39
      then q.reply <<< min bits.length 39 <<< 1 else q.reply <<< min bits.length 39) =
      q.reply <<< min (bits ++ [b]).length 39 := by
    rw [hn, List.length_append, List.length_singleton, ← BitVec.shiftLeft_add]
    split
    · congr 1
      omega
    · congr 1
      omega
  calc (q.inPeriod bits b).clock .fall
      = (q.inPeriod bits b).clockFall := clock_fall (q := q.inPeriod bits b) hf rfl
    _ = { q.afterPeriods (bits ++ [b]) with
          reply := if 1 ≤ (q.inPeriod bits b).edges.toNat ∧ (q.inPeriod bits b).edges.toNat ≤ 39
            then q.reply <<< min bits.length 39 <<< 1 else q.reply <<< min bits.length 39 } := rfl
    _ = q.afterPeriods (bits ++ [b]) := by
      rw [hreply]
      rfl

/-- Clock periods from the fall of select on, and a rise after them. -/
theorem clockAll_periods (hf : q.frame = .shifting) (hs : q.sck = false) (he : q.edges = 0) (bits : List Bool) :
    q.clockAll (periods bits) = q.afterPeriods bits := by
  induction bits using List.reverseRecOn with
  | nil =>
    unfold PortRec.afterPeriods
    rw [List.length_nil, Nat.zero_min, Nat.zero_min, BitVec.shiftLeft_zero, ← hs]
    change q = { q with edges := 0 }
    rw [← he]
  | append_singleton bits b ih =>
    rw [periods_append, clockAll_append, ih, ← inPeriod_fall hf, ← afterPeriods_rise hf]
    rfl

theorem clockAll_periods_rise (hf : q.frame = .shifting) (hs : q.sck = false) (he : q.edges = 0) (bits : List Bool)
    (b : Bool) : q.clockAll (periods bits ++ [.rise b]) = q.inPeriod bits b := by
  rw [clockAll_append, clockAll_periods hf hs he, ← afterPeriods_rise hf]
  rfl

end

/-! ### The bits of the request register -/

/-- Where a bit of the request register comes from: one of the bits that SDI brought last, or what stood before. -/
theorem getLsbD_shifted (r : BitVec 40) (bits : List Bool) {j : Nat} (hj : j < 40) :
    (bits.foldl BitVec.shiftConcat r).getLsbD j =
      if j < bits.length then bits.getD (bits.length - 1 - j) false else r.getLsbD (j - bits.length) := by
  induction bits using List.reverseRecOn generalizing j with
  | nil => rfl
  | append_singleton bits b ih =>
    rw [List.foldl_append, List.foldl_cons, List.foldl_nil, BitVec.getLsbD_shiftConcat, decide_eq_true hj,
      Bool.true_and, List.length_append, List.length_singleton]
    cases j with
    | zero => simp
    | succ j =>
      rw [if_neg (Nat.succ_ne_zero j), Nat.add_sub_cancel, ih (by omega)]
      by_cases h : j < bits.length
      · rw [if_pos h, if_pos (by omega), List.getD_append _ _ _ _ (by omega)]
        congr 1
        omega
      · rw [if_neg h, if_neg (by omega)]
        congr 1
        omega

/-- The bits of a frame's word, shifted in: they take the low end of the register. -/
theorem shifted_lastBits (r w : BitVec 40) (n : Nat) :
    (lastBits w n).foldl BitVec.shiftConcat r = r <<< n ||| (w &&& BitVec.ofNat 40 (2 ^ n - 1)) := by
  have hbit {n : Nat} {i : Nat} (h : i < n) : (lastBits w n).getD i false = w.getLsbD (n - 1 - i) := by
    induction n generalizing i with
    | zero => omega
    | succ n ih =>
      cases i with
      | zero => rfl
      | succ i =>
        refine (ih (by omega)).trans (congrArg w.getLsbD ?_)
        omega
  refine BitVec.eq_of_getLsbD_eq fun j hj => ?_
  rw [getLsbD_shifted r _ hj, length_lastBits, BitVec.getLsbD_or, BitVec.getLsbD_and, BitVec.getLsbD_shiftLeft,
    BitVec.getLsbD_ofNat, Nat.testBit_two_pow_sub_one]
  by_cases h : j < n
  · rw [if_pos h, hbit (by omega)]
    have : n - 1 - (n - 1 - j) = j := by omega
    simp [h, hj, this]
  · simp [h, hj]

/-! ### How many edges of a frame have come (log 4) -/

/-- A port at which a frame has just begun: no edge has come since the fall of select. -/
structure PortRec.Begun (q : PortRec) : Prop where
  shifting : q.frame = .shifting
  edges : q.edges = 0
  level : q.sck = q.sckAtFall

/-- A port at which SCK is low, its registers as they were. -/
def PortRec.clockLow (q : PortRec) : PortRec := { q with sck := false }

theorem clockLow_of_low {q : PortRec} (h : q.sck = false) : q.clockLow = q := by
  unfold PortRec.clockLow
  rw [← h]

/-- The fall of SCK that comes first where SCK was high at the fall of select shifts nothing. -/
theorem PortRec.Begun.lead {q : PortRec} (h : q.Begun) :
    q.clockAll (if q.sckAtFall then [.fall] else []) = q.clockLow := by
  by_cases ha : q.sckAtFall = true
  · have hn : ¬ (1 ≤ q.edges.toNat ∧ q.edges.toNat ≤ 39) := by
      rw [h.edges]
      decide
    rw [if_pos ha]
    refine (clock_fall h.shifting (h.level.trans ha)).trans ?_
    unfold PortRec.clockFall
    rw [if_neg hn]
    rfl
  · rw [if_neg ha, clockLow_of_low (h.level.trans (Bool.eq_false_iff.2 ha))]
    rfl

theorem PortRec.Begun.edgesCome {q : PortRec} (h : q.Begun) : q.edgesCome = 0 := by
  unfold PortRec.edgesCome
  rw [h.edges, h.level]
  cases q.sckAtFall <;> rfl

/-- While no more than 255 edges are counted, the count and the level of SCK tell how many edges have come. -/
theorem clockAll_edgesCome {q : PortRec} {bits : List Bool} {es : List Edge} (hf : q.frame = .shifting)
    (hs : q.sck = false) (hn : q.edges.toNat + bits.length ≤ 255) (hes : es <+: periods bits) :
    (q.clockAll es).edgesCome = q.edgesCome + es.length := by
  induction bits generalizing q es with
  | nil =>
    rw [List.prefix_nil.1 hes]
    rfl
  | cons b bits ih =>
    rw [List.length_cons] at hn
    have hcount : (satInc q.edges).toNat = q.edges.toNat + 1 := by
      rw [satInc_toNat]
      omega
    have hrise : (q.clockRise b).edgesCome = q.edgesCome + 1 := by
      unfold PortRec.edgesCome
      rw [hs]
      change _ + 2 * (satInc q.edges).toNat - 1 = _
      rw [hcount]
      change (if q.sckAtFall = true then 1 else 0) + _ - 1 = _
      simp only [Bool.false_eq_true, if_false]
      omega
    have hfall : (q.clockRise b).clockFall.edgesCome = q.edgesCome + 2 := by
      unfold PortRec.edgesCome
      rw [hs]
      change _ + 2 * (satInc q.edges).toNat - 0 = _
      rw [hcount]
      change (if q.sckAtFall = true then 1 else 0) + _ - 0 = _
      simp only [Bool.false_eq_true, if_false]
      omega
    change es <+: .rise b :: .fall :: periods bits at hes
    obtain rfl | ⟨later, rfl, hlater⟩ := List.prefix_cons_iff.1 hes
    · rfl
    · have h1 : q.clock (.rise b) = q.clockRise b := clock_rise hf hs b
      obtain rfl | ⟨rest, rfl, hprefix⟩ := List.prefix_cons_iff.1 hlater
      · exact (congrArg PortRec.edgesCome h1).trans hrise
      · have h2 : (q.clockRise b).clock .fall = (q.clockRise b).clockFall := clock_fall hf rfl
        have hrest := ih (q := (q.clockRise b).clockFall) (es := rest) hf rfl
          ((Nat.add_le_add_right hcount.le _).trans (by omega)) hprefix
        rw [hfall] at hrest
        have hall : q.clockAll (.rise b :: .fall :: rest) = (q.clockRise b).clockFall.clockAll rest := by
          unfold PortRec.clockAll
          rw [List.foldl_cons, List.foldl_cons, h1, h2]
        rw [hall, hrest, List.length_cons, List.length_cons]
        omega

/-- Edges of a frame that came with the fall of select are those that its end does not bring any more. -/
theorem PortRec.Begun.clockRest {q : PortRec} (h : q.Begun) {n : Nat} {b : Bool} {w : BitVec 40} {es : List Edge}
    (hn : n ≤ 255) (hes : es <+: frameRun q.sckAtFall n b w) :
    (q.clockAll es).clockRest n b w = q.clockAll (frameRun q.sckAtFall n b w) := by
  have hcome : (q.clockAll es).edgesCome = es.length := by
    have hlead := h.lead
    have hwhole : es <+: (if q.sckAtFall then [.fall] else []) ++ periods (frameBits w n) := by
      rw [frameRun_eq] at hes
      refine hes.trans ((List.prefix_append_right_inj _).2 ?_)
      split
      · exact List.dropLast_prefix _
      · exact List.prefix_refl _
    have hfew : q.edges.toNat + (frameBits w n).length ≤ 255 := by
      rw [h.edges, length_frameBits]
      exact (Nat.zero_add n).trans_le hn
    cases ha : q.sckAtFall
    · rw [ha] at hwhole
      rw [clockAll_edgesCome h.shifting (h.level.trans ha) hfew hwhole, h.edgesCome, Nat.zero_add]
    · rw [ha] at hwhole hlead
      obtain rfl | ⟨rest, rfl, hprefix⟩ := List.prefix_cons_iff.1 hwhole
      · exact h.edgesCome
      · have hrest := clockAll_edgesCome (q := q.clockLow) h.shifting rfl hfew hprefix
        have hone : q.clockLow.edgesCome = 1 := by
          unfold PortRec.edgesCome PortRec.clockLow
          rw [ha, h.edges]
          rfl
        rw [hone] at hrest
        have hall : q.clockAll (.fall :: rest) = q.clockLow.clockAll rest := by
          rw [← hlead]
          rfl
        rw [hall, hrest, List.length_cons, Nat.add_comm]
  obtain ⟨rest, hrest⟩ := hes
  unfold PortRec.clockRest
  rw [hcome, (clockAll_same q es).sckAtFall, ← hrest, List.drop_left, clockAll_append]

/-- Where no edge has come yet, the end of a frame brings all of them. -/
theorem PortRec.Begun.clockRest_all {q : PortRec} (h : q.Begun) (n : Nat) (b : Bool) (w : BitVec 40) :
    q.clockRest n b w = q.clockAll (frameRun q.sckAtFall n b w) := by
  unfold PortRec.clockRest
  rw [h.edgesCome, List.drop_zero]

end Sys2Proof.Machine
end

section
/-! PROOFS. The end of a frame hangs on what the port has received alone, so that edges which came with the fall of
select change nothing (R185, log 4); and O31. -/

namespace Sys2Proof.Machine

/-! ### The port that a fall of select leaves (R184) -/

theorem beginFrame_port (s : State) (p : Port) (high : Bool) : (s.beginFrame p high).lnk[p] = { s.lnk[p] with
    frame := .shifting, sckAtFall := high, sck := high, edges := 0, selectTimer := .running 5
    reply := s.replyFrame p } := modPort_same s p _

theorem beginFrame_begun (s : State) (p : Port) (high : Bool) : (s.beginFrame p high).lnk[p].Begun := by
  rw [beginFrame_port]
  exact ⟨rfl, rfl, rfl⟩

theorem clock_port (s : State) (p : Port) (es : List Edge) : (s.clock p es).lnk[p] = s.lnk[p].clockAll es :=
  modPort_same s p _

theorem clock_snoc (s : State) (p : Port) (es : List Edge) (e : Edge) :
    s.clock p (es ++ [e]) = (s.clock p es).modPort p fun q => q.clock e := by
  unfold State.clock State.modPort
  simp only [modAt_modAt, clockAll_append]
  rfl

/-! ### What the port receives (log 4) -/

section
variable (s : State) (p : Port) (n : Nat) (b : Bool) (w : BitVec 40)

theorem receive_idle (h : s.lnk[p].frame = .idle) :
    s.receive p n b w = (s.beginFrame p false).modPort p fun q => q.clockRest n b w := by
  unfold State.receive State.openFrame
  rw [if_pos h]

theorem receive_shifting (h : s.lnk[p].frame = .shifting) :
    s.receive p n b w = s.modPort p fun q => q.clockRest n b w := by
  unfold State.receive State.openFrame
  rw [if_neg (by rw [h]; decide)]

/-- From IDLE the port receives what it receives after a fall of select with the clock low. -/
theorem receive_afterFall (h : s.lnk[p].frame = .idle) : s.receive p n b w = (s.beginFrame p false).receive p n b w :=
  (receive_idle s p n b w h).trans (receive_shifting _ p n b w (beginFrame_begun s p false).shifting).symm

/-- Edges of the frame that have come already are received once. -/
theorem receive_clock {es : List Edge} (h : s.lnk[p].Begun) (hn : n ≤ 255)
    (hes : es <+: frameRun s.lnk[p].sckAtFall n b w) : (s.clock p es).receive p n b w = s.receive p n b w := by
  have hshift : (s.clock p es).lnk[p].frame = .shifting := by
    rw [clock_port]
    exact (clockAll_same _ es).frame.trans h.shifting
  rw [receive_shifting _ p n b w hshift, receive_shifting s p n b w h.shifting]
  unfold State.clock State.modPort
  simp only [modAt_modAt]
  rw [modAt_congr s.lnk p (g := fun q => q.clockRest n b w) ((h.clockRest hn hes).trans (h.clockRest_all n b w).symm)]

end

/-! ### Commands that end a frame (log 4) -/

/-- The command acts on what port `p` has received of the frame of `n` rising edges with the bits `w`, and changes
nothing where that is not the end of this frame. -/
def EndsFrame (c : Instr) (p : Port) (n : Nat) (b : Bool) (w : BitVec 40) : Prop :=
  ∃ act : State → Option State, ∀ s, exec c s = .next ((act (s.receive p n b w)).getD s)

/-- The end of a good frame. -/
theorem endsFrame_good {c : Instr} {p : Port} {code : BitVec 4} {f : Fields} {accept : State → State}
    (h : ∀ s, exec c s = .next (s.goodFrame p code f accept)) :
    EndsFrame c p 40 false (frameOf (requestBody code f)) := by
  let w := frameOf (requestBody code f)
  refine ⟨fun t => if t.lnk[p].frame = .shifting ∧ t.lnk[p].verdict = .accepted ∧ t.lnk[p].request = w
    then some (t.riseSelect p accept) else none, fun s => (h s).trans (congrArg _ ?_)⟩
  unfold State.goodFrame
  simp only
  split <;> rfl

/-- The end of a good frame that is the command's only where its operands are in order. -/
theorem endsFrame_goodIf {c : Instr} {p : Port} {code : BitVec 4} {f : Fields} {accept : State → State} (valid : Prop)
    [Decidable valid] (h : ∀ s, exec c s = .next (if valid then s.goodFrame p code f accept else s)) :
    EndsFrame c p 40 false (frameOf (requestBody code f)) := by
  by_cases hv : valid
  · exact endsFrame_good fun s => (h s).trans (congrArg _ (if_pos hv))
  · exact ⟨fun _ => none, fun s => (h s).trans (congrArg _ (if_neg hv))⟩

/-- The end of a frame that the checks reject. -/
theorem endsFrame_rejected (p : Port) (n : Byte) (b : Bool) (w : BitVec 40) :
    EndsFrame (.frameRejected p n b w) p n.toNat b w := by
  refine ⟨fun t => if t.lnk[p].frame = .shifting ∧ t.lnk[p].edges = n ∧ t.lnk[p].sck = b then
    (match t.lnk[p].verdict with
      | .rejected _ => some (t.riseSelect p id)
      | .ignored | .accepted => none) else none, fun s => ?_⟩
  change Host.Outcome.next (s.rejectFrame p n b w) = _
  unfold State.rejectFrame
  simp only
  split
  · cases (s.receive p n.toNat b w).lnk[p].verdict <;> rfl
  · rfl

/-- A request frame, in the terms of `frameEdges`. -/
theorem endsFrame_request {c : Instr} {high : Bool} {q p : Port} {code : BitVec 4} {f : Fields} {run : List Edge}
    (h : frameEdges.request high q code f = some (p, run))
    (hends : EndsFrame c q 40 false (frameOf (requestBody code f))) :
    ∃ (n : Nat) (b : Bool) (w : BitVec 40), n ≤ 255 ∧ run = frameRun high n b w ∧ EndsFrame c p n b w := by
  obtain ⟨rfl, rfl⟩ := Prod.mk.inj (Option.some.inj h)
  exact ⟨40, false, _, by decide, rfl, hends⟩

theorem endsFrame_of_frameEdges {high : Bool} {c : Instr} {p : Port} {run : List Edge}
    (h : frameEdges high c = some (p, run)) :
    ∃ (n : Nat) (b : Bool) (w : BitVec 40), n ≤ 255 ∧ run = frameRun high n b w ∧ EndsFrame c p n b w := by
  cases c with
  | frameRejected q n b w =>
    obtain ⟨rfl, rfl⟩ := Prod.mk.inj (Option.some.inj h)
    exact ⟨n.toNat, b, w, by omega, rfl, endsFrame_rejected q n b w⟩
  | unknownFunction q code f => exact endsFrame_request h (endsFrame_goodIf (14 ≤ code.toNat) fun _ => rfl)
  | controlBadSubfunction q f =>
    exact endsFrame_request h (endsFrame_goodIf (f.index.toNat = 0 ∨ 8 < f.index.toNat) fun _ => rfl)
  | fetch q f => exact endsFrame_request h (endsFrame_good fun _ => rfl)
  | read q f => exact endsFrame_request h (endsFrame_good fun _ => rfl)
  | readStaged q f => exact endsFrame_request h (endsFrame_good fun _ => rfl)
  | write q f => exact endsFrame_request h (endsFrame_good fun _ => rfl)
  | report q f => exact endsFrame_request h (endsFrame_good fun _ => rfl)
  | claim q f => exact endsFrame_request h (endsFrame_good fun _ => rfl)
  | yield q f => exact endsFrame_request h (endsFrame_good fun _ => rfl)
  | commit q f => exact endsFrame_request h (endsFrame_good fun _ => rfl)
  | release q f => exact endsFrame_request h (endsFrame_good fun _ => rfl)
  | record q f => exact endsFrame_request h (endsFrame_good fun _ => rfl)
  | seen q f => exact endsFrame_request h (endsFrame_good fun _ => rfl)
  | clearAlerts q f => exact endsFrame_request h (endsFrame_good fun _ => rfl)
  | setMask q f => exact endsFrame_request h (endsFrame_good fun _ => rfl)
  | relearn q page v => exact endsFrame_request h (endsFrame_good fun _ => rfl)
  | test q page v => exact endsFrame_request h (endsFrame_good fun _ => rfl)
  | capture q page v => exact endsFrame_request h (endsFrame_good fun _ => rfl)
  | drillStart q page v => exact endsFrame_request h (endsFrame_good fun _ => rfl)
  | drillEnd q page v => exact endsFrame_request h (endsFrame_good fun _ => rfl)
  | save q page v => exact endsFrame_request h (endsFrame_good fun _ => rfl)
  | clearCounters q page v => exact endsFrame_request h (endsFrame_good fun _ => rfl)
  | defaultStaged q page v => exact endsFrame_request h (endsFrame_good fun _ => rfl)
  | _ => cases h

/-- A command that ends the frame of a port in SHIFTING leads to the same state from every state in which the port
receives the same. -/
theorem EndsFrame.congr {c : Instr} {p : Port} {n : Nat} {b : Bool} {w : BitVec 40} (h : EndsFrame c p n b w)
    {s t v : State} (hr : t.receive p n b w = s.receive p n b w) (hf : s.lnk[p].frame = .shifting)
    (hv : exec c s = .next v) (hidle : v.lnk[p].frame = .idle) : exec c t = .next v := by
  obtain ⟨act, hact⟩ := h
  rw [hact] at hv ⊢
  rw [hr]
  cases he : act (s.receive p n b w) with
  | none =>
    rw [he] at hv
    obtain rfl : s = v := Host.Outcome.next.inj hv
    rw [hf] at hidle
    cases hidle
  | some x =>
    rw [he] at hv
    exact hv

/-! ### The registers after a number of clock periods (R185) -/

theorem sdo_eq (s : State) (p : Port) :
    s.sdo p = if s.lnk[p].frame = .shifting then some (s.lnk[p].reply.getLsbD 39) else none := by
  unfold State.sdo
  cases s.lnk[p].frame <;> rfl

/-- The head of the reply register after clock periods. -/
theorem afterPeriods_reply (q : PortRec) (bits : List Bool) :
    (q.afterPeriods bits).reply.getLsbD 39 = q.reply.getLsbD (39 - bits.length) := by
  change (q.reply <<< min bits.length 39).getLsbD 39 = _
  rw [BitVec.getLsbD_shiftLeft]
  have hhead : ¬ 39 < min bits.length 39 := by omega
  have hbit : 39 - min bits.length 39 = 39 - bits.length := by omega
  simp [hhead, hbit]

/-- The request register after clock periods, bit by bit from the head. -/
theorem afterPeriods_request (q : PortRec) (bits : List Bool) (i : Fin 40) :
    (q.afterPeriods bits).request.getLsbD (39 - i.val) =
      if i.val + min bits.length 40 < 40 then q.request.getLsbD (39 - i.val - min bits.length 40)
      else bits.getD (i.val + min bits.length 40 - 40) false := by
  change (received q.request bits).getLsbD _ = _
  unfold received
  rw [getLsbD_shifted _ _ (by omega), List.length_take, Nat.min_comm 40]
  by_cases h : i.val + min bits.length 40 < 40
  · rw [if_neg (by omega), if_pos h]
  · rw [if_pos (by omega), if_neg h]
    have hi : min bits.length 40 - 1 - (39 - i.val) = i.val + min bits.length 40 - 40 := by omega
    rw [hi]
    simp only [List.getD_eq_getElem?_getD, List.getElem?_take]
    rw [if_pos (by omega)]

/-- Settles O31: one edge is `clock_rise_eq` or `clock_fall_eq`, a run of clock periods is `clockAll_periods`, and the
end of the frame receives the same edges whichever came before it. -/
theorem clockEdgesShiftTheRegisters : Obligations.ClockEdgesShiftTheRegisters := by
  intro s p
  refine ⟨sdo_eq s p, fun hidle high es => ?_⟩
  have hbegun := beginFrame_begun s p high
  have hport := beginFrame_port s p high
  have hfall (es : List Edge) : exec (.selectFall p ⟨high, es⟩) s = .next ((s.beginFrame p high).clock p es) :=
    (exec_selectFall s p _).trans (congrArg _ (fallSelect_idle _ hidle))
  have hbare : exec (.selectFall p ⟨high, []⟩) s = .next (s.beginFrame p high) :=
    (hfall []).trans (congrArg _ (clock_nil _ p))
  have hrequest : (s.beginFrame p high).lnk[p].request = s.lnk[p].request := by rw [hport]
  have hlevel : (s.beginFrame p high).lnk[p].sckAtFall = high := by rw [hport]
  generalize s.beginFrame p high = u at hbegun hfall hbare hrequest hlevel
  have hshift : (u.clock p es).lnk[p].frame = .shifting := by
    rw [clock_port]
    exact (clockAll_same _ es).frame.trans hbegun.shifting
  have hsnoc (e : Edge) {g : PortRec → PortRec} (hg : (u.clock p es).lnk[p].clock e = g (u.clock p es).lnk[p]) :
      exec (.selectFall p ⟨high, es ++ [e]⟩) s = .next { u.clock p es with lnk := modAt (u.clock p es).lnk p g } := by
    rw [hfall, clock_snoc]
    exact congrArg (fun l => Host.Outcome.next { u.clock p es with lnk := l })
      (modAt_congr (f := fun q => q.clock e) _ p hg)
  refine ⟨u, u.clock p es, hbare, hfall es, fun sdi => hsnoc _ (clock_rise_eq hshift sdi),
    hsnoc _ (clock_fall_eq hshift), fun bits hlow hes => ?_, fun c run v hc hes hv hv' => ?_⟩
  · have hafter : (u.clock p es).lnk[p] = u.lnk[p].afterPeriods bits := by
      rw [clock_port, hes]
      exact clockAll_periods hbegun.shifting (hbegun.level.trans (hlevel.trans hlow)) hbegun.edges bits
    rw [sdo_eq, if_pos hshift, hafter]
    refine ⟨congrArg some (afterPeriods_reply _ bits), afterPeriods_edges _ bits, rfl, fun i => ?_⟩
    rw [← hrequest]
    exact afterPeriods_request _ bits i
  · obtain ⟨n, b, w, hn, rfl, hends⟩ := endsFrame_of_frameEdges hc
    exact hends.congr (receive_clock u p n b w hbegun hn (by rw [hlevel]; exact hes)) hbegun.shifting hv hv'

end Sys2Proof.Machine
end

section
/-! PROOFS. Frames that are not accepted: the select timer, pulses without a clock edge, and what the checks reject
(R185 to R187, R189); and O32. -/

namespace Sys2Proof.Machine

/-! ### A whole frame at a port (R185) -/

/-- A port that has received a frame of `n` rising edges with these bits, SCK at this level at its end. -/
def PortRec.holdingFrame (q : PortRec) (n : Byte) (high : Bool) (w : BitVec 40) : PortRec :=
  { q with
    edges := n, sck := high
    request := q.request <<< min n.toNat 40 ||| (w &&& BitVec.ofNat 40 (2 ^ min n.toNat 40 - 1))
    reply := q.reply <<< min (if high then n.toNat - 1 else n.toNat) 39 }

theorem received_frameBits (r w : BitVec 40) (n : Nat) : received r (frameBits w n) =
    r <<< min n 40 ||| (w &&& BitVec.ofNat 40 (2 ^ min n 40 - 1)) := by
  unfold received
  rw [take_frameBits, shifted_lastBits]

theorem afterPeriods_frameBits (q : PortRec) (n : Byte) (w : BitVec 40) :
    q.clockLow.afterPeriods (frameBits w n.toNat) = q.holdingFrame n false w := by
  have hn : BitVec.ofNat 8 (min n.toNat 255) = n := by
    refine BitVec.eq_of_toNat_eq ?_
    rw [BitVec.toNat_ofNat]
    omega
  unfold PortRec.afterPeriods PortRec.holdingFrame
  rw [received_frameBits, length_frameBits, hn]
  rfl

theorem periods_dropLast (bits : List Bool) (b : Bool) :
    (periods (bits ++ [b])).dropLast = periods bits ++ [.rise b] := by
  rw [periods_append]
  exact List.dropLast_append_of_ne_nil (List.cons_ne_nil _ _)

/-- The end of a frame brings its edges, from the fall of select on. -/
theorem PortRec.Begun.receivesFrame {q : PortRec} (h : q.Begun) {n : Byte} (hn : n ≠ 0) (high : Bool) (w : BitVec 40) :
    q.clockRest n.toNat high w = q.holdingFrame n high w := by
  rw [h.clockRest_all, frameRun_eq, clockAll_append, h.lead]
  have hfull := afterPeriods_frameBits q n w
  cases high
  · exact (clockAll_periods (q := q.clockLow) h.shifting rfl h.edges _).trans hfull
  · have hne : frameBits w n.toNat ≠ [] := by
      rw [← List.length_pos_iff, length_frameBits]
      exact Nat.pos_of_ne_zero fun e => hn (BitVec.eq_of_toNat_eq e)
    obtain ⟨bits, b, hbits⟩ := (List.eq_nil_or_concat' _).resolve_left hne
    have hlen : bits.length = n.toNat - 1 := by
      have := length_frameBits w n.toNat
      rw [hbits, List.length_append, List.length_singleton] at this
      omega
    rw [hbits] at hfull ⊢
    rw [if_pos rfl, periods_dropLast, clockAll_periods_rise (q := q.clockLow) h.shifting rfl h.edges]
    unfold PortRec.inPeriod
    rw [hfull, hlen]
    rfl

/-! ### Rejected frames (R187, R189) -/

/-- A frame that the checks reject is answered with the reason, and leaves its registers behind. -/
theorem rejectFrame_eq {s : State} {p : Port} (h : s.lnk[p].Begun) {n : Byte} (hn : n ≠ 0) {high : Bool} {w : BitVec 40}
    {why : RejectReason} (hv : (s.lnk[p].holdingFrame n high w).verdict = .rejected why) :
    s.rejectFrame p n high w = s.modPort p fun q => ((q.holdingFrame n high w).closeFrame).reject why := by
  have hport : (s.receive p n.toNat high w).lnk[p] = s.lnk[p].holdingFrame n high w := by
    rw [receive_shifting s p _ high w h.shifting, modPort_same]
    exact h.receivesFrame hn high w
  unfold State.rejectFrame State.riseSelect
  simp only [hport, hv]
  rw [if_pos ⟨h.shifting, rfl, rfl⟩, receive_shifting s p _ high w h.shifting]
  unfold State.modPort
  simp only [modAt_modAt]
  rw [modAt_congr s.lnk p (g := fun q => ((q.holdingFrame n high w).closeFrame).reject why)]
  rw [h.receivesFrame hn high w]

/-- A frame of forty edges leaves its bits alone in the request register. -/
theorem holdingFrame_request (q : PortRec) (high : Bool) (w : BitVec 40) : (q.holdingFrame 40 high w).request = w := by
  have hmask : BitVec.ofNat 40 (2 ^ 40 - 1) = BitVec.allOnes 40 := rfl
  change q.request <<< 40 ||| (w &&& BitVec.ofNat 40 (2 ^ 40 - 1)) = w
  rw [BitVec.shiftLeft_eq_zero (le_refl 40), BitVec.zero_or, hmask, BitVec.and_allOnes]

/-- The lines of R187 for a frame of forty edges. -/
theorem judgeFrame_forty (a b : Bool) (w : BitVec 40) : judgeFrame a 40 b w =
    if a || b then .rejected .polarity
    else if w = 0 ∨ w = BitVec.allOnes 40 then .rejected .check
    else if w.extractLsb' 0 8 ≠ crc8 (w.extractLsb' 8 32) then .rejected .check
    else .accepted :=
  (if_neg (show ¬ (40 : Byte) = 0 by decide)).trans (if_neg (show ¬ (40 : Byte) ≠ 40 by decide))

section
variable {q : PortRec} {n : Byte} {high : Bool} {w : BitVec 40}

theorem verdict_length (h0 : n ≠ 0) (h40 : n ≠ 40) : (q.holdingFrame n high w).verdict = .rejected .length :=
  (if_neg h0).trans (if_pos h40)

theorem verdict_polarity (h : q.sckAtFall = true ∨ high = true) :
    (q.holdingFrame 40 high w).verdict = .rejected .polarity :=
  (judgeFrame_forty q.sckAtFall high _).trans (if_pos (Bool.or_eq_true_iff.2 h))

theorem verdict_check (ha : q.sckAtFall = false)
    (hw : w = 0 ∨ w = BitVec.allOnes 40 ∨ w.extractLsb' 0 8 ≠ crc8 (w.extractLsb' 8 32)) :
    (q.holdingFrame 40 false w).verdict = .rejected .check := by
  have hlevels : ¬ (q.sckAtFall || false) = true := by rw [ha]; decide
  refine (judgeFrame_forty q.sckAtFall false _).trans ((if_neg hlevels).trans ?_)
  rw [holdingFrame_request]
  by_cases hsame : w = 0 ∨ w = BitVec.allOnes 40
  · exact if_pos hsame
  · exact (if_neg hsame).trans (if_pos (by tauto))

end

/-! ### Pulses without a clock edge (R187 line 1) -/

theorem riseSelect_ignored {s : State} {p : Port} (accept : State → State) (h : s.lnk[p].edges = 0) :
    s.riseSelect p accept = s.modPort p PortRec.closeFrame := by
  have hv : s.lnk[p].verdict = .ignored := if_pos h
  unfold State.riseSelect
  simp only [hv]

theorem emptyPulse_shifting {s : State} {p : Port} (hf : s.lnk[p].frame = .shifting) (he : s.lnk[p].edges = 0) :
    s.emptyPulse p = s.modPort p PortRec.closeFrame := by
  have hopen : s.openFrame p false = s := if_neg (by rw [hf]; decide)
  unfold State.emptyPulse
  simp only [hopen]
  rw [if_pos ⟨hf, he⟩, riseSelect_ignored id he]

theorem emptyPulse_idle {s : State} {p : Port} (hf : s.lnk[p].frame = .idle) :
    s.emptyPulse p = (s.beginFrame p false).modPort p PortRec.closeFrame := by
  have hopen : s.openFrame p false = s.beginFrame p false := if_pos hf
  have hb := beginFrame_begun s p false
  unfold State.emptyPulse
  simp only [hopen]
  rw [if_pos ⟨hb.shifting, hb.edges⟩, riseSelect_ignored id hb.edges]

/-! ### The statement -/

/-- A rejected frame, in the words of the statement. -/
theorem exec_frameRejected {s : State} {p : Port} (h : s.lnk[p].Begun) {n : Byte} (hn : n ≠ 0) {high : Bool}
    {w : BitVec 40} {why : RejectReason} (hv : (s.lnk[p].holdingFrame n high w).verdict = .rejected why) :
    exec (.frameRejected p n high w) s = .next { s with
      lnk := modAt s.lnk p fun q => { q with
        frame := .idle, selectTimer := .stopped, edges := n, sck := high
        request := q.request <<< min n.toNat 40 ||| (w &&& BitVec.ofNat 40 (2 ^ min n.toNat 40 - 1))
        reply := q.reply <<< min (if high then n.toNat - 1 else n.toNat) 39
        slot := ⟨.frameRejected, why.code⟩, frameErr := true, rejects := satInc q.rejects } } :=
  congrArg Host.Outcome.next (rejectFrame_eq h hn hv)

/-- Settles O32, clause by clause: the select timer, the empty pulses, the frame that one command stands for, and the
reasons for which the checks reject a frame. -/
theorem failedFramesAreAnswered : Obligations.FailedFramesAreAnswered := by
  intro s p
  refine ⟨fun h => congrArg Host.Outcome.next (if_pos h), fun h => congrArg Host.Outcome.next (if_pos h),
    fun hf he => congrArg Host.Outcome.next (emptyPulse_shifting hf he), fun hidle => ?_, fun hidle => ?_,
    fun n high w hf he hlevel => ?_⟩
  · refine ⟨(s.beginFrame p false).lnk[p].closeFrame, ?_, rfl, rfl, ?_⟩
    · refine congrArg Host.Outcome.next ((emptyPulse_idle hidle).trans ?_)
      rw [beginFrame_port]
      unfold State.beginFrame State.modPort
      simp only [modAt_modAt]
      exact congrArg (fun l => ({ s with lnk := l } : State)) (modAt_congr s.lnk p rfl)
    · rw [beginFrame_port]
      exact ⟨rfl, rfl, rfl, rfl, rfl, rfl, rfl, rfl⟩
  · have hbegun := beginFrame_begun s p false
    have hport := beginFrame_port s p false
    refine ⟨s.beginFrame p false, ?_, hbegun.shifting, hbegun.edges, by rw [hport], by rw [hport],
      fun c run v hc hv hv' => ?_⟩
    · rw [exec_selectFall, fallSelect_bare false hidle]
    · obtain ⟨n, b, w, -, -, hends⟩ := endsFrame_of_frameEdges hc
      exact hends.congr (receive_afterFall s p n b w hidle) hbegun.shifting hv hv'
  · have hbegun : s.lnk[p].Begun := ⟨hf, he, hlevel⟩
    have h40 : (40 : Byte) ≠ 0 := by decide
    intro k rejectedWith
    refine ⟨fun h0 hne => exec_frameRejected hbegun h0 (verdict_length h0 hne), fun h hbad => ?_,
      fun h ha hhigh hbad => ?_⟩
    · subst h
      exact exec_frameRejected hbegun h40 (verdict_polarity hbad)
    · subst h hhigh
      exact exec_frameRejected hbegun h40 (verdict_check ha hbad)

end Sys2Proof.Machine
end

section
/-! PROOFS. FETCH, and the frames that are accepted and refused: codes and indices that name nothing, and functions that
the port state forbids (R190, R192, R193); O33. -/

namespace Sys2Proof.Machine

section
variable {s : State} {p : Port}

/-- The registers that a good frame leaves behind (R185). -/
theorem goodFrame_registers (code : BitVec 4) (f : Fields) (h : s.frameReady p = true) :
    (s.goodFrame p code f id).lnk[p].edges = 40 ∧
      (s.goodFrame p code f id).lnk[p].request = frameOf (requestBody code f) := by
  obtain ⟨hframe, hfall, hedges, hsck, hrequest, -⟩ := receive_ready s p (frameOf (requestBody code f)) h
  have hv : (s.receive p 40 false (frameOf (requestBody code f))).lnk[p].verdict = .accepted := by
    unfold PortRec.verdict
    rw [hfall, hedges, hsck, hrequest]
    exact judgeFrame_good _
  unfold State.goodFrame
  simp only
  rw [if_pos ⟨hframe, hv, hrequest⟩]
  unfold State.riseSelect
  simp only [hv, id, modPort_same]
  exact ⟨hedges, hrequest⟩

theorem exec_fetch (f : Fields) : exec (.fetch p f) s = .next (s.goodFrame p 0 f id) := by
  have hbody : (fun t : State => if Fn.fetch.permitted t.lnk[p].state then t
      else if Fn.fetch = .report then t.setSlot p ⟨.notUsed, 0⟩ else t.setSlot p ⟨.notLive, 0⟩) = id :=
    funext fun t => if_pos rfl
  change Host.Outcome.next (s.goodFrame p 0 f _) = _
  rw [hbody]

/-- A function that the port state forbids does nothing but answer (R192 lines 2 and 3). -/
theorem function_refuses {c : Instr} {fn : Fn} {f : Fields} {body : State → State}
    (hexec : exec c s = .next (s.function p fn f body)) (h : s.frameReady p = true)
    (hp : fn.permitted s.lnk[p].state = false) :
    AnswersOnly c s p ⟨if fn = .report then .notUsed else .notLive, 0⟩ := by
  obtain ⟨l, he, htook⟩ := function_refused s p fn f body h hp
  exact ⟨l, hexec.trans (congrArg _ he), htook⟩

/-- A frame whose code names no function does nothing but answer (R192 line 1). -/
theorem unknownFunction_answers {code : BitVec 4} (f : Fields) (h : s.frameReady p = true) (hc : 14 ≤ code.toNat) :
    AnswersOnly (.unknownFunction p code f) s p ⟨.unknownFunction, 0⟩ := by
  obtain ⟨l, he, htook⟩ := goodFrame_ready s p code f (fun s => s.setSlot p ⟨.unknownFunction, 0⟩) h
  obtain ⟨l', hs, htook'⟩ := htook.setSlot ⟨.unknownFunction, 0⟩
  exact ⟨l', congrArg Host.Outcome.next ((if_pos hc).trans (he.trans hs)), htook'⟩

theorem exec_controlBadSubfunction {f : Fields} (hi : f.index = 0 ∨ 8 < f.index.toNat) :
    exec (.controlBadSubfunction p f) s =
      .next (s.function p .control f fun s => s.setSlot p ⟨.badIndex, 0⟩) :=
  congrArg Host.Outcome.next (if_pos (hi.imp_left fun e => congrArg BitVec.toNat e))

end

/-- Settles O33: FETCH takes its frame and keeps the slot; the other frames are refused by the lines of R192 and R193.
-/
theorem fetchAndRefusalsAreAnswered : Obligations.FetchAndRefusalsAreAnswered := by
  intro s p f page v h
  have notLive (hl : s.lnk[p].state ≠ .live) : decide (s.lnk[p].state = .live) = false := decide_eq_false hl
  refine ⟨?_, fun code hc => unknownFunction_answers f h (by rcases hc with rfl | rfl <;> decide), fun hi => ?_,
    fun hu => function_refuses (fn := .report) rfl h ?_, fun hl c hc => ?_⟩
  · obtain ⟨l, he, htook⟩ := goodFrame_ready s p 0 f id h
    obtain ⟨hedges, hrequest⟩ := goodFrame_registers 0 f h
    rw [he] at hedges hrequest
    exact ⟨l, (exec_fetch f).trans (congrArg _ he), htook, hedges, hrequest⟩
  · by_cases hl : s.lnk[p].state = .live
    · rw [if_pos hl]
      exact function_answers (exec_controlBadSubfunction hi) h (decide_eq_true hl) fun _ => rfl
    · rw [if_neg hl]
      exact function_refuses (exec_controlBadSubfunction hi) h (notLive hl)
  · rw [hu]
    rfl
  · simp only [List.mem_cons, List.not_mem_nil, or_false] at hc
    rcases hc with rfl | rfl | rfl | rfl | rfl | hc
    · exact function_refuses (fn := .write) rfl h (notLive hl)
    · exact function_refuses (fn := .claim) rfl h (notLive hl)
    · exact function_refuses (fn := .yield) rfl h (notLive hl)
    · exact function_refuses (fn := .commit) rfl h (notLive hl)
    · exact function_refuses (fn := .release) rfl h (notLive hl)
    · rcases hc with rfl | rfl | rfl | rfl | rfl | rfl | rfl | rfl
      all_goals exact function_refuses (fn := .control) rfl h (notLive hl)

end Sys2Proof.Machine
end

section
/-! PROOFS. The timers of a port: what a dropped report, the end of a drill and a lapsed claim make of the unit when a
port leaves LIVE (R54, R164, R173, R195, R196); O53. -/

namespace Sys2Proof.Machine

/-! ### Beside the drill and the claim -/

/-- A state that differs from another in the drill, the claim, the alerts raised and the free values only (R164, R173,
R199): what it leaves as it was is all that TOP, the zones and the records act on. -/
structure PlantKept (s t : State) : Prop where
  board : s.SameBoard t
  alerts : AlertFrame s t
  zones : ∀ z : Zone, t.zev.zones[z] = { s.zev.zones[z] with drill := t.zev.zones[z].drill }
  trm : t.trm = s.trm
  lnk : t.lnk = s.lnk
  cfg : t.cfg = { s.cfg with claim := t.cfg.claim, staged := t.cfg.staged }
  tests : t.fsu.test.map (·.samplesLeft) = s.fsu.test.map (·.samplesLeft)

namespace PlantKept

theorem trans {s t u : State} (h : PlantKept s t) (g : PlantKept t u) : PlantKept s u where
  board := h.board.trans g.board
  alerts := h.alerts.trans g.alerts
  zones z := by rw [g.zones, h.zones]
  trm := g.trm.trans h.trm
  lnk := g.lnk.trans h.lnk
  cfg := by rw [g.cfg, h.cfg]
  tests := g.tests.trans h.tests

theorem of_raiseOn (s : State) (a : Alert) (on : Port → Bool) : PlantKept s (s.raiseOn a on) :=
  ⟨(raiseOn_zstep s a on).sameBoard, (raiseOn_zstep s a on).masks, fun _ => rfl, rfl, rfl, rfl, rfl⟩

theorem refl (s : State) : PlantKept s s :=
  ⟨(ZStep.refl s).sameBoard, (ZStep.refl s).masks, fun _ => rfl, rfl, rfl, rfl, rfl⟩

theorem of_draw (s : State) : PlantKept s s.draw.2 :=
  ⟨(draw_zstep s).sameBoard, (draw_zstep s).masks, fun _ => rfl, rfl, rfl, rfl, rfl⟩

theorem of_endDrill (s : State) (why : EndReason) : PlantKept s (s.endDrill why) := by
  obtain ⟨htrm, hcfg⟩ := endDrill_kept s why
  have hstep := endDrill_zstep s why
  refine ⟨hstep.sameBoard, hstep.masks, fun z => ?_, htrm, endDrill_lnk s why, by rw [hcfg], by rw [hstep.fsu]⟩
  rw [endDrill_zev]
  split
  · rw [drillEnded_zones]
  · rfl

theorem of_endOwnedDrill (s : State) (p : Port) : PlantKept s (s.endOwnedDrill p) := by
  unfold State.endOwnedDrill
  split
  · exact of_endDrill s _
  · exact refl s

end PlantKept

theorem claimLost_samplesLeft (f : Fsu) : f.claimLost.test.map (·.samplesLeft) = f.test.map (·.samplesLeft) := by
  unfold Fsu.claimLost
  rw [Option.map_map]
  rfl

/-- A released claim discards the staged edits, unless a pending commit has frozen them, and the captures lose it (R32,
R172). -/
theorem releaseClaim_eq (s : State) : s.releaseClaim = { s with
    cfg.claim := none
    cfg.staged := if s.cfg.pendingCommit then s.cfg.staged else s.cfg.active
    fsu := s.fsu.claimLost } := by
  unfold State.releaseClaim
  simp only [capturesLoseClaim_eq]
  cases s.cfg.pendingCommit <;> rfl

theorem PlantKept.of_lapseClaim (s : State) (p : Port) : PlantKept s (s.lapseClaim p) := by
  unfold State.lapseClaim
  split
  · rw [releaseClaim_eq]
    exact ⟨⟨rfl, rfl, rfl, rfl⟩, (ZStep.refl s).masks, fun _ => rfl, rfl, rfl, rfl, claimLost_samplesLeft s.fsu⟩
  · exact .refl s

/-! ### What a dropped report brings, beside the drill and the claim -/

section
variable {s s' t t' : State}

theorem PlantKept.dueAfter_iff (hs : PlantKept s s') (ht : PlantKept t t') : s'.DueAfter t' ↔ s.DueAfter t := by
  have samples (o : Option TestRun) : (∀ run ∈ o, run.samplesLeft = 40) ↔ ∀ n ∈ o.map (·.samplesLeft), n = 40 := by
    cases o <;> simp
  unfold State.DueAfter
  rw [samples, samples, ht.tests, ht.cfg, hs.cfg]

theorem PlantKept.views (h : PlantKept s t) (hv : ViewsInv s) : ViewsInv t := by
  obtain ⟨hzones, hrecords, htest⟩ := hv
  have hisNone (o : Option TestRun) : o.isNone = (o.map (·.samplesLeft)).isNone := by cases o <;> rfl
  have hlit : t.noZoneLit = s.noZoneLit := noZoneLit_congr fun z => by rw [h.zones]
  have hfiring : t.noRecordFiring = s.noRecordFiring := by
    unfold State.noRecordFiring
    rw [h.trm]
  unfold ViewsInv
  rw [hlit, hfiring, hisNone, h.tests, ← hisNone, h.cfg]
  exact ⟨hzones, hrecords, htest⟩

/-- The same view of the board, whatever TOP holds. -/
theorem PlantKept.withTop (h : PlantKept s s') (top : Top) :
    State.SameBoard { s with top := top } { s' with top := top } :=
  ⟨h.board.time, h.board.cp, rfl, h.board.active⟩

theorem PlantKept.closeInhibit (h : PlantKept s t) : t.closeInhibit = s.closeInhibit := by
  rw [closeInhibit_eq, closeInhibit_eq, h.trm]

theorem PlantKept.engine (h : PlantKept s t) : t.cfg.engine = s.cfg.engine := by rw [h.cfg]

theorem PlantKept.roomFor_iff (h : PlantKept s s') (zs : List Zone) : s'.RoomFor zs ↔ s.RoomFor zs := by
  unfold State.RoomFor
  rw [h.trm]

theorem PlantKept.asksForWord (hs : PlantKept s s') (ht : PlantKept t t') {once : Prop} (h : s'.AsksForWord t once) :
    s.AsksForWord t' once := by
  unfold State.AsksForWord at h ⊢
  rw [hs.closeInhibit, hs.trm, hs.engine] at h
  rw [ht.closeInhibit, ht.trm, ht.engine]
  exact h

/-- Decisions, told of states that differ from theirs beside the drill and the claim. -/
theorem PlantKept.decided (hs : PlantKept s s') (ht : PlantKept t t') {top : Top} {zs : List Zone}
    (h : State.Decided { s' with top := top } t zs) : State.Decided { s with top := top } t' zs := by
  have hboard := hs.withTop top
  obtain ⟨hzones, hlines, hword, hquiet⟩ := h
  refine ⟨fun z => ?_, fun z hz b hb => ?_, hs.asksForWord ht hword, fun hne => ?_⟩
  · rw [ht.zones, hzones]
    split
    · rw [hs.zones z, hs.board.time]
    · rw [hs.zones z]
  · have hact : s'.cfg.active = s.cfg.active := hs.board.active
    have := hlines z hz b (by simpa only [hboard.initialAnswer, hact] using hb)
    rw [ht.closeInhibit]
    unfold State.tripLine at this ⊢
    rw [ht.trm]
    exact this
  · obtain ⟨hrecords, hdue, halert⟩ := hquiet hne
    rw [ht.cfg]
    exact ⟨hrecords, hdue, fun p hp => ht.alerts.alerted (halert p (by rw [hboard.used]; exact hp))⟩

theorem PlantKept.trigger (h : PlantKept s t) (z : Zone) : t.zev.zones[z].trigger = s.zev.zones[z].trigger := by
  rw [h.zones]

theorem PlantKept.degraded (h : PlantKept s t) (z : Zone) : t.zev.zones[z].degraded = s.zev.zones[z].degraded := by
  rw [h.zones]

theorem PlantKept.arcsOpened (hs : PlantKept s s') {top : Top} {zs : List Zone} {c c' : Byte} {rs rs' : List TripRec}
    (h : State.ArcsOpened { s' with top := top } zs c rs c' rs') :
    State.ArcsOpened { s with top := top } zs c rs c' rs' :=
  arcsOpened_congr (fun z n => ((hs.withTop top).arcOf (hs.trigger z) (hs.degraded z) n).symm) h

end

/-- Records opened one run of decisions after another are those of both runs. -/
theorem arcsOpened_append {s : State} {before after : List Zone} {c c' c'' : Byte} {rs rs' rs'' : List TripRec}
    (hb : s.ArcsOpened before c rs c' rs') (ha : s.ArcsOpened after c' rs' c'' rs'') :
    s.ArcsOpened (before ++ after) c rs c'' rs'' := by
  induction before generalizing c rs with
  | nil =>
    obtain ⟨rfl, rfl⟩ := hb
    exact ha
  | cons z zs ih =>
    obtain ⟨n, hn, hrest⟩ := hb
    exact ⟨n, hn, ih hrest⟩

/-- What a port's report, dropped in `s`, makes of the unit but for the drill and the claim, where the zones `zs` decide
(R54, R60 to R62, R84, R114). -/
structure ReportDropped (s : State) (p : Port) (zs : List Zone) (t : State) : Prop where
  windows : ∀ o : Port, t.lnk[o].dropSelection = s.lnk[o].dropSelection
  bare : s.lnk[p].Windowless → t.lnk[p].Windowless
  ports : zs = [] ∨ s.trm.records.length + zs.length ≤ 12 → t.lnk = s.lnk
  reports : t.top.reports = s.top.reports.set p ReportRec.empty
  couplers : ∀ j : Coupler, t.top.couplers[j] =
    if adjacent p j = true ∧ t.resolvedNow j ≠ s.top.couplers[j].resolved then ⟨t.resolvedNow j, s.alr.time⟩
    else s.top.couplers[j]
  topology : (∃ j : Coupler, t.top.couplers[j].resolved = .disputed ∧ s.top.couplers[j].resolved ≠ .disputed) ∨
    t.top.islandName ≠ s.top.islandName → ∀ q, s.used q = true → t.alerted q .topology = true
  due : ViewsInv s → DueInv s → openedTargets s t ≠ [] → s.DueAfter t
  nodup : zs.Nodup
  decides : ∀ z, z ∈ zs ↔ s.zev.zones[z].state = .waiting ∧
    State.currentConfirms { s with top := t.top } z = true ∧
      ∃ j : Coupler, t.top.couplers[j].resolved ≠ s.top.couplers[j].resolved
  decided : State.Decided { s with top := t.top } t zs
  records : zs = [] ∨ s.RoomFor zs → State.ArcsOpened { s with top := t.top } zs s.trm.seqCounter
    (withEvidence s.trm.records (openedTargets s t) s.alr.time) t.trm.seqCounter t.trm.records

theorem ReportOutcome.dropped {s t : State} {p : Port} {before after : List Zone}
    (h : ReportOutcome s s.lnk p ReportRec.empty [] before after t) : ReportDropped s p (before ++ after) t where
  windows := h.windows
  bare := h.bare
  ports := h.ports
  reports := by
    rw [h.reports]
    unfold takenReport
    rw [takeUp_empty]
  couplers := h.couplers
  topology := h.topology
  due hv hd hne := h.due hv hd (by rwa [List.append_nil])
  nodup := h.nodup
  decides := h.decides
  decided := h.decided
  records hroom := by
    obtain ⟨c, rs, hbefore, hafter⟩ := h.records hroom
    rw [withEvidence_nil] at hafter
    exact arcsOpened_append hbefore hafter

/-- A dropped report is told of the states before and after, whatever happens to the drill and the claim around it. -/
theorem ReportDropped.around {s s' t t' : State} {p : Port} {zs : List Zone} (h : ReportDropped s' p zs t)
    (hs : PlantKept s s') (ht : PlantKept t t') : ReportDropped s p zs t' := by
  obtain ⟨htime, -, htop, hact⟩ := hs.board
  have htop' := ht.board.top
  have hopened : openedTargets s t' = openedTargets s' t := by
    unfold openedTargets
    rw [htop', htop]
  obtain ⟨hwin, hbare, hports, hrep, hcoup, htopo, hdue, hnodup, hdecides, hdecided, hrec⟩ := h
  refine ⟨fun o => ?_, fun hb => ?_, fun hr => ?_, ?_, fun j => ?_, fun hc q hq => ?_, fun hv hd hne => ?_, hnodup,
    fun z => ?_, ?_, fun hr => ?_⟩
  · rw [ht.lnk, hwin, hs.lnk]
  · rw [ht.lnk]
    exact hbare (by rwa [hs.lnk])
  · rw [ht.lnk, hports (by rwa [hs.trm]), hs.lnk]
  · rw [htop', hrep, htop]
  · rw [ht.board.resolvedNow, htop', hcoup, htop, htime]
  · exact ht.alerts.alerted (htopo (by rwa [htop, ← htop']) q (by rwa [hs.board.used]))
  · rw [hopened] at hne
    have hd' : DueInv s' := (hs.dueAfter_iff hs).2 hd
    have hdue' := (hs.dueAfter_iff (.refl t)).1 (hdue (hs.views hv) hd' hne)
    exact ((PlantKept.refl s).dueAfter_iff ht).2 hdue'
  · rw [hdecides, hs.zones, (hs.withTop t.top).currentConfirms, htop, htop']
  · rw [htop']
    exact hs.decided ht hdecided
  · rw [htop', hopened, ht.trm]
    refine hs.arcsOpened ?_
    rw [← hs.trm, ← htime]
    exact hrec (by rwa [hs.roomFor_iff])

/-! ### The drill of a port that leaves LIVE -/

/-- The drill after port `p` has left LIVE and the zones `zs` have decided: a drill that the port owns ends with
OWNER_LOST, or with DECISION where its zone decides (R164, R196, log 14). -/
def State.DrillLeft (s t : State) (p : Port) (zs : List Zone) : Prop :=
  let owned := s.zev.drill.active = true ∧ s.zev.drill.owner = some p
  (¬ owned → s.DrillDecided t zs) ∧
  (owned → (t.zev.drill = s.zev.drill.ended .ownerLost ∨
      (t.zev.drill = s.zev.drill.ended .decision ∧ ∃ z ∈ zs, s.zev.zones[z].drill = true)) ∧
    (∀ q, s.used q = true → t.alerted q .drill = true) ∧
    ∀ z : Zone, t.zev.zones[z].drill = (s.zev.zones[z].drill && decide (s.zev.drill.zone ≠ some z)))

section
variable {s t t' : State} {p : Port} {zs : List Zone}

theorem drillDecided_later (h : s.DrillDecided t zs) (hz : t'.zev = t.zev) (ha : AlertFrame t t') :
    s.DrillDecided t' zs := by
  unfold State.DrillDecided at h ⊢
  rw [hz]
  exact ⟨fun he => ⟨(h.1 he).1, fun q hq => ha.alerted ((h.1 he).2.1 q hq), (h.1 he).2.2⟩, h.2⟩

theorem State.DrillLeft.later (h : s.DrillLeft t p zs) (hz : t'.zev = t.zev) (ha : AlertFrame t t') :
    s.DrillLeft t' p zs := by
  obtain ⟨hother, howned⟩ := h
  refine ⟨fun ho => drillDecided_later (hother ho) hz ha, fun ho => ?_⟩
  obtain ⟨hreg, halert, hflags⟩ := howned ho
  rw [hz]
  exact ⟨hreg, fun q hq => ha.alerted (halert q hq), hflags⟩

theorem endOwnedDrill_owned (h : s.zev.drill.active = true ∧ s.zev.drill.owner = some p) :
    s.endOwnedDrill p = s.endDrill .ownerLost := by
  unfold State.endOwnedDrill
  rw [h.1, decide_eq_true h.2]
  rfl

theorem endOwnedDrill_other (h : ¬ (s.zev.drill.active = true ∧ s.zev.drill.owner = some p)) :
    s.endOwnedDrill p = s := by
  unfold State.endOwnedDrill
  rw [← Bool.decide_eq_true (b := s.zev.drill.active), ← Bool.decide_and, decide_eq_false h]
  rfl

/-- The end with OWNER_LOST of a drill that its port owns (R164). -/
theorem endOwnedDrill_ends (h : s.zev.drill.active = true ∧ s.zev.drill.owner = some p) :
    (s.endOwnedDrill p).zev.drill = s.zev.drill.ended .ownerLost ∧
      (∀ q, s.used q = true → (s.endOwnedDrill p).alerted q .drill = true) ∧
      ∀ z : Zone, (s.endOwnedDrill p).zev.zones[z].drill =
        (s.zev.zones[z].drill && decide (s.zev.drill.zone ≠ some z)) := by
  rw [endOwnedDrill_owned h, endDrill_zev, if_pos h.1]
  exact ⟨rfl, fun q hq => endDrill_alerted .ownerLost h.1 hq, fun z => by rw [drillEnded_zones]⟩

/-- The end of the drill taken before the decisions: none of them ends it. -/
theorem drillLeft_of_drillFirst (h : (s.endOwnedDrill p).DrillDecided t zs) (ha : AlertFrame (s.endOwnedDrill p) t) :
    s.DrillLeft t p zs := by
  refine ⟨fun ho => by rwa [endOwnedDrill_other ho] at h, fun ho => ?_⟩
  obtain ⟨hreg, halert, hflags⟩ := endOwnedDrill_ends ho
  obtain ⟨hdrill, hzones⟩ := h.2 fun he => by
    rw [hreg] at he
    exact absurd he.1 Bool.false_ne_true
  exact ⟨.inl (hdrill.trans hreg), fun q hq => ha.alerted (halert q hq), fun z => (hzones z).trans (hflags z)⟩

/-- The decisions taken before the end of the drill: a drill that one of them has ended is not there to end. -/
theorem drillLeft_of_reportFirst (h : s.DrillDecided t zs) (hu : t.used = s.used) :
    s.DrillLeft (t.endOwnedDrill p) p zs := by
  by_cases he : s.zev.drill.active = true ∧ ∃ z ∈ zs, s.zev.zones[z].drill = true
  · have hended := h.1 he
    have hsame : t.endOwnedDrill p = t := endOwnedDrill_other fun ho => by
      rw [hended.1] at ho
      exact absurd ho.1 Bool.false_ne_true
    rw [hsame]
    exact ⟨fun _ => h, fun _ => ⟨.inr ⟨hended.1, he.2⟩, hended.2⟩⟩
  · obtain ⟨hdrill, hzones⟩ := h.2 he
    refine ⟨fun ho => ?_, fun ho => ?_⟩
    · rwa [endOwnedDrill_other (by rwa [hdrill])]
    · obtain ⟨hreg, halert, hflags⟩ := endOwnedDrill_ends (s := t) (p := p) (by rwa [hdrill])
      rw [hdrill] at hreg hflags
      exact ⟨.inl hreg, fun q hq => halert q (by rwa [hu]), fun z => by rw [hflags, hzones]⟩

end

/-! ### The board when a port leaves LIVE -/

/-- What leaving LIVE makes of the unit before the claim lapses, where the zones `zs` decide (R54, R164). -/
structure BoardLeft (s : State) (p : Port) (zs : List Zone) (t : State) : Prop where
  dropped : ReportDropped s p zs t
  drill : s.DrillLeft t p zs
  fsu : t.fsu = s.fsu
  fixed : t.cfg.fixed = s.cfg.fixed

theorem dropReport_eq_takeReport (s : State) (p : Port) : s.dropReport p = s.takeReport p ReportRec.empty := by
  have h : takenReport s.cfg.active p ReportRec.empty = ReportRec.empty := takeUp_empty _ _ _
  unfold State.takeReport
  simp only [h]
  rfl

theorem dropReport_zstep (s : State) (p : Port) :
    ZStep { s with top := ((s.setReport p ReportRec.empty).topResolve (adjacent p)).top } (s.dropReport p) :=
  (topResolve_spec (s.setReport p ReportRec.empty) (adjacent p)).1.trans (topHandOff_zstep _ _)

theorem dropReport_outcome (s : State) (p : Port) :
    ∃ zs, ReportDropped s p zs (s.dropReport p) ∧ s.DrillDecided (s.dropReport p) zs := by
  obtain ⟨before, after, h⟩ := takeReport_outcome s s.lnk p ReportRec.empty
  rw [dropReport_eq_takeReport]
  exact ⟨before ++ after, h.dropped, h.drill⟩

theorem boardLeft_drillFirst (s : State) (p : Port) : ∃ zs, BoardLeft s p zs ((s.endOwnedDrill p).dropReport p) := by
  obtain ⟨zs, hdropped, hdrill⟩ := dropReport_outcome (s.endOwnedDrill p) p
  have hend := endOwnedDrill_zstep s p
  have hdrop := dropReport_zstep (s.endOwnedDrill p) p
  exact ⟨zs, hdropped.around (.of_endOwnedDrill s p) (.refl _), drillLeft_of_drillFirst hdrill hdrop.masks,
    hdrop.fsu.trans hend.fsu, hdrop.cfg.trans hend.cfg⟩

theorem boardLeft_reportFirst (s : State) (p : Port) : ∃ zs, BoardLeft s p zs ((s.dropReport p).endOwnedDrill p) := by
  obtain ⟨zs, hdropped, hdrill⟩ := dropReport_outcome s p
  have hend := endOwnedDrill_zstep (s.dropReport p) p
  have hdrop := dropReport_zstep s p
  exact ⟨zs, hdropped.around (.refl s) (.of_endOwnedDrill _ p), drillLeft_of_reportFirst hdrill hdrop.sameBoard.used,
    hend.fsu.trans hdrop.fsu, hend.cfg.trans hdrop.cfg⟩

/-- The draw that decides which end of a drill is taken first is not part of what the board shows. -/
theorem BoardLeft.of_draw {s t : State} {p : Port} {zs : List Zone} (h : BoardLeft s.draw.2 p zs t) :
    BoardLeft s p zs t :=
  ⟨h.dropped.around (.of_draw s) (.refl t), h.drill, h.fsu, h.fixed⟩

/-- Leaving LIVE: the board in either order (log 14), then the claim, then PEER_STALE. -/
theorem leaveLive_boardLeft (s : State) (p : Port) : ∃ zs t, BoardLeft (s.modPort p PortRec.toStale) p zs t ∧
    s.leaveLive p = (t.lapseClaim p).raiseOthers .peerStale p := by
  unfold State.leaveLive
  simp only
  split
  · split
    · obtain ⟨zs, h⟩ := boardLeft_drillFirst (s.modPort p PortRec.toStale).draw.2 p
      exact ⟨zs, _, h.of_draw, rfl⟩
    · obtain ⟨zs, h⟩ := boardLeft_reportFirst (s.modPort p PortRec.toStale).draw.2 p
      exact ⟨zs, _, h.of_draw, rfl⟩
  · obtain ⟨zs, h⟩ := boardLeft_reportFirst (s.modPort p PortRec.toStale) p
    exact ⟨zs, _, h, rfl⟩

/-- The claim after a port has left LIVE (R32, R172, R173). -/
theorem lapseClaim_fields (s : State) (p : Port) :
    (s.cfg.claim = some p → (s.lapseClaim p).cfg.claim = none ∧ (s.lapseClaim p).fsu = s.fsu.claimLost ∧
      (s.lapseClaim p).cfg.staged = if s.cfg.pendingCommit then s.cfg.staged else s.cfg.active) ∧
    (s.cfg.claim ≠ some p → s.lapseClaim p = s) := by
  unfold State.lapseClaim
  refine ⟨fun h => ?_, fun h => if_neg h⟩
  rw [if_pos h, releaseClaim_eq]
  exact ⟨rfl, rfl, rfl⟩

/-- What leaving LIVE makes of the unit, told of the state whose port is STALE already. -/
theorem leaveLive_left (s : State) (p : Port) : ∃ zs, let x := s.modPort p PortRec.toStale
    let t := s.leaveLive p
    ReportDropped x p zs t ∧ x.DrillLeft t p zs ∧
      (s.cfg.claim = some p → t.cfg.claim = none ∧ t.fsu = s.fsu.claimLost ∧
        t.cfg.staged = if s.cfg.pendingCommit then s.cfg.staged else s.cfg.active) ∧
      (s.cfg.claim ≠ some p → t.cfg.claim = s.cfg.claim ∧ t.fsu = s.fsu ∧ t.cfg.staged = s.cfg.staged) ∧
      ∀ q, s.used q = true → q ≠ p → t.alerted q .peerStale = true := by
  obtain ⟨zs, y, ⟨hdropped, hdrill, hfsu, hfixed⟩, he⟩ := leaveLive_boardLeft s p
  obtain ⟨hlapse, hkept⟩ := lapseClaim_fields y p
  have hplant : PlantKept y ((y.lapseClaim p).raiseOthers .peerStale p) :=
    (PlantKept.of_lapseClaim y p).trans (.of_raiseOn _ _ _)
  have hcfg := cfg_of_fixed hfixed
  have hclaim : y.cfg.claim = s.cfg.claim := by rw [hcfg]; rfl
  have hstaged : y.cfg.staged = s.cfg.staged := by rw [hcfg]; rfl
  have hpending : y.cfg.pendingCommit = s.cfg.pendingCommit := by rw [hcfg]; rfl
  have hactive : y.cfg.active = s.cfg.active := by rw [hcfg]; rfl
  have hfsu' : y.fsu = s.fsu := hfsu
  rw [hclaim, hfsu', hpending, hstaged, hactive] at hlapse
  rw [he]
  refine ⟨zs, hdropped.around (.refl _) hplant, hdrill.later (lapseClaim_zev y p) hplant.alerts, hlapse, fun hne => ?_,
    fun q hq hne => raiseOthers_alerted hne ?_⟩
  · rw [hkept (by rwa [hclaim])]
    exact ⟨hclaim, hfsu', hstaged⟩
  · rw [(PlantKept.of_lapseClaim y p).board.used]
    unfold State.used
    rw [hactive]
    exact hq

/-! ### The two timers (R195, R196) -/

theorem exec_silentTimerExpiry {s : State} {p : Port} (hstate : s.lnk[p].state = .silent)
    (htimer : s.lnk[p].silentTimer.isRunning = true) :
    exec (.silentTimerExpiry p) s = .next ((s.modPort p PortRec.toStale).raiseOthers .peerStale p) := by
  refine congrArg Host.Outcome.next (if_pos ?_)
  rw [htimer, decide_eq_true hstate]
  rfl

theorem exec_heartbeatExpiry {s : State} {p : Port} (hstate : s.lnk[p].state = .live)
    (htimer : s.lnk[p].heartbeat.isRunning = true) : exec (.heartbeatExpiry p) s = .next (s.leaveLive p) := by
  refine congrArg Host.Outcome.next (if_pos ?_)
  rw [htimer, decide_eq_true hstate]
  rfl

/-- Settles O53: a SILENT port becomes STALE and no more; a LIVE port takes its report, its drill and its claim with
it. -/
theorem portTimersExpire : Obligations.PortTimersExpire := by
  intro s p
  refine ⟨fun hstate htimer => ⟨_, exec_silentTimerExpiry hstate htimer, fun q => ofFn_get _ q⟩,
    fun hstate htimer => ?_⟩
  obtain ⟨zs, hdropped, hdrill, hlapse, hkept, hstale⟩ := leaveLive_left s p
  have hmine : (s.modPort p PortRec.toStale).lnk[p] = s.lnk[p].toStale := modAt_same _ _ _
  have hothers (q : Port) (hq : q ≠ p) : (s.modPort p PortRec.toStale).lnk[q] = s.lnk[q] := modAt_other _ _ hq
  have hbare : (s.modPort p PortRec.toStale).lnk[p].Windowless := by
    rw [hmine]
    exact ⟨rfl, rfl⟩
  have hset (q : Port) : (s.leaveLive p).top.reports[q] = if q = p then ReportRec.empty else s.top.reports[q] := by
    rw [hdropped.reports]
    exact set_get _ _ _ _
  refine ⟨_, exec_heartbeatExpiry hstate htimer, ?_, (hset p).trans (if_pos rfl),
    fun q hq => ⟨(hset q).trans (if_neg hq), ?_⟩, hdropped.couplers, hdropped.topology, hlapse, hkept, hstale, zs,
    hdropped.nodup, hdropped.decides, hdropped.decided, hdropped.due, fun hroom q hq => ?_, fun hroom => arcsOpened_congr ?_ (hdropped.records hroom), hdrill⟩
  · exact (port_of_windowless (hdropped.windows p) (hdropped.bare hbare) hbare).trans hmine
  · rw [← hothers q hq]
    exact port_of_dropSelection (hdropped.windows q)
  · rw [hdropped.ports hroom, hothers q hq]
  · exact fun _ _ => rfl

end Sys2Proof.Machine
end
